-- ==== Sys2Proof/Word.lean ====
section
/-! DEFINITION. The word types of the machine and the sparse map that its state is held in. -/

namespace Sys2Proof

/-- A 64-bit register value (R108). -/
abbrev Word := BitVec 64

/-- One byte of memory or local store (R4). -/
abbrev Byte := BitVec 8

/-- A 128-byte line as one number: byte `i` of the line is bits `8i+7 : 8i` (R4). -/
abbrev Line := BitVec 1024

/-- A number read as a 64-bit word, modulo 2^64 (R108). -/
abbrev word (n : Nat) : Word := BitVec.ofNat 64 n

/-- A sparse map from numbers: pairs with strictly rising keys, none holding what an unlisted key reads as. -/
abbrev Map (α : Type) := List (Nat × α)

/-- `SignExtend(x, w)` of R7, as a 64-bit word. -/
abbrev sext (x : BitVec n) : Word := x.signExtend 64

/-- A natural reading, as a 64-bit word. -/
abbrev zext (x : BitVec n) : Word := x.setWidth 64

end Sys2Proof
end

