-- ==== Sys2Proof/Syntax.lean ====
section
/-! DEFINITION. The instructions and events of the opcode table, one constructor per row, with decoded operands. -/

namespace Sys2Proof

/-- A register field (R28): 0 to 15 name g0 to g15, 16 to 31 name c0 to c15. -/
abbrev Reg := BitVec 5

/-- A shape-slot field s0 to s15 (R28); the encodings 16 to 31 are refused by the decoder. -/
abbrev Slot := BitVec 4

/-- An accumulator or latch field, 0 or 1 (R28). -/
abbrev Unit2 := BitVec 1

/-- The second operand of majors 0x10 to 0x26 (R30). -/
inductive Opnd where
  | reg (b : Reg)
  | i20 (x : BitVec 20)
  | i32 (x : BitVec 32)
  | i64 (x : BitVec 64)
  deriving DecidableEq, Repr

/-- The operand of LI: the three lengths of R30. -/
inductive Imm where
  | i20 (x : BitVec 20)
  | i32 (x : BitVec 32)
  | i64 (x : BitVec 64)
  deriving DecidableEq, Repr

/-- A 20-bit operand of the 8-byte form, or a 32-bit operand of the 12-byte form (LA, J, CALL; R30, R33). -/
inductive Off where
  | s20 (x : BitVec 20)
  | s32 (x : BitVec 32)
  deriving DecidableEq, Repr

/-- The comparand of a compare-and-branch (R33): register B, or the 12-byte form's W2. -/
inductive Cmp where
  | reg (b : Reg)
  | i32 (x : BitVec 32)
  deriving DecidableEq, Repr

/-- The address forms of majors 0x40 to 0x45 (R32). -/
inductive AForm where
  | d20 (x : BitVec 20)
  | d32 (x : BitVec 32)
  | idx (b : Reg) (s : BitVec 2)
  deriving DecidableEq, Repr

/-- The operand n of ALT.TAKE and ALT.GIVE: natural in every form. -/
inductive AltN where
  | reg (b : Reg)
  | i20 (x : BitVec 20)
  | i32 (x : BitVec 32)
  deriving DecidableEq, Repr

/-- The count of VREP or the value of V.BCAST: register A, or the 12-byte form's W2. -/
inductive RegOrW2 where
  | reg (a : Reg)
  | i32 (x : BitVec 32)
  deriving DecidableEq, Repr

/-- The comparand of WAITA: register B or X20 (R100). -/
inductive WaitCmp where
  | reg (b : Reg)
  | i20 (x : BitVec 20)
  deriving DecidableEq, Repr

/-- Access sizes of SZ (R32). -/
inductive Size where
  | b | h | w | d
  deriving DecidableEq, Repr

/-- Orderings of LD (R32). -/
inductive LdOrd where
  | plain | acq | strm
  deriving DecidableEq, Repr

/-- Orderings of ST (R32). -/
inductive StOrd where
  | plain | rel | strm
  deriving DecidableEq, Repr

/-- Orderings of AMO and AMOX (R158, R293). -/
inductive AtOrd where
  | plain | acq | rel | ar
  deriving DecidableEq, Repr

/-- The scopes of FENCE and of copy flags (R216, R298). -/
inductive Scope where
  | dev | core | sys
  deriving DecidableEq, Repr

/-- Rounding modes (R75). -/
inductive Rm where
  | rne | rtz | rdn | rup
  deriving DecidableEq, Repr

/-- Activation formats of MM.RUN (R185). -/
inductive MmFmt where
  | bf16 | e4m3 | e5m2 | e2m1 | i8
  deriving DecidableEq, Repr

/-- Modes of MM.DRAIN (R187): own store, remote core, remote core with a wake. -/
inductive DrainTo where
  | own
  | remote (c : Reg)
  | wake (b c : Reg)
  deriving DecidableEq, Repr

/-- The source of a vector shift amount (R160): slot B, or X20[5:0]. -/
inductive VShift where
  | slot (b : Slot)
  | imm (x : BitVec 6)
  deriving DecidableEq, Repr

/-- The fields of a copy command as its words hold them (R216). -/
structure CpArgs where
  /-- W0 field D: flag address register. -/
  d : Reg
  /-- W0 field A: source register. -/
  a : Reg
  /-- W0 field B: destination register. -/
  b : Reg
  /-- W1 field C: length register. -/
  c : Reg
  scope : Scope
  sat : Bool
  rm : Rm
  flag : Bool
  conv : Bool
  srct : BitVec 5
  dstt : BitVec 5
  scale : BitVec 8
  /-- The flag value W3 × 2^32 + W2. -/
  value : Word
  deriving DecidableEq, Repr

/-- Domains of the Deed Roll (R317, R326). -/
inductive Domain where
  | free | host | acc | stew
  deriving DecidableEq, Repr

/-- The causes a fetch can meet before decode (R34, steps 1, 2 and 4), with the ALIGN of a CODE that is not aligned (R197)
and the MCHK of a lost die (R248). -/
inductive FetchCause where
  | transf | deed | straddle | align | mchk
  deriving DecidableEq, Repr

/-- The queues whose freed entries are reserved for stalled threads (R96, R215). -/
inductive QueueKind where
  | seq | mill | copy
  deriving DecidableEq, Repr

/-- The two die links of a die (R246). -/
inductive LinkId where
  | h | v
  deriving DecidableEq, Repr

/-- What a completion from outside reports (R291, R342): done with data, refused, poisoned, or an error. -/
inductive ComplStat where
  | ok | refused | poisoned
  deriving DecidableEq, Repr

/-- The commands of the SPDM responder that name a key set (R352, R353). -/
structure StreamKey where
  /-- Port 0 is the host port, 1 to 4 the scale-up links of the die. -/
  port : Nat
  stream : Nat
  rx : Bool
  keySet : Bool
  deriving DecidableEq, Repr

/-- Operations of remote local arrivals and of atomics (R158, R293). -/
inductive AtFn where
  | add | and | or | xor | min | max | minn | maxn | swap | cas | fadd | faddBf16
  deriving DecidableEq, Repr

/-- One constructor per row of the opcode table: rows PAD to MM_STAT are instructions, the rest are events of the
hardware and of its outside. An event that names a message carries the message's identifier; an event that brings
something in from outside carries it as data. -/
inductive Instr where
  -- control
  | pad
  | nop
  | brk (imm : BitVec 20)
  | trap (imm : BitVec 20)
  | rtt
  | srr (d : Reg) (num : BitVec 12)
  | srw (a : Reg) (num : BitVec 12)
  | ctxSave (a : Reg) (disp : BitVec 20) (g : Bool)
  | ctxLoad (a : Reg) (disp : BitVec 20) (g : Bool)
  | rdcyc (d : Reg)
  | rdref (d : Reg)
  | tmrSet (d a : Reg)
  -- Deed Roll
  | deedOffer (d a : Reg)
  | deedAccept (d a : Reg)
  | deedLend (d a : Reg) (k : BitVec 3)
  | deedRecall (d a : Reg)
  | deedReturn (d a : Reg)
  | deedQuery (d a : Reg)
  -- steward crypto
  | sealHash (d a b : Reg) (st : BitVec 2)
  | sealDigest (d c : Reg) (st : BitVec 2)
  | sealSign (d a c : Reg) (k : BitVec 5)
  | sealVerify (d a b c : Reg)
  | sealEcdh (d a : Reg) (k m : BitVec 5)
  | sealKeyload (d a : Reg) (k : BitVec 5)
  | sealRand (d : Reg)
  | sealExtend (d a : Reg) (i : BitVec 3)
  | sealWipe (d a : Reg) (l : Bool)
  -- two-operand arithmetic and logic
  | add (d a : Reg) (y : Opnd) (w : Bool)
  | sub (d a : Reg) (y : Opnd) (w : Bool)
  | mul (d a : Reg) (y : Opnd) (w : Bool)
  | mulh (d a : Reg) (y : Opnd) (w : Bool)
  | mulhn (d a : Reg) (y : Opnd) (w : Bool)
  | div (d a : Reg) (y : Opnd) (w : Bool)
  | divn (d a : Reg) (y : Opnd) (w : Bool)
  | rem (d a : Reg) (y : Opnd) (w : Bool)
  | remn (d a : Reg) (y : Opnd) (w : Bool)
  | and (d a : Reg) (y : Opnd) (w : Bool)
  | or (d a : Reg) (y : Opnd) (w : Bool)
  | xor (d a : Reg) (y : Opnd) (w : Bool)
  | andn (d a : Reg) (y : Opnd) (w : Bool)
  | shl (d a : Reg) (y : Opnd) (w : Bool)
  | shr (d a : Reg) (y : Opnd) (w : Bool)
  | sha (d a : Reg) (y : Opnd) (w : Bool)
  | rol (d a : Reg) (y : Opnd) (w : Bool)
  | ror (d a : Reg) (y : Opnd) (w : Bool)
  | min (d a : Reg) (y : Opnd) (w : Bool)
  | max (d a : Reg) (y : Opnd) (w : Bool)
  | minn (d a : Reg) (y : Opnd) (w : Bool)
  | maxn (d a : Reg) (y : Opnd) (w : Bool)
  | setEq (d a : Reg) (y : Opnd) (w : Bool)
  | setNe (d a : Reg) (y : Opnd) (w : Bool)
  | setLt (d a : Reg) (y : Opnd) (w : Bool)
  | setGe (d a : Reg) (y : Opnd) (w : Bool)
  | setLtn (d a : Reg) (y : Opnd) (w : Bool)
  | setGen (d a : Reg) (y : Opnd) (w : Bool)
  -- bit counts and fields; `len1` is len − 1 (R127)
  | clz (d a : Reg) (w : Bool)
  | ctz (d a : Reg) (w : Bool)
  | popc (d a : Reg) (w : Bool)
  | ext (d a : Reg) (pos len1 : BitVec 6) (w : Bool)
  | extn (d a : Reg) (pos len1 : BitVec 6) (w : Bool)
  | ins (d a : Reg) (pos len1 : BitVec 6) (w : Bool)
  | li (d : Reg) (x : Imm)
  | la (d : Reg) (x : Off)
  -- branches and jumps
  | beq (a : Reg) (y : Cmp) (off : BitVec 20)
  | bne (a : Reg) (y : Cmp) (off : BitVec 20)
  | blt (a : Reg) (y : Cmp) (off : BitVec 20)
  | bge (a : Reg) (y : Cmp) (off : BitVec 20)
  | bltn (a : Reg) (y : Cmp) (off : BitVec 20)
  | bgen (a : Reg) (y : Cmp) (off : BitVec 20)
  | bz (a : Reg) (off : BitVec 20)
  | bnz (a : Reg) (off : BitVec 20)
  | j (off : Off)
  | call (d : Reg) (off : Off)
  | jr (a : Reg) (disp : BitVec 20)
  | callr (d a : Reg) (disp : BitVec 20)
  -- memory
  | ld (d a : Reg) (f : AForm) (sz : Size) (z : Bool) (ord : LdOrd)
  | st (a : Reg) (f : AForm) (c : Reg) (sz : Size) (ord : StOrd)
  | push (a : Reg) (f : AForm) (c d : Reg) (sz : Size)
  | pushl (a : Reg) (f : AForm) (d : Reg)
  -- local store
  | ldl (d a : Reg) (f : AForm) (sz : Size) (z : Bool)
  | stl (a : Reg) (f : AForm) (c : Reg) (sz : Size)
  | ldx (d a b : Reg) (disp : BitVec 20) (sz : Size) (z : Bool)
  | stx (a b c : Reg) (disp : BitVec 20) (sz : Size)
  -- remote local atomics; `dw` is size .d
  | amoxAdd (d a b c : Reg) (ord : AtOrd) (dw : Bool)
  | amoxAnd (d a b c : Reg) (ord : AtOrd) (dw : Bool)
  | amoxOr (d a b c : Reg) (ord : AtOrd) (dw : Bool)
  | amoxXor (d a b c : Reg) (ord : AtOrd) (dw : Bool)
  | amoxMin (d a b c : Reg) (ord : AtOrd) (dw : Bool)
  | amoxMax (d a b c : Reg) (ord : AtOrd) (dw : Bool)
  | amoxMinn (d a b c : Reg) (ord : AtOrd) (dw : Bool)
  | amoxMaxn (d a b c : Reg) (ord : AtOrd) (dw : Bool)
  | amoxSwap (d a b c : Reg) (ord : AtOrd) (dw : Bool)
  | amoxCas (d a b c cmp : Reg) (ord : AtOrd) (dw : Bool)
  | amoxFadd (d a b c : Reg) (ord : AtOrd)
  | amoxFaddBf16 (d a b c : Reg) (ord : AtOrd)
  -- atomics
  | amoAdd (d a c : Reg) (ord : AtOrd) (dw : Bool)
  | amoAnd (d a c : Reg) (ord : AtOrd) (dw : Bool)
  | amoOr (d a c : Reg) (ord : AtOrd) (dw : Bool)
  | amoXor (d a c : Reg) (ord : AtOrd) (dw : Bool)
  | amoMin (d a c : Reg) (ord : AtOrd) (dw : Bool)
  | amoMax (d a c : Reg) (ord : AtOrd) (dw : Bool)
  | amoMinn (d a c : Reg) (ord : AtOrd) (dw : Bool)
  | amoMaxn (d a c : Reg) (ord : AtOrd) (dw : Bool)
  | amoSwap (d a c : Reg) (ord : AtOrd) (dw : Bool)
  | amoCas (d a c cmp : Reg) (ord : AtOrd) (dw : Bool)
  | amoFadd (d a c : Reg) (ord : AtOrd)
  | amoFaddBf16 (d a c : Reg) (ord : AtOrd)
  | lr (d a : Reg) (acq dw : Bool)
  | sc (d a c : Reg) (rel dw : Bool)
  | waitrs (d : Reg)
  | fence (scope : Scope) (pred succ : BitVec 6)
  | waita (d a : Reg) (y : WaitCmp) (w : Bool)
  -- line operations and regions
  | clPref (a : Reg) (disp : Off) (s : Bool)
  | clFlush (a : Reg) (disp : Off)
  | clInv (a : Reg) (disp : Off) (i : Bool)
  | clZero (a : Reg) (disp : Off)
  | rgnDefine (d a b : Reg)
  | rgnToSw (d a b : Reg)
  | rgnFlush (d a b : Reg)
  | rgnToCoherent (d a b : Reg)
  -- allotments
  | altOpen (a : Reg)
  | altTake (d a : Reg) (n : AltN)
  | altGive (d a : Reg) (n : AltN)
  | altRead (d a : Reg)
  | altClose (d a : Reg)
  -- tasks
  | taskPush (d a b : Reg)
  | sheaf (d a b : Reg)
  | join (a : Reg)
  | trig
  | retire
  | yield
  | spawn (d a b c : Reg) (wait : Bool)
  | send (d a b : Reg)
  | bind (d a b : Reg)
  | unbind (d a : Reg)
  | wake (d a b : Reg)
  | sleep (d : Reg)
  -- copies
  | cpG2l (x : CpArgs)
  | cpL2g (x : CpArgs)
  | cpL2l (x : CpArgs)
  | cpG2g (x : CpArgs)
  | cpWait (d : Reg)
  -- vector
  | vSets (d : Slot) (a : Reg) (disp : BitVec 20)
  | vSetsBase (d : Slot) (b : Reg)
  | vGets (d : Slot) (a : Reg) (disp : BitVec 20)
  | vAdd (d a b : Slot)
  | vSub (d a b : Slot)
  | vMul (d a b : Slot)
  | vFma (d a b c : Slot)
  | vMin (d a b : Slot)
  | vMax (d a b : Slot)
  | vAbs (d a : Slot)
  | vNeg (d a : Slot)
  | vAnd (d a b : Slot)
  | vOr (d a b : Slot)
  | vXor (d a b : Slot)
  | vShl (d a : Slot) (s : VShift)
  | vShr (d a : Slot) (s : VShift)
  | vCmpEq (d a b : Slot)
  | vCmpNe (d a b : Slot)
  | vCmpLt (d a b : Slot)
  | vCmpGe (d a b : Slot)
  | vSel (d a b c : Slot)
  | vCvt (d a : Slot) (rm : Rm) (sat : Bool)
  | vRsum (d a : Slot) (dim : BitVec 2)
  | vRmax (d a : Slot) (dim : BitVec 2)
  | vRmin (d a : Slot) (dim : BitVec 2)
  | vExp2 (d a : Slot)
  | vRcp (d a : Slot)
  | vRsqrt (d a : Slot)
  | vBcast (d : Slot) (x : RegOrW2)
  | vQmax (d a : Slot) (b : Reg) (tag : BitVec 4)
  | vQcvt (d a b : Slot) (rm : Rm) (sat : Bool)
  | vrep (n : RegOrW2) (k1 sd sa sb sc : BitVec 4)
  | vwait
  | vMov (d a : Slot)
  -- Mill
  | mmLoadw (d : Unit2) (a : Slot)
  | mmGather (d a : Slot)
  | mmRun (d a : Unit2) (b : Slot) (fmt : MmFmt)
  | mmAccz (d : Unit2)
  | mmDrain (d : Unit2) (a : Slot) (dest : DrainTo)
  | mmWait (d : Option Unit2)
  | mmClaim (d : Reg) (l : Unit2)
  | mmRelease (d : Reg) (l : Unit2)
  | mmSetWeight (d a : Reg)
  | mmStat (d : Reg)
  -- events: issue, traps and engines
  | threadReady (n : Nat)
  | asyncTrapTake (n : Nat)
  | timer (n : Nat)
  | coreGate (c : Nat)
  | coreUngate (c : Nat)
  | queueEntryFreed (c : Nat) (q : QueueKind)
  | porterExecute (c : Nat) (err late : Bool)
  | seqEntryComplete (id : Nat) (err : Option Nat)
  | qmaxDelivery (id : Nat)
  | millRunGrant (t : Nat)
  | millRunComplete (id : Nat)
  | millLoadwExec (id : Nat) (err : Option Nat)
  | millGatherExec (id : Nat) (err : Option Nat)
  | millAcczExec (id : Nat)
  | millDrainExec (id : Nat) (err : Option Nat)
  | millDrainWake (id : Nat)
  -- events: lines and homes
  | storeAck (id : Nat)
  | homeStore (id : Nat)
  | homeFill (id : Nat) (evict : Option Nat) (err : Bool)
  | homeAtomic (id : Nat) (err late : Bool)
  | homePush (id : Nat)
  | l1Update (id : Nat)
  | l1PushOffer (id : Nat)
  | l1Invalidation (id : Nat)
  | l1DiscoveryProbe (id : Nat)
  | agentRead (agent pa : Nat)
  | agentWrite (agent pa size : Nat) (value : Line)
  | agentInvalidation (id : Nat)
  | waitaWake (n : Nat)
  | waitaReread (n : Nat)
  | migrationDepart (n : Nat)
  | migrationPlace (id : Nat)
  -- events: slots and tasks
  | slotAllot (c k : Nat)
  | spawnArrival (id : Nat)
  | slotFreeNotice (c : Nat)
  | recordStage (c : Nat)
  | dieQueueRequest (c : Nat)
  | footprintFillDone (c : Nat) (id : Nat)
  | footprintFillFault (c : Nat) (id : Nat)
  | dispatch (c k : Nat)
  | overflowReturn (c : Nat)
  | sheafExpand (id : Nat)
  | postboxArrival (id : Nat)
  | doorbellStore (box : Nat) (value : Word)
  | copyExecute (id : Nat) (err : Option Nat)
  | reservationHit (id : Nat)
  | wakeDeliver (id : Nat)
  | dirWakeArrival (id : Nat)
  | dirHitArrival (id : Nat)
  | dirDeedlateArrival (id : Nat)
  | dirAbsentRequest (id : Nat)
  | dirRestoreRequest (id : Nat)
  | cdcmdAlloc (c num : Nat)
  | cdcmdRelease (c num : Nat)
  | cdcmdQuery (c num : Nat)
  | deedlateReport (id : Nat)
  -- events: allotment homes
  | altHomeTake (id : Nat)
  | altHomeJoin (id : Nat)
  | altHomeReturn (id : Nat)
  | altHomeRead (id : Nat)
  | altHomeLeave (id : Nat)
  -- events: the Deed Roll
  | rollOffer (id : Nat)
  | rollAccept (id : Nat)
  | rollLend (id : Nat)
  | rollRecall (id : Nat)
  | rollReturn (id : Nat)
  | rollQuery (id : Nat)
  | deedExpiry (frame : Nat)
  | dpcmdOffer (die tag frame cpl : Nat)
  | dpcmdAccept (die tag frame cpl : Nat)
  | dpcmdLend (die tag frame cpl k : Nat)
  | dpcmdRecall (die tag frame cpl : Nat)
  | dpcmdReturn (die tag frame cpl : Nat)
  | dpcmdQuery (die tag frame cpl : Nat)
  | dpevtailWrite (die tail : Nat)
  -- events: shootdowns
  | sdcmdAll (die : Nat)
  | sdcmdAsid (die asid : Nat)
  | sdcmdPageAsid (die asid vpn : Nat)
  | sdcmdPage (die vpn : Nat)
  | sdcmdPasid (die pasid : Nat)
  | sdcmdRead (die : Nat)
  | shootdownComplete (die : Nat)
  -- events: bins, links, power
  | granbinCarve (die bin : Nat)
  | granbinUncarve (die bin : Nat)
  | granbinBusyClear (die : Nat)
  | linkctlWrite (die : Nat) (value : Word)
  | linkSleep (die : Nat) (l : LinkId)
  | linkWake (die : Nat) (l : LinkId)
  | linkCheckWake (die : Nat) (l : LinkId)
  | linkTimeout (die : Nat) (l : LinkId)
  | dieLoss (die : Nat)
  | reeveEpoch (w0 w1 w2 w3 : Nat)
  | clockRelockEnd (die : Nat)
  | relockFlit (die : Nat) (l : LinkId)
  -- events: scale-up links and reduction windows
  | linkRead (link pa size : Nat) (src tag : Nat)
  | linkWrite (link pa size : Nat) (value : Line) (src tag : Nat)
  | linkAtomic (link pa : Nat) (fn : Nat) (dw : Bool) (x cmp : Word) (src tag : Nat)
  | windowStore (win off : Nat) (value : BitVec 32)
  | windowAdd (win off : Nat) (value : BitVec 32)
  | mergedAdd (win off : Nat)
  | linkCompletion (id : Nat) (stat : ComplStat) (value : Word)
  | keySetChange (die : Nat) (k : StreamKey)
  | ideMacFailure (die link : Nat)
  | rdwinWrite (win word : Nat) (value : Word)
  -- events: the steward
  | romStatus (die tag cpl : Nat) (nonce : BitVec 32)
  | romBegin (die tag cpl : Nat) (scars : BitVec 16) (fail : Option Nat) (live : Word)
  | romLoad (die tag cpl image len : Nat) (digest : BitVec 384) (good : Bool)
  | romSwitch (die tag cpl image len : Nat) (digest : BitVec 384) (good : Bool)
  | switchActivate (die : Nat)
  | switchTimeout (die : Nat)
  | romAssign (die tag cpl first count owner : Nat)
  | romRelease (die tag cpl first count : Nat) (dom : Domain)
  | romUnlock (die tag cpl : Nat) (digest : BitVec 384) (nonce : BitVec 32) (tokenOk fuseOk : Bool)
  | dbgbrkWrite (die : Nat) (value : BitVec 256)
  | powerOn (fused : Word) (fail : Option Nat)
  | coldReset
  | warmReset
  -- events: SPDM and IDE_KM
  | getVersion (die : Nat)
  | getCapabilities (die : Nat)
  | negotiateAlgorithms (die : Nat)
  | getDigests (die : Nat)
  | getCertificate (die : Nat)
  | challenge (die : Nat)
  | getMeasurements (die : Nat) (index : Nat)
  | keyExchange (die : Nat)
  | finish (die : Nat)
  | keyUpdate (die : Nat)
  | endSession (die : Nat)
  | ideKmQuery (die : Nat)
  | keyProg (die : Nat) (k : StreamKey) (key : BitVec 256)
  | kSetGo (die : Nat) (k : StreamKey)
  | kSetStop (die : Nat) (k : StreamKey)
  -- events: the rest
  | registerWrite (dom : Domain) (die off size : Nat) (value : Word)
  | unassignedEncoding (w0 : BitVec 32)
  | fetchFault (c : FetchCause) (tval : Word)
  | completionTimeout (id : Nat)
  | hostPortCompletion (id : Nat) (stat : ComplStat) (value : Word)
  | regionRequest (id : Nat)
  | regionChangeDone (die index : Nat)
  | genShootdownDone (id : Nat)
  | altCensusProbe (id : Nat)
  | watchEndNotice (id : Nat)
  | powerOff
  deriving DecidableEq, Repr

end Sys2Proof
end

