-- ==== Sys2Proof/WellFormed.lean ====
section
/-! DEFINITION. Which instruction terms the encoding can hold: the operand rules that the types do not already carry. -/

namespace Sys2Proof

/-- Z is 0 for a doubleword (R32, R157). -/
abbrev Size.signOk (sz : Size) (z : Bool) : Bool := !(z && decide (sz = .d))

/-- pos + len ≤ n, n = 32 for .w and 64 otherwise (R127). -/
abbrev fieldOk (pos len1 : BitVec 6) (w : Bool) : Bool :=
  decide (pos.toNat + len1.toNat + 1 ≤ if w then 32 else 64)

/-- Rows of the table that are events of the hardware or its outside: they have no encoding. -/
abbrev Instr.isEvent : Instr → Bool
  | .pad | .nop | .brk _ | .trap _ | .rtt | .srr _ _ | .srw _ _ | .ctxSave _ _ _ | .ctxLoad _ _ _ | .rdcyc _ | .rdref _
  | .tmrSet _ _ | .deedOffer _ _ | .deedAccept _ _ | .deedLend _ _ _ | .deedRecall _ _ | .deedReturn _ _ | .deedQuery _ _
  | .sealHash _ _ _ _ | .sealDigest _ _ _ | .sealSign _ _ _ _ | .sealVerify _ _ _ _ | .sealEcdh _ _ _ _
  | .sealKeyload _ _ _ | .sealRand _ | .sealExtend _ _ _ | .sealWipe _ _ _
  | .add _ _ _ _ | .sub _ _ _ _ | .mul _ _ _ _ | .mulh _ _ _ _ | .mulhn _ _ _ _ | .div _ _ _ _ | .divn _ _ _ _
  | .rem _ _ _ _ | .remn _ _ _ _ | .and _ _ _ _ | .or _ _ _ _ | .xor _ _ _ _ | .andn _ _ _ _ | .shl _ _ _ _
  | .shr _ _ _ _ | .sha _ _ _ _ | .rol _ _ _ _ | .ror _ _ _ _ | .min _ _ _ _ | .max _ _ _ _ | .minn _ _ _ _
  | .maxn _ _ _ _ | .setEq _ _ _ _ | .setNe _ _ _ _ | .setLt _ _ _ _ | .setGe _ _ _ _ | .setLtn _ _ _ _ | .setGen _ _ _ _
  | .clz _ _ _ | .ctz _ _ _ | .popc _ _ _ | .ext _ _ _ _ _ | .extn _ _ _ _ _ | .ins _ _ _ _ _ | .li _ _ | .la _ _
  | .beq _ _ _ | .bne _ _ _ | .blt _ _ _ | .bge _ _ _ | .bltn _ _ _ | .bgen _ _ _ | .bz _ _ | .bnz _ _ | .j _ | .call _ _
  | .jr _ _ | .callr _ _ _ | .ld _ _ _ _ _ _ | .st _ _ _ _ _ | .push _ _ _ _ _ | .pushl _ _ _ | .ldl _ _ _ _ _
  | .stl _ _ _ _ | .ldx _ _ _ _ _ _ | .stx _ _ _ _ _ | .amoxAdd _ _ _ _ _ _ | .amoxAnd _ _ _ _ _ _ | .amoxOr _ _ _ _ _ _
  | .amoxXor _ _ _ _ _ _ | .amoxMin _ _ _ _ _ _ | .amoxMax _ _ _ _ _ _ | .amoxMinn _ _ _ _ _ _ | .amoxMaxn _ _ _ _ _ _
  | .amoxSwap _ _ _ _ _ _ | .amoxCas _ _ _ _ _ _ _ | .amoxFadd _ _ _ _ _ | .amoxFaddBf16 _ _ _ _ _ | .amoAdd _ _ _ _ _
  | .amoAnd _ _ _ _ _ | .amoOr _ _ _ _ _ | .amoXor _ _ _ _ _ | .amoMin _ _ _ _ _ | .amoMax _ _ _ _ _ | .amoMinn _ _ _ _ _
  | .amoMaxn _ _ _ _ _ | .amoSwap _ _ _ _ _ | .amoCas _ _ _ _ _ _ | .amoFadd _ _ _ _ | .amoFaddBf16 _ _ _ _ | .lr _ _ _ _
  | .sc _ _ _ _ _ | .waitrs _ | .fence _ _ _ | .waita _ _ _ _ | .clPref _ _ _ | .clFlush _ _ | .clInv _ _ _ | .clZero _ _
  | .rgnDefine _ _ _ | .rgnToSw _ _ _ | .rgnFlush _ _ _ | .rgnToCoherent _ _ _ | .altOpen _ | .altTake _ _ _ | .altGive _ _ _
  | .altRead _ _ | .altClose _ _ | .taskPush _ _ _ | .sheaf _ _ _ | .join _ | .trig | .retire | .yield | .spawn _ _ _ _ _
  | .send _ _ _ | .bind _ _ _ | .unbind _ _ | .wake _ _ _ | .sleep _ | .cpG2l _ | .cpL2g _ | .cpL2l _ | .cpG2g _ | .cpWait _
  | .vSets _ _ _ | .vSetsBase _ _ | .vGets _ _ _ | .vAdd _ _ _ | .vSub _ _ _ | .vMul _ _ _ | .vFma _ _ _ _ | .vMin _ _ _
  | .vMax _ _ _ | .vAbs _ _ | .vNeg _ _ | .vAnd _ _ _ | .vOr _ _ _ | .vXor _ _ _ | .vShl _ _ _ | .vShr _ _ _
  | .vCmpEq _ _ _ | .vCmpNe _ _ _ | .vCmpLt _ _ _ | .vCmpGe _ _ _ | .vSel _ _ _ _ | .vCvt _ _ _ _ | .vRsum _ _ _
  | .vRmax _ _ _ | .vRmin _ _ _ | .vExp2 _ _ | .vRcp _ _ | .vRsqrt _ _ | .vBcast _ _ | .vQmax _ _ _ _ | .vQcvt _ _ _ _ _
  | .vrep _ _ _ _ _ _ | .vwait | .vMov _ _ | .mmLoadw _ _ | .mmGather _ _ | .mmRun _ _ _ _ | .mmAccz _ | .mmDrain _ _ _
  | .mmWait _ | .mmClaim _ _ | .mmRelease _ _ | .mmSetWeight _ _ | .mmStat _ => false
  | _ => true

/-- The operand rules of the encoding that the types do not carry (R32, R127, R157, R216, R298). -/
def Instr.wf : Instr → Bool
  | .ld _ _ _ sz z _ | .ldl _ _ _ sz z | .ldx _ _ _ _ sz z => sz.signOk z
  | .ext _ _ pos len1 w | .extn _ _ pos len1 w | .ins _ _ pos len1 w => fieldOk pos len1 w
  | .fence _ pred succ => decide (pred ≠ 0) && decide (succ ≠ 0)
  | i => !i.isEvent

end Sys2Proof
end

