-- ==== Sys2Proof/Decode.lean ====
section
/-! DEFINITION. Decoding instruction words into instructions, refusing by name, and encoding them back (R21 to R40 and
the entries' encoding tables). -/

namespace Sys2Proof

/-- Why a word is no instruction; each raises ILL with TVAL := W0 (R34 steps 3 and 5, R35). -/
inductive Reject where
  /-- W0[1:0] = 0b00 and not the PAD word (R21). -/
  | notPad
  /-- The major map assigns nothing there (R36). -/
  | unassignedMajor
  /-- The major has no form of this length (R36). -/
  | badLength
  /-- The minor map assigns nothing there, or FN is nonzero without a minor map (R37). -/
  | badFunction
  /-- A field breaks R28, R29 or the major's own field rules. -/
  | badField
  deriving DecidableEq, Repr

/-- The fields of R26 and R27; `len` is W0[1:0]. -/
structure Fields where
  len : BitVec 2
  maj : BitVec 8
  d : BitVec 5
  a : BitVec 5
  b : BitVec 5
  fn : BitVec 7
  c : BitVec 5
  qual : BitVec 7
  x20 : BitVec 20
  w2 : BitVec 32
  w3 : BitVec 32
  deriving DecidableEq, Repr

/-- W0 under R26. -/
def Fields.word0 (f : Fields) : BitVec 32 := f.fn ++ f.b ++ f.a ++ f.d ++ f.maj ++ f.len

/-- W1 under R27. -/
def Fields.word1 (f : Fields) : BitVec 32 := f.c ++ f.qual ++ f.x20

/-- The fields of four words (R26, R27). -/
def fieldsOf (w0 w1 w2 w3 : BitVec 32) : Fields :=
  { len := w0.extractLsb' 0 2, maj := w0.extractLsb' 2 8, d := w0.extractLsb' 10 5, a := w0.extractLsb' 15 5
    b := w0.extractLsb' 20 5, fn := w0.extractLsb' 25 7, c := w1.extractLsb' 27 5, qual := w1.extractLsb' 20 7
    x20 := w1.extractLsb' 0 20, w2 := w2, w3 := w3 }

/-- Length in bytes by W0[1:0] (R21). -/
def lenBytes (w0 : BitVec 32) : Nat := 4 * ((w0.extractLsb' 0 2).toNat + 1)

/-- The PAD word (R24). -/
abbrev padWord : BitVec 32 := 0x0FAD0000

/-- An instruction if its unused fields are zero, else a refusal (R29). -/
abbrev orBad (ok : Bool) (i : Instr) : Except Reject Instr := if ok then .ok i else .error .badField

/-- A shape-slot field (R28): 16 to 31 are refused. -/
abbrev slotOk (r : BitVec 5) : Bool := decide (r.toNat < 16)
abbrev toSlot (r : BitVec 5) : Slot := r.extractLsb' 0 4
/-- An accumulator or latch field (R28): only 0 and 1. -/
abbrev unitOk (r : BitVec 5) : Bool := decide (r.toNat < 2)
abbrev toUnit (r : BitVec 5) : Unit2 := r.extractLsb' 0 1

/-- Only the 8-byte form (R36). -/
abbrev Fields.only8 (f : Fields) (r : Except Reject Instr) : Except Reject Instr :=
  if f.len = 1 then r else .error .badLength

def sizeOf2 (x : BitVec 2) : Size := if x = 0 then .b else if x = 1 then .h else if x = 2 then .w else .d
def Size.code : Size → BitVec 2
  | .b => 0 | .h => 1 | .w => 2 | .d => 3
def rmOf2 (x : BitVec 2) : Rm := if x = 0 then .rne else if x = 1 then .rtz else if x = 2 then .rdn else .rup
def Rm.code : Rm → BitVec 2
  | .rne => 0 | .rtz => 1 | .rdn => 2 | .rup => 3
def ordOf2 (x : BitVec 2) : AtOrd := if x = 0 then .plain else if x = 1 then .acq else if x = 2 then .rel else .ar
def AtOrd.code : AtOrd → BitVec 2
  | .plain => 0 | .acq => 1 | .rel => 2 | .ar => 3
def Scope.code : Scope → BitVec 2
  | .dev => 0 | .core => 1 | .sys => 2
def scopeOf2 (x : BitVec 2) : Option Scope :=
  if x = 0 then some .dev else if x = 1 then some .core else if x = 2 then some .sys else none
def LdOrd.code : LdOrd → BitVec 2
  | .plain => 0 | .acq => 1 | .strm => 3
def ldOrdOf2 (x : BitVec 2) : Option LdOrd :=
  if x = 0 then some .plain else if x = 1 then some .acq else if x = 3 then some .strm else none
def StOrd.code : StOrd → BitVec 2
  | .plain => 0 | .rel => 2 | .strm => 3
def stOrdOf2 (x : BitVec 2) : Option StOrd :=
  if x = 0 then some .plain else if x = 2 then some .rel else if x = 3 then some .strm else none
def MmFmt.code : MmFmt → BitVec 3
  | .bf16 => 0 | .e4m3 => 1 | .e5m2 => 2 | .e2m1 => 3 | .i8 => 4
def fmtOf3 (x : BitVec 3) : Option MmFmt :=
  if x = 0 then some .bf16 else if x = 1 then some .e4m3 else if x = 2 then some .e5m2 else if x = 3 then some .e2m1
  else if x = 4 then some .i8 else none

/-- The second operand of R30, with QUAL's other bits already checked. -/
def Fields.opnd (f : Fields) : Except Reject Opnd :=
  let i := f.qual.getLsbD 1
  if f.len = 1 then
    if i then (if f.b = 0 then .ok (.i20 f.x20) else .error .badField)
    else (if f.x20 = 0 then .ok (.reg f.b) else .error .badField)
  else if f.b = 0 ∧ f.x20 = 0 ∧ i = false then
    (if f.len = 2 then .ok (.i32 f.w2) else .ok (.i64 (f.w3 ++ f.w2)))
  else .error .badField

/-- Majors 0x10 to 0x25 (R30, R31): COND and the reserved bits are zero. -/
def Fields.alu (f : Fields) (mk : Reg → Reg → Opnd → Bool → Instr) : Except Reject Instr :=
  if f.c = 0 ∧ f.qual.extractLsb' 2 5 = 0 then
    match f.opnd with
    | .ok y => .ok (mk f.d f.a y (f.qual.getLsbD 0))
    | .error e => .error e
  else .error .badField

/-- SET (R31): COND 6 and 7 are refused. -/
def Fields.set (f : Fields) : Except Reject Instr :=
  if f.c = 0 ∧ f.qual.extractLsb' 5 2 = 0 then
    match f.opnd with
    | .ok y =>
      let w := f.qual.getLsbD 0
      let cc := f.qual.extractLsb' 2 3
      if cc = 0 then .ok (.setEq f.d f.a y w) else if cc = 1 then .ok (.setNe f.d f.a y w)
      else if cc = 2 then .ok (.setLt f.d f.a y w) else if cc = 3 then .ok (.setGe f.d f.a y w)
      else if cc = 4 then .ok (.setLtn f.d f.a y w) else if cc = 5 then .ok (.setGen f.d f.a y w)
      else .error .badField
    | .error e => .error e
  else .error .badField

/-- CLZ, CTZ, POPC (R126). -/
abbrev Fields.bitCount (f : Fields) (mk : Reg → Reg → Bool → Instr) : Except Reject Instr :=
  f.only8 (orBad (f.b = 0 ∧ f.c = 0 ∧ f.qual.extractLsb' 1 6 = 0 ∧ f.x20 = 0) (mk f.d f.a (f.qual.getLsbD 0)))

/-- EXT, EXTN, INS (R127). -/
def Fields.bitField (f : Fields) (mk : Reg → Reg → BitVec 6 → BitVec 6 → Bool → Instr) : Except Reject Instr :=
  let w := f.qual.getLsbD 0
  let pos := f.x20.extractLsb' 0 6
  let len1 := f.x20.extractLsb' 6 6
  f.only8 (orBad (f.b = 0 ∧ f.c = 0 ∧ f.qual.extractLsb' 1 6 = 0 ∧ f.x20.extractLsb' 12 8 = 0 ∧ fieldOk pos len1 w)
    (mk f.d f.a pos len1 w))

/-- BEQ to BGEN (R33). -/
def Fields.branch (f : Fields) (mk : Reg → Cmp → BitVec 20 → Instr) : Except Reject Instr :=
  if f.len = 1 then orBad (f.d = 0 ∧ f.c = 0 ∧ f.qual = 0) (mk f.a (.reg f.b) f.x20)
  else if f.len = 2 then orBad (f.d = 0 ∧ f.c = 0 ∧ f.qual = 0 ∧ f.b = 0) (mk f.a (.i32 f.w2) f.x20)
  else .error .badLength

/-- A 20- or 32-bit offset of an 8- or 12-byte form; X20 is zero in the longer (R33, R254). -/
def Fields.off (f : Fields) (ok : Bool) (mk : Off → Instr) : Except Reject Instr :=
  if f.len = 1 then orBad ok (mk (.s20 f.x20))
  else if f.len = 2 then orBad (ok && decide (f.x20 = 0)) (mk (.s32 f.w2))
  else .error .badLength

/-- The address form of R32; ORD, Z and SZ are the caller's. -/
def Fields.aform (f : Fields) : Except Reject AForm :=
  let x := f.qual.getLsbD 5
  if f.qual.getLsbD 6 then .error .badField
  else if f.len = 1 then
    if x then (if f.x20.extractLsb' 2 18 = 0 then .ok (.idx f.b (f.x20.extractLsb' 0 2)) else .error .badField)
    else (if f.b = 0 then .ok (.d20 f.x20) else .error .badField)
  else if f.len = 2 then (if x = false ∧ f.b = 0 ∧ f.x20 = 0 then .ok (.d32 f.w2) else .error .badField)
  else .error .badLength

/-- A memory major of R32: `mk` gets the form, ORD, Z and SZ. -/
def Fields.memory (f : Fields) (mk : AForm → BitVec 2 → Bool → Size → Option Instr) : Except Reject Instr :=
  match f.aform with
  | .error e => .error e
  | .ok m =>
    match mk m (f.qual.extractLsb' 3 2) (f.qual.getLsbD 2) (sizeOf2 (f.qual.extractLsb' 0 2)) with
    | some i => .ok i
    | none => .error .badField

/-- The shared checks of AMO and AMOX: QUAL [6:5] and [2:1] are zero (R158, R293). -/
def Fields.atomic (f : Fields) (x : Bool) : Except Reject Instr :=
  let ord := ordOf2 (f.qual.extractLsb' 3 2)
  let dw := f.qual.getLsbD 0
  let d := f.d; let a := f.a; let b := f.b; let c := f.c
  let cmp := f.x20.extractLsb' 0 5
  let base := decide (f.qual.extractLsb' 5 2 = 0) && decide (f.qual.extractLsb' 1 2 = 0) && (x || decide (f.b = 0))
  let plain := base && decide (f.x20 = 0)
  f.only8 (
    if f.fn = 0 then orBad plain (if x then .amoxAdd d a b c ord dw else .amoAdd d a c ord dw)
    else if f.fn = 1 then orBad plain (if x then .amoxAnd d a b c ord dw else .amoAnd d a c ord dw)
    else if f.fn = 2 then orBad plain (if x then .amoxOr d a b c ord dw else .amoOr d a c ord dw)
    else if f.fn = 3 then orBad plain (if x then .amoxXor d a b c ord dw else .amoXor d a c ord dw)
    else if f.fn = 4 then orBad plain (if x then .amoxMin d a b c ord dw else .amoMin d a c ord dw)
    else if f.fn = 5 then orBad plain (if x then .amoxMax d a b c ord dw else .amoMax d a c ord dw)
    else if f.fn = 6 then orBad plain (if x then .amoxMinn d a b c ord dw else .amoMinn d a c ord dw)
    else if f.fn = 7 then orBad plain (if x then .amoxMaxn d a b c ord dw else .amoMaxn d a c ord dw)
    else if f.fn = 8 then orBad plain (if x then .amoxSwap d a b c ord dw else .amoSwap d a c ord dw)
    else if f.fn = 9 then
      orBad (base && decide (f.x20.extractLsb' 5 15 = 0))
        (if x then .amoxCas d a b c cmp ord dw else .amoCas d a c cmp ord dw)
    else if f.fn = 10 then orBad (plain && !dw) (if x then .amoxFadd d a b c ord else .amoFadd d a c ord)
    else if f.fn = 11 then orBad (plain && !dw) (if x then .amoxFaddBf16 d a b c ord else .amoFaddBf16 d a c ord)
    else .error .badFunction)

/-- DEED (R38, R332). -/
def Fields.deed (f : Fields) : Except Reject Instr :=
  let z := decide (f.b = 0) && decide (f.c = 0) && decide (f.qual = 0)
  let z0 := z && decide (f.x20 = 0)
  f.only8 (
    if f.fn = 0 then orBad z0 (.deedOffer f.d f.a) else if f.fn = 1 then orBad z0 (.deedAccept f.d f.a)
    else if f.fn = 2 then orBad (z && decide (f.x20.extractLsb' 3 17 = 0)) (.deedLend f.d f.a (f.x20.extractLsb' 0 3))
    else if f.fn = 3 then orBad z0 (.deedRecall f.d f.a) else if f.fn = 4 then orBad z0 (.deedReturn f.d f.a)
    else if f.fn = 5 then orBad z0 (.deedQuery f.d f.a) else .error .badFunction)

/-- SEAL (R40, R356). -/
def Fields.seal (f : Fields) : Except Reject Instr :=
  let q := decide (f.qual = 0)
  let x := f.x20
  f.only8 (
    if f.fn = 0 then orBad (q && decide (f.c = 0) && decide (x.extractLsb' 2 18 = 0)) (.sealHash f.d f.a f.b (x.extractLsb' 0 2))
    else if f.fn = 1 then
      orBad (q && decide (f.a = 0) && decide (f.b = 0) && decide (x.extractLsb' 2 18 = 0)) (.sealDigest f.d f.c (x.extractLsb' 0 2))
    else if f.fn = 2 then orBad (q && decide (f.b = 0) && decide (x.extractLsb' 5 15 = 0)) (.sealSign f.d f.a f.c (x.extractLsb' 0 5))
    else if f.fn = 3 then orBad (q && decide (x = 0)) (.sealVerify f.d f.a f.b f.c)
    else if f.fn = 4 then
      orBad (q && decide (f.b = 0) && decide (f.c = 0) && decide (x.extractLsb' 5 3 = 0) && decide (x.extractLsb' 13 7 = 0))
        (.sealEcdh f.d f.a (x.extractLsb' 0 5) (x.extractLsb' 8 5))
    else if f.fn = 5 then
      orBad (q && decide (f.b = 0) && decide (f.c = 0) && decide (x.extractLsb' 5 15 = 0)) (.sealKeyload f.d f.a (x.extractLsb' 0 5))
    else if f.fn = 6 then orBad (q && decide (f.a = 0) && decide (f.b = 0) && decide (f.c = 0) && decide (x = 0)) (.sealRand f.d)
    else if f.fn = 7 then
      orBad (q && decide (f.b = 0) && decide (f.c = 0) && decide (x.extractLsb' 3 17 = 0)) (.sealExtend f.d f.a (x.extractLsb' 0 3))
    else if f.fn = 8 then
      orBad (q && decide (f.b = 0) && decide (f.c = 0) && decide (x.extractLsb' 1 19 = 0)) (.sealWipe f.d f.a (x.getLsbD 0))
    else .error .badFunction)

/-- A copy command (R216): SCOPE 3 and the reserved bits are refused; its other rules are the entry's own. -/
def Fields.copy (f : Fields) (mk : CpArgs → Instr) : Except Reject Instr :=
  if f.len ≠ 3 then .error .badLength
  else match scopeOf2 (f.qual.extractLsb' 5 2) with
  | none => .error .badField
  | some sc =>
    orBad (!f.qual.getLsbD 0 && !f.x20.getLsbD 8)
      (mk { d := f.d, a := f.a, b := f.b, c := f.c, scope := sc, sat := f.qual.getLsbD 4
            rm := rmOf2 (f.qual.extractLsb' 2 2), flag := f.qual.getLsbD 1, conv := f.x20.getLsbD 9
            srct := f.x20.extractLsb' 15 5, dstt := f.x20.extractLsb' 10 5, scale := f.x20.extractLsb' 0 8
            value := f.w3 ++ f.w2 })

/-- No register field beyond those named, QUAL and X20 zero. -/
abbrev Fields.z (f : Fields) (d a b c : Bool) : Bool :=
  (d || decide (f.d = 0)) && (a || decide (f.a = 0)) && (b || decide (f.b = 0)) && (c || decide (f.c = 0)) &&
  decide (f.qual = 0) && decide (f.x20 = 0)

/-- Slot operands D, A, B, C of a sequencer instruction, those not used zero, QUAL and X20 zero (R160). -/
abbrev Fields.v1 (f : Fields) (mk : Slot → Slot → Instr) : Except Reject Instr :=
  f.only8 (orBad (slotOk f.d && slotOk f.a && f.z true true false false) (mk (toSlot f.d) (toSlot f.a)))
abbrev Fields.v2 (f : Fields) (mk : Slot → Slot → Slot → Instr) : Except Reject Instr :=
  f.only8 (orBad (slotOk f.d && slotOk f.a && slotOk f.b && f.z true true true false)
    (mk (toSlot f.d) (toSlot f.a) (toSlot f.b)))
abbrev Fields.v3 (f : Fields) (mk : Slot → Slot → Slot → Slot → Instr) : Except Reject Instr :=
  f.only8 (orBad (slotOk f.d && slotOk f.a && slotOk f.b && slotOk f.c && f.z true true true true)
    (mk (toSlot f.d) (toSlot f.a) (toSlot f.b) (toSlot f.c)))

/-- V.SHL, V.SHR: QUAL[2] selects X20[5:0] (R160). -/
def Fields.vshift (f : Fields) (mk : Slot → Slot → VShift → Instr) : Except Reject Instr :=
  f.only8 (
    if f.qual = 4 then
      orBad (slotOk f.d && slotOk f.a && decide (f.b = 0) && decide (f.c = 0) && decide (f.x20.extractLsb' 6 14 = 0))
        (mk (toSlot f.d) (toSlot f.a) (.imm (f.x20.extractLsb' 0 6)))
    else orBad (slotOk f.d && slotOk f.a && slotOk f.b && f.z true true true false)
        (mk (toSlot f.d) (toSlot f.a) (.slot (toSlot f.b))))

/-- V.RSUM, V.RMAX, V.RMIN (R163). -/
abbrev Fields.vred (f : Fields) (mk : Slot → Slot → BitVec 2 → Instr) : Except Reject Instr :=
  f.only8 (orBad (slotOk f.d && slotOk f.a && decide (f.b = 0) && decide (f.c = 0) && decide (f.qual = 0) &&
    decide (f.x20.extractLsb' 2 18 = 0)) (mk (toSlot f.d) (toSlot f.a) (f.x20.extractLsb' 0 2)))

/-- The system majors 0x01 to 0x0B. -/
def Fields.system (f : Fields) : Except Reject Instr :=
  let x := f.x20
  let m := f.maj.toNat
  f.only8 (
    if m = 1 then orBad (f.z false false false false) .nop
    else if m = 2 then orBad (decide (f.d = 0) && decide (f.a = 0) && decide (f.b = 0) && decide (f.c = 0) && decide (f.qual = 0)) (.brk x)
    else if m = 3 then orBad (decide (f.d = 0) && decide (f.a = 0) && decide (f.b = 0) && decide (f.c = 0) && decide (f.qual = 0)) (.trap x)
    else if m = 4 then orBad (f.z false false false false) .rtt
    else if m = 5 then
      orBad (decide (f.a = 0) && decide (f.b = 0) && decide (f.c = 0) && decide (f.qual = 0) && decide (x.extractLsb' 12 8 = 0))
        (.srr f.d (x.extractLsb' 0 12))
    else if m = 6 then
      orBad (decide (f.d = 0) && decide (f.b = 0) && decide (f.c = 0) && decide (f.qual = 0) && decide (x.extractLsb' 12 8 = 0))
        (.srw f.a (x.extractLsb' 0 12))
    else if m = 7 then
      orBad (decide (f.d = 0) && decide (f.b = 0) && decide (f.c = 0) && decide (f.qual.extractLsb' 1 6 = 0))
        (.ctxSave f.a x (f.qual.getLsbD 0))
    else if m = 8 then
      orBad (decide (f.d = 0) && decide (f.b = 0) && decide (f.c = 0) && decide (f.qual.extractLsb' 1 6 = 0))
        (.ctxLoad f.a x (f.qual.getLsbD 0))
    else if m = 9 then orBad (f.z true false false false) (.rdcyc f.d)
    else if m = 10 then orBad (f.z true false false false) (.rdref f.d)
    else orBad (f.z true true false false) (.tmrSet f.d f.a))

/-- The major map of 0x10 to 0x3B. -/
def Fields.scalar (f : Fields) : Except Reject Instr :=
  let m := f.maj.toNat
  let q := decide (f.c = 0) && decide (f.qual = 0)
  if m = 0x10 then f.alu .add else if m = 0x11 then f.alu .sub else if m = 0x12 then f.alu .mul
  else if m = 0x13 then f.alu .mulh else if m = 0x14 then f.alu .mulhn else if m = 0x15 then f.alu .div
  else if m = 0x16 then f.alu .divn else if m = 0x17 then f.alu .rem else if m = 0x18 then f.alu .remn
  else if m = 0x19 then f.alu .and else if m = 0x1A then f.alu .or else if m = 0x1B then f.alu .xor
  else if m = 0x1C then f.alu .andn else if m = 0x1D then f.alu .shl else if m = 0x1E then f.alu .shr
  else if m = 0x1F then f.alu .sha else if m = 0x20 then f.alu .rol else if m = 0x21 then f.alu .ror
  else if m = 0x22 then f.alu .min else if m = 0x23 then f.alu .max else if m = 0x24 then f.alu .minn
  else if m = 0x25 then f.alu .maxn else if m = 0x26 then f.set
  else if m = 0x27 then f.bitCount .clz else if m = 0x28 then f.bitCount .ctz else if m = 0x29 then f.bitCount .popc
  else if m = 0x2A then f.bitField .ext else if m = 0x2B then f.bitField .extn else if m = 0x2C then f.bitField .ins
  else if m = 0x2D then
    (if f.a = 0 ∧ f.b = 0 ∧ q then
      (if f.len = 1 then .ok (.li f.d (.i20 f.x20))
       else if f.x20 ≠ 0 then .error .badField
       else if f.len = 2 then .ok (.li f.d (.i32 f.w2)) else .ok (.li f.d (.i64 (f.w3 ++ f.w2))))
     else .error .badField)
  else if m = 0x2E then f.off (decide (f.a = 0) && decide (f.b = 0) && q) (.la f.d)
  else if m = 0x30 then f.branch .beq else if m = 0x31 then f.branch .bne else if m = 0x32 then f.branch .blt
  else if m = 0x33 then f.branch .bge else if m = 0x34 then f.branch .bltn else if m = 0x35 then f.branch .bgen
  else if m = 0x36 then f.only8 (orBad (q && decide (f.d = 0) && decide (f.b = 0)) (.bz f.a f.x20))
  else if m = 0x37 then f.only8 (orBad (q && decide (f.d = 0) && decide (f.b = 0)) (.bnz f.a f.x20))
  else if m = 0x38 then f.off (q && decide (f.d = 0) && decide (f.a = 0) && decide (f.b = 0)) .j
  else if m = 0x39 then f.off (q && decide (f.a = 0) && decide (f.b = 0)) (.call f.d)
  else if m = 0x3A then f.only8 (orBad (q && decide (f.d = 0) && decide (f.b = 0)) (.jr f.a f.x20))
  else if m = 0x3B then f.only8 (orBad (q && decide (f.b = 0)) (.callr f.d f.a f.x20))
  else .error .unassignedMajor

/-- The major map of 0x40 to 0x4E. -/
def Fields.mem (f : Fields) : Except Reject Instr :=
  let m := f.maj.toNat
  let d := f.d; let a := f.a; let b := f.b; let c := f.c
  if m = 0x40 then f.memory fun x o z s =>
    match ldOrdOf2 o with
    | some o => if c = 0 ∧ s.signOk z then some (.ld d a x s z o) else none
    | none => none
  else if m = 0x41 then f.memory fun x o z s =>
    match stOrdOf2 o with
    | some o => if d = 0 ∧ z = false then some (.st a x c s o) else none
    | none => none
  else if m = 0x42 then f.memory fun x o z s => if o = 0 ∧ z = false then some (.push a x c d s) else none
  else if m = 0x43 then f.memory fun x o z s => if o = 0 ∧ z = false ∧ s = .b ∧ c = 0 then some (.pushl a x d) else none
  else if m = 0x44 then f.memory fun x o z s => if o = 0 ∧ c = 0 ∧ s.signOk z then some (.ldl d a x s z) else none
  else if m = 0x45 then f.memory fun x o z s => if o = 0 ∧ z = false ∧ d = 0 then some (.stl a x c s) else none
  else if m = 0x46 then
    let z := f.qual.getLsbD 2
    let s := sizeOf2 (f.qual.extractLsb' 0 2)
    f.only8 (orBad (decide (c = 0) && decide (f.qual.extractLsb' 3 4 = 0) && s.signOk z) (.ldx d a b f.x20 s z))
  else if m = 0x47 then
    f.only8 (orBad (decide (d = 0) && decide (f.qual.extractLsb' 2 5 = 0)) (.stx a b c f.x20 (sizeOf2 (f.qual.extractLsb' 0 2))))
  else if m = 0x48 then f.atomic true
  else if m = 0x49 then f.atomic false
  else if m = 0x4A then
    f.only8 (orBad (decide (b = 0) && decide (c = 0) && decide (f.x20 = 0) && decide (f.qual.extractLsb' 4 3 = 0) &&
      decide (f.qual.extractLsb' 1 2 = 0)) (.lr d a (f.qual.getLsbD 3) (f.qual.getLsbD 0)))
  else if m = 0x4B then
    f.only8 (orBad (decide (b = 0) && decide (f.x20 = 0) && decide (f.qual.extractLsb' 5 2 = 0) &&
      decide (f.qual.extractLsb' 1 3 = 0)) (.sc d a c (f.qual.getLsbD 4) (f.qual.getLsbD 0)))
  else if m = 0x4C then f.only8 (orBad (f.z true false false false) (.waitrs d))
  else if m = 0x4D then
    f.only8 (match scopeOf2 (f.qual.extractLsb' 5 2) with
      | none => .error .badField
      | some sc =>
        orBad (decide (d = 0) && decide (a = 0) && decide (b = 0) && decide (c = 0) && decide (f.qual.extractLsb' 0 5 = 0) &&
          decide (f.x20.extractLsb' 14 6 = 0) && decide (f.x20.extractLsb' 6 2 = 0) &&
          decide (f.x20.extractLsb' 0 6 ≠ 0) && decide (f.x20.extractLsb' 8 6 ≠ 0))
          (.fence sc (f.x20.extractLsb' 0 6) (f.x20.extractLsb' 8 6)))
  else if m = 0x4E then
    let w := f.qual.getLsbD 0
    f.only8 (if f.qual.extractLsb' 2 5 = 0 ∧ c = 0 then
        (if f.qual.getLsbD 1 then orBad (decide (b = 0)) (.waita d a (.i20 f.x20) w)
         else orBad (decide (f.x20 = 0)) (.waita d a (.reg b) w))
      else .error .badField)
  else .error .unassignedMajor

/-- ALT.TAKE and ALT.GIVE: the three forms of n. -/
def Fields.altN (f : Fields) (mk : Reg → Reg → AltN → Instr) : Except Reject Instr :=
  if f.c ≠ 0 then .error .badField
  else if f.len = 1 then
    (if f.qual = 2 then orBad (decide (f.b = 0)) (mk f.d f.a (.i20 f.x20))
     else orBad (decide (f.qual = 0) && decide (f.x20 = 0)) (mk f.d f.a (.reg f.b)))
  else if f.len = 2 then orBad (decide (f.qual = 0) && decide (f.b = 0) && decide (f.x20 = 0)) (mk f.d f.a (.i32 f.w2))
  else .error .badLength

/-- The major map of 0x50 to 0x6B. -/
def Fields.resource (f : Fields) : Except Reject Instr :=
  let m := f.maj.toNat
  let d := f.d; let a := f.a; let b := f.b; let c := f.c
  let cl := decide (b = 0) && decide (c = 0) && decide (d = 0)
  let o := f.qual.getLsbD 0
  if m = 0x50 then f.off (cl && decide (f.qual.extractLsb' 1 6 = 0)) (fun x => .clPref a x o)
  else if m = 0x51 then f.off (cl && decide (f.qual = 0)) (.clFlush a)
  else if m = 0x52 then f.off (cl && decide (f.qual.extractLsb' 1 6 = 0)) (fun x => .clInv a x o)
  else if m = 0x53 then f.off (cl && decide (f.qual = 0)) (.clZero a)
  else if m = 0x54 then
    let op := f.x20.extractLsb' 0 2
    f.only8 (orBad (decide (c = 0) && decide (f.qual = 0) && decide (f.x20.extractLsb' 2 18 = 0))
      (if op = 0 then .rgnDefine d a b else if op = 1 then .rgnToSw d a b else if op = 2 then .rgnFlush d a b
       else .rgnToCoherent d a b))
  else if m = 0x55 then f.only8 (orBad (f.z false true false false) (.altOpen a))
  else if m = 0x56 then f.altN .altTake
  else if m = 0x57 then f.altN .altGive
  else if m = 0x58 then f.only8 (orBad (f.z true true false false) (.altRead d a))
  else if m = 0x59 then f.only8 (orBad (f.z true true false false) (.altClose d a))
  else if m = 0x60 then f.only8 (orBad (f.z true true true false) (.taskPush d a b))
  else if m = 0x61 then f.only8 (orBad (f.z true true true false) (.sheaf d a b))
  else if m = 0x62 then f.only8 (orBad (f.z false true false false) (.join a))
  else if m = 0x63 then f.only8 (orBad (f.z false false false false) .trig)
  else if m = 0x64 then f.only8 (orBad (f.z false false false false) .retire)
  else if m = 0x65 then f.only8 (orBad (f.z false false false false) .yield)
  else if m = 0x66 then
    f.only8 (orBad (decide (f.qual.extractLsb' 1 6 = 0) && decide (f.x20 = 0)) (.spawn d a b c o))
  else if m = 0x67 then f.only8 (orBad (f.z true true true false) (.send d a b))
  else if m = 0x68 then f.only8 (orBad (f.z true true true false) (.bind d a b))
  else if m = 0x69 then f.only8 (orBad (f.z true true false false) (.unbind d a))
  else if m = 0x6A then f.only8 (orBad (f.z true true true false) (.wake d a b))
  else if m = 0x6B then f.only8 (orBad (f.z true false false false) (.sleep d))
  else .error .unassignedMajor

/-- The major map of 0x70 to 0x9D. -/
def Fields.vector (f : Fields) : Except Reject Instr :=
  let m := f.maj.toNat
  let d := f.d; let a := f.a; let b := f.b; let c := f.c
  let rm := rmOf2 (f.qual.extractLsb' 4 2)
  let sat := f.qual.getLsbD 6
  if m = 0x70 then f.copy .cpG2l else if m = 0x71 then f.copy .cpL2g
  else if m = 0x72 then f.copy .cpL2l else if m = 0x73 then f.copy .cpG2g
  else if m = 0x74 then f.only8 (orBad (f.z true false false false) (.cpWait d))
  else if m = 0x80 then
    f.only8 (if f.qual = 1 then orBad (slotOk d && decide (a = 0) && decide (c = 0) && decide (f.x20 = 0)) (.vSetsBase (toSlot d) b)
      else orBad (slotOk d && decide (b = 0) && decide (c = 0) && decide (f.qual = 0)) (.vSets (toSlot d) a f.x20))
  else if m = 0x81 then
    f.only8 (orBad (slotOk d && decide (b = 0) && decide (c = 0) && decide (f.qual = 0)) (.vGets (toSlot d) a f.x20))
  else if m = 0x82 then f.v2 .vAdd else if m = 0x83 then f.v2 .vSub else if m = 0x84 then f.v2 .vMul
  else if m = 0x85 then f.v3 .vFma else if m = 0x86 then f.v2 .vMin else if m = 0x87 then f.v2 .vMax
  else if m = 0x88 then f.v1 .vAbs else if m = 0x89 then f.v1 .vNeg else if m = 0x8A then f.v2 .vAnd
  else if m = 0x8B then f.v2 .vOr else if m = 0x8C then f.v2 .vXor
  else if m = 0x8D then f.vshift .vShl else if m = 0x8E then f.vshift .vShr
  else if m = 0x8F then
    let cc := f.qual.extractLsb' 0 2
    let x := toSlot d; let y := toSlot a; let z := toSlot b
    f.only8 (orBad (slotOk d && slotOk a && slotOk b && decide (c = 0) && decide (f.qual.extractLsb' 2 5 = 0) && decide (f.x20 = 0))
      (if cc = 0 then .vCmpEq x y z else if cc = 1 then .vCmpNe x y z else if cc = 2 then .vCmpLt x y z else .vCmpGe x y z))
  else if m = 0x90 then f.v3 .vSel
  else if m = 0x91 then
    f.only8 (orBad (slotOk d && slotOk a && decide (b = 0) && decide (c = 0) && decide (f.qual.extractLsb' 0 4 = 0) &&
      decide (f.x20 = 0)) (.vCvt (toSlot d) (toSlot a) rm sat))
  else if m = 0x92 then f.vred .vRsum else if m = 0x93 then f.vred .vRmax else if m = 0x94 then f.vred .vRmin
  else if m = 0x95 then f.v1 .vExp2 else if m = 0x96 then f.v1 .vRcp else if m = 0x97 then f.v1 .vRsqrt
  else if m = 0x98 then
    (if f.len = 1 then orBad (slotOk d && decide (b = 0) && decide (c = 0) && decide (f.qual = 0) && decide (f.x20 = 0))
        (.vBcast (toSlot d) (.reg a))
     else if f.len = 2 then orBad (slotOk d && decide (a = 0) && decide (b = 0) && decide (c = 0) && decide (f.qual = 0) &&
        decide (f.x20 = 0)) (.vBcast (toSlot d) (.i32 f.w2))
     else .error .badLength)
  else if m = 0x99 then
    f.only8 (orBad (slotOk d && slotOk a && decide (c = 0) && decide (f.qual = 0) && decide (f.x20.extractLsb' 4 16 = 0))
      (.vQmax (toSlot d) (toSlot a) b (f.x20.extractLsb' 0 4)))
  else if m = 0x9A then
    f.only8 (orBad (slotOk d && slotOk a && slotOk b && decide (c = 0) && decide (f.qual.extractLsb' 0 4 = 0) &&
      decide (f.x20 = 0)) (.vQcvt (toSlot d) (toSlot a) (toSlot b) rm sat))
  else if m = 0x9B then
    let x := f.x20
    let k := x.extractLsb' 16 4; let sd := x.extractLsb' 0 4; let sa := x.extractLsb' 4 4
    let sb := x.extractLsb' 8 4; let sc := x.extractLsb' 12 4
    let z := decide (d = 0) && decide (b = 0) && decide (c = 0) && decide (f.qual = 0)
    (if f.len = 1 then orBad z (.vrep (.reg a) k sd sa sb sc)
     else if f.len = 2 then orBad (z && decide (a = 0)) (.vrep (.i32 f.w2) k sd sa sb sc)
     else .error .badLength)
  else if m = 0x9C then f.only8 (orBad (f.z false false false false) .vwait)
  else if m = 0x9D then f.v1 .vMov
  else .error .unassignedMajor

/-- The major map of 0xA0 to 0xA7. -/
def Fields.mill (f : Fields) : Except Reject Instr :=
  let m := f.maj.toNat
  let d := f.d; let a := f.a; let b := f.b; let c := f.c
  if m = 0xA0 then f.only8 (orBad (unitOk d && slotOk a && f.z true true false false) (.mmLoadw (toUnit d) (toSlot a)))
  else if m = 0xA1 then f.only8 (orBad (slotOk d && slotOk a && f.z true true false false) (.mmGather (toSlot d) (toSlot a)))
  else if m = 0xA2 then
    f.only8 (match fmtOf3 (f.qual.extractLsb' 0 3) with
      | none => .error .badField
      | some fm => orBad (unitOk d && unitOk a && slotOk b && decide (c = 0) && decide (f.qual.extractLsb' 3 4 = 0) && decide (f.x20 = 0))
          (.mmRun (toUnit d) (toUnit a) (toSlot b) fm))
  else if m = 0xA3 then f.only8 (orBad (unitOk d && f.z true false false false) (.mmAccz (toUnit d)))
  else if m = 0xA4 then
    let ok := unitOk d && slotOk a && decide (f.x20 = 0)
    f.only8 (
      if f.qual = 0 then orBad (ok && decide (b = 0) && decide (c = 0)) (.mmDrain (toUnit d) (toSlot a) .own)
      else if f.qual = 1 then orBad (ok && decide (b = 0)) (.mmDrain (toUnit d) (toSlot a) (.remote c))
      else if f.qual = 2 then orBad ok (.mmDrain (toUnit d) (toSlot a) (.wake b c))
      else .error .badField)
  else if m = 0xA5 then
    f.only8 (
      if f.qual = 0 then orBad (unitOk d && f.z true false false false) (.mmWait (some (toUnit d)))
      else orBad (decide (f.qual = 1) && decide (d = 0) && decide (a = 0) && decide (b = 0) && decide (c = 0) && decide (f.x20 = 0))
        (.mmWait none))
  else if m = 0xA6 then
    let z := decide (c = 0) && decide (f.qual = 0)
    f.only8 (
      if f.x20 = 0 then orBad (z && unitOk b && decide (a = 0)) (.mmClaim d (toUnit b))
      else if f.x20 = 1 then orBad (z && unitOk b && decide (a = 0)) (.mmRelease d (toUnit b))
      else if f.x20 = 2 then orBad (z && decide (b = 0)) (.mmSetWeight d a)
      else .error .badField)
  else if m = 0xA7 then f.only8 (orBad (f.z true false false false) (.mmStat d))
  else .error .unassignedMajor

/-- Decoding of the fields of an instruction of 8 bytes or more (R34 step 5, R36). -/
def decodeFields (f : Fields) : Except Reject Instr :=
  let m := f.maj.toNat
  if m = 0x0C then f.deed
  else if m = 0x0D then f.seal
  else if m = 0x48 ∨ m = 0x49 then f.mem
  else if f.fn ≠ 0 then .error (if m = 0 then .unassignedMajor else .badFunction)
  else if m = 0 then .error .unassignedMajor
  else if m < 0x0C then f.system
  else if m < 0x10 then .error .unassignedMajor
  else if m < 0x40 then f.scalar
  else if m < 0x50 then f.mem
  else if m < 0x70 then f.resource
  else if m < 0xA0 then f.vector
  else f.mill

/-- Decoding of up to four words: only the words that LEN names take part (R21). -/
def decodeWords (w0 w1 w2 w3 : BitVec 32) : Except Reject Instr :=
  if w0.extractLsb' 0 2 = 0 then (if w0 = padWord then .ok .pad else .error .notPad)
  else decodeFields (fieldsOf w0 w1 (if (w0.extractLsb' 0 2).toNat < 2 then 0 else w2) (if (w0.extractLsb' 0 2).toNat < 3 then 0 else w3))

/-- Four bytes as a little-endian word (R4). -/
def wordOfBytes : List Byte → BitVec 32
  | b0 :: b1 :: b2 :: b3 :: _ => b3 ++ b2 ++ b1 ++ b0
  | _ => 0

/-- Decoding from bytes in address order; missing bytes read 0. -/
def decode (bs : List Byte) : Except Reject Instr :=
  decodeWords (wordOfBytes bs) (wordOfBytes (bs.drop 4)) (wordOfBytes (bs.drop 8)) (wordOfBytes (bs.drop 12))

/-! Encoding -/

/-- A field record of the 8-byte form. -/
abbrev f8 (maj : BitVec 8) (d a b c : BitVec 5) (qual : BitVec 7) (x20 : BitVec 20) : Fields :=
  { len := 1, maj := maj, d := d, a := a, b := b, fn := 0, c := c, qual := qual, x20 := x20, w2 := 0, w3 := 0 }
/-- A field record of the 12-byte form. -/
abbrev f12 (maj : BitVec 8) (d a b c : BitVec 5) (qual : BitVec 7) (x20 : BitVec 20) (w2 : BitVec 32) : Fields :=
  { len := 2, maj := maj, d := d, a := a, b := b, fn := 0, c := c, qual := qual, x20 := x20, w2 := w2, w3 := 0 }
/-- A field record of the 16-byte form. -/
abbrev f16 (maj : BitVec 8) (d a b c : BitVec 5) (qual : BitVec 7) (x20 : BitVec 20) (w : Word) : Fields :=
  { len := 3, maj := maj, d := d, a := a, b := b, fn := 0, c := c, qual := qual, x20 := x20
    w2 := w.extractLsb' 0 32, w3 := w.extractLsb' 32 32 }
/-- A field record with a minor function (R37). -/
abbrev fFn (maj : BitVec 8) (fn : BitVec 7) (d a b c : BitVec 5) (qual : BitVec 7) (x20 : BitVec 20) : Fields :=
  { len := 1, maj := maj, d := d, a := a, b := b, fn := fn, c := c, qual := qual, x20 := x20, w2 := 0, w3 := 0 }

abbrev bit (b : Bool) : BitVec 1 := BitVec.ofBool b
abbrev ofSlot (s : Slot) : BitVec 5 := 0#1 ++ s
abbrev ofUnit (u : Unit2) : BitVec 5 := 0#4 ++ u

/-- Majors 0x10 to 0x26 (R30, R31). -/
def encAlu (maj : BitVec 8) (cc : BitVec 3) (d a : Reg) (y : Opnd) (w : Bool) : Fields :=
  match y with
  | .reg b => f8 maj d a b 0 (0#2 ++ cc ++ 0#1 ++ bit w) 0
  | .i20 x => f8 maj d a 0 0 (0#2 ++ cc ++ 1#1 ++ bit w) x
  | .i32 x => f12 maj d a 0 0 (0#2 ++ cc ++ 0#1 ++ bit w) 0 x
  | .i64 x => f16 maj d a 0 0 (0#2 ++ cc ++ 0#1 ++ bit w) 0 x

def encBranch (maj : BitVec 8) (a : Reg) (y : Cmp) (off : BitVec 20) : Fields :=
  match y with
  | .reg b => f8 maj 0 a b 0 0 off
  | .i32 x => f12 maj 0 a 0 0 0 off x

def encOff (maj : BitVec 8) (d a : Reg) (q : BitVec 7) (x : Off) : Fields :=
  match x with
  | .s20 x => f8 maj d a 0 0 q x
  | .s32 x => f12 maj d a 0 0 q 0 x

/-- The memory majors of R32. -/
def encMem (maj : BitVec 8) (d a c : Reg) (f : AForm) (ord : BitVec 2) (z : Bool) (sz : Size) : Fields :=
  match f with
  | .d20 x => f8 maj d a 0 c (0#1 ++ 0#1 ++ ord ++ bit z ++ sz.code) x
  | .d32 x => f12 maj d a 0 c (0#1 ++ 0#1 ++ ord ++ bit z ++ sz.code) 0 x
  | .idx b s => f8 maj d a b c (0#1 ++ 1#1 ++ ord ++ bit z ++ sz.code) (0#18 ++ s)

abbrev atQual (ord : AtOrd) (dw : Bool) : BitVec 7 := 0#2 ++ ord.code ++ 0#2 ++ bit dw
abbrev encAmox (fn : BitVec 7) (d a b c : Reg) (ord : AtOrd) (dw : Bool) : Fields := fFn 0x48 fn d a b c (atQual ord dw) 0
abbrev encAmo (fn : BitVec 7) (d a c : Reg) (ord : AtOrd) (dw : Bool) : Fields := fFn 0x49 fn d a 0 c (atQual ord dw) 0

def encAlt (maj : BitVec 8) (d a : Reg) (n : AltN) : Fields :=
  match n with
  | .reg b => f8 maj d a b 0 0 0
  | .i20 x => f8 maj d a 0 0 2 x
  | .i32 x => f12 maj d a 0 0 0 0 x

def encCopy (maj : BitVec 8) (x : CpArgs) : Fields :=
  f16 maj x.d x.a x.b x.c (x.scope.code ++ bit x.sat ++ x.rm.code ++ bit x.flag ++ 0#1)
    (x.srct ++ x.dstt ++ bit x.conv ++ 0#1 ++ x.scale) x.value

abbrev v1 (maj : BitVec 8) (d a : Slot) : Fields := f8 maj (ofSlot d) (ofSlot a) 0 0 0 0
abbrev v2 (maj : BitVec 8) (d a b : Slot) : Fields := f8 maj (ofSlot d) (ofSlot a) (ofSlot b) 0 0 0
abbrev v3 (maj : BitVec 8) (d a b c : Slot) : Fields := f8 maj (ofSlot d) (ofSlot a) (ofSlot b) (ofSlot c) 0 0
def encShift (maj : BitVec 8) (d a : Slot) (s : VShift) : Fields :=
  match s with
  | .slot b => f8 maj (ofSlot d) (ofSlot a) (ofSlot b) 0 0 0
  | .imm x => f8 maj (ofSlot d) (ofSlot a) 0 0 4 (0#14 ++ x)
abbrev vCc (d a b : Slot) (cc : BitVec 2) : Fields := f8 0x8F (ofSlot d) (ofSlot a) (ofSlot b) 0 (0#5 ++ cc) 0
abbrev vRed (maj : BitVec 8) (d a : Slot) (dim : BitVec 2) : Fields := f8 maj (ofSlot d) (ofSlot a) 0 0 0 (0#18 ++ dim)

/-- The fields of an instruction's words, from the entries' encoding tables; PAD and events have none. -/
def encodeFields : Instr → Option Fields
  | .nop => some (f8 0x01 0 0 0 0 0 0)
  | .brk x => some (f8 0x02 0 0 0 0 0 x)
  | .trap x => some (f8 0x03 0 0 0 0 0 x)
  | .rtt => some (f8 0x04 0 0 0 0 0 0)
  | .srr d n => some (f8 0x05 d 0 0 0 0 (0#8 ++ n))
  | .srw a n => some (f8 0x06 0 a 0 0 0 (0#8 ++ n))
  | .ctxSave a x g => some (f8 0x07 0 a 0 0 (0#6 ++ bit g) x)
  | .ctxLoad a x g => some (f8 0x08 0 a 0 0 (0#6 ++ bit g) x)
  | .rdcyc d => some (f8 0x09 d 0 0 0 0 0)
  | .rdref d => some (f8 0x0A d 0 0 0 0 0)
  | .tmrSet d a => some (f8 0x0B d a 0 0 0 0)
  | .deedOffer d a => some (fFn 0x0C 0 d a 0 0 0 0)
  | .deedAccept d a => some (fFn 0x0C 1 d a 0 0 0 0)
  | .deedLend d a k => some (fFn 0x0C 2 d a 0 0 0 (0#17 ++ k))
  | .deedRecall d a => some (fFn 0x0C 3 d a 0 0 0 0)
  | .deedReturn d a => some (fFn 0x0C 4 d a 0 0 0 0)
  | .deedQuery d a => some (fFn 0x0C 5 d a 0 0 0 0)
  | .sealHash d a b st => some (fFn 0x0D 0 d a b 0 0 (0#18 ++ st))
  | .sealDigest d c st => some (fFn 0x0D 1 d 0 0 c 0 (0#18 ++ st))
  | .sealSign d a c k => some (fFn 0x0D 2 d a 0 c 0 (0#15 ++ k))
  | .sealVerify d a b c => some (fFn 0x0D 3 d a b c 0 0)
  | .sealEcdh d a k m => some (fFn 0x0D 4 d a 0 0 0 (0#7 ++ m ++ 0#3 ++ k))
  | .sealKeyload d a k => some (fFn 0x0D 5 d a 0 0 0 (0#15 ++ k))
  | .sealRand d => some (fFn 0x0D 6 d 0 0 0 0 0)
  | .sealExtend d a i => some (fFn 0x0D 7 d a 0 0 0 (0#17 ++ i))
  | .sealWipe d a l => some (fFn 0x0D 8 d a 0 0 0 (0#19 ++ bit l))
  | .add d a y w => some (encAlu 0x10 0 d a y w)
  | .sub d a y w => some (encAlu 0x11 0 d a y w)
  | .mul d a y w => some (encAlu 0x12 0 d a y w)
  | .mulh d a y w => some (encAlu 0x13 0 d a y w)
  | .mulhn d a y w => some (encAlu 0x14 0 d a y w)
  | .div d a y w => some (encAlu 0x15 0 d a y w)
  | .divn d a y w => some (encAlu 0x16 0 d a y w)
  | .rem d a y w => some (encAlu 0x17 0 d a y w)
  | .remn d a y w => some (encAlu 0x18 0 d a y w)
  | .and d a y w => some (encAlu 0x19 0 d a y w)
  | .or d a y w => some (encAlu 0x1A 0 d a y w)
  | .xor d a y w => some (encAlu 0x1B 0 d a y w)
  | .andn d a y w => some (encAlu 0x1C 0 d a y w)
  | .shl d a y w => some (encAlu 0x1D 0 d a y w)
  | .shr d a y w => some (encAlu 0x1E 0 d a y w)
  | .sha d a y w => some (encAlu 0x1F 0 d a y w)
  | .rol d a y w => some (encAlu 0x20 0 d a y w)
  | .ror d a y w => some (encAlu 0x21 0 d a y w)
  | .min d a y w => some (encAlu 0x22 0 d a y w)
  | .max d a y w => some (encAlu 0x23 0 d a y w)
  | .minn d a y w => some (encAlu 0x24 0 d a y w)
  | .maxn d a y w => some (encAlu 0x25 0 d a y w)
  | .setEq d a y w => some (encAlu 0x26 0 d a y w)
  | .setNe d a y w => some (encAlu 0x26 1 d a y w)
  | .setLt d a y w => some (encAlu 0x26 2 d a y w)
  | .setGe d a y w => some (encAlu 0x26 3 d a y w)
  | .setLtn d a y w => some (encAlu 0x26 4 d a y w)
  | .setGen d a y w => some (encAlu 0x26 5 d a y w)
  | .clz d a w => some (f8 0x27 d a 0 0 (0#6 ++ bit w) 0)
  | .ctz d a w => some (f8 0x28 d a 0 0 (0#6 ++ bit w) 0)
  | .popc d a w => some (f8 0x29 d a 0 0 (0#6 ++ bit w) 0)
  | .ext d a p l w => some (f8 0x2A d a 0 0 (0#6 ++ bit w) (0#8 ++ l ++ p))
  | .extn d a p l w => some (f8 0x2B d a 0 0 (0#6 ++ bit w) (0#8 ++ l ++ p))
  | .ins d a p l w => some (f8 0x2C d a 0 0 (0#6 ++ bit w) (0#8 ++ l ++ p))
  | .li d (.i20 x) => some (f8 0x2D d 0 0 0 0 x)
  | .li d (.i32 x) => some (f12 0x2D d 0 0 0 0 0 x)
  | .li d (.i64 x) => some (f16 0x2D d 0 0 0 0 0 x)
  | .la d x => some (encOff 0x2E d 0 0 x)
  | .beq a y o => some (encBranch 0x30 a y o)
  | .bne a y o => some (encBranch 0x31 a y o)
  | .blt a y o => some (encBranch 0x32 a y o)
  | .bge a y o => some (encBranch 0x33 a y o)
  | .bltn a y o => some (encBranch 0x34 a y o)
  | .bgen a y o => some (encBranch 0x35 a y o)
  | .bz a o => some (f8 0x36 0 a 0 0 0 o)
  | .bnz a o => some (f8 0x37 0 a 0 0 0 o)
  | .j x => some (encOff 0x38 0 0 0 x)
  | .call d x => some (encOff 0x39 d 0 0 x)
  | .jr a x => some (f8 0x3A 0 a 0 0 0 x)
  | .callr d a x => some (f8 0x3B d a 0 0 0 x)
  | .ld d a f sz z o => some (encMem 0x40 d a 0 f o.code z sz)
  | .st a f c sz o => some (encMem 0x41 0 a c f o.code false sz)
  | .push a f c d sz => some (encMem 0x42 d a c f 0 false sz)
  | .pushl a f d => some (encMem 0x43 d a 0 f 0 false .b)
  | .ldl d a f sz z => some (encMem 0x44 d a 0 f 0 z sz)
  | .stl a f c sz => some (encMem 0x45 0 a c f 0 false sz)
  | .ldx d a b x sz z => some (f8 0x46 d a b 0 (0#4 ++ bit z ++ sz.code) x)
  | .stx a b c x sz => some (f8 0x47 0 a b c (0#5 ++ sz.code) x)
  | .amoxAdd d a b c o s => some (encAmox 0 d a b c o s)
  | .amoxAnd d a b c o s => some (encAmox 1 d a b c o s)
  | .amoxOr d a b c o s => some (encAmox 2 d a b c o s)
  | .amoxXor d a b c o s => some (encAmox 3 d a b c o s)
  | .amoxMin d a b c o s => some (encAmox 4 d a b c o s)
  | .amoxMax d a b c o s => some (encAmox 5 d a b c o s)
  | .amoxMinn d a b c o s => some (encAmox 6 d a b c o s)
  | .amoxMaxn d a b c o s => some (encAmox 7 d a b c o s)
  | .amoxSwap d a b c o s => some (encAmox 8 d a b c o s)
  | .amoxCas d a b c m o s => some (fFn 0x48 9 d a b c (atQual o s) (0#15 ++ m))
  | .amoxFadd d a b c o => some (encAmox 10 d a b c o false)
  | .amoxFaddBf16 d a b c o => some (encAmox 11 d a b c o false)
  | .amoAdd d a c o s => some (encAmo 0 d a c o s)
  | .amoAnd d a c o s => some (encAmo 1 d a c o s)
  | .amoOr d a c o s => some (encAmo 2 d a c o s)
  | .amoXor d a c o s => some (encAmo 3 d a c o s)
  | .amoMin d a c o s => some (encAmo 4 d a c o s)
  | .amoMax d a c o s => some (encAmo 5 d a c o s)
  | .amoMinn d a c o s => some (encAmo 6 d a c o s)
  | .amoMaxn d a c o s => some (encAmo 7 d a c o s)
  | .amoSwap d a c o s => some (encAmo 8 d a c o s)
  | .amoCas d a c m o s => some (fFn 0x49 9 d a 0 c (atQual o s) (0#15 ++ m))
  | .amoFadd d a c o => some (encAmo 10 d a c o false)
  | .amoFaddBf16 d a c o => some (encAmo 11 d a c o false)
  | .lr d a q s => some (f8 0x4A d a 0 0 (0#3 ++ bit q ++ 0#2 ++ bit s) 0)
  | .sc d a c r s => some (f8 0x4B d a 0 c (0#2 ++ bit r ++ 0#3 ++ bit s) 0)
  | .waitrs d => some (f8 0x4C d 0 0 0 0 0)
  | .fence sc p u => some (f8 0x4D 0 0 0 0 (sc.code ++ 0#5) (0#6 ++ u ++ 0#2 ++ p))
  | .waita d a (.reg b) w => some (f8 0x4E d a b 0 (0#5 ++ 0#1 ++ bit w) 0)
  | .waita d a (.i20 x) w => some (f8 0x4E d a 0 0 (0#5 ++ 1#1 ++ bit w) x)
  | .clPref a x o => some (encOff 0x50 0 a (0#6 ++ bit o) x)
  | .clFlush a x => some (encOff 0x51 0 a 0 x)
  | .clInv a x o => some (encOff 0x52 0 a (0#6 ++ bit o) x)
  | .clZero a x => some (encOff 0x53 0 a 0 x)
  | .rgnDefine d a b => some (f8 0x54 d a b 0 0 0)
  | .rgnToSw d a b => some (f8 0x54 d a b 0 0 1)
  | .rgnFlush d a b => some (f8 0x54 d a b 0 0 2)
  | .rgnToCoherent d a b => some (f8 0x54 d a b 0 0 3)
  | .altOpen a => some (f8 0x55 0 a 0 0 0 0)
  | .altTake d a n => some (encAlt 0x56 d a n)
  | .altGive d a n => some (encAlt 0x57 d a n)
  | .altRead d a => some (f8 0x58 d a 0 0 0 0)
  | .altClose d a => some (f8 0x59 d a 0 0 0 0)
  | .taskPush d a b => some (f8 0x60 d a b 0 0 0)
  | .sheaf d a b => some (f8 0x61 d a b 0 0 0)
  | .join a => some (f8 0x62 0 a 0 0 0 0)
  | .trig => some (f8 0x63 0 0 0 0 0 0)
  | .retire => some (f8 0x64 0 0 0 0 0 0)
  | .yield => some (f8 0x65 0 0 0 0 0 0)
  | .spawn d a b c w => some (f8 0x66 d a b c (0#6 ++ bit w) 0)
  | .send d a b => some (f8 0x67 d a b 0 0 0)
  | .bind d a b => some (f8 0x68 d a b 0 0 0)
  | .unbind d a => some (f8 0x69 d a 0 0 0 0)
  | .wake d a b => some (f8 0x6A d a b 0 0 0)
  | .sleep d => some (f8 0x6B d 0 0 0 0 0)
  | .cpG2l x => some (encCopy 0x70 x)
  | .cpL2g x => some (encCopy 0x71 x)
  | .cpL2l x => some (encCopy 0x72 x)
  | .cpG2g x => some (encCopy 0x73 x)
  | .cpWait d => some (f8 0x74 d 0 0 0 0 0)
  | .vSets d a x => some (f8 0x80 (ofSlot d) a 0 0 0 x)
  | .vSetsBase d b => some (f8 0x80 (ofSlot d) 0 b 0 1 0)
  | .vGets d a x => some (f8 0x81 (ofSlot d) a 0 0 0 x)
  | .vAdd d a b => some (v2 0x82 d a b)
  | .vSub d a b => some (v2 0x83 d a b)
  | .vMul d a b => some (v2 0x84 d a b)
  | .vFma d a b c => some (v3 0x85 d a b c)
  | .vMin d a b => some (v2 0x86 d a b)
  | .vMax d a b => some (v2 0x87 d a b)
  | .vAbs d a => some (v1 0x88 d a)
  | .vNeg d a => some (v1 0x89 d a)
  | .vAnd d a b => some (v2 0x8A d a b)
  | .vOr d a b => some (v2 0x8B d a b)
  | .vXor d a b => some (v2 0x8C d a b)
  | .vShl d a s => some (encShift 0x8D d a s)
  | .vShr d a s => some (encShift 0x8E d a s)
  | .vCmpEq d a b => some (vCc d a b 0)
  | .vCmpNe d a b => some (vCc d a b 1)
  | .vCmpLt d a b => some (vCc d a b 2)
  | .vCmpGe d a b => some (vCc d a b 3)
  | .vSel d a b c => some (v3 0x90 d a b c)
  | .vCvt d a rm sat => some (f8 0x91 (ofSlot d) (ofSlot a) 0 0 (bit sat ++ rm.code ++ 0#4) 0)
  | .vRsum d a x => some (vRed 0x92 d a x)
  | .vRmax d a x => some (vRed 0x93 d a x)
  | .vRmin d a x => some (vRed 0x94 d a x)
  | .vExp2 d a => some (v1 0x95 d a)
  | .vRcp d a => some (v1 0x96 d a)
  | .vRsqrt d a => some (v1 0x97 d a)
  | .vBcast d (.reg a) => some (f8 0x98 (ofSlot d) a 0 0 0 0)
  | .vBcast d (.i32 x) => some (f12 0x98 (ofSlot d) 0 0 0 0 0 x)
  | .vQmax d a b t => some (f8 0x99 (ofSlot d) (ofSlot a) b 0 0 (0#16 ++ t))
  | .vQcvt d a b rm sat => some (f8 0x9A (ofSlot d) (ofSlot a) (ofSlot b) 0 (bit sat ++ rm.code ++ 0#4) 0)
  | .vrep (.reg a) k sd sa sb sc => some (f8 0x9B 0 a 0 0 0 (k ++ sc ++ sb ++ sa ++ sd))
  | .vrep (.i32 x) k sd sa sb sc => some (f12 0x9B 0 0 0 0 0 (k ++ sc ++ sb ++ sa ++ sd) x)
  | .vwait => some (f8 0x9C 0 0 0 0 0 0)
  | .vMov d a => some (v1 0x9D d a)
  | .mmLoadw d a => some (f8 0xA0 (ofUnit d) (ofSlot a) 0 0 0 0)
  | .mmGather d a => some (f8 0xA1 (ofSlot d) (ofSlot a) 0 0 0 0)
  | .mmRun d a b fm => some (f8 0xA2 (ofUnit d) (ofUnit a) (ofSlot b) 0 (0#4 ++ fm.code) 0)
  | .mmAccz d => some (f8 0xA3 (ofUnit d) 0 0 0 0 0)
  | .mmDrain d a .own => some (f8 0xA4 (ofUnit d) (ofSlot a) 0 0 0 0)
  | .mmDrain d a (.remote c) => some (f8 0xA4 (ofUnit d) (ofSlot a) 0 c 1 0)
  | .mmDrain d a (.wake b c) => some (f8 0xA4 (ofUnit d) (ofSlot a) b c 2 0)
  | .mmWait (some d) => some (f8 0xA5 (ofUnit d) 0 0 0 0 0)
  | .mmWait none => some (f8 0xA5 0 0 0 0 1 0)
  | .mmClaim d l => some (f8 0xA6 d 0 (ofUnit l) 0 0 0)
  | .mmRelease d l => some (f8 0xA6 d 0 (ofUnit l) 0 0 1)
  | .mmSetWeight d a => some (f8 0xA6 d a 0 0 0 2)
  | .mmStat d => some (f8 0xA7 d 0 0 0 0 0)
  | _ => none

/-- The words of a well-formed instruction in address order; an event has none (R21, R26, R27). -/
def encode : Instr → List (BitVec 32)
  | .pad => [padWord]
  | i =>
    match encodeFields i with
    | none => []
    | some f =>
      if f.len = 1 then [f.word0, f.word1] else if f.len = 2 then [f.word0, f.word1, f.w2]
      else [f.word0, f.word1, f.w2, f.w3]

/-- The bytes of a word, little-endian (R4). -/
def bytesOfWord (w : BitVec 32) : List Byte :=
  [w.extractLsb' 0 8, w.extractLsb' 8 8, w.extractLsb' 16 8, w.extractLsb' 24 8]

/-- Decoding of a list of words; missing words read 0. -/
def decodeList : List (BitVec 32) → Except Reject Instr
  | w0 :: w1 :: w2 :: w3 :: _ => decodeWords w0 w1 w2 w3
  | [w0, w1, w2] => decodeWords w0 w1 w2 0
  | [w0, w1] => decodeWords w0 w1 0 0
  | [w0] => decodeWords w0 0 0 0
  | [] => decodeWords 0 0 0 0

/-- `n` bytes of a number, lowest first (R4). -/
def bytesOfNat : Nat → Nat → List Byte
  | 0, _ => []
  | n + 1, w => BitVec.ofNat 8 w :: bytesOfNat n (w / 256)

/-- The instruction whose first `nbits` bits are `w`, later bits zero, read through the byte decoder. -/
def decodeTableWord (nbits w : Nat) : Option Instr :=
  match decode (bytesOfNat 16 (w % 2 ^ nbits)) with
  | .ok i => some i
  | .error _ => none

end Sys2Proof
end

