-- ==== Sys2Proof/Config.lean ====
section
/-! DEFINITION. What the spec leaves open: constants without a body, so that no proof can learn a value of them. -/

namespace Sys2Proof.Config

/-- A value that the spec does not state, fresh at each use: applied to `State.free`, which the use advances (log 6). -/
opaque freeValue : Nat → Word

/-- Which of its 256 directory sets a slice gives a line: R227 says "indexed by line address" and no more (log 20). -/
opaque dirSet : Nat → Nat

/-- Which of its 512 L2 sets a slice gives a line (R227: "8,192 lines, 16-way"; log 79). -/
opaque l2Set : Nat → Nat

/-- SHA-384 of a byte string (R352, R354): the algorithm is named by the spec and defined outside it (log 21). -/
opaque sha384 : List Byte → BitVec 384

/-- ECDSA P-384 signature r ‖ s of a digest under a private key (R356). -/
opaque ecdsaSign : BitVec 384 → BitVec 384 → BitVec 768

/-- Whether a signature verifies over a digest under a public key X ‖ Y (R356). -/
opaque ecdsaVerify : BitVec 768 → BitVec 384 → BitVec 768 → Bool

/-- Whether X ‖ Y is a point of P-384 (R356). -/
opaque onCurve : BitVec 768 → Bool

/-- ECDH on P-384 of a private key and a point, followed by HKDF-SHA-384 extract (R356). -/
opaque ecdhExtract : BitVec 384 → BitVec 768 → BitVec 384

/-- HKDF-SHA-384 expand of a key with 40 info bytes (R357). -/
opaque hkdfExpand : BitVec 384 → BitVec 320 → BitVec 384

/-- The public key X ‖ Y of a private key (R357). -/
opaque publicKey : BitVec 384 → BitVec 768

/-- The identity key that step 1 of boot derives from the fuses, the same for all four dies (R352). -/
opaque identityKey : BitVec 384

/-- Entropy of the conditioned source (R356): a fresh value at each use. -/
opaque entropy : Nat → BitVec 384

/-- The power figures of the reeve, fused for a die at test (R335): S per code, and B. -/
opaque fusedS : Nat → Nat
opaque fusedB : Nat → Nat

/-- The power, in W, that a die's reeve measures over the epoch that ends at a REFT tick (R335). -/
opaque power : Nat → Nat → Nat

/-- The digests that the ROM extends MEAS0 and MEAS3 with at boot step 1 (R354). -/
opaque romDigest : BitVec 384
opaque fuseDigest : Nat → BitVec 384

/-- The order in which the switches of a reduction window merge the contributions of an epoch (R344). -/
opaque mergeOrder : Nat → List (BitVec 32) → List (BitVec 32)

end Sys2Proof.Config
end

