-- ==== Sys2Proof/Machine/State.lean ====
section
/-! DEFINITION. The state of the package as plain data, the reasons a step can stop, and the state after reset. -/

namespace Sys2Proof.Machine

/-- Why the machine stops. -/
inductive Fault where
  /-- Raised by `step` when the package has no supply (after POWER_OFF, R349) and nothing restores it: safe. -/
  | noSupply
  deriving DecidableEq, Repr

/-- Why a step is refused. -/
inductive Refusal where
  /-- Raised by an arm of `exec` for an instruction without a meaning yet: safe. No arm raises it at present. -/
  | notModelled (mnemonic : String)
  deriving DecidableEq, Repr

/-- Privilege levels (R117). -/
inductive Priv where
  | user | kernel | steward
  deriving DecidableEq, Repr

/-- Slot states (R89); a reserved origin slot is one whose thread is away. -/
inductive Run where
  | free | ready | waiting | sleeping
  deriving DecidableEq, Repr

/-- Trap causes (R299). -/
inductive Cause where
  | ill | priv | align | divz | transf | transl | transs | deed | deedlate | timer | mmcombo | amoerr | straddle
  | soft | plots | migrate | mchk
  deriving DecidableEq, Repr

/-- Kinds of physical access (R221); `none` of a lookup is an unpopulated address (R17). -/
inductive Kind where
  | cacheable | software | streaming | device | system
  deriving DecidableEq, Repr

/-- A shape record: four 64-bit words (R140). -/
structure Shape where
  w0 : Word
  w1 : Word
  w2 : Word
  w3 : Word
  deriving DecidableEq, Repr

/-- Credentials of a queue entry or a copy command (R192). -/
structure Creds where
  atp : Word := 0
  pasid : Word := 0
  priv : Priv := .user
  deriving DecidableEq, Repr

/-- Where a record came from (R200, R202). -/
inductive Form where
  | plain
  | pooled (die line : Nat)
  | expanded (die line launch index : Nat)
  deriving DecidableEq, Repr

/-- A queue entry (R193): the record's virtual and physical address, its credentials, priority and payload. `words`
holds an instance's pool line (R200); `kept` the plots and offsets of a record that yielded (R104). -/
structure QEntry where
  id : Nat
  recVa : Word
  recPa : Nat
  form : Form := .plain
  words : List Word := []
  creds : Creds
  prio : Nat
  payload : Word := 0
  kept : Option (BitVec 256 × List Word) := none
  deriving DecidableEq, Repr

/-- A staged record: its pinned plots, its footprint offsets, and whether its fill is complete (R194, R195). -/
structure Stage where
  entry : QEntry
  plots : BitVec 256
  offs : List Word
  filled : Bool
  deriving DecidableEq, Repr

/-- The record that a thread runs (R197, R200). -/
structure Work where
  recVa : Word
  recPa : Nat
  form : Form
  words : List Word
  plots : BitVec 256
  offs : List Word
  creds : Creds
  prio : Nat
  deriving DecidableEq, Repr

/-- What the reply to an outstanding instruction writes: the destination, the length that the PC advances by, the
operand's size in bytes, whether it is sign-extended, and the address that an error reports. -/
structure Cont where
  d : Option Reg
  len : Nat
  size : Nat
  sign : Bool
  va : Word
  deriving DecidableEq, Repr

/-- Why a waiting or sleeping thread does not compete for issue (R89, R95, R96). -/
inductive Wait where
  | none
  /-- Awaits a set of operations, then issues the same instruction again with the operands of its first issue. -/
  | ops (ids : List Nat)
  | reply (id : Nat)
  /-- WAITA asleep on a word since a tick; `tracked` when its L1 holds the line with a watch mark, `track` when it may
  (R100, R365). -/
  | watch (pa size : Nat) (cmp : Word) (d : Reg) (track tracked : Bool) (since : Nat)
  /-- A watched write or an invalidation came; WAITA_WAKE makes the thread ready. -/
  | woken
  | latch
  | resv (d : Reg)
  /-- VWAIT, MM.WAIT or CP.WAIT: the engine commands it covers, and CP.WAIT's destination. -/
  | engine (ids : List Nat) (d : Option Reg)
  /-- Stalled on a full queue until so many of its entries are reserved for the thread (R96, R167). -/
  | full (q : QueueKind) (need : Nat)
  | window
  | notice (core : Nat) (d : Reg)
  /-- Step 2 of a migration (R242) to a die for a line, or home (`none`). -/
  | leaving (die : Nat) (line : Option Nat)
  | transit
  /-- An ALT instruction awaits its turn at its core's entry of a counter: a take request of the core is outstanding, the
  entry is frozen (R262), or, with `room`, all 16 entries are (R259). -/
  | allot (line : Nat) (room : Bool)
  /-- A unit that the instruction needs is busy (a carve in progress, a full ring); it issues again when it frees. -/
  | hold
  /-- Stalled, the instruction unissued, by the FIFO of a die link that does not drain (R337). -/
  | link
  /-- CTX.SAVE awaits the writes of its image (R315). -/
  | saving (ids : List Nat)
  /-- A SEAL instruction awaits the acknowledgement of its writes, and then answers 1 (R356). -/
  | acks (ids : List Nat)
  | debug
  deriving DecidableEq, Repr

/-- An unacknowledged store of a thread's window (R96, R223): the context number of its issue, which a DEEDLATE of it is
addressed by (R328), the domain that issued it (R317), and whether it is an ST.STRM (R252). -/
structure Unacked where
  id : Nat
  pa : Nat
  size : Nat
  ctx : Option Nat := none
  dom : Domain := .acc
  strm : Bool := false
  /-- A CL.FLUSH's write-back, which takes no entry of the window (R254). -/
  back : Bool := false
  deriving DecidableEq, Repr

/-- One hardware thread's context, keyed by its origin thread number (R13, R89, R115). -/
structure Thread where
  run : Run := .free
  core : Nat
  slot : Nat
  away : Bool := false
  g : Map Word := []
  pc : Word := 0
  lvl : Nat := 0
  priv : Priv := .user
  pv1 : Priv := .user
  pv2 : Priv := .user
  /-- The TVAL of a held TIMER; TIMPEND reads 1 when there is one (R302). -/
  timPend : Option Word := none
  cause1 : Word := 0
  ret1 : Word := 0
  val1 : Word := 0
  scratch1 : Word := 0
  cause2 : Word := 0
  ret2 : Word := 0
  val2 : Word := 0
  scratch2 : Word := 0
  tdeleg : Word := 0
  kvec : Word := 0
  uvec : Word := 0
  tmr : Word := 0
  wid : Word := 0
  ctxnum : Word := 0
  atp : Word := 0
  pasid : Word := 0
  latchV : Bool := false
  latchVal : Word := 0
  shapes : Map (Option Shape) := []
  /-- Lines of the reservation set, oldest first (R294). -/
  resv : List Nat := []
  hit : Nat := 0
  /-- TVALs of DEEDLATE traps not yet taken, how many of their 16 have been taken, and the count of those beyond the 16
  (R302). -/
  late : List Word := []
  lateTaken : Nat := 0
  lateMore : Nat := 0
  mchk : List Word := []
  work : Option Work := none
  unacked : List Unacked := []
  /-- Operations that later w and o operations must follow (R298). -/
  gate : List Nat := []
  /-- Stores and adds to the system region that their target has not confirmed (R289). -/
  unconfirmed : List Nat := []
  /-- Writes to system targets, of its copy commands that have completed, that the target has not confirmed: the operation
  that each belongs to, and the message (R275). -/
  copyOut : List (Nat × Nat) := []
  copyFault : Nat := 0
  /-- First core cycle in which it may issue again (R92). -/
  readyAt : Nat := 0
  wait : Wait := .none
  cont : Option Cont := none
  /-- The commons as they stood when an awaiting instruction first issued (R110; log 9). -/
  snap : Option (Map Word) := none
  deriving DecidableEq, Repr

/-- A commons write that has issued and not yet been written back (R110, R111). -/
structure CWrite where
  reg : Nat
  due : Nat
  thread : Nat
  value : Word
  deriving DecidableEq, Repr

/-- L1 data line states (R228, R239). -/
inductive L1St where
  | v | d | c | m
  deriving DecidableEq, Repr

/-- An L1 data line: state, bytes, the slots that watch it, and the recency stamp of R222. -/
structure L1Line where
  st : L1St
  data : Line
  watch : List Nat := []
  stamp : Nat := 0
  /-- Bytes of an M line that differ in standing from the home slice (R239). -/
  dirty : BitVec 128 := 0
  deriving DecidableEq, Repr

/-- A TLB entry (R321). -/
structure TlbEntry where
  pasid : Word
  asid : Nat
  glob : Bool
  vpn : Nat
  level : Nat
  ppn : Nat
  perms : Word
  pbmt : Nat
  gen : Nat
  stew : Bool := false
  deriving DecidableEq, Repr

/-- A remote local operation at a porter (R153, R157, R158). -/
inductive PortOp where
  | load (size : Nat)
  | store (size : Nat) (v : Word)
  | atomic (fn : AtFn) (size : Nat) (x cmp : Word)
  deriving DecidableEq, Repr

/-- An arrival in a porter's queue. -/
structure Arrival where
  thread : Nat
  off : Nat
  op : PortOp
  deriving DecidableEq, Repr

/-- A source element that a group has read for a later group of the same block: the source's place, the element's linear
index in it, its code and its tag (R74). -/
structure HeldElem where
  pos : Nat
  idx : Nat
  code : Nat
  tag : BitVec 16
  deriving DecidableEq, Repr

/-- A sequencer entry (R144, R145, R150): its instruction, the thread's records and the register operand as they stood
at issue, and its iterations. `group` joins the entries of one VREP; `send` and `amax` serve V.QMAX (R165). -/
structure SeqEntry where
  id : Nat
  thread : Nat
  op : Instr
  recs : Map (Option Shape) := []
  x : Word := 0
  group : Nat
  /-- Staggers of the positions D, A, B and C. -/
  stag : List (BitVec 4) := []
  iter : Nat := 0
  /-- Elements of the present iteration's destination that its groups have written (R147). -/
  done : Nat := 0
  /-- What the present block's first group has read for its second (R74, R147). -/
  held : List HeldElem := []
  count : Nat := 1
  /-- Columns whose delivery has not yet been accepted. -/
  send : List Nat := []
  amax : Option (BitVec 32) := none
  deriving DecidableEq, Repr

/-- Mill commands (R171). -/
inductive MillOp where
  | loadw (latch : Nat) (rec : Shape)
  | gather (rec idx : Shape)
  | run (acc latch : Nat) (fmt : MmFmt) (rec : Shape)
  | accz (acc : Nat)
  | drain (acc : Nat) (rec : Shape) (mode core : Nat) (box : Nat)
  deriving DecidableEq, Repr

/-- How far a Mill command has come (R172): a run streams, then finishes; a drain writes, then wakes, and its wake may
wait at its postbox as a message (R205). -/
inductive MillPh where
  | queued | streaming | streamed | waking
  | arrived (msg : Nat)
  deriving DecidableEq, Repr

structure MillCmd where
  id : Nat
  thread : Nat
  op : MillOp
  ph : MillPh := .queued
  /-- The rows that a granted run multiplies, with their tags (R185). -/
  rows : List (List Byte × List (BitVec 16)) := []
  deriving DecidableEq, Repr

/-- Copy directions (R216). -/
inductive CopyDir where
  | g2l | l2g | l2l | g2g
  deriving DecidableEq, Repr

/-- How far a copy command has come (R216, R217): its payload is to be written, its payload's updates are under way, or
its flag's are. -/
inductive CopyPh where
  | queued | payload | flag
  deriving DecidableEq, Repr

/-- A queued copy command with its operands read at issue (R216); `after` names its thread's earlier stores, `pend` the
home transactions whose replies its writes await. -/
structure CopyCmd where
  id : Nat
  thread : Nat
  dir : CopyDir
  args : CpArgs
  src : Word
  dst : Word
  len : Nat
  flag : Word
  creds : Creds
  after : List Nat
  ph : CopyPh := .queued
  pend : List Nat := []
  deriving DecidableEq, Repr

/-- An allotment table entry (R259). `asking` while its join, its take request or its leave is in flight (R261, R273). -/
structure AltEntry where
  line : Nat
  count : Nat := 0
  frozen : Bool := false
  asking : Bool := false
  deriving DecidableEq, Repr

/-- One core's state: registers, queues, caches, engines and accounting registers. -/
structure Core where
  c : Map Word := []
  cpend : List CWrite := []
  commask : Word := 0
  /-- Writes of COMMASK that have issued, each with its write-back cycle (R112, R116). -/
  cmPend : List (Nat × Word) := []
  /-- Core cycles, and the count at which the present REFT tick began: DCYC as the core reads it is its die's count plus
  the difference (R19, R105). -/
  cycle : Nat := 0
  base : Nat := 0
  /-- The context that issued last: 0 to 15, or 16 for the porter; the search starts after it (R91). -/
  last : Nat := 16
  gated : Bool := false
  idle : Nat := 0
  plotRsv : BitVec 256 := 0
  plotPin : BitVec 256 := 0
  porter : List Arrival := []
  portDone : Nat := 0
  portAt : Nat := 0
  seq : List SeqEntry := []
  seqTurn : Nat := 15
  /-- Exchange buffer: key column × 16 + tag (R165). -/
  exch : Map (Option (BitVec 32)) := []
  mill : List MillCmd := []
  /-- Gathered rows that no run has used (R179). -/
  latchRows : Option (List (List Byte × List (BitVec 16))) := none
  errLost : Bool := false
  errNowake : Bool := false
  errIdx : Bool := false
  /-- Accumulators: key a × 16384 + row × 256 + column (R169). -/
  acc : Map (BitVec 32) := []
  /-- Accumulator words with a double-bit error, by the same key (R180; log 19). -/
  accErr : List Nat := []
  copy : List CopyCmd := []
  /-- Threads stalled on a full queue, oldest first, and those an entry is reserved for (R96). -/
  stall : List (QueueKind × Nat) := []
  held : List (QueueKind × Nat) := []
  taskq : List QEntry := []
  overq : List QEntry := []
  /-- Entries ever put into each of the core's overflow rings: where the next one goes (R199). -/
  ovPos : Map Nat := []
  staging : List Stage := []
  notices : List Nat := []
  /-- Slot-free notices not yet sent (R212). -/
  owed : Nat := 0
  l1 : Map (Option L1Line) := []
  l1clock : Nat := 0
  pushIn : Nat := 0
  pushRef : Nat := 0
  icache : Map (Option Line) := []
  tlb : List TlbEntry := []
  alt : List AltEntry := []
  /-- Threads whose ALT instructions await their turn at the core's table, each with its counter, in the order of their
  issue cycles (R262, R265). -/
  altq : List (Nat × Nat) := []
  altAsk : Nat := 0
  altRet : Nat := 0
  cdlog : Word := 0
  cdpasid : Word := 0
  cdres : Word := 0
  /-- The directory command in progress, for CDRES (R307). -/
  cdcmd : Option Word := none
  deriving DecidableEq, Repr

/-- A weight latch (R169, R175 to R177): element and tag codes, column after column. -/
structure Latch where
  claim : Option Nat := none
  /-- OWN as it reads while the latch is not claimed (R181). -/
  own : Nat := 0
  ann : Option Nat := none
  type : Option Nat := none
  elems : List Byte := []
  tags : List (BitVec 16) := []
  deriving DecidableEq, Repr

/-- The Mill of one tile (R169, R173, R181). -/
structure Tile where
  w0 : Latch := {}
  w1 : Latch := {}
  /-- WT(l) − 1 for lane l. -/
  wt : Map Nat := []
  /-- The run that holds the array. -/
  holder : Option Nat := none
  /-- The round (R173): whether none is in progress, the lane in its visit, the runs it has started in it, and the weights
  of the round. -/
  idle : Bool := true
  lane : Nat := 0
  used : Nat := 0
  rwt : Map Nat := []
  busy : Word := 0
  runs : Word := 0
  cyc : Map Word := []
  deriving DecidableEq, Repr

/-- A die link as its die sees it: LINKSTAT's state and wakes (R246), ticks without traffic, ticks asleep, and ticks
that a message (`front`) or a wake has waited for an answer (R248). `want`: an access without a message waits for it. -/
structure Link where
  st : Nat := 0
  wakes : Nat := 0
  idle : Nat := 0
  slept : Nat := 0
  waited : Nat := 0
  front : Option Nat := none
  want : Bool := false
  deriving DecidableEq, Repr

/-- A clock step in progress (R336): its end tick, the DCYC at its start, old and new code. -/
structure Relock where
  finish : Nat
  dcyc : Nat
  old : Nat
  new : Nat
  deriving DecidableEq, Repr

/-- A key slot of the crypto engine: a secret of 48 bytes, or an ECDSA key pair (R356, R357). -/
inductive KeySlot where
  | empty
  | secret (k : BitVec 384)
  | pair (k : BitVec 384)
  deriving DecidableEq, Repr

/-- A ROM command waiting for the steward (R346). -/
structure RomCmd where
  code : Nat
  tag : Nat
  stew : Domain
  args : List Word
  deriving DecidableEq, Repr

/-- Where a die's boot stands (R347). -/
inductive Boot where
  | off | waitBegin | waitLoad | failed | serving
  deriving DecidableEq, Repr

/-- A held entry of a host event ring (R330). -/
structure DeedEvent where
  w0 : Word
  w1 : Word
  deriving DecidableEq, Repr

/-- One die: clocks, links, coherence, queue-engine, deed-port and steward registers. -/
structure Die where
  lost : Bool := false
  alone : Bool := false
  dcyc : Nat := 0
  half : Bool := false
  fcur : Nat := 32
  fmax : Nat := 40
  fmin : Nat := 20
  steps : Nat := 0
  lastStep : Nat := 0
  relock : Option Relock := none
  /-- The reeve's figures of the die: B, and the ready or waiting slots summed over the epoch's ticks (R335). -/
  baseB : Option Int := none
  demand : Nat := 0
  pwrcap : Nat := 3200
  pwrnow : Nat := 0
  slhash : Word := 0
  /-- Writes of SLHASH that have issued: the writing core, its write-back cycle, the value (R116). -/
  slPend : List (Nat × Nat × Word) := []
  slicemap : Word := 0xFFFF_FFFF_FFFF_FFFF
  carve : BitVec 8 := 0
  carveBusy : BitVec 8 := 0
  carveErr : Bool := false
  linkH : Link := {}
  linkV : Link := {}
  linkctl : Word := 0
  regions : Map Word := []
  kpost : Word := 0
  dkvec : Word := 0
  dqbase : Word := 0
  cqobase : Word := 0
  poolbase : Word := 0
  poolsize : Word := 0
  /-- Pool lines in use. -/
  pool : List Nat := []
  dieq : List QEntry := []
  /-- Entries ever put into each ring of the die queue: where the next one goes (R199). -/
  dqPos : Map Nat := []
  /-- Cores that wait for a record of the die queue, in order (R194). -/
  asks : List Nat := []
  spills : Word := 0
  postdrop : Word := 0
  cdbase : Word := 0
  migq : List Nat := []
  tlb : List TlbEntry := []
  sdDone : Nat := 0
  /-- Shootdown commands not yet complete, each with the identifier that followed its acceptance (R324). -/
  sdq : List (Word × Nat) := []
  dpevq : Word := 0
  dphead : Nat := 0
  dptail : Nat := 0
  dppost : Word := 0
  reject : Nat := 0
  hostlate : Nat := 0
  rollLateHost : Nat := 0
  rollLateAcc : Nat := 0
  rollbase : Word := 0
  /-- Where boot step 7 placed the roll (R348), and how many frames it covers; 0 before. -/
  rollAt : Nat := 0
  rollLen : Nat := 0
  /-- The dies that share the roll, as the latest boot step 7 of one of them found them joined by trained links (R348). -/
  rollDies : List Nat := []
  events : List DeedEvent := []
  /-- MSI-X vectors raised, latest last (R338). -/
  msi : List Nat := []
  mcrec : Word := 0
  pkgid : Word := 0
  lroute : Map Word := []
  rdwin : Map Word := []
  winerr : Map Word := []
  bootscar : Word := 0
  boot : Boot := .off
  image : Option (BitVec 384) := none
  romq : List RomCmd := []
  /-- A SWITCH that waits for the moment with no call in service: digest, tick of its step 2, tag, completion (R351). -/
  switch : Option (BitVec 384 × Nat × Nat × Nat) := none
  nonce : BitVec 32 := 0
  meas : Map (BitVec 384) := []
  keys : Map KeySlot := []
  hashes : Map (List Byte) := []
  /-- Stream key sets: key ((port × 16 + stream) × 2 + rx) × 2 + set (R353). -/
  streamKeys : Map (Option (BitVec 256)) := []
  /-- The set each transmitter uses, and the set each receiver has retired to; same key without the set. -/
  streamTx : Map Nat := []
  streamRx : Map Nat := []
  insecure : List Nat := []
  debugOpen : Bool := false
  dbgbrk : BitVec 256 := 0
  /-- SPDM progress: 0 none, 1 version, 2 capabilities, 3 negotiated, 4 key exchange, 5 session (R352): on the host port,
  and with the peer stewards on the die's scale-up links 0 to 3. -/
  spdm : Nat := 0
  peers : Map Nat := []
  deriving DecidableEq, Repr

/-- A Deed Roll entry (R326). -/
structure Deed where
  owner : Domain := .free
  state : Nat := 0
  cpart : Domain := .free
  dclass : Nat := 0
  exp : Bool := false
  gen : BitVec 16 := 0
  /-- The deadline tick T_d while recalling; DL is its low 32 bits. -/
  due : Nat := 0
  deriving DecidableEq, Repr

/-- Directory forms of a line (R227): N has no entry, X is dropped. -/
inductive DirForm where
  | n | x
  | p (cores : List Nat)
  | t (mask : BitVec 32)
  deriving DecidableEq, Repr

/-- A line's directory record: form, agent bits 0 to 4, watch bit, the time its entry was made. -/
structure Dir where
  form : DirForm := .n
  agents : List Nat := []
  w : Bool := false
  born : Nat := 0
  deriving DecidableEq, Repr

/-- A bound postbox (R204, R214). -/
structure Post where
  recVa : Word
  recPa : Nat
  creds : Creds
  deriving DecidableEq, Repr

/-- Context directory entries (R306, R309): the log's entries and its overflow fields. -/
inductive CtxSt where
  | free | absent | resident | restoring
  deriving DecidableEq, Repr

structure Ctx where
  st : CtxSt := .free
  killed : Bool := false
  base : Nat := 0
  size : Nat := 0
  pasid : Word := 0
  core : Nat := 0
  slot : Nat := 0
  log : List (Nat × Word) := []
  ovf : Bool := false
  ovWake : Word := 0
  ovWoke : Bool := false
  ovHit : Nat := 0
  ovLate : Nat := 0
  deriving DecidableEq, Repr

/-- A sheaf launch in progress (R202, R203). -/
structure Launch where
  id : Nat
  hdrVa : Word
  hdrPa : Nat
  tmplVa : Word
  tmplPa : Nat
  creds : Creds
  target : Nat
  next : Nat := 0
  live : Nat := 0
  deriving DecidableEq, Repr

/-- What an atomic at a home does (R293, R296). -/
inductive HomeOp where
  | atomic (fn : AtFn) (size : Nat) (x cmp : Word)
  | sc (size : Nat) (v : Word)
  deriving DecidableEq, Repr

/-- What a read at a home is for: a plain load's fill, a read without a fill, an LR, or a WAITA (R228, R295, R100). -/
inductive ReadFor where
  | fill | fillSw | acquire | strm | lr
  /-- The fill of a plain store into a software-managed line, with the store's bytes (R239). -/
  | fillStore (v : Line)
  /-- `track`: the line may be held in the thread's L1. -/
  | waita (cmp : Word) (d : Reg) (track : Bool)
  /-- CL.PREF: the L1, a software-managed line's C, or the slice alone (R254). -/
  | pref | prefSw | prefL2
  deriving DecidableEq, Repr

/-- Requests of the allotment instructions (R261, R381): `table` is false under R381; the count that a take carries stays in
its frozen entry (log 34). A leave carries the units it returns and the D of its ALT.CLOSE; `left` is a leave with nothing to
return: one whose counter a close has ended since, or an ALT.CLOSE under R381. -/
inductive AltReq where
  | join (open' : Bool)
  | take (n : Nat) (table : Bool)
  | give (n : Nat)
  | read
  | leave (n d : Nat)
  | left (d : Nat)
  deriving DecidableEq, Repr

/-- Roll transactions (R327). -/
inductive RollOp where
  | offer | accept
  | lend (k : Nat)
  | recall | return | query
  deriving DecidableEq, Repr

/-- Messages in flight. `thread` numbers name the issuer. -/
inductive Body where
  | store (thread pa size : Nat) (v : Line)
  | push (thread pa : Nat) (data : Option (Nat × Line)) (cores : List Nat) (reach : Bool)
  | read (thread pa size : Nat) (why : ReadFor)
  /-- The write-back of an M line: its bytes, and which of them it has modified (R239). -/
  | wback (thread line : Nat) (data : Line) (dirty : BitVec 128)
  | atomic (thread pa : Nat) (op : HomeOp)
  | alt (thread core line : Nat) (r : AltReq)
  | census (line core : Nat)
  /-- Coherence messages of one transaction: an update, a push offer, an invalidation or a probe to a core. -/
  | update (core pa size : Nat) (v : Line) (txn : Nat)
  | offer (core line : Nat) (txn : Nat)
  | inval (core line : Nat) (txn : Nat)
  | probe (core line : Nat) (txn : Nat)
  | agentInval (agent line : Nat) (txn : Nat)
  | ack (thread : Nat) (op : Nat)
  | watchEnd (thread line : Nat)
  | hit (thread pos : Nat) (ctx : Option Nat) (txn : Nat)
  | arrive (core : Nat) (a : Arrival)
  | wake (thread ctx : Nat) (v : Word) (check : Option Word)
  | wakeTo (ctx thread : Nat) (v : Word)
  | late (thread : Nat) (ctx : Option Nat) (tval : Word)
  | lateTo (thread ctx : Nat) (tval : Word)
  | absent (thread ctx : Nat)
  /-- A CTX.LOAD's request, with the image's words that it has read (R316). -/
  | restore (thread ctx : Nat) (img : List Word)
  | spawn (thread core : Nat) (code arg : Word) (wait : Bool)
  | post (thread : Option Nat) (box : Nat) (v : Word)
  | sheaf (launch : Nat)
  | roll (thread : Nat) (op : RollOp) (frame : Nat) (me : Domain)
  | region (thread op index : Nat) (v : Word) (die : Nat)
  | migrate (thread die : Nat) (line : Option Nat)
  | system (thread pa size : Nat) (load : Bool) (atomic : Option AtFn) (v cmp : Word) (posted : Bool)
  | genShoot (frame : Nat) (reply : Option (Nat × Word))
  | cmd (core num op : Nat)
  | qmax (core col tag entry : Nat) (v : BitVec 32)
  deriving DecidableEq, Repr

/-- Where a message is going: messages of one source to one destination keep their order (R227). -/
inductive Node where
  | core (c : Nat)
  | slice (d s : Nat)
  | unit (d : Nat)
  | box (p : Nat)
  | dir (d : Nat)
  | outside (k : Nat)
  deriving DecidableEq, Repr

/-- A message: `after` names operations that must be performed before it is delivered (R298). -/
structure Msg where
  id : Nat
  src : Node
  dst : Node
  after : List Nat := []
  body : Body
  deriving DecidableEq, Repr

/-- What a home transaction does once every sharer and agent has replied (R229). -/
inductive Done where
  | ack (thread : Nat) (op : Nat)
  | reply (thread : Nat) (v : Word) (err : Bool)
  /-- The result 1 of an SC that has stored (R296). -/
  | sc (thread : Nat)
  /-- Serve the request that met a dropped line (R230). -/
  | again (m : Msg)
  /-- The census of a request (R261): the line's requester waits for the holders' counts; `h` holders before the request. -/
  | census (thread core h : Nat) (r : AltReq)
  | region (thread die index op : Nat)
  /-- The acknowledgement that an agent's write or atomic awaits (R290). -/
  | agent (agent op : Nat)
  | nothing
  deriving DecidableEq, Repr

/-- A transaction that keeps a line busy (R229): its outstanding replies, and the sharers found so far. -/
structure Txn where
  id : Nat
  line : Nat
  left : Nat
  found : List Nat := []
  done : Done
  deriving DecidableEq, Repr

/-- An open allotment counter in its home table (R260): the requests in service are a transaction of the line. -/
structure AltHome where
  line : Nat
  used : Nat
  deriving DecidableEq, Repr

/-- A word of a reduction window in the switches (R344): contributions so far, and merged adds. -/
structure WinWord where
  parts : List (BitVec 32) := []
  adds : List (BitVec 32) := []
  since : Nat := 0
  deriving DecidableEq, Repr

/-- Who moves next: a core cycle, an event, or a REFT tick (log 3). -/
inductive Mover where
  | core (c : Nat)
  | event (i : Instr)
  | tick
  deriving DecidableEq, Repr

/-- The whole package. -/
structure State where
  powered : Bool := true
  threads : Map (Option Thread) := []
  cores : Map (Option Core) := []
  tiles : Map (Option Tile) := []
  dies : Map (Option Die) := []
  mem : List Host.Cell := []
  /-- Local stores: core × 0x8_0000 + offset (R15). -/
  loc : List Host.Cell := []
  roll : Map (Option Deed) := []
  /-- Grants that an OFFER or a RETURN has removed and that stand to the end of the present tick (R328). -/
  losing : List (Nat × Domain) := []
  /-- Generations of 2 MiB and 1 GiB spans: key 2 × span number, plus 1 for the 1 GiB ones × 2 (R322). -/
  span2m : Map (BitVec 16) := []
  span1g : Map (BitVec 16) := []
  dir : Map Dir := []
  posts : Map (Option Post) := []
  ctxs : Map Ctx := []
  launches : List Launch := []
  /-- Registrations of the slices: thread and line, oldest first (R294). -/
  regs : List (Nat × Nat) := []
  altHomes : List AltHome := []
  msgs : List Msg := []
  txns : List Txn := []
  /-- Lines that the L2 slices hold, each with its mark "first for replacement" (R227, R251, R252). -/
  l2 : Map (Option Bool) := []
  /-- Words of 8 bytes of the local stores (`true`, keyed as `loc`) and of package memory that hold a double-bit error,
  for the reads that no event brings one to; only the outside of the model makes or mends one (R132, R316; log 19). -/
  flaws : List (Bool × Nat) := []
  /-- Writes and atomics of agents that no home has acknowledged: agent and identifier (R290). -/
  agentOps : List (Nat × Nat) := []
  /-- Die pairs between which something has crossed the links in the present tick (R246). -/
  carried : List (Nat × Nat) := []
  windows : Map WinWord := []
  reft : Nat := 0
  /-- The data that the latest read from outside was answered with (model's own; log 5). -/
  answer : Option Line := none
  /-- The latest read from outside met a double-bit error: its completion is poisoned (R342). -/
  poison : Bool := false
  /-- The REFT tick of the latest reeve decision (R335, R366). -/
  epochAt : Nat := 0
  /-- Model's own, false between steps: an access within the present operation met a busy line, a bin under way or a
  closed link, so the operation waits (log 77). -/
  met : Bool := false
  /-- Model's own: the identifier from which the present step numbers its messages and transactions (log 77). -/
  stepAt : Nat := 0
  /-- Model's own: the movers to come, whether requests are served at once, the thread an instruction acts for, the
  next identifier, and the counter of free values (logs 3 to 6). -/
  sched : List Mover := []
  prompt : Bool := true
  cur : Nat := 0
  nextId : Nat := 0
  free : Nat := 0
  deriving DecidableEq, Repr

/-- The machine right after reset: every map is empty, so every register reads the value its structure gives it. -/
def State.reset : State := {}

end Sys2Proof.Machine
end

