-- ==== Sys2Proof/Machine/Maps.lean ====
section
/-! DEFINITION. Sparse maps and memories: one read, one write, and wider accesses built from them in little-endian order. -/

namespace Sys2Proof.Machine

/-- What the map holds at `k`; `d` is what an unlisted key reads as. -/
def mget (d : α) : Map α → Nat → α
  | [], _ => d
  | (k', v) :: m, k => if k' = k then v else mget d m k

/-- The map without key `k`. -/
def merase : Map α → Nat → Map α
  | [], _ => []
  | (k', v) :: m, k => if k' = k then merase m k else (k', v) :: merase m k

/-- Insertion in rising key order, of a key that the map does not list. -/
def minsert : Map α → Nat → α → Map α
  | [], k, v => [(k, v)]
  | (k', v') :: m, k, v => if k < k' then (k, v) :: (k', v') :: m else (k', v') :: minsert m k v

/-- The map with `v` at `k`; writing what an unlisted key reads as removes the entry. -/
def mset [DecidableEq α] (d : α) (m : Map α) (k : Nat) (v : α) : Map α :=
  if v = d then merase m k else minsert (merase m k) k v

/-- A byte that nothing has written reads 0 (log 1). -/
abbrev unwritten : Byte := 0

/-- One byte of a memory. -/
abbrev readByte (m : List Host.Cell) (a : Nat) : Byte := mget unwritten m a

/-- The memory with one byte written. -/
abbrev writeByte (m : List Host.Cell) (a : Nat) (b : Byte) : List Host.Cell := mset unwritten m a b

/-- Canonical form of a memory: addresses strictly rising, no entry equal to what an unlisted address reads as. -/
def memWf : List Host.Cell → Bool
  | [] => true
  | [(_, v)] => v != unwritten
  | (k, v) :: (k', v') :: m => v != unwritten && decide (k < k') && memWf ((k', v') :: m)

/-- The canonical form, as the state's invariant of both memories. -/
abbrev Memory.wf (s : State) : Bool := memWf s.mem && memWf s.loc

/-- `n` bytes at `a`, little-endian (R4). -/
def readN (m : List Host.Cell) (a : Nat) : Nat → Nat
  | 0 => 0
  | n + 1 => (readByte m a).toNat + 256 * readN m (a + 1) n

/-- Write the low `n` bytes of `v` at `a`, little-endian (R4). -/
def writeN (m : List Host.Cell) (a : Nat) : Nat → Nat → List Host.Cell
  | 0, _ => m
  | n + 1, v => writeN (writeByte m a (BitVec.ofNat 8 v)) (a + 1) n (v / 256)

/-- `n` bytes at `a`, the first first. -/
def readBytes (m : List Host.Cell) (a : Nat) : Nat → List Byte
  | 0 => []
  | n + 1 => readByte m a :: readBytes m (a + 1) n

/-- Write bytes at `a`, the first at `a`. -/
def writeBytes (m : List Host.Cell) (a : Nat) : List Byte → List Host.Cell
  | [] => m
  | b :: bs => writeBytes (writeByte m a b) (a + 1) bs

/-- The number that a byte string spells, little-endian. -/
def natOfBytes : List Byte → Nat
  | [] => 0
  | b :: bs => b.toNat + 256 * natOfBytes bs

end Sys2Proof.Machine
end

