-- ==== Sys2Proof/Machine/Ops.lean ====
section
/-! DEFINITION. The named operations over threads, cores, registers and messages; taking an exception and returning
from one. -/

namespace Sys2Proof.Machine

/-- The outcome of a meaning. -/
abbrev Result := Host.Outcome State Fault Refusal

/-! ### Numbering (R11 to R14) -/

/-- The die of a core; numbers 1024 + d stand for the steward core of die d (log 7). -/
abbrev dieOf (c : Nat) : Nat := if c < 1024 then c / 256 else c - 1024
/-- The origin core of a thread number. -/
abbrev originOf (n : Nat) : Nat := n / 16
abbrev rowOf (c : Nat) : Nat := c % 256 / 16
abbrev colOf (c : Nat) : Nat := c % 16
/-- The tile of a core, numbered d × 32 + t (R12, R14). The steward cores, which stand in no tile, share tile 128, which no
compute core has (DESIGN CHOICE, log 91). -/
abbrev tileOf (c : Nat) : Nat := c / 256 * 32 + rowOf c / 2 * 4 + colOf c / 4
abbrev laneOf (c : Nat) : Nat := rowOf c % 2 * 4 + colOf c % 4
/-- The core of a tile with a lane: the inverse mapping of R12. -/
def coreOfLane (t lane : Nat) : Nat :=
  t / 32 * 256 + (2 * (t % 32 / 4) + lane / 4) * 16 + 4 * (t % 32 % 4) + lane % 4

/-! ### Threads, cores, tiles, dies -/

/-- Thread numbers from here on name contexts that have ended with stores not yet acknowledged (log 8). -/
abbrev ghostBase : Nat := 0x10_0000

/-- The issuer of a message for which no thread waits. -/
abbrev nobody : Nat := 0x40_0000

/-- The issuer of an allotment request whose thread has been killed: it still updates its core's entry (R266). -/
abbrev orphan : Nat := 0x40_0001

/-- A thread that nothing has touched: a free slot on its origin core; steward threads are in steward mode (log 7). -/
def Thread.init (n : Nat) : Thread :=
  { core := n % ghostBase / 16, slot := n % 16, priv := if n % ghostBase < 16384 then .user else .steward }

def State.thr (s : State) (n : Nat) : Thread := (mget none s.threads n).getD (Thread.init n)
def State.setThr (s : State) (n : Nat) (t : Thread) : State := { s with threads := mset none s.threads n (some t) }
def State.onThr (s : State) (n : Nat) (f : Thread → Thread) : State := s.setThr n (f (s.thr n))
/-- A core that nothing has touched: it has run no cycle that was not idle, so it is gated once 16 have passed (R99). The
first tick after reset has 16 cycles of a compute core, at FCUR 32, and 10 of a steward core. -/
def Core.init (c reft : Nat) : Core := { gated := decide ((if c < 1024 then 1 else 2) ≤ reft) }

def State.core (s : State) (c : Nat) : Core := (mget none s.cores c).getD (Core.init c s.reft)
def State.setCore (s : State) (c : Nat) (x : Core) : State := { s with cores := mset none s.cores c (some x) }
def State.onCore (s : State) (c : Nat) (f : Core → Core) : State := s.setCore c (f (s.core c))
def State.tile (s : State) (t : Nat) : Tile := (mget none s.tiles t).getD {}
def State.onTile (s : State) (t : Nat) (f : Tile → Tile) : State :=
  { s with tiles := mset none s.tiles t (some (f (s.tile t))) }
def State.die (s : State) (d : Nat) : Die := (mget none s.dies d).getD {}
def State.onDie (s : State) (d : Nat) (f : Die → Die) : State :=
  { s with dies := mset none s.dies d (some (f (s.die d))) }

/-- The thread that the instruction acts for. -/
abbrev State.me (s : State) : Thread := s.thr s.cur

/-- Lost or fenced (R248). -/
abbrev State.dead (s : State) (d : Nat) : Bool := (s.die d).lost

/-- Dies that no link joins: they stand at opposite corners of the square, and both dies between them are lost or boot alone
(R11; DESIGN CHOICE, log 116). -/
def State.severed (s : State) (a d : Nat) : Bool :=
  decide (a % 2 ≠ d % 2) && decide (a / 2 ≠ d / 2)
    && [a / 2 * 2 + d % 2, d / 2 * 2 + a % 2].all fun e => (s.die e).lost || (s.die e).alone

/-- Lost as die `a` sees it: a die that boots alone and the others treat each other as lost (R350), and so do dies that no
link joins. -/
abbrev State.cut (s : State) (a d : Nat) : Bool :=
  s.dead d || (decide (a ≠ d) && ((s.die a).alone || (s.die d).alone || s.severed a d))

/-- A fresh free value (log 6). -/
def State.fresh (s : State) : Word × State := (Config.freeValue s.free, { s with free := s.free + 1 })

/-! ### Registers (R108 to R112) -/

/-- Whether a register field names the commons bank (R28). -/
abbrev isCommons (r : Reg) : Bool := decide (16 ≤ r.toNat)

/-- A register as thread `n` reads it at issue: its private bank, or its origin core's commons (as they stood at the
first issue of an instruction that awaits). -/
def State.reg (s : State) (n : Nat) (r : Reg) : Word :=
  if isCommons r then
    match (s.thr n).snap with
    | some c => mget 0 c (r.toNat - 16)
    | none => mget 0 (s.core (originOf n)).c (r.toNat - 16)
  else mget 0 (s.thr n).g r.toNat

/-- Write a destination: a private register at once, a commons register in the write-back cycle `delay` after the
current one (R110). -/
def State.setReg (s : State) (n : Nat) (r : Reg) (v : Word) (delay : Nat) : State :=
  if isCommons r then
    s.onCore (originOf n) fun c =>
      { c with cpend := c.cpend ++ [{ reg := r.toNat - 16, due := c.cycle + delay, thread := n, value := v }] }
  else s.onThr n fun t => { t with g := mset 0 t.g r.toNat v }

/-- The commons writes due by cycle `w`: those of one register in one cycle leave the lowest thread's (R111). -/
def dueBy (w : Nat) (l : List CWrite) : List CWrite :=
  l.filter fun x => decide (x.due ≤ w) &&
    !l.any fun y => decide (y.due ≤ w) && decide (y.reg = x.reg) &&
      (decide (x.due < y.due) || (decide (x.due = y.due) && decide (y.thread < x.thread)))

/-- The latest value of a list of writes whose write-back cycle is past, or the present value (R116). -/
def latest (now : Nat) (l : List (Nat × Word)) (v : Word) : Word :=
  l.foldl (fun v x => if x.1 < now then x.2 else v) v

/-- Commit the commons writes due before a core's present cycle, which reads see from then on (R110); two of one thread
in one cycle keep their order. COMMASK takes the writes whose write-back cycle is past (R116). -/
def Core.commit (c : Core) : Core :=
  { c with
    c := (dueBy (c.cycle - 1) c.cpend).foldl (fun m x => mset 0 m x.reg x.value) c.c
    cpend := c.cpend.filter fun x => decide (c.cycle ≤ x.due)
    commask := latest c.cycle c.cmPend c.commask
    cmPend := c.cmPend.filter fun x => decide (c.cycle ≤ x.1) }

/-- The thread goes on at `pc`, ready, with nothing awaited. -/
def State.goto (s : State) (n : Nat) (pc : Word) : State :=
  s.onThr n fun t => { t with pc := pc, wait := .none, cont := none, snap := none, run := .ready }

/-- `PC := PC + len`. -/
def State.finish (s : State) (n : Nat) (len : Nat) : State := s.goto n ((s.thr n).pc + word len)

/-- Write a destination and go on. -/
def State.write (s : State) (n : Nat) (d : Reg) (v : Word) (delay len : Nat) : State :=
  (s.setReg n d v delay).finish n len

/-- The thread waits (no reply yet) or sleeps. -/
def State.park (s : State) (n : Nat) (r : Run) (w : Wait) : State :=
  s.onThr n fun t => { t with run := r, wait := w }

/-- The commons of the issue, kept for the re-issue of an instruction that awaits (log 9). -/
def State.keepCommons (s : State) (n : Nat) : Option (Map Word) :=
  match (s.thr n).snap with
  | some m => some m
  | none => some (s.core (originOf n)).c

/-- The thread waits for what `w` names, then issues the same instruction again with the operands of its first issue. -/
def State.hold (s : State) (n : Nat) (w : Wait) : State :=
  s.onThr n fun t => { t with run := .waiting, wait := w, snap := s.keepCommons n }

/-- The thread issues the same instruction again; its PC stands. -/
def State.again (s : State) (n : Nat) : State :=
  s.onThr n fun t => { t with run := .ready, wait := .none }

/-! ### Waiting at an allotment table (R259, R262, R265) -/

/-- The entry of a counter in a core's table changes (R259). -/
def Core.setAlt (c : Core) (line : Nat) (f : AltEntry → AltEntry) : Core :=
  { c with alt := c.alt.map fun e => if e.line = line then f e else e }

def Core.altEntry (c : Core) (line : Nat) : Option AltEntry := c.alt.find? fun e => e.line = line

/-- The core's table has a free place, or an entry to replace, which is not frozen (R259). -/
def Core.altSpace (c : Core) : Bool := decide (c.alt.length < 16) || c.alt.any fun e => !e.frozen

/-- A request of core `c` on a counter that the core's later instructions on it wait for (R262). -/
def Body.altAsks (c line : Nat) : Body → Bool
  | .alt _ k l (.join _) | .alt _ k l (.take _ true) => k == c && l == line
  | .alt t k l (.leave _ _) | .alt t k l (.left _) => k == c && l == line && t != nobody
  | _ => false

/-- A request that will make or fill the core's entry. -/
def Body.altTakes (c line : Nat) : Body → Bool
  | .alt t k l (.join o) => (Body.alt t k l (.join o)).altAsks c line
  | .alt t k l (.take m b) => (Body.alt t k l (.take m b)).altAsks c line
  | _ => false

/-- A request of an allotment instruction is in flight or in service. -/
def State.altAny (s : State) (p : Body → Bool) : Bool :=
  s.msgs.any (fun m => p m.body) || s.txns.any fun t => match t.done with
    | .census th k _ r => p (.alt th k t.line r)
    | .again m => p m.body
    | _ => false

/-- A request of a core on a counter is under way, whether or not a close has removed the entry (R258, R262). -/
def State.altOut (s : State) (c line : Nat) : Bool := s.altAny (Body.altAsks c line)

/-- What an ALT instruction of a core on a counter awaits holds: the entry is free, or there is none, no request for it is
under way, and, where the instruction makes one, there is room (R259, R262). -/
def State.altFree (s : State) (c line : Nat) (room : Bool) : Bool :=
  match (s.core c).altEntry line with
  | some e => !e.frozen && !e.asking
  | none => !s.altOut c line && (!room || (s.core c).altSpace)

/-- The first of a core's queue for each counter issues again once what it awaits holds (R262, R265). -/
def State.freeAllot (s : State) (c : Nat) : State :=
  (s.core c).altq.foldl (fun s q =>
    match (s.thr q.2).wait with
    | .allot _ room =>
      if ((s.core c).altq.find? fun p => p.1 = q.1) = some q && s.altFree c q.1 room then s.again q.2 else s
    | _ => s) s

/-- A thread's ALT instruction has had its turn, or ends in a trap: it leaves the queue of its core (R265). -/
def State.dequeue (s : State) (n : Nat) : State :=
  if (s.core (s.thr n).core).altq.any fun q => q.2 = n then
    s.onCore (s.thr n).core fun x => { x with altq := x.altq.filter fun q => q.2 != n }
  else s

/-- The same, and the next of the queue may have its turn. -/
def State.unallot (s : State) (n : Nat) : State :=
  if (s.core (s.thr n).core).altq.any fun q => q.2 = n then (s.dequeue n).freeAllot (s.thr n).core else s

/-- The value that a Cont writes: size bytes, sign- or zero-extended to 64 bits. -/
def extend (size : Nat) (sign : Bool) (v : Word) : Word :=
  if size = 1 then (if sign then sext (v.setWidth 8) else zext (v.setWidth 8))
  else if size = 2 then (if sign then sext (v.setWidth 16) else zext (v.setWidth 16))
  else if size = 4 then (if sign then sext (v.setWidth 32) else zext (v.setWidth 32))
  else v

/-- A reply-completed write is written back in the cycle in which the reply is applied (R110, last row). So is the
destination of an instruction that would await a reply and is answered at its issue, in that cycle (DESIGN CHOICE, log
118). -/
abbrev replyDelay : Nat := 0

/-- Complete an outstanding instruction with the value its reply carries. A thread that has ended takes nothing. -/
def State.complete (s : State) (n : Nat) (v : Word) : State :=
  match (s.thr n).cont with
  | none => s
  | some k =>
    let s := match k.d with
      | some d => s.setReg n d (extend k.size k.sign v) replyDelay
      | none => s
    s.finish n k.len

/-- The directory entry that a context's number names (R121). -/
abbrev Thread.ctx (t : Thread) : Option Nat := if t.ctxnum.getLsbD 15 then some (t.ctxnum.toNat % 16384) else none

/-! ### Homes (R16, R224 to R226) -/

/-- HBM and bin windows lie below 2^40; bits [39:38] give the die. -/
abbrev inPackage (pa : Nat) : Bool := decide (pa < 2 ^ 40)
abbrev homeDie (pa : Nat) : Nat := pa / 2 ^ 38 % 4

/-- The live slices of a die in ascending order (R226). -/
def State.liveSlices (s : State) (d : Nat) : List Nat :=
  (List.range 64).filter fun i => (s.die d).slicemap.getLsbD i

/-- n of R225 by SLHASH.VAR. -/
def hashCount (v : Nat) : Nat := if v = 0 then 64 else if v = 1 then 60 else if v = 2 then 56 else 48

/-- The home slice of a line within its die (R225). -/
def State.sliceOf (s : State) (a : Nat) : Nat :=
  let d := homeDie a
  let h := Nat.xor (Nat.xor (a / 2 ^ 7 % 4096) (a / 2 ^ 19 % 4096)) (a / 2 ^ 31 % 128)
  let n := hashCount ((s.die d).slhash.toNat % 4)
  let i := h * n / 4096
  let live := s.liveSlices d
  live.getD (if live.length < n ∧ live.length ≠ 0 then i % live.length else i) 0

/-- The home slice as a message node. -/
abbrev State.homeNode (s : State) (pa : Nat) : Node := .slice (homeDie pa) (s.sliceOf pa)

/-! ### Messages -/

/-- Take a fresh identifier. -/
def State.newId (s : State) : Nat × State := (s.nextId, { s with nextId := s.nextId + 1 })

/-- Put a message in flight under the identifier `id`. -/
def State.put (s : State) (id : Nat) (src dst : Node) (after : List Nat) (b : Body) : State :=
  { s with msgs := s.msgs ++ [{ id := id, src := src, dst := dst, after := after, body := b }] }

/-- Put a message in flight under a fresh identifier. -/
def State.send (s : State) (src dst : Node) (b : Body) : State :=
  { s with msgs := s.msgs ++ [{ id := s.nextId, src := src, dst := dst, body := b }], nextId := s.nextId + 1 }

def State.msg (s : State) (id : Nat) : Option Msg := s.msgs.find? fun m => m.id = id


/-- A line that a transaction keeps busy (R229). -/
def State.busy (s : State) (line : Nat) : Bool := s.txns.any fun t => t.line = line

/-- The line that a request to a home names. Returns that no thread waits for land as they arrive (R261). -/
def Body.line : Body → Option Nat
  | .store _ pa _ _ | .push _ pa _ _ _ | .read _ pa _ _ | .atomic _ pa _ => some (pa / 128)
  | .wback _ line _ _ => some line
  | .alt t _ line (.give _) => if t = nobody then none else some line
  | .alt _ _ _ (.leave _ _) | .alt _ _ _ (.left _) => none
  | .alt _ _ line _ => some line
  | _ => none

/-- A bin whose carve is in progress holds accesses (R250). -/
def State.binBusy (s : State) (pa : Nat) : Bool :=
  let o := pa % 2 ^ 38
  inPackage pa && decide (0x30_0000_0000 ≤ o)
    && (s.die (homeDie pa)).carveBusy.getLsbD ((o - 0x30_0000_0000) / 0x400_0000)

/-- The engine commands of a thread, or of a context that has ended, that have not completed. -/
def State.engineOps (s : State) (n : Nat) : List Nat :=
  let c := s.core (originOf (n % ghostBase))
  (c.seq.filter (·.thread = n)).map (·.id) ++ (c.mill.filter (·.thread = n)).map (·.id)
    ++ (c.copy.filter (·.thread = n)).map (·.id)

/-- The copy commands of a thread as operations of class e at system scope, each under the identifier after its own: open
until the command has completed and its system targets have confirmed its writes (R275). -/
def State.copyOut (s : State) (n : Nat) : List Nat :=
  ((s.core (originOf (n % ghostBase))).copy.filter (·.thread = n)).map (·.id + 1)
    ++ ((s.thr n).copyOut.filter fun p => (s.msg p.2).isSome).map (·.1)

/-- Every operation of a thread that has not been performed (R275). -/
def State.openOps (s : State) (n : Nat) : List Nat :=
  (s.thr n).unacked.map (·.id) ++ (s.thr n).unconfirmed ++ s.engineOps n ++ s.copyOut n

/-- The operations that hold a thread's later w and o operations back and have not been performed (R298). -/
def State.openGate (s : State) (n : Nat) : List Nat := (s.thr n).gate.filter fun i => (s.openOps n).contains i

/-- The thread that issued a message with held successors. -/
def Body.thread : Body → Nat
  | .store n _ _ _ | .push n _ _ _ _ | .read n _ _ _ | .atomic n _ _ | .system n _ _ _ _ _ _ _ | .wback n _ _ _ => n
  | _ => 0

/-- An access to the system region. -/
def Body.isSystem : Body → Bool
  | .system _ _ _ _ _ _ _ _ => true
  | _ => false

/-- The node of the port or link of die `d` by which a system access leaves the package (R341). -/
abbrev portNode (d : Nat) : Node := .outside (16 + d)

/-- The die at which a message starts or ends: agents 0 to 3 are the dies' hall clusters. -/
def Node.die : Node → Option Nat
  | .core c => some (dieOf c)
  | .slice d _ | .unit d | .dir d => some d
  | .box p => some (p / 4096)
  | .outside k => if k < 4 then some k else if 16 ≤ k ∧ k < 20 then some (k - 16) else none

/-- The die pairs of the present tick, with one more (R246). -/
def State.pairs (s : State) (a b : Nat) : List (Nat × Nat) :=
  if a = b ∨ s.carried.contains (a, b) then s.carried else s.carried ++ [(a, b)]

/-- The die pairs of the present tick, with a message's. -/
def State.pairsOf (s : State) (id : Nat) : List (Nat × Nat) :=
  match (s.msg id).bind fun m => m.src.die, (s.msg id).bind fun m => m.dst.die with
  | some a, some b => s.pairs a b
  | _, _ => s.carried

/-- A message arrives. -/
def State.drop (s : State) (id : Nat) : State :=
  { s with msgs := s.msgs.filter fun m => m.id != id, carried := s.pairsOf id }

/-- The die links that a message crosses, each named by a die that it joins: horizontally first, vertically first where
that way leads over a die that is lost or boots alone (R11, R242, R248, R350). -/
def State.route (s : State) (a b : Nat) : List (Nat × LinkId) :=
  let corner := a / 2 * 2 + b % 2
  let across : List (Nat × LinkId) := if a % 2 = b % 2 then [] else [(a, .h)]
  if a / 2 = b / 2 then across
  else if a % 2 ≠ b % 2 ∧ ((s.die corner).lost || (s.die corner).alone) then [(a, .v), (b / 2 * 2 + a % 2, .h)]
  else across ++ [(corner, .v)]

def Die.link (x : Die) : LinkId → Link
  | .h => x.linkH
  | .v => x.linkV

/-- The die at the other end of a link (R11, R246). -/
abbrev farDie (d : Nat) : LinkId → Nat
  | .h => Nat.xor d 1
  | .v => Nat.xor d 2

def Die.onLink (x : Die) (l : LinkId) (f : Link → Link) : Die :=
  match l with
  | .h => { x with linkH := f x.linkH }
  | .v => { x with linkV := f x.linkV }

/-- Both ends of a link change. -/
def State.onLink (s : State) (d : Nat) (l : LinkId) (f : Link → Link) : State :=
  (s.onDie d fun x => x.onLink l f).onDie (farDie d l) fun x => x.onLink l f

/-- A relock halts the die (R336). -/
abbrev State.halted (s : State) (d : Nat) : Bool := (s.die d).relock.isSome

/-- The way from die to die is open: no die on it relocks, and none of its links sleeps (R246, R336, R337). -/
def State.linksOpen (s : State) (a b : Nat) : Bool :=
  !s.halted a && !s.halted b && (s.route a b).all fun p => decide (((s.die p.1).link p.2).st = 0) && !s.halted p.1

/-- An access of the present operation waits for a busy line, a bin under way or a unit of its own die (log 77). -/
def State.meet (s : State) : State := { s with met := true }

/-- An access without a message of its own meets a closed way from die `a` to die `b`: the links on it are wanted awake
(R246; log 77). -/
def State.meetLinks (s : State) (a b : Nat) : State :=
  (s.route a b).foldl (fun s p => s.onLink p.1 p.2 fun x => { x with want := true }) s.meet

/-- Something crosses the links from die `a` to die `b` in the present tick (R246). -/
def State.carry (s : State) (a b : Nat) : State := { s with carried := s.pairs a b }

/-- An access without a message of its own crosses from die `a` to die `b`, or meets a closed way (log 77). -/
def State.crossing (s : State) (a b : Nat) : State := if s.linksOpen a b then s.carry a b else s.meetLinks a b

/-- The wants of links that an operation has set, kept where the operation itself is given up. -/
def State.keepWants (s t : State) : State :=
  (List.range 4).foldl (fun s d =>
    let h := (t.die d).linkH.want && !(s.die d).linkH.want
    let v := (t.die d).linkV.want && !(s.die d).linkV.want
    if h || v then s.onDie d fun x =>
      { x with linkH := { x.linkH with want := x.linkH.want || h }, linkV := { x.linkV with want := x.linkV.want || v } }
    else s) s

/-- An operation that met something it must wait for has no effect and is tried again (log 77). -/
def State.tried (s : State) (r : Result) : Result :=
  match r with
  | .next t => if t.met then .next (s.keepWants t) else .next t
  | r => r

/-- A halted die neither sends nor serves, and a sleeping link holds its traffic (R246, R336, R337). -/
def State.pathOpen (s : State) (m : Msg) : Bool :=
  match m.src.die, m.dst.die with
  | some a, some b => s.linksOpen a b
  | some a, none => !s.halted a
  | none, some b => !s.halted b
  | none, none => true

/-- The write-back of an M line. -/
def Body.isBack : Body → Bool
  | .wback _ _ _ _ => true
  | _ => false

/-- The operations that a message follows are performed: those that a FENCE names (R298), and the messages that it must
not overtake on the way to its line, a write-back and what a write-back follows (R281, R283). Until then it is held at its
core. -/
def State.unheld (s : State) (m : Msg) : Bool :=
  m.after.all fun i => !(s.openOps m.body.thread).contains i
    && !s.msgs.any fun x => decide (x.id = i) && (x.body.isBack || m.body.isBack)

/-- What holds a w or o operation of a thread back: the operations that its FENCEs name and that are not performed, and
the operations that are held already (R298). -/
def State.heldBack (s : State) (n : Nat) : List Nat :=
  s.openGate n ++ ((s.thr n).unacked.filter fun u => s.msgs.any fun m => decide (m.id = u.id) && !s.unheld m).map (·.id)

/-- What is held at a core on its way to a line: a write-back of the line follows it (R281, R283). -/
def State.heldLine (s : State) (c line : Nat) : List Nat :=
  (s.msgs.filter fun m => decide (m.src = .core c) && decide (m.body.line = some line) && !s.unheld m).map (·.id)

/-- The write-backs of a line among them: an access of the core at its home follows these (R239, R281). -/
def State.heldBacks (s : State) (c line : Nat) : List Nat :=
  (s.msgs.filter fun m => decide (m.src = .core c) && decide (m.body.line = some line) && m.body.isBack && !s.unheld m).map (·.id)

/-- The write-backs of a line of a core's L1 that have not arrived. -/
def State.backsOf (s : State) (c line : Nat) : List Nat :=
  (s.msgs.filter fun m => decide (m.src = .core c) && decide (m.body.line = some line) && m.body.isBack).map (·.id)

/-- What a message waits for where it arrives: those that wait for different things do not keep one another back
(R153, R165, R205). -/
def Body.lane : Body → Nat
  | .qmax _ col tag _ _ => 16 + col * 16 + tag
  | .arrive _ _ => 1
  | .post _ _ _ => 2
  | .spawn _ _ _ _ _ => 3
  | .migrate _ _ _ => 4
  | _ => 0

/-- Two accesses of one thread to the system region, which keep their order at one port or link wherever the thread has
moved between them (R287, note 7). -/
def Msg.samePort (m x : Msg) : Bool :=
  m.body.isSystem && x.body.isSystem && decide (m.body.thread = x.body.thread) && decide (m.body.thread ≠ nobody)

/-- Flits of 256 bits that a message takes on a die link: a context as R243 has it, else an address with up to 8 bytes of
data, or a header and the data (DESIGN CHOICE, log 11). -/
def State.flits (s : State) (m : Msg) : Nat :=
  let of := fun (k : Nat) => if k ≤ 8 then 1 else 1 + (k + 31) / 32
  match m.body with
  | .migrate n _ _ => 10 + ((s.thr n).late.length + 3) / 4
  | .store _ _ k _ => of k
  | .push _ _ (some p) _ _ => of p.1
  | .wback _ _ _ _ => of 128
  | .system _ _ k load _ _ _ _ => if load then 1 else of k
  | _ => 1

/-- The flits that a die link has to carry from its die `p.1`, while its FIFO does not drain. -/
def State.fifoLoad (s : State) (p : Nat × LinkId) : Nat :=
  s.msgs.foldl (fun k m => match m.src.die, m.dst.die with
    | some a, some b => if (s.route a b).contains p && s.unheld m then k + s.flits m else k
    | _, _ => k) 0

/-- Each FIFO of a die link holds 32 flits (R18). -/
abbrev fifoFlits : Nat := 32

/-- A message finds no room on its way: a link of a die that relocks does not drain, and the FIFOs up to it are full (R337). -/
def State.jammed (s : State) (m : Msg) : Bool :=
  match m.src.die, m.dst.die with
  | some a, some b => (s.route a b).zipIdx.any fun p =>
      (s.halted p.1.1 || s.halted (farDie p.1.1 p.1.2)) && decide (fifoFlits * (p.2 + 1) < s.fifoLoad p.1)
  | _, _ => false

/-- Threads that a full FIFO has stalled issue again. -/
def State.drained (s : State) : State :=
  { s with threads := s.threads.map fun (p : Nat × Option Thread) => (p.1, p.2.map fun (t : Thread) =>
      if t.wait = .link then { t with run := .ready, wait := .none } else t) }

/-- Messages that keep a message back: those sent before it from its source to its destination (R227). -/
def State.blockedBy (s : State) (m : Msg) : List Msg :=
  (s.msgs.takeWhile fun x => x.id != m.id).filter fun x =>
    (decide (x.src = m.src) || m.samePort x) && decide (x.dst = m.dst) && decide (x.body.lane = m.body.lane) && s.unheld x

/-- Whether a message can be delivered now: nothing from its source to its destination precedes it, what a FENCE holds
it behind is performed, its way is open, and its line is free. -/
def State.deliverable (s : State) (m : Msg) : Bool :=
  (s.blockedBy m).isEmpty
    && s.pathOpen m
    && s.unheld m
    && (match m.body.line with | some l => !s.busy l && !s.binBusy (l * 128) | none => true)

/-- The message with an identifier, when it can be delivered. -/
def State.due (s : State) (id : Nat) : Option Msg :=
  match s.msg id with
  | some m => if s.deliverable m then some m else none
  | none => none

/-- A blocking request is served within the step that issues it when the fabric is prompt and it can be delivered;
otherwise its event serves it (log 4). -/
def State.promptly (s : State) (id : Nat) (serve : Nat → State → State) : State :=
  if s.prompt && (s.due id).isSome then serve id s else s

/-! ### Waking threads -/

/-- Stores to the system region that no FENCE holds any longer are accepted by their port or link: they leave the
thread's window (R289). -/
def State.accept (s : State) (n : Nat) : State :=
  let t := s.thr n
  if t.unacked.all fun u => inPackage u.pa then s
  else
    let open' := s.openOps n
    let gone := t.unacked.filter fun u => !inPackage u.pa &&
      !s.msgs.any fun m => decide (m.id = u.id) && m.after.any fun i => open'.contains i
    if gone.isEmpty then s
    else
      let s := s.onThr n fun t => { t with unacked := t.unacked.filter fun u => !gone.contains u }
      if (s.thr n).wait = Wait.window then s.again n else s

/-- The write-back of an M line that has not arrived (R239). -/
def State.backOut (s : State) (id : Nat) : Bool := s.msgs.any fun m => decide (m.id = id) && m.body.isBack

/-- What a thread's Await still waits for is done: issue again, or complete an engine wait. -/
def State.settle (s : State) (n : Nat) : State :=
  let s := s.accept n
  let t := s.thr n
  match t.wait with
  | .ops ids => if ids.all fun i => !(s.openOps n).contains i && !s.backOut i then s.again n else s
  | .leaving _ _ => s
  | .engine ids d =>
    let c := s.core (originOf n)
    let live := c.seq.map (·.id) ++ c.mill.map (·.id) ++ c.copy.map (·.id)
    if ids.all fun i => !live.contains i then
      match d with
      | some d =>
        let f := t.copyFault
        ((s.onThr n fun t => { t with copyFault := 0 }).setReg n d (word f) replyDelay).finish n 8
      | none => s.finish n 8
    else s
  | _ => s

/-- Threads that await a message that has arrived go on, where nothing else holds them. -/
def State.settleOn (s : State) (id : Nat) : State :=
  (s.threads.filter fun p => match p.2 with
    | some t => (t.copyOut.any fun x => x.2 = id) || (match t.wait with | .ops ids => ids.contains id | _ => false)
    | none => false).foldl (fun s p =>
      (s.onThr p.1 fun t => { t with copyOut := t.copyOut.filter (·.2 != id) }).settle p.1) s

/-- Settle every thread of a core (those whose origin it is). -/
def State.settleCore (s : State) (c : Nat) : State :=
  (List.range 16).foldl (fun s k => s.settle (16 * c + k)) s

/-! ### Notices -/

/-- A queue-engine notice goes to the die's KPOST postbox, or is dropped (R196, R199). -/
def State.notify (s : State) (d : Nat) (payload : Word) : State :=
  let k := (s.die d).kpost
  if k.getLsbD 15 then s.send (.unit d) (.box (k.toNat % 16384)) (.post none (k.toNat % 16384) payload) else s

/-! ### Slots -/

/-- The thread that occupies a slot of a core, as resident or guest. -/
def State.occupant (s : State) (c k : Nat) : Option Nat :=
  if (s.thr (16 * c + k)).run ≠ .free ∧ !(s.thr (16 * c + k)).away then some (16 * c + k)
  else (s.threads.find? fun p =>
    let t := s.thr p.1
    t.away && !decide (t.run = .free) && decide (t.core = c) && decide (t.slot = k) && !decide (t.wait = .transit)).map (·.1)

/-- Free for allotment: nobody in it, and not a reserved origin slot (R89). -/
def State.slotFree (s : State) (c k : Nat) : Bool :=
  (s.thr (16 * c + k)).run = .free && (s.occupant c k).isNone

/-- The lowest free slot of a core. -/
def State.freeSlot (s : State) (c : Nat) : Option Nat := (List.range 16).find? fun k => s.slotFree c k

/-! ### Ending a thread -/

/-- The reservation set is emptied with HIT := 0 and no notice (R294). -/
def State.clearResv (s : State) (n : Nat) : State :=
  { s.onThr n fun t => { t with resv := [], hit := 0 } with regs := s.regs.filter fun p => p.1 != n }

/-- The slots that watch a line of a core's L1 lose thread `n`'s mark. -/
def Core.unwatch (c : Core) (slot : Nat) : Core :=
  { c with l1 := c.l1.map fun p => (p.1, p.2.map fun l => { l with watch := l.watch.filter (· != slot) }) }

/-- A thread's watch ends: its mark goes, and the end notice of a tracked line goes to its home (R227). -/
def State.endWatch (s : State) (n : Nat) : State :=
  let t := s.thr n
  let s := s.onCore t.core fun c => c.unwatch t.slot
  match t.wait with
  | .watch pa _ _ _ _ true _ => s.send (.core t.core) (s.homeNode pa) (.watchEnd n (pa / 128))
  | _ => s

/-- Entries of a core's queue, and its capacity (R96, R171, R215). -/
def Core.queueLen (c : Core) : QueueKind → Nat
  | .seq => c.seq.length | .mill => c.mill.length | .copy => c.copy.length
def QueueKind.cap : QueueKind → Nat
  | .seq => 16 | .mill => 8 | .copy => 4

/-- A freed entry is reserved for the oldest stalled thread, which becomes ready when it has all that it needs (R96). -/
def State.reserveEntry (s : State) (c : Nat) (q : QueueKind) : State :=
  let x := s.core c
  if x.queueLen q + x.held.countP (fun p => p.1 = q) < QueueKind.cap q then
    match x.stall.find? fun p => p.1 = q with
    | some (_, n) =>
      let held := x.held ++ [(q, n)]
      let need := match (s.thr n).wait with | .full _ k => k | _ => 1
      if need ≤ held.countP (fun p => p = (q, n)) then
        (s.setCore c { x with held := held, stall := x.stall.filter fun p => p != (q, n) }).again n
      else s.setCore c { x with held := held }
    | none => s
  else s

/-- A stalled thread leaves the list; the reservations it held pass on (R96). -/
def State.unstall (s : State) (n : Nat) : State :=
  let c := originOf n
  let x := s.core c
  let mine := x.held.filter fun p => p.2 = n
  let s := s.setCore c { x with held := x.held.filter (·.2 != n), stall := x.stall.filter (·.2 != n) }
  mine.foldl (fun s p => s.reserveEntry c p.1) s

/-- Whether thread `n` may take `k` entries of a queue now: those reserved for it, or free ones with nobody ahead. -/
def State.mayTake (s : State) (n : Nat) (q : QueueKind) (k : Nat) : Bool :=
  let x := s.core (originOf n)
  let own := x.held.countP fun p => p = (q, n)
  decide (x.queueLen q + x.held.countP (fun p => p.1 = q) + k ≤ QueueKind.cap q + own)
    && (decide (k ≤ own) || ((x.stall.all fun p => p.1 != q) && decide (x.held.countP (fun p => p.1 = q) = own)))

/-- Take `k` entries of a queue and go on, or stall with the instruction unissued (R96). -/
def State.taking (s : State) (n : Nat) (q : QueueKind) (k : Nat) (go : State → State) : State :=
  let c := originOf n
  if s.mayTake n q k then go (s.onCore c fun x => { x with held := x.held.filter fun p => p != (q, n) })
  else (s.onCore c fun x =>
    { x with stall := if x.stall.contains (q, n) then x.stall else x.stall ++ [(q, n)] }).park n .sleeping (.full q k)

/-- Free the pool line of an instance (R200). -/
def State.freePool (s : State) : Form → State
  | .plain => s
  | .pooled d l | .expanded d l _ _ => s.onDie d fun x => { x with pool := x.pool.filter (· != l) }

/-- Plots are unpinned; their contents stay (R137). -/
def State.unpin (s : State) (c : Nat) (plots : BitVec 256) : State :=
  s.onCore c fun x => { x with plotPin := x.plotPin &&& ~~~plots }

/-- The oldest waiting spawner of a core is woken with status 3; the notice holds the slot for no one (R212). -/
def State.sendNotice (s : State) (c : Nat) : State :=
  match (s.core c).notices with
  | [] => s
  | n :: rest => (s.onCore c fun x => { x with notices := rest }).complete n 3

/-- A slot of a core became free: its notice goes at once on a prompt fabric, else by SLOT_FREE_NOTICE (R212). -/
def State.slotNotice (s : State) (c : Nat) : State :=
  if (s.core c).notices.isEmpty then s
  else if s.prompt then s.sendNotice c
  else s.onCore c fun x => { x with owed := x.owed + 1 }

/-- A thread that waits for a slot-free notice leaves the list of the core it waits for (R212). -/
def State.unnotice (s : State) (n : Nat) : State :=
  match (s.thr n).wait with
  | .notice c _ => s.onCore c fun x => { x with notices := x.notices.filter (· != n) }
  | _ => s

/-- Writes of an engine or of an image that their homes have not acknowledged. -/
def State.homeWrites (s : State) (ids : List Nat) : List Nat := ids.filter fun i => s.txns.any fun t => t.id = i

/-- Its writes that are not performed: those, and stores that their system target has not confirmed. -/
def State.outstanding (s : State) (ids : List Nat) : List Nat :=
  ids.filter fun i => (s.txns.any fun t => t.id = i) || (s.msg i).isSome

/-- The writes that a step began, from identifier `i` on. -/
def State.begun (s : State) (i : Nat) : List Nat :=
  ((s.txns.filter fun t => decide (i ≤ t.id)).map (·.id))
    ++ (s.msgs.filter fun m => decide (i ≤ m.id) && m.body.isSystem).map (·.id)

/-- The end of CTX.SAVE: latch, held DEEDLATE traps and number are cleared (R315). -/
def Thread.saved (t : Thread) : Thread :=
  { t with
    latchV := false, latchVal := 0, late := [], lateTaken := 0, lateMore := 0, ctxnum := t.ctxnum &&& 0x3FFF
    pc := t.pc + 8, wait := .none, cont := none, snap := none, run := .ready }

/-- Threads whose SEAL instruction has had its writes acknowledged (R356). -/
def State.acked (s : State) : List Nat :=
  s.threads.filterMap fun p => match p.2 with
    | some t => match t.wait with
      | .acks ids => if (s.outstanding ids).isEmpty then some p.1 else none
      | _ => none
    | none => none

/-- Threads that hold for a unit issue again; a CTX.SAVE whose image is written ends, and a SEAL instruction whose writes
are acknowledged completes. -/
def State.unhold (s : State) : State :=
  let ends := s.acked
  let s : State := { s with threads := s.threads.map fun (p : Nat × Option Thread) => (p.1, p.2.map fun (t : Thread) =>
    match t.wait with
    | .hold => { t with run := .ready, wait := .none }
    | .saving ids => if (s.outstanding ids).isEmpty then t.saved else t
    | _ => t) }
  ends.foldl (fun s n => s.complete n 1) s

/-- The context number of a message's issuer changes: a store or a copy command outlives the context that issued it. -/
def Body.rename (n m : Nat) (b : Body) : Body :=
  match b with
  | .store t pa size v => .store (if t = n then m else t) pa size v
  | .push t pa data cores reach => .push (if t = n then m else t) pa data cores reach
  | .system t pa size load fn v cmp posted => .system (if t = n then m else t) pa size load fn v cmp posted
  | .wback t line data dirty => .wback (if t = n then m else t) line data dirty
  | .ack t op => .ack (if t = n then m else t) op
  | .late t ctx v => .late (if t = n then m else t) ctx v
  | b => b

/-- A DEEDLATE report under way to thread `n`. -/
def Body.lateFor (n : Nat) : Body → Bool
  | .late t _ _ => t == n
  | _ => false

/-- Mill and copy commands of thread `n` on core `c` belong to `m` from here on. -/
def State.renameEngines (s : State) (c n m : Nat) : State :=
  s.onCore c fun x =>
    { x with
      copy := x.copy.map fun y => if y.thread = n then { y with thread := m } else y
      mill := x.mill.map fun y => if y.thread = n then { y with thread := m } else y }

/-- What an ended context leaves in flight is applied and acknowledged, but to no thread (R303; log 8). -/
def State.ghost (s : State) (n : Nat) : State :=
  let t := s.thr n
  let s := s.renameEngines (originOf n) n (ghostBase + n)
  if t.unacked.isEmpty && t.unconfirmed.isEmpty && t.copyOut.isEmpty then
    if s.msgs.any fun m => m.body.lateFor n then
      { s with msgs := s.msgs.map fun (m : Msg) => { m with body := m.body.rename n (ghostBase + n) } }
    else s
  else
    let g := ghostBase + n
    let s := { s with
      msgs := s.msgs.map fun (m : Msg) => { m with body := m.body.rename n g }
      txns := s.txns.map fun (x : Txn) => match x.done with
        | .ack t op => if t = n then { x with done := .ack g op } else x
        | _ => x }
    s.onThr g fun x =>
      { x with
        unacked := x.unacked ++ t.unacked, unconfirmed := x.unconfirmed ++ t.unconfirmed, copyOut := x.copyOut ++ t.copyOut
        ctxnum := t.ctxnum }

/-- The thread's context ends: slot and reserved origin slot free, registrations and watch gone (R98, R303). -/
def State.release (s : State) (n : Nat) : State :=
  let s := s.clearResv n
  let s := (((s.unstall n).endWatch n).unnotice n).unallot n
  (s.ghost n).setThr n (Thread.init n)

/-- The thread ends: its slot and any reserved origin slot are free, with their notices (R97, R98, R212). -/
def State.vacate (s : State) (n : Nat) : State :=
  let t := s.thr n
  let s := (s.release n).slotNotice t.core
  if t.away then s.slotNotice (originOf n) else s

def State.ctx (s : State) (num : Nat) : Ctx := mget {} s.ctxs num
def State.setCtx (s : State) (num : Nat) (x : Ctx) : State := { s with ctxs := mset {} s.ctxs num x }

/-- A killed context's directory entry (R303, R306): resident becomes absent with KILLED set; a restoring entry that
the thread was loading becomes absent with its log intact. -/
def State.ctxKill (s : State) (n : Nat) : State :=
  let s := { s with ctxs := s.ctxs.map fun (p : Nat × Ctx) =>
    if p.2.st = CtxSt.restoring ∧ p.2.core = originOf n ∧ p.2.slot = n % 16 then (p.1, { p.2 with st := .absent }) else p }
  match (s.thr n).ctx with
  | some k => if (s.ctx k).st = CtxSt.resident then s.setCtx k { s.ctx k with st := .absent, killed := true } else s
  | none => s

/-- The notice of a kill (R304). -/
def killPayload (n : Nat) (t : Thread) (code : Nat) : Word :=
  match t.work with
  | some w => w.recVa + word (0x40 + code)
  | none => word (0x4000_0000_0000_0000 + n * 128 + 0x40 + code)

/-- Kill a context (R303): slot, plots and pool line freed, sequencer entries discarded, register writes whose write-back
cycle is still to come not performed (R111), notice sent to the origin core's die (R304). -/
def State.kill (s : State) (n code : Nat) (notice : Bool) : State :=
  let t := s.thr n
  let s := s.ctxKill n
  let s := match t.work with
    | some w => (s.unpin (originOf n) w.plots).freePool w.form
    | none => s
  let s := s.onCore (originOf n) fun c =>
    { c with seq := c.seq.filter (·.thread != n), cpend := c.cpend.filter fun x => x.thread != n || decide (x.due ≤ c.cycle) }
  let s := s.vacate n
  if notice then s.notify (dieOf (originOf n)) (killPayload n t code) else s

/-! ### Taking an exception, and returning from one (R299 to R303, R313) -/

/-- Cause codes (R299). -/
def Cause.code : Cause → Nat
  | .ill => 1 | .priv => 2 | .align => 3 | .divz => 4 | .transf => 5 | .transl => 6 | .transs => 7 | .deed => 8
  | .deedlate => 9 | .timer => 10 | .mmcombo => 11 | .amoerr => 12 | .straddle => 13 | .soft => 14 | .plots => 15
  | .migrate => 16 | .mchk => 17

/-- Delegable causes (R119, R299). -/
def Cause.delegable : Cause → Bool
  | .ill | .align | .divz | .timer | .straddle | .soft => true
  | _ => false

def Priv.code : Priv → Nat
  | .user => 0 | .kernel => 1 | .steward => 2

def Priv.ofCode (n : Nat) : Priv := if n = 0 then .user else if n = 1 then .kernel else .steward

/-- A TCAUSE word (R118). -/
def causeWord (applied async dlg : Bool) (code : Nat) : Word :=
  word ((if applied then 2 ^ 63 else 0) + (if async then 2 ^ 62 else 0) + (if dlg then 2 ^ 61 else 0) + code)

/-- Bits [1:0] of TRET, KVEC and UVEC read zero (R115). -/
abbrev addrMask : Word := 0xFFFF_FFFF_FFFF_FFFC

/-- The level and PC changes of a trap taken at level `t.lvl` below 2 (R300). -/
def Thread.enter (t : Thread) (cause : Cause) (tval tret : Word) (async applied : Bool) : Thread :=
  let dlg := decide (t.priv = .user) && cause.delegable && t.tdeleg.getLsbD cause.code
  let t := if t.lvl = 0
    then { t with cause1 := causeWord applied async dlg cause.code, ret1 := tret &&& addrMask, val1 := tval, pv1 := t.priv, lvl := 1 }
    else { t with cause2 := causeWord applied async dlg cause.code, ret2 := tret &&& addrMask, val2 := tval, pv2 := t.priv, lvl := 2 }
  let t := { t with resv := [], hit := 0, wait := .none, cont := none, snap := none, run := .ready }
  if dlg then { t with pc := t.uvec }
  else { t with priv := if t.priv = .user then .kernel else t.priv, pc := t.kvec }

/-- Take a trap in thread `n`: enter its handler, or kill the context at level 3. -/
def State.trap (s : State) (n : Nat) (cause : Cause) (tval tret : Word) (async applied : Bool) : State :=
  let t := s.thr n
  if t.lvl = 2 then s.kill n cause.code true
  else
    let s := ((((s.clearResv n).unstall n).endWatch n).unnotice n).unallot n
    s.onThr n fun t => t.enter cause tval tret async applied

/-- A synchronous trap of the instruction that the thread is executing (R8). -/
abbrev State.raise (s : State) (n : Nat) (cause : Cause) (tval : Word) : State :=
  s.trap n cause tval (s.thr n).pc false false

/-- The return of R313, for a thread that the checks of RTT let through. -/
def Thread.leave (t : Thread) : Thread :=
  let t := { t with resv := [], hit := 0, snap := none }
  if t.lvl = 2 then { t with priv := t.pv2, lvl := 1, pc := t.ret2 }
  else { t with priv := t.pv1, lvl := 0, pc := t.ret1 }

/-- Return from the trap level that the thread is in. -/
def State.rtt (s : State) (n : Nat) : State := (s.clearResv n).onThr n Thread.leave

/-! ### Double-bit errors (R132, R316) -/

/-- A read of `k` bytes at `a` meets a double-bit error; `loc` for the local stores. -/
def State.flawed (s : State) (loc : Bool) (a k : Nat) : Bool :=
  s.flaws.any fun p => p.1 == loc && decide (a / 8 ≤ p.2) && decide (p.2 ≤ (a + k - 1) / 8)

/-- A machine check that no instruction's own reply reports: an asynchronous MCHK in the issuing thread, if it still exists
(R180, R218, R299). -/
def State.machineCheck (s : State) (n : Nat) (v : Word) : State :=
  if (s.thr n).run = .free then s else s.onThr n fun t => { t with mchk := t.mchk ++ [v] }

/-! ### Chains of checks -/

/-- A trap that a check asks for: cause and TVAL. -/
abbrev Refuse := Option (Cause × Word)

/-- Raise the trap of the first check that fails, or go on. -/
def State.check (s : State) (n : Nat) (r : Refuse) (go : State) : State :=
  match r with
  | some (c, v) => s.raise n c v
  | none => go

/-- The first failing check of two. -/
def orElse' (a b : Refuse) : Refuse := match a with | some x => some x | none => b

/-- A check: the trap when the condition holds. -/
abbrev failIf (p : Bool) (c : Cause) (v : Word) : Refuse := if p then some (c, v) else none

/-- W0 of an instruction, which ILL and PRIV report (R299), from its encoding. -/
def w0Of (i : Instr) : Word :=
  match encodeFields i with
  | some f => zext f.word0
  | none => if i = .pad then zext padWord else 0

end Sys2Proof.Machine
end

