-- ==== Sys2Proof/Machine/Operands.lean ====
section
/-! DEFINITION. Operand forms, the registers an instruction names, and the privilege it needs. -/

namespace Sys2Proof

/-- Length in bytes of an arithmetic instruction, by its second operand (R30). -/
def Opnd.len : Opnd → Nat
  | .reg _ | .i20 _ => 8
  | .i32 _ => 12
  | .i64 _ => 16

/-- LI's operand (R30, R128). -/
def Imm.val : Imm → Word
  | .i20 x => sext x | .i32 x => sext x | .i64 x => x

/-- The instruction length in bytes that the operand form gives. -/
def Imm.len : Imm → Nat
  | .i20 _ => 8 | .i32 _ => 12 | .i64 _ => 16

/-- A displacement or offset operand, sign-extended. -/
def Off.val : Off → Word
  | .s20 x => sext x | .s32 x => sext x

/-- The instruction length in bytes that the operand form gives. -/
def Off.len : Off → Nat
  | .s20 _ => 8 | .s32 _ => 12

/-- The instruction length in bytes that the operand form gives. -/
def Cmp.len : Cmp → Nat
  | .reg _ => 8 | .i32 _ => 12

/-- The instruction length in bytes that the operand form gives. -/
def AForm.len : AForm → Nat
  | .d32 _ => 12 | _ => 8

/-- The instruction length in bytes that the operand form gives. -/
def AltN.len : AltN → Nat
  | .i32 _ => 12 | _ => 8

/-- Access sizes in bytes. -/
def Size.bytes : Size → Nat
  | .b => 1 | .h => 2 | .w => 4 | .d => 8

/-- The registers the operand names. -/
def Opnd.regs : Opnd → List Reg
  | .reg b => [b] | _ => []

/-- The registers the operand names. -/
def Cmp.regs : Cmp → List Reg
  | .reg b => [b] | _ => []

/-- The registers the operand names. -/
def AForm.regs : AForm → List Reg
  | .idx b _ => [b] | _ => []

/-- The registers the operand names. -/
def AltN.regs : AltN → List Reg
  | .reg b => [b] | _ => []

/-- The registers the operand names. -/
def RegOrW2.regs : RegOrW2 → List Reg
  | .reg b => [b] | _ => []

namespace Machine

/-- Second operand of the arithmetic majors (R30). -/
def State.opnd (s : State) (n : Nat) : Opnd → Word
  | .reg b => s.reg n b
  | .i20 x => sext x
  | .i32 x => sext x
  | .i64 x => x

/-- The comparand of a branch (R33, R129). -/
def State.cmp (s : State) (n : Nat) : Cmp → Word
  | .reg b => s.reg n b
  | .i32 x => sext x

/-- Effective address of the memory majors (R32), modulo 2^64. -/
def State.addr (s : State) (n : Nat) (a : Reg) : AForm → Word
  | .d20 x => s.reg n a + sext x
  | .d32 x => s.reg n a + sext x
  | .idx b k => s.reg n a + (s.reg n b <<< k.toNat)

/-- The count of an allotment instruction: natural in every form. -/
def State.altN (s : State) (n : Nat) : AltN → Word
  | .reg b => s.reg n b
  | .i20 x => zext x
  | .i32 x => zext x

abbrev wd (dw : Bool) : Nat := if dw then 8 else 4

/-! ### Register fields (R28) -/

/-- The registers an instruction writes, and those it only reads. -/
def regFields : Instr → List Reg × List Reg
  | .srr d _ | .rdcyc d | .rdref d | .sealRand d | .li d _ | .la d _ | .waitrs d | .sleep d | .cpWait d | .mmStat d
  | .mmClaim d _ | .mmRelease d _ | .call d _ => ([d], [])
  | .srw a _ | .ctxSave a _ _ | .ctxLoad a _ _ | .bz a _ | .bnz a _ | .jr a _ | .clPref a _ _ | .clFlush a _
  | .clInv a _ _ | .clZero a _ | .altOpen a | .join a | .vSets _ a _ | .vSetsBase _ a | .vGets _ a _
  | .vQmax _ _ a _ => ([], [a])
  | .tmrSet d a | .deedOffer d a | .deedAccept d a | .deedLend d a _ | .deedRecall d a | .deedReturn d a
  | .deedQuery d a | .sealEcdh d a _ _ | .sealKeyload d a _ | .sealExtend d a _ | .sealWipe d a _ | .sealDigest d a _
  | .clz d a _ | .ctz d a _ | .popc d a _ | .ext d a _ _ _ | .extn d a _ _ _ | .ins d a _ _ _ | .callr d a _
  | .lr d a _ _ | .altRead d a | .altClose d a | .unbind d a | .mmSetWeight d a => ([d], [a])
  | .sealHash d a b _ | .sealSign d a b _ | .amoAdd d a b _ _ | .amoAnd d a b _ _ | .amoOr d a b _ _ | .amoXor d a b _ _
  | .amoMin d a b _ _ | .amoMax d a b _ _ | .amoMinn d a b _ _ | .amoMaxn d a b _ _ | .amoSwap d a b _ _
  | .amoFadd d a b _ | .amoFaddBf16 d a b _ | .sc d a b _ _ | .rgnDefine d a b | .rgnToSw d a b | .rgnFlush d a b
  | .rgnToCoherent d a b | .taskPush d a b | .sheaf d a b | .send d a b | .bind d a b | .wake d a b
  | .ldx d a b _ _ _ => ([d], [a, b])
  | .sealVerify d a b c | .amoxAdd d a b c _ _ | .amoxAnd d a b c _ _ | .amoxOr d a b c _ _ | .amoxXor d a b c _ _
  | .amoxMin d a b c _ _ | .amoxMax d a b c _ _ | .amoxMinn d a b c _ _ | .amoxMaxn d a b c _ _ | .amoxSwap d a b c _ _
  | .amoxFadd d a b c _ | .amoxFaddBf16 d a b c _ | .amoCas d a b c _ _ | .spawn d a b c _ => ([d], [a, b, c])
  | .amoxCas d a b c e _ _ => ([d], [a, b, c, e])
  | .add d a y _ | .sub d a y _ | .mul d a y _ | .mulh d a y _ | .mulhn d a y _ | .div d a y _ | .divn d a y _
  | .rem d a y _ | .remn d a y _ | .and d a y _ | .or d a y _ | .xor d a y _ | .andn d a y _ | .shl d a y _
  | .shr d a y _ | .sha d a y _ | .rol d a y _ | .ror d a y _ | .min d a y _ | .max d a y _ | .minn d a y _
  | .maxn d a y _ | .setEq d a y _ | .setNe d a y _ | .setLt d a y _ | .setGe d a y _ | .setLtn d a y _
  | .setGen d a y _ => ([d], a :: y.regs)
  | .beq a y _ | .bne a y _ | .blt a y _ | .bge a y _ | .bltn a y _ | .bgen a y _ => ([], a :: y.regs)
  | .ld d a f _ _ _ | .ldl d a f _ _ => ([d], a :: f.regs)
  | .st a f c _ _ | .stl a f c _ => ([], a :: c :: f.regs)
  | .push a f c d _ => ([], a :: c :: d :: f.regs)
  | .pushl a f d => ([], a :: d :: f.regs)
  | .stx a b c _ _ => ([], [a, b, c])
  | .waita d a y _ => ([d], a :: match y with | .reg b => [b] | .i20 _ => [])
  | .altTake d a m | .altGive d a m => ([d], a :: m.regs)
  | .cpG2l x | .cpL2g x | .cpL2l x | .cpG2g x => ([], if x.flag then [x.a, x.b, x.c, x.d] else [x.a, x.b, x.c])
  | .vBcast _ x | .vrep x _ _ _ _ _ => ([], x.regs)
  | .mmDrain _ _ (.remote c) => ([], [c])
  | .mmDrain _ _ (.wake b c) => ([], [b, c])
  | _ => ([], [])

/-- A commons reference: a register field with bank bit 1 that the instruction reads or writes (R28). -/
def commonsRef (i : Instr) : Bool := (regFields i).1.any isCommons || (regFields i).2.any isCommons

/-- Sequencer and vector issue-pipe instructions, MM and CP instructions, and the others of R244. -/
def originOnly : Instr → Bool
  | .ldl _ _ _ _ _ | .stl _ _ _ _ | .ctxSave _ _ _ | .ctxLoad _ _ _
  | .cpG2l _ | .cpL2g _ | .cpL2l _ | .cpG2g _ | .cpWait _
  | .vSets _ _ _ | .vSetsBase _ _ | .vGets _ _ _ | .vAdd _ _ _ | .vSub _ _ _ | .vMul _ _ _ | .vFma _ _ _ _
  | .vMin _ _ _ | .vMax _ _ _ | .vAbs _ _ | .vNeg _ _ | .vAnd _ _ _ | .vOr _ _ _ | .vXor _ _ _ | .vShl _ _ _
  | .vShr _ _ _ | .vCmpEq _ _ _ | .vCmpNe _ _ _ | .vCmpLt _ _ _ | .vCmpGe _ _ _ | .vSel _ _ _ _ | .vCvt _ _ _ _
  | .vRsum _ _ _ | .vRmax _ _ _ | .vRmin _ _ _ | .vExp2 _ _ | .vRcp _ _ | .vRsqrt _ _ | .vBcast _ _ | .vQmax _ _ _ _
  | .vQcvt _ _ _ _ _ | .vrep _ _ _ _ _ _ | .vwait | .vMov _ _
  | .mmLoadw _ _ | .mmGather _ _ | .mmRun _ _ _ _ | .mmAccz _ | .mmDrain _ _ _ | .mmWait _ | .mmClaim _ _
  | .mmRelease _ _ | .mmSetWeight _ _ | .mmStat _ => true
  | .srr _ k | .srw _ k => decide (k = 0x032)
  | _ => false

/-- An instruction that executes only on its thread's origin core (R28, R244). -/
abbrev needsOrigin (i : Instr) : Bool := originOnly i || commonsRef i

/-- The lowest privilege an instruction's entry names. -/
def needsPriv : Instr → Priv
  | .tmrSet _ _ | .deedOffer _ _ | .deedAccept _ _ | .deedLend _ _ _ | .deedRecall _ _ | .deedReturn _ _ | .deedQuery _ _
  | .rgnDefine _ _ _ | .rgnToSw _ _ _ | .rgnFlush _ _ _ | .rgnToCoherent _ _ _ | .bind _ _ _ | .unbind _ _
  | .mmSetWeight _ _ => .kernel
  | .sealHash _ _ _ _ | .sealDigest _ _ _ | .sealSign _ _ _ _ | .sealVerify _ _ _ _ | .sealEcdh _ _ _ _
  | .sealKeyload _ _ _ | .sealRand _ | .sealExtend _ _ _ | .sealWipe _ _ _ => .steward
  | _ => .user

/-- Whether a thread's privilege is below another. -/
abbrev Priv.below (p q : Priv) : Bool := decide (p.code < q.code)

/-- A commons destination that COMMASK protects against user-mode writes (R112). -/
def maskedDest (s : State) (n : Nat) (i : Instr) : Bool :=
  decide ((s.thr n).priv = .user) && (regFields i).1.any fun r =>
    isCommons r && (s.core (originOf n)).commask.getLsbD (r.toNat - 16)

/-- Step 6 of R34: the privilege of the instruction, and the commons mask. -/
def privCheck (s : State) (i : Instr) : Refuse :=
  failIf (s.me.priv.below (needsPriv i) || maskedDest s s.cur i) .priv (w0Of i)

end Machine

end Sys2Proof
end

