-- ==== Sys2Proof/Machine/Directory.lean ====
section
/-! DEFINITION. The directory of the home slices: its entries, the transactions that keep a line busy, room for an entry and
its rebuilding, and what an access that reads a line within a step meets (R227 to R230, R250, R340). -/

namespace Sys2Proof.Machine

/-! ### Directory (R227, R229) -/

def State.dirOf (s : State) (line : Nat) : Dir := mget {} s.dir line
def State.setDir (s : State) (line : Nat) (x : Dir) : State := { s with dir := mset {} s.dir line x }

/-- The cores that a directory form names, on the line's die. -/
def sharers (d : Nat) : DirForm → List Nat
  | .p cores => cores
  | .t mask => (List.range 256).filterMap fun k =>
      if mask.getLsbD (tileOf (256 * d + k) % 32) then some (256 * d + k) else none
  | _ => []

abbrev tileBit (c : Nat) : BitVec 32 := BitVec.ofNat 32 (2 ^ (tileOf c % 32))

/-- Record a sharer (R229). -/
def DirForm.addSharer (f : DirForm) (c : Nat) : DirForm :=
  match f with
  | .p cores =>
    if cores.contains c then .p cores
    else if cores.length < 4 then .p (cores ++ [c])
    else .t ((c :: cores).foldl (fun m c => m ||| tileBit c) 0)
  | .t mask => .t (mask ||| tileBit c)
  | _ => .p [c]

/-- A core that holds no copy leaves a pointer entry; an entry with no sharer and no agent is freed (R229). -/
def Dir.settle (x : Dir) : Dir := if x.form = .p [] ∧ x.agents = [] then { x with form := .n, w := false } else x

def State.addSharer (s : State) (line c : Nat) : State :=
  let x := s.dirOf line
  let born := match x.form with | .p _ | .t _ => x.born | _ => s.nextId
  s.setDir line { x with form := x.form.addSharer c, born := born }

def State.dropSharer (s : State) (line c : Nat) : State :=
  let x := s.dirOf line
  match x.form with
  | .p cores => s.setDir line { x with form := .p (cores.filter (· != c)) }.settle
  | _ => s

/-! ### Transactions -/

/-- What follows once every sharer and agent has replied. -/
def State.conclude (s : State) (line : Nat) : Done → State
  | .ack n op => s.send (s.homeNode (line * 128)) (.core (s.thr n).core) (.ack n op)
  | .reply n v err =>
    if err then
      let va := match (s.thr n).cont with | some k => k.va | none => 0
      let s := match (s.thr n).cont with
        | some k => match k.d with
          | some d => s.setReg n d (extend k.size k.sign v) replyDelay
          | none => s
        | none => s
      s.trap n .amoerr va (s.thr n).pc false true
    else s.complete n v
  | .sc n => s.complete n 1
  | .again m => { s with msgs := m :: s.msgs }
  | .agent a op => { s with agentOps := s.agentOps.filter fun p => p != (a, op) }
  | _ => s

/-- One reply of a transaction has arrived. -/
def State.replied (s : State) (txn : Nat) : State :=
  match s.txns.find? fun t => t.id = txn with
  | none => s
  | some t =>
    if t.left ≤ 1 then ({ s with txns := s.txns.filter fun t => t.id != txn }.conclude t.line t.done).unhold
    else { s with txns := s.txns.map fun t => if t.id = txn then { t with left := t.left - 1 } else t }

/-- Send a transaction's messages from the line's home; with none to send it concludes at once. -/
def State.transact (s : State) (line : Nat) (msgs : List (Node × (Nat → Body))) (done : Done) : State :=
  if msgs.isEmpty then s.conclude line done
  else
    let id := s.nextId
    let s := { s with nextId := s.nextId + 1, txns := s.txns ++ [{ id := id, line := line, left := msgs.length, done := done }] }
    msgs.foldl (fun s m => s.send (s.homeNode (line * 128)) m.1 (m.2 id)) s

/-! ### Discovery (R230) -/

/-- The cores of a die that hold a line in V or D, with whether any copy is watch-marked. -/
def State.holders (s : State) (line : Nat) : List Nat :=
  let d := homeDie (line * 128)
  (List.range 256).filterMap fun k =>
    match mget none (s.core (256 * d + k)).l1 line with
    | some l => if l.st = .v ∨ l.st = .d then some (256 * d + k) else none
    | none => none

/-! ### Directory capacity (R230) -/

/-- An entry leaves: an invalidation to every sharer and agent. -/
def State.evictEntry (s : State) (line : Nat) : State :=
  let x := s.dirOf line
  let msgs := (sharers (homeDie (line * 128)) x.form).map (fun c =>
      ((Node.core c, fun id => Body.inval c line id) : Node × (Nat → Body)))
    ++ x.agents.map fun a => ((Node.outside a, fun id => Body.agentInval a line id) : Node × (Nat → Body))
  (s.setDir line {}).transact line msgs .nothing

/-- The entries of a line's directory set. -/
def State.dirSetOf (s : State) (line : Nat) : List (Nat × Dir) :=
  s.dir.filter fun p => (match p.2.form with | .p _ | .t _ => true | _ => false)
    && decide (s.homeNode (p.1 * 128) = s.homeNode (line * 128))
    && decide (Config.dirSet p.1 % 256 = Config.dirSet line % 256)

def eldest (l : List (Nat × Dir)) : Option Nat :=
  (l.foldl (fun (b : Option (Nat × Dir)) p => match b with
    | none => some p
    | some q => if p.2.born < q.2.born then some p else some q) none).map (·.1)

/-- A slice that needs an entry in a full set of 16 drops its oldest droppable entry, else evicts one (R230). An entry whose
line is busy stays: its transaction is not done with it (R229). Where every entry's is, the set holds one more for as long
(DESIGN CHOICE, log 113). -/
def State.dirRoom (s : State) (line : Nat) : State :=
  match (s.dirOf line).form with
  | .p _ | .t _ => s
  | _ =>
    if s.dir.length < 16 then s
    else
      let all := s.dirSetOf line
      if all.length < 16 then s
      else
        let set := all.filter fun p => !s.busy p.1
        match eldest (set.filter fun p => (match p.2.form with | .p [_] => true | _ => false) && p.2.agents.isEmpty && !p.2.w) with
        | some k => s.setDir k { s.dirOf k with form := .x }
        | none => match eldest (set.filter fun p => !p.2.w) with
          | some k => s.evictEntry k
          | none => match eldest set with
            | some k => s.evictEntry k
            | none => s

/-- The entry that a discovery rebuilds from the cores that reply "held". -/
def State.rebuild (s : State) (line : Nat) (cores : List Nat) : State :=
  let s := if cores.isEmpty && (s.dirOf line).agents.isEmpty then s else s.dirRoom line
  let x := s.dirOf line
  let f := cores.foldl DirForm.addSharer (.p [])
  let w := cores.any fun c => match mget none (s.core c).l1 line with | some l => !l.watch.isEmpty | none => false
  s.setDir line { x with form := f, w := w, born := s.nextId }.settle

abbrev State.dropped (s : State) (line : Nat) : Bool := decide ((s.dirOf line).form = .x)

/-- A line that a request names is ready for it: a dropped entry is rebuilt first (R230). -/
def State.found (s : State) (line : Nat) : State := if s.dropped line then s.rebuild line (s.holders line) else s

/-! ### What an access without a message of its own meets (log 77) -/


/-- A unit's access to package memory meets a home die that relocks, a bin under way or a line that a transaction of an
earlier step keeps busy: it waits, as every request of the line does (R229, R250, R336; log 77). -/
def State.meetLine (s : State) (pa : Nat) : State :=
  if s.halted (homeDie pa) || s.binBusy pa || s.txns.any fun t => decide (t.line = pa / 128) && decide (t.id < s.stepAt)
  then s.meet else s

/-- An open counter's line (R257). -/
abbrev State.counterOpen (s : State) (line : Nat) : Bool := s.altHomes.any fun h => h.line = line

/-- A core has sent something to an address's home that has not arrived: what it sends next arrives after it (R227, R229). -/
def State.trails (s : State) (c pa : Nat) : Bool :=
  s.msgs.any fun m => decide (m.src = .core c) && decide (m.dst = s.homeNode pa) && decide (m.body.lane = 0) && s.unheld m

/-- What a read or an atomic from outside is answered with; none where it is refused (log 5). -/
def State.answers (s : State) (v : Option Line) : State := { s with answer := v, poison := false }

/-- A read from outside met a double-bit error: its completion is poisoned (R342). -/
def State.poisons (s : State) : State := { s with answer := none, poison := true }

/-! ### Machine checks of memory (R340) -/

/-- MCREC (R340). -/
def mcrecWord (kind unit addr : Nat) : Word := word (kind * 2 ^ 60 + unit % 16 * 2 ^ 48 + addr % 2 ^ 48)

/-- A machine-check record and MSI-X 1. -/
def State.raiseMc (s : State) (d kind unit addr : Nat) : State :=
  s.onDie d fun x => { x with mcrec := mcrecWord kind unit addr, msi := x.msi ++ [1] }

/-- An access within a step reads a line at its home: it meets what keeps the line, and a dropped entry is rebuilt first
(R229, R230, R250). -/
def State.homeMeet (s : State) (pa : Nat) : State := (s.meetLine pa).found (pa / 128)

/-- A unit on die `a` reads `k` bytes at their home within a step: what the read meets on its way and at each line. -/
def State.readVia (s : State) (a pa k : Nat) : State :=
  (List.range (k / 128 + 2)).foldl (fun s i => if i * 128 < k + pa % 128 then s.homeMeet (pa + i * 128) else s)
    (s.crossing a (homeDie pa))

/-- A core's read within a step follows what it has sent to the same home (R227). -/
def State.coreFollows (s : State) (c pa : Nat) : State := if s.trails c pa then s.meet else s

/-- Such a read, and whether it meets a double-bit error, which the home's die reports (R249, R340). -/
def State.readMeets (s : State) (a pa k : Nat) : Bool × State :=
  let s := s.readVia a pa k
  if s.flawed false pa k then (true, s.raiseMc (homeDie pa) 2 0 pa) else (false, s)

/-- The same of a core, behind what it has sent to the home. -/
def State.coreMeets (s : State) (c pa k : Nat) : Bool × State := (s.coreFollows c pa).readMeets (dieOf c) pa k

end Sys2Proof.Machine
end

