-- ==== Sys2Proof/Machine/Translate.lean ====
section
/-! DEFINITION. Physical kinds and homes, the Deed Roll's entries and grants, translation and its TLBs. -/

namespace Sys2Proof.Machine

/-! ### The physical map (R16, R221, R224, R225) -/

abbrev inDevice (pa : Nat) : Bool := decide (0x100_0000_0000 ≤ pa) && decide (pa < 0x140_0000_0000)
abbrev deviceDie (pa : Nat) : Nat := (pa - 0x100_0000_0000) / 0x10_0000_0000
abbrev deviceOff (pa : Nat) : Nat := (pa - 0x100_0000_0000) % 0x10_0000_0000
abbrev inSystem (pa : Nat) : Bool := decide (0x200_0000_0000 ≤ pa) && decide (pa < 0x8000_0000_0000)

/-- Whether an address below 2^40 is HBM or a carved bin (R16, R250). -/
def State.populated (s : State) (pa : Nat) : Bool :=
  let o := pa % 2 ^ 38
  decide (o < 0x30_0000_0000) ||
    (decide (o < 0x30_2000_0000) && (s.die (homeDie pa)).carve.getLsbD ((o - 0x30_0000_0000) / 0x400_0000))

/-- An address in HBM, not in a bin. -/
abbrev inHbm (pa : Nat) : Bool := inPackage pa && decide (pa % 2 ^ 38 < 0x30_0000_0000)

/-- Fields of a region entry (R238). -/
abbrev rgnValid (e : Word) : Bool := e.getLsbD 63
abbrev rgnSw (e : Word) : Bool := e.getLsbD 62
abbrev rgnSt (e : Word) : Nat := e.toNat / 2 ^ 60 % 4
abbrev rgnBase (e : Word) : Nat := e.toNat / 2 ^ 21 % 2 ^ 19 * 2 ^ 21
abbrev rgnLen (e : Word) : Nat := (e.toNat / 2 ^ 41 % 2 ^ 19 + 1) * 2 ^ 21
abbrev rgnHas (e : Word) (pa : Nat) : Bool :=
  rgnValid e && decide (rgnBase e ≤ pa) && decide (pa < rgnBase e + rgnLen e)

/-- The region entry that covers an address: its index and value. -/
def State.regionOf (s : State) (pa : Nat) : Option (Nat × Word) :=
  (s.die (homeDie pa)).regions.find? fun p => rgnHas p.2 pa

/-- A reduction window's registers of a die (R343): word 0 and word 1. -/
abbrev Die.win (d : Die) (i : Nat) : Word × Word := (mget 0 d.rdwin (2 * i), mget 0 d.rdwin (2 * i + 1))
abbrev winBase (w : Word × Word) : Nat := w.1.toNat / 2 ^ 21 % 2 ^ 27 * 2 ^ 21
abbrev winSize (w : Word × Word) : Nat := (w.2.toNat % 2 ^ 9 + 1) * 2 ^ 21
abbrev winFmt (w : Word × Word) : Nat := let f := w.1.toNat / 2 ^ 61 % 4; if f = 3 then 0 else f

/-- The window that holds an address, by the registers of a die. -/
def State.windowOf (s : State) (d pa : Nat) : Option Nat :=
  (List.range 8).find? fun i =>
    let w := (s.die d).win i
    w.1.getLsbD 63 && decide (winBase w ≤ pa) && decide (pa < winBase w + winSize w)

/-- Add one to a 16-bit count of a register; it saturates (R345). -/
def bumpField (w : Word) (bit : Nat) : Word := if w.toNat / 2 ^ bit % 65536 = 65535 then w else w + word (2 ^ bit)

/-- A refused access to window `i` is counted on the die that issued it, in the field from a bit on (R345). -/
def State.countWin (s : State) (d i bit : Nat) : State :=
  s.onDie d fun x => { x with winerr := mset 0 x.winerr i (bumpField (mget 0 x.winerr i) bit) }

/-- A load of the system region from die `d` within a step: one of a reduction window is refused and counted (R344, R345). -/
def State.windowLoad (s : State) (d pa : Nat) : Bool × State :=
  match s.windowOf d pa with
  | some i => (true, s.countWin d i 48)
  | none => (false, s)

/-- The link that LROUTE names for a peer package, by a die's registers (R341). -/
def State.routeOf (s : State) (d p : Nat) : Option Nat :=
  let b := (mget 0 (s.die d).lroute (p / 8)).toNat / 2 ^ (8 * (p % 8)) % 256
  if b / 128 = 1 then some (b % 16) else none

/-- The home package of a window. -/
abbrev winHome (w : Word × Word) : Nat := w.1.toNat / 2 ^ 48 % 2 ^ 6

/-- The die by whose host port or scale-up link an access of die `d` to the system region leaves the package: its own host
port for host memory, the die of LROUTE's link for a peer, and for a reduction window that of its home package's link, where
it has one (R341; DEDUCED, log 95). -/
def State.sysDie (s : State) (d pa : Nat) : Nat :=
  let by' := fun (p : Nat) => match s.routeOf d p with | some j => j / 4 | none => d
  if pa < 0x400_0000_0000 then d
  else match s.windowOf d pa with
    | some i => by' (winHome ((s.die d).win i))
    | none => by' ((pa - 0x4000_0000_0000) / 2 ^ 40)

/-- The die and the number within it of a link. -/
abbrev linkDie (j : Nat) : Nat := j / 4

/-- The link or port by which the traffic of a die to a system address leaves the package is in the insecure state: its
traffic is refused (R341, R353). -/
def State.insecurePath (s : State) (d pa : Nat) : Bool :=
  let by' := fun (p : Nat) => match s.routeOf d p with
    | some j => (s.die (linkDie j)).insecure.contains (j % 4)
    | none => false
  if pa < 0x400_0000_0000 then (s.die d).insecure.contains 4
  else match s.windowOf d pa with
    | some i => by' (winHome ((s.die d).win i))
    | none => by' ((pa - 0x4000_0000_0000) / 2 ^ 40)

/-- Whether a system-region address is populated for a requester on die `d` (R341). -/
def State.systemPopulated (s : State) (d pa : Nat) : Bool :=
  if pa < 0x400_0000_0000 then true
  else if pa < 0x4000_0000_0000 then (s.windowOf d pa).isSome
  else
    let p := (pa - 0x4000_0000_0000) / 2 ^ 40
    decide (p < 64) && !decide (p = (s.die d).pkgid.toNat % 64) && (s.routeOf d p).isSome

/-- The kind of a physical access from die `d` (R221); `none` is unpopulated or reserved (R17). PBMT 2 on a carved bin
is taken as PBMT 1 (DEDUCED, log 22). -/
def State.kindOf (s : State) (d pa pbmt : Nat) : Option Kind :=
  if inPackage pa then
    if !s.populated pa then none
    else if pbmt ≠ 0 then some .streaming
    else match s.regionOf pa with
      | some (_, e) => if rgnSw e then some .software else some .cacheable
      | none => some .cacheable
  else if inDevice pa then some .device
  else if inSystem pa && s.systemPopulated d pa then some .system
  else none

/-! ### The Deed Roll (R317, R322, R326, R348) -/

/-- The domain of a thread (R317). -/
abbrev Thread.domain (t : Thread) : Domain := if t.priv = .steward then .stew else .acc
abbrev Creds.domain (c : Creds) : Domain := if c.priv = .steward then .stew else .acc

/-- The entry a frame has when boot step 7 completes (R348): the steward's working area and the frames that hold the
roll are the steward's, every other frame is free. -/
def State.bootDeed (s : State) (frame : Nat) : Deed :=
  let pa := frame * 4096
  let o := pa % 2 ^ 38
  let work := decide (0x2F_FC00_0000 ≤ o) && decide (o < 0x30_0000_0000)
  let held := (List.range 4).any fun d =>
    let x := s.die d
    x.rollAt != 0 && decide (x.rollAt < pa + 4096) && decide (pa < x.rollAt + 8 * x.rollLen)
  { owner := if work || held then .stew else .free }

def State.deed (s : State) (frame : Nat) : Deed := (mget none s.roll frame).getD (s.bootDeed frame)
def State.setDeed (s : State) (frame : Nat) (e : Deed) : State := { s with roll := mset none s.roll frame (some e) }

/-- Whom a frame grants access to (R326): STATE 0 owned, 1 offered, 2 lent, 3 recalling. -/
def Deed.grants (e : Deed) (dom : Domain) : Bool :=
  dom != .free && (
    if e.state = 0 then e.owner == dom
    else if e.state = 1 then false
    else e.owner == dom || e.cpart == dom)

/-- Whether a frame's entry grants a domain at the present tick: a borrower's grant ends at T_d (R326, R329). -/
def State.entryGrants (s : State) (dom : Domain) (pa : Nat) : Bool :=
  let e := s.deed (pa / 4096)
  if e.state = 3 ∧ e.due ≤ s.reft then e.owner == dom && dom != .free else e.grants dom

/-- Whether the home slice grants a domain an access to package memory in the present tick (R328): a grant that an OFFER
or a RETURN removes stands to the end of its tick. -/
def State.granted (s : State) (dom : Domain) (pa : Nat) : Bool :=
  s.entryGrants dom pa || s.losing.contains (pa / 4096, dom)

def domCode : Domain → Nat
  | .free => 0 | .host => 1 | .acc => 2 | .stew => 3

/-- An entry's 64 bits (R326). -/
def Deed.word (e : Deed) : Word :=
  Sys2Proof.word (domCode e.owner * 2 ^ 62 + e.state * 2 ^ 60 + domCode e.cpart * 2 ^ 58 + e.dclass * 2 ^ 55
    + (if e.exp then 2 ^ 54 else 0) + e.gen.toNat * 2 ^ 32 + (if e.state = 3 then e.due % 2 ^ 32 else 0))

/-- HBM and bin frames of one die (R18), whose entries stand side by side in the roll (DEDUCED, log 78). -/
abbrev dieFrames : Nat := 50_462_720

/-- The dies that share a die's roll, as boot joined them; before the die's step 7, those that do not boot alone. -/
def State.rollGroup (s : State) (d : Nat) : List Nat :=
  if !(s.die d).rollDies.isEmpty then (s.die d).rollDies
  else if (s.die d).alone then [d] else (List.range 4).filter fun e => !(s.die e).alone

/-- The frame whose roll entry lies at a physical address (R326). -/
def State.entryFrame (s : State) (pa : Nat) : Option Nat :=
  (List.range 4).findSome? fun d =>
    let b := (s.die d).rollbase.toNat
    let k := (pa - b) / 8
    if b ≠ 0 ∧ b ≤ pa ∧ k < (s.die d).rollLen then
      ((s.rollGroup d)[k / dieFrames]?).map fun e => e * 2 ^ 26 + k % dieFrames
    else none

/-- The address of a frame's roll entry (R326). -/
def State.entryAddr (s : State) (frame : Nat) : Nat :=
  let d := homeDie (frame * 4096)
  (s.die d).rollbase.toNat + 8 * (((s.rollGroup d).findIdx (· == d)) * dieFrames + frame % 2 ^ 26)

/-- Bytes as their home slice reads them: an address of the roll reads the frame's entry (R326). -/
def State.homeRead (s : State) (pa size : Nat) : Nat :=
  if (s.entryFrame pa).isNone && (s.entryFrame (pa + size - 1)).isNone then readN s.mem pa size
  else (List.range size).foldr (fun i a => a * 256 + (match s.entryFrame (pa + i) with
    | some f => (s.deed f).word.toNat / 2 ^ (8 * ((pa + i) % 8)) % 256
    | none => readN s.mem (pa + i) 1)) 0

/-- `k` bytes as their home slices read them. -/
def State.homeBytes (s : State) (pa k : Nat) : List Byte :=
  if (s.entryFrame pa).isNone && (s.entryFrame (pa + k - 1)).isNone then readBytes s.mem pa k
  else (List.range k).map fun i => BitVec.ofNat 8 (s.homeRead (pa + i) 1)

/-- A span of 4 KiB frames is uniform and grants a domain (R322, R323). -/
def State.uniform (s : State) (first count : Nat) (dom : Domain) : Bool :=
  let e := s.deed first
  e.grants dom && (List.range count).all fun i =>
    let x := s.deed (first + i)
    x.owner == e.owner && x.state == e.state && (e.state == 0 || x.cpart == e.cpart)

/-! ### Page tables (R318 to R321) -/

inductive Acc where
  | fetch | load | store | flush
  deriving DecidableEq, Repr

/-- The cause of a translation fault, by access. -/
def Acc.cause : Acc → Cause
  | .fetch => .transf | .load | .flush => .transl | .store => .transs

/-- What a walk finds. -/
inductive Walk where
  | fault
  | deed
  | lost (d : Nat)
  /-- The table's entry holds a double-bit error (R249), or lies in a reduction window or behind an insecure port or link,
  which refuse loads (R344, R353). -/
  | flaw
  | window
  | leaf (pte : Word) (level : Nat) (glob : Bool)
  deriving DecidableEq, Repr

/-- PTE bits (Sv57 with Svpbmt). -/
abbrev pteV (p : Word) : Bool := p.getLsbD 0
abbrev pteR (p : Word) : Bool := p.getLsbD 1
abbrev pteW (p : Word) : Bool := p.getLsbD 2
abbrev pteX (p : Word) : Bool := p.getLsbD 3
abbrev pteU (p : Word) : Bool := p.getLsbD 4
abbrev pteG (p : Word) : Bool := p.getLsbD 5
abbrev pteA (p : Word) : Bool := p.getLsbD 6
abbrev pteD (p : Word) : Bool := p.getLsbD 7
abbrev ptePpn (p : Word) : Nat := p.toNat / 2 ^ 10 % 2 ^ 44
abbrev ptePbmt (p : Word) : Nat := p.toNat / 2 ^ 61 % 4
abbrev pteN (p : Word) : Bool := p.getLsbD 63

/-- What any PTE must hold (R319): valid, bits [60:54] zero, PPN within 48 bits of address. -/
def pteSound (p : Word) : Bool :=
  pteV p && !pteN p && decide (ptePbmt p ≠ 3) && decide (p.toNat / 2 ^ 54 % 128 = 0) && decide (ptePpn p < 2 ^ 36)

/-- The table entry's address at a level. -/
abbrev pteAddr (va base level : Nat) : Nat := base + 8 * (va / 2 ^ (12 + 9 * level) % 512)

/-- One table read of a walk (R319): its end, or the next table and whether a global pointer led to it. A table in the
system region is outside the package: its entry is the `k`-th free value from here. -/
def State.walkStep (s : State) (dom : Domain) (d : Nat) (va base : Nat) (glob : Bool) (level k : Nat) :
    Except Walk (Nat × Bool) :=
  let a := pteAddr va base level
  if inDevice a then .error .fault
  else if inPackage a && !s.populated a then .error .deed
  else if inPackage a && s.cut d (homeDie a) then .error (.lost (homeDie a))
  else if inPackage a && !s.granted dom a then .error .deed
  else if inPackage a && s.flawed false a 8 then .error .flaw
  else if !inPackage a && !(inSystem a && s.systemPopulated d a) then .error .deed
  else if !inPackage a && ((s.windowOf d a).isSome || s.insecurePath d a) then .error .window
  else
    let p := if inPackage a then word (s.homeRead a 8) else Config.freeValue (s.free + k)
    if !pteSound p then .error .fault
    else if pteR p || pteX p then
      if level > 2 || !pteA p || (pteW p && !pteR p) || decide (ptePpn p % 2 ^ (9 * level) ≠ 0) then .error .fault
      else .error (.leaf p level (glob || pteG p))
    else if pteW p || pteD p || pteA p || pteU p || decide (ptePbmt p ≠ 0) then .error .fault
    else .ok (ptePpn p * 4096, glob || pteG p)

/-- The walk from a table at `base` (R319), and the addresses that it has read; `k` free values are used before it; the
level counts down from 4. -/
def State.walk (s : State) (dom : Domain) (d va base : Nat) (glob : Bool) (k : Nat) : Nat → Walk × List Nat
  | 0 => (match s.walkStep dom d va base glob 0 k with | .error r => r | .ok _ => .fault, [pteAddr va base 0])
  | l + 1 =>
    let a := pteAddr va base (l + 1)
    match s.walkStep dom d va base glob (l + 1) k with
    | .error r => (r, [a])
    | .ok (b, g) =>
      let r := s.walk dom d va b g (if inSystem a then k + 1 else k) l
      (r.1, a :: r.2)

/-- What one table read of a walk of core `c` meets: it is an acquire read at its home slice (R319), which waits for a closed
way, a busy line and a bin under way, finds a dropped entry and reports a double-bit error; one of a reduction window is
counted; one of the rest of the system region takes a free value. -/
def State.walkMeets (s : State) (c a : Nat) : State :=
  if inPackage a then (if s.cut (dieOf c) (homeDie a) then s else (s.coreMeets c a 8).2)
  else if inSystem a then
    let r := s.windowLoad (dieOf c) a
    if r.1 || s.insecurePath (dieOf c) a then r.2 else { s with free := s.free + 1 }
  else s

/-- Whether an entry's leaf allows an access (R320). -/
def permits (p : Word) (acc : Acc) (priv : Priv) : Bool :=
  match acc with
  | .fetch => pteX p && (if priv = .user then pteU p else !pteU p)
  | .load => pteR p && (priv != .user || pteU p)
  | .flush => (pteR p || pteX p) && (priv != .user || pteU p)
  | .store => pteR p && pteW p && pteD p && (priv != .user || pteU p)

/-- Whether a TLB entry translates an address for a context (R321). -/
def TlbEntry.hits (e : TlbEntry) (pasid : Word) (asid va : Nat) : Bool :=
  decide (e.pasid = pasid) && (e.glob || decide (e.asid = asid)) && decide (va / 2 ^ (12 + 9 * e.level) = e.vpn)

abbrev TlbEntry.pa (e : TlbEntry) (va : Nat) : Nat :=
  e.ppn * 4096 + va % 2 ^ (12 + 9 * e.level)

/-- The result of a translation. -/
inductive Trans where
  | ok (pa : Nat) (kind : Kind)
  | bad (c : Cause) (v : Word)
  deriving DecidableEq, Repr

/-- The entry a walk's leaf installs under the roll (R323), or none when the frame's entry does not grant it: a grant that an
OFFER or a RETURN of the tick has removed installs nothing more. -/
def State.entryFor (s : State) (dom : Domain) (pasid : Word) (asid va : Nat) (pte : Word) (level : Nat)
    (glob : Bool) : Option TlbEntry :=
  let e : TlbEntry :=
    { pasid := pasid, asid := asid, glob := glob, vpn := va / 2 ^ (12 + 9 * level), level := level, ppn := ptePpn pte
      perms := pte, pbmt := ptePbmt pte, gen := 0, stew := decide (dom = .stew) }
  let pa := e.pa va
  if !inPackage pa then some e
  else if level = 0 then
    if s.entryGrants dom pa then some { e with gen := (s.deed (pa / 4096)).gen.toNat } else none
  else if s.uniform (e.ppn) (2 ^ (9 * level)) dom then
    some { e with gen := if level = 1 then (mget 0 s.span2m (e.ppn / 512)).toNat else (mget 0 s.span1g (e.ppn / 2 ^ 18)).toNat }
  else if s.entryGrants dom pa then
    some { e with level := 0, vpn := va / 4096, ppn := pa / 4096, gen := (s.deed (pa / 4096)).gen.toNat }
  else none

/-- Move an entry to the front of a core's L1 TLB of 64, dropping the least recently used (R321). -/
def Core.touchTlb (c : Core) (e : TlbEntry) : Core := { c with tlb := (e :: c.tlb.filter (· != e)).take 64 }

/-- The kind check that ends a translation: an unpopulated address raises DEED (R17). -/
def State.kinded (s : State) (d pa pbmt : Nat) (va : Word) : Trans :=
  match s.kindOf d pa pbmt with
  | some k => .ok pa k
  | none => .bad .deed va

/-- `Translate(va, acc)` (R318) for given credentials on core `c`. -/
def State.translateAs (s : State) (cr : Creds) (c : Nat) (va : Word) (acc : Acc) : Trans × State :=
  let d := dieOf c
  let mode := cr.atp.toNat / 2 ^ 60
  if cr.priv = .steward ∨ mode = 0 then
    if va.toNat ≥ 2 ^ 48 then (.bad acc.cause va, s) else (s.kinded d va.toNat 0 va, s)
  else if mode ≠ 10 then (.bad acc.cause va, s)
  else if va.toNat / 2 ^ 57 ≠ 127 * (va.toNat / 2 ^ 56 % 2) then (.bad acc.cause va, s)
  else
    let v := va.toNat % 2 ^ 57
    let asid := cr.atp.toNat / 2 ^ 44 % 2 ^ 16
    let found := match (s.core c).tlb.find? fun e => e.hits cr.pasid asid v with
      | some e => some e
      | none => (s.die d).tlb.find? fun e => e.hits cr.pasid asid v
    match found with
    | some e =>
      let s := s.onCore c fun x => x.touchTlb e
      if permits e.perms acc cr.priv then (s.kinded d (e.pa v) e.pbmt va, s) else (.bad acc.cause va, s)
    | none =>
      let w := s.walk cr.domain d v ((cr.atp.toNat % 2 ^ 44) * 4096) false 0 4
      let s := w.2.foldl (fun s a => s.walkMeets c a) s
      match w.1 with
      | .fault => (.bad acc.cause va, s)
      | .deed => (.bad .deed va, s)
      | .lost _ | .flaw | .window => (.bad .mchk va, s)
      | .leaf pte level glob =>
        if acc = .store ∧ pteD pte = false then (.bad .transs va, s)
        else match s.entryFor cr.domain cr.pasid asid v pte level glob with
        -- A fetch's permission is asked before its frame's grant (R34, steps 1 and 2).
        | none => (.bad (if acc = .fetch ∧ !permits pte acc cr.priv then acc.cause else .deed) va, s)
        | some e =>
          let s := (s.onCore c fun x => x.touchTlb e).onDie d fun x => { x with tlb := (e :: x.tlb).take 262144 }
          if permits e.perms acc cr.priv then (s.kinded d (e.pa v) e.pbmt va, s) else (.bad acc.cause va, s)

abbrev Thread.creds (t : Thread) : Creds := { atp := t.atp, pasid := t.pasid, priv := t.priv }

/-- `Translate` for a thread on the core where it runs. -/
abbrev State.translate (s : State) (n : Nat) (va : Word) (acc : Acc) : Trans × State :=
  s.translateAs (s.thr n).creds (s.thr n).core va acc

end Sys2Proof.Machine
end

