-- ==== Sys2Proof/Machine/Control.lean ====
section
/-! DEFINITION. Control instructions and system registers (chapters 6, 7 and 14), and the traps of fetch and decode. -/

namespace Sys2Proof.Machine

/-! ### System registers (R115 to R121) -/

/-- Who may access a system register. -/
inductive Grant where
  | user | kernel | steward
  | level (n : Nat)
  | never
  deriving DecidableEq, Repr

/-- The Read and Write columns of R115. -/
def sysGrant (k : Nat) : Option (Grant × Grant) :=
  if k = 0x000 then some (.user, .kernel)
  else if 0x001 ≤ k ∧ k ≤ 0x004 then some (.level 1, .level 1)
  else if 0x005 ≤ k ∧ k ≤ 0x008 then some (.level 2, .level 2)
  else if k = 0x009 ∨ k = 0x00A then some (.kernel, .kernel)
  else if k = 0x00B then some (.user, .kernel)
  else if k = 0x010 then some (.kernel, .never)
  else if k = 0x011 ∨ k = 0x012 then some (.user, .kernel)
  else if k = 0x020 ∨ k = 0x021 then some (.kernel, .kernel)
  else if k = 0x030 then some (.user, .never)
  else if k = 0x031 then some (.kernel, .never)
  else if k = 0x032 then some (.user, .kernel)
  else if k = 0x080 then some (.kernel, .steward)
  else none

/-- Whether a thread's level registers are open to it in user mode (R115). -/
def Thread.dlgAt (t : Thread) (n : Nat) : Bool :=
  decide (n ≤ t.lvl) && (if n = 1 then t.cause1 else t.cause2).getLsbD 61

def Thread.may (t : Thread) : Grant → Bool
  | .user => true
  | .kernel => !decide (t.priv = .user)
  | .steward => decide (t.priv = .steward)
  | .level n => !decide (t.priv = .user) || t.dlgAt n
  | .never => false

/-- TSTAT (R117). -/
def tstat (n : Nat) (t : Thread) : Word :=
  word (originOf n % 1024 * 2 ^ 32 + n % 16 * 2 ^ 20 + (if t.away then 2 ^ 9 else 0)
    + (if t.timPend.isSome then 2 ^ 8 else 0) + t.pv2.code * 64 + t.pv1.code * 16 + t.priv.code * 4 + t.lvl)

/-- A slot's code in SLOTSTAT (R90). -/
def State.slotCode (s : State) (c k : Nat) : Nat :=
  if (s.thr (16 * c + k)).away then 4
  else match s.occupant c k with
    | none => 0
    | some n =>
      let t := s.thr n
      (match t.run with | .free => 0 | .ready => 1 | .waiting => 2 | .sleeping => 3) + (if t.away then 8 else 0)

/-- SLOTSTAT of a core (R90). -/
def State.slotstat (s : State) (c : Nat) : Word :=
  word ((List.range 16).foldl (fun a k => a + s.slotCode c k * 16 ^ k) 0)

/-- A system register's value as thread `n` reads it. -/
def State.sysRead (s : State) (n k : Nat) : Word :=
  let t := s.thr n
  if k = 0x000 then tstat n t
  else if k = 0x001 then t.cause1 else if k = 0x002 then t.ret1 else if k = 0x003 then t.val1
  else if k = 0x004 then t.scratch1 else if k = 0x005 then t.cause2 else if k = 0x006 then t.ret2
  else if k = 0x007 then t.val2 else if k = 0x008 then t.scratch2 else if k = 0x009 then t.tdeleg
  else if k = 0x00A then t.kvec else if k = 0x00B then t.uvec else if k = 0x010 then t.tmr
  else if k = 0x011 then t.wid else if k = 0x012 then t.ctxnum else if k = 0x020 then t.atp
  else if k = 0x021 then t.pasid else if k = 0x030 then word (t.slot * 4096 + t.core % 1024)
  else if k = 0x031 then s.slotstat t.core
  else if k = 0x032 then (s.core (originOf n)).commask
  else if k = 0x080 then (s.die (dieOf t.core)).slhash
  else 0

/-- The writable bits of TCAUSE (R118) and of TDELEG (R119). -/
abbrev causeMask : Word := 0xE000_0000_0000_00FF
abbrev delegMask : Word := 0x641A

/-- PV1 or PV2 of an SRW to TSTAT: 3 leaves the field (R117). -/
def pvField (old : Priv) (x : Nat) : Priv := if x = 3 then old else Priv.ofCode x

/-- SRW's effect on the register's writable fields (R116 to R121). COMMASK and SLHASH, which other threads see, take the
value when the write-back cycle t + 2 is past. -/
def State.sysWrite (s : State) (n k : Nat) (v : Word) : State :=
  if k = 0x032 then s.onCore (originOf n) fun c => { c with cmPend := c.cmPend ++ [(c.cycle + 2, v &&& 0xFFFF)] }
  else if k = 0x080 then
    let c := (s.thr n).core
    s.onDie (dieOf c) fun d => { d with slPend := d.slPend ++ [(c, (s.core c).cycle + 2, v &&& 3)] }
  else s.onThr n fun t =>
    if k = 0x000 then { t with pv1 := pvField t.pv1 (v.toNat / 16 % 4), pv2 := pvField t.pv2 (v.toNat / 64 % 4) }
    else if k = 0x001 then { t with cause1 := v &&& causeMask }
    else if k = 0x002 then { t with ret1 := v &&& addrMask }
    else if k = 0x003 then { t with val1 := v }
    else if k = 0x004 then { t with scratch1 := v }
    else if k = 0x005 then { t with cause2 := v &&& causeMask }
    else if k = 0x006 then { t with ret2 := v &&& addrMask }
    else if k = 0x007 then { t with val2 := v }
    else if k = 0x008 then { t with scratch2 := v }
    else if k = 0x009 then { t with tdeleg := v &&& delegMask }
    else if k = 0x00A then { t with kvec := v &&& addrMask }
    else if k = 0x00B then { t with uvec := v &&& addrMask }
    else if k = 0x011 then { t with wid := v }
    else if k = 0x012 then { t with ctxnum := v &&& 0xBFFF }
    else if k = 0x020 then (if v.toNat / 2 ^ 60 = 0 ∨ v.toNat / 2 ^ 60 = 10 then { t with atp := v } else t)
    else if k = 0x021 then { t with pasid := v &&& 0xFFFFF }
    else t

/-- The checks of SRR (R116). -/
def srrCheck (s : State) (i : Instr) (k : Nat) : Refuse :=
  match sysGrant k with
  | none => some (.ill, w0Of i)
  | some (r, _) => failIf (!s.me.may r) .priv (w0Of i)

/-- The checks of SRW (R116). -/
def srwCheck (s : State) (i : Instr) (k : Nat) : Refuse :=
  match sysGrant k with
  | none => some (.ill, w0Of i)
  | some (_, .never) => some (.ill, w0Of i)
  | some (_, w) => failIf (!s.me.may w) .priv (w0Of i)

/-- Step 6 of R34 for SRR and SRW: a listed register below its privilege (R116, R314). -/
def sysPriv (s : State) : Instr → Refuse
  | .srr d num => match sysGrant num.toNat with
    | some (r, _) => failIf (!s.me.may r) .priv (w0Of (.srr d num))
    | none => none
  | .srw a num => match sysGrant num.toNat with
    | some (_, .never) | none => none
    | some (_, w) => failIf (!s.me.may w) .priv (w0Of (.srw a num))
  | _ => none

/-! ### The control family -/

/-- PAD (R24): no issue cycle is spent. -/
def execPad (s : State) : Result := .next (s.finish s.cur 4)

/-- NOP (R25). -/
def execNop (s : State) : Result := .next (s.finish s.cur 8)

/-- The return address of the present level. -/
abbrev Thread.tret (t : Thread) : Word := if t.lvl = 2 then t.ret2 else t.ret1

/-- The checks of RTT (R313), with the alignment of what it sets PC to (R22). -/
def rttCheck (t : Thread) : Refuse :=
  let w := w0Of .rtt
  if t.lvl = 0 then some (.ill, w)
  else if t.priv = .user ∧ (if t.lvl = 2 then t.cause2 else t.cause1).getLsbD 61 = false then some (.priv, w)
  else orElse' (failIf (t.priv.below (if t.lvl = 2 then t.pv2 else t.pv1)) .priv w)
    (failIf (decide (t.tret.toNat % 4 ≠ 0)) .align t.tret)

/-- RTT (R313). -/
def execRtt (s : State) : Result := .next (s.check s.cur (rttCheck s.me) (s.rtt s.cur))

/-- SRR (R314). -/
def execSrr (d : Reg) (num : BitVec 12) (s : State) : Result :=
  .next (s.check s.cur (srrCheck s (.srr d num) num.toNat) (s.write s.cur d (s.sysRead s.cur num.toNat) 2 8))

/-- SRW (R314). -/
def execSrw (a : Reg) (num : BitVec 12) (s : State) : Result :=
  .next (s.check s.cur (srwCheck s (.srw a num) num.toNat)
    ((s.sysWrite s.cur num.toNat (s.reg s.cur a)).finish s.cur 8))

/-- DCYC as a core reads it in its present cycle (R19, R105): its die's count at the tick, and the core cycles since. A
steward core runs 10 cycles in a tick, and its die's core clock FCUR ÷ 2. In a relock of its die, where R336 lets no RDCYC
issue and R19 lets the steward run on, it reads the count at which the relock began (DESIGN CHOICE, log 117). -/
def State.dcycAt (s : State) (c : Nat) : Nat :=
  let x := s.core c
  let e := x.cycle - x.base - 1
  (s.die (dieOf c)).dcyc + (if c < 1024 then e else if s.halted (dieOf c) then 0 else e * (s.die (dieOf c)).fcur / 20)

/-- RDCYC (R105): DCYC of the die the thread runs on. -/
def execRdcyc (d : Reg) (s : State) : Result :=
  .next (s.write s.cur d (word (s.dcycAt s.me.core)) 2 8)

/-- RDREF (R105). Every read within a tick returns the tick's count; R20 would let two unordered reads on different dies
differ by one tick (DESIGN CHOICE, log 82). -/
def execRdref (d : Reg) (s : State) : Result := .next (s.write s.cur d (word s.reft) 2 8)

/-- TMR.SET (R106). -/
def execTmrSet (d a : Reg) (s : State) : Result :=
  let n := s.cur
  .next (s.check n (privCheck s (.tmrSet d a))
    (((s.onThr n fun t => { t with tmr := s.reg n a }).write n d s.me.tmr 2 8)))

/-- UNASSIGNED_ENCODING (R34 steps 3 and 5, R35). -/
def execUnassignedEncoding (w0 : BitVec 32) (s : State) : Result := .next (s.raise s.cur .ill (zext w0))

def fetchCause : FetchCause → Cause
  | .transf => .transf | .deed => .deed | .straddle => .straddle | .align => .align | .mchk => .mchk

/-- FETCH_FAULT: the causes of R34's steps 1, 2 and 4, an ALIGN of a CODE that is not aligned (R197), a lost die. -/
def execFetchFault (c : FetchCause) (tval : Word) (s : State) : Result := .next (s.raise s.cur (fetchCause c) tval)

end Sys2Proof.Machine
end

