-- ==== Sys2Proof/Machine/Numbers.lean ====
section
/-! DEFINITION. Number formats: exact values, rounding and overflow, conversions, block quantisation (chapter 5). -/

namespace Sys2Proof.Machine

/-- A floating-point value taken exactly: NaN, an infinity, or ±m × 2^e. -/
inductive Num where
  | nan
  | inf (neg : Bool)
  | fin (neg : Bool) (m : Nat) (e : Int)
  deriving DecidableEq, Repr

/-- A floating-point element format (R68): exponent and fraction widths, bias, code of the largest finite value. -/
structure Fmt where
  eb : Nat
  mb : Nat
  bias : Nat
  top : Nat
  hasInf : Bool
  hasNan : Bool
  nan : Nat
  deriving DecidableEq, Repr

def fp32 : Fmt := ⟨8, 23, 127, 0x7F7F_FFFF, true, true, 0x7FC0_0000⟩
def fp16 : Fmt := ⟨5, 10, 15, 0x7BFF, true, true, 0x7E00⟩
def bf16 : Fmt := ⟨8, 7, 127, 0x7F7F, true, true, 0x7FC0⟩
def e4m3 : Fmt := ⟨4, 3, 7, 0x7E, false, true, 0x7F⟩
def e5m2 : Fmt := ⟨5, 2, 15, 0x7B, true, true, 0x7E⟩
def e2m1 : Fmt := ⟨2, 1, 1, 0x7, false, false, 0⟩

/-- The value of a code (R68); codes above the largest finite are infinity or NaN. -/
def Fmt.decode (f : Fmt) (code : Nat) : Num :=
  let w := f.eb + f.mb
  let neg := decide (code / 2 ^ w % 2 = 1)
  let x := code % 2 ^ w
  if x > f.top then (if f.hasInf && decide (x = f.top + 1) then .inf neg else .nan)
  else
    let e := x / 2 ^ f.mb
    let m := x % 2 ^ f.mb
    if e = 0 then .fin neg m (1 - f.bias - f.mb) else .fin neg (2 ^ f.mb + m) ((e : Int) - f.bias - f.mb)

/-- Divide by 2^d and round by mode: `m ≥ 0`, `neg` its sign (R75). -/
def roundShift (m d : Nat) (rm : Rm) (neg : Bool) : Nat :=
  let q := m / 2 ^ d
  let r := m % 2 ^ d
  let up := match rm with
    | .rne => decide (2 * r > 2 ^ d) || (decide (2 * r = 2 ^ d) && decide (q % 2 = 1))
    | .rtz => false
    | .rdn => neg && decide (r ≠ 0)
    | .rup => !neg && decide (r ≠ 0)
  if up then q + 1 else q

/-- The overflow rule of R76 for a rounded magnitude above the largest finite value; the result is a code. -/
def Fmt.overflow (f : Fmt) (rm : Rm) (sat neg : Bool) : Nat :=
  let s := if neg then 2 ^ (f.eb + f.mb) else 0
  let big := if f.hasInf then s + f.top + 1 else if f.hasNan then f.nan else s + f.top
  if sat then s + f.top
  else match rm with
    | .rne => big
    | .rtz => s + f.top
    | .rdn => if neg then big else f.top
    | .rup => if neg then s + f.top else big

/-- `Round(x, fmt, mode)` with R76 under `sat`, as a code (R75 to R78). -/
def Fmt.round (f : Fmt) (rm : Rm) (sat : Bool) : Num → Nat
  | .nan => f.nan
  | .inf neg =>
    let s := if neg then 2 ^ (f.eb + f.mb) else 0
    if sat then s + f.top else if f.hasInf then s + f.top + 1 else if f.hasNan then f.nan else s + f.top
  | .fin neg m e =>
    let s := if neg then 2 ^ (f.eb + f.mb) else 0
    if m = 0 then (if f.hasNan then s else 0)
    else
      let low : Int := 1 - f.bias - f.mb
      let q := max ((m.log2 : Int) + e - f.mb) low
      let r := if e ≥ q then m * 2 ^ (e - q).toNat else roundShift m (q - e).toNat rm neg
      let x := if r < 2 ^ f.mb then r
        else if r = 2 ^ (f.mb + 1) then (q + 1 - low + 1).toNat * 2 ^ f.mb
        else (q - low + 1).toNat * 2 ^ f.mb + (r - 2 ^ f.mb)
      if x > f.top then f.overflow rm sat neg
      else if x = 0 ∧ !f.hasNan then 0 else s + x

/-- The signed integer of a finite value over 2^e. -/
abbrev signed (neg : Bool) (m : Nat) : Int := if neg then -(m : Int) else m

/-- A value of a signed integer times 2^e; `z` is the sign of an exact zero. -/
def ofInt (i : Int) (e : Int) (z : Bool) : Num :=
  if i = 0 then .fin z 0 e else .fin (decide (i < 0)) i.natAbs e

/-- Exact sum (R77: an exact zero of opposite signs is +0 under RNE). -/
def Num.add : Num → Num → Num
  | .nan, _ | _, .nan => .nan
  | .inf a, .inf b => if a = b then .inf a else .nan
  | .inf a, .fin _ _ _ => .inf a
  | .fin _ _ _, .inf b => .inf b
  | .fin n1 m1 e1, .fin n2 m2 e2 =>
    let e := min e1 e2
    ofInt (signed n1 m1 * 2 ^ (e1 - e).toNat + signed n2 m2 * 2 ^ (e2 - e).toNat) e (n1 && n2)

def Num.neg : Num → Num
  | .nan => .nan | .inf n => .inf !n | .fin n m e => .fin (!n) m e

def Num.abs : Num → Num
  | .nan => .nan | .inf _ => .inf false | .fin _ m e => .fin false m e

def Num.isNan : Num → Bool
  | .nan => true | _ => false

def Num.isNeg : Num → Bool
  | .nan => false | .inf n => n | .fin n _ _ => n

def Num.isZero : Num → Bool
  | .fin _ 0 _ => true | _ => false

/-- Exact product; ∞ × 0 is NaN (R85). -/
def Num.mul : Num → Num → Num
  | .nan, _ | _, .nan => .nan
  | .inf a, .inf b => .inf (a != b)
  | .inf a, .fin b m _ | .fin b m _, .inf a => if m = 0 then .nan else .inf (a != b)
  | .fin n1 m1 e1, .fin n2 m2 e2 => .fin (n1 != n2) (m1 * m2) (e1 + e2)

/-- a × b + c, exact. -/
def Num.fma (a b c : Num) : Num := (a.mul b).add c

/-- Multiplication by a power of two, exact. -/
def Num.scale (x : Num) (k : Int) : Num :=
  match x with
  | .fin n m e => .fin n m (e + k)
  | x => x

/-- Comparison of values that are not NaN, −0 equal to +0: `a < b`. -/
def Num.lt : Num → Num → Bool
  | .nan, _ | _, .nan => false
  | .inf a, .inf b => a && !b
  | .inf a, .fin _ _ _ => a
  | .fin _ _ _, .inf b => !b
  | .fin n1 m1 e1, .fin n2 m2 e2 =>
    let e := min e1 e2
    decide (signed n1 m1 * 2 ^ (e1 - e).toNat < signed n2 m2 * 2 ^ (e2 - e).toNat)

def Num.eq (a b : Num) : Bool := !a.isNan && !b.isNan && !a.lt b && !b.lt a

/-- V.MIN and V.MAX (R81): −0 below +0, one NaN gives the other operand. -/
def Num.min (a b : Num) : Num :=
  if a.isNan then b else if b.isNan then a
  else if a.lt b then a else if b.lt a then b else if a.isNeg then a else b

def Num.max (a b : Num) : Num :=
  if a.isNan then b else if b.isNan then a
  else if a.lt b then b else if b.lt a then a else if a.isNeg then b else a

/-- A quotient or root known to `m` with a remainder: half a unit below stands for it, far under any rounding. -/
abbrev sticky (neg : Bool) (m : Nat) (e : Int) (exact : Bool) : Num :=
  if exact then .fin neg m e else .fin neg (2 * m + 1) (e - 1)

/-- 1 ÷ a (R82). -/
def Num.rcp : Num → Num
  | .nan => .nan
  | .inf n => .fin n 0 0
  | .fin n m e =>
    if m = 0 then .inf n
    else
      let k := m.log2 + 100
      sticky n (2 ^ k / m) (-e - k) (2 ^ k % m = 0)

/-- Integer square root by bits, from bit `b` down. -/
def isqrtFrom (n r : Nat) : Nat → Nat
  | 0 => r
  | b + 1 => let t := r + 2 ^ b; isqrtFrom n (if t * t ≤ n then t else r) b

/-- ⌊√n⌋. -/
def isqrt (n : Nat) : Nat := isqrtFrom n 0 (n.log2 / 2 + 1)

/-- 1 ÷ √a (R82). -/
def Num.rsqrt : Num → Num
  | .nan => .nan
  | .inf n => if n then .nan else .fin false 0 0
  | .fin n m e =>
    if m = 0 then .inf n
    else if n then .nan
    else
      let m' := if e % 2 = 0 then m else 2 * m
      let e' := if e % 2 = 0 then e else e - 1
      let k := m'.log2 / 2 + 100
      let q := 2 ^ (2 * k) / m'
      let r := isqrt q
      sticky false r (-(e' / 2) - k) (r * r * m' = 2 ^ (2 * k))

/-- The product of 2^(2^−i) over the set bits of a fraction, highest first, in units of 2^−320. -/
def exp2Frac : List Bool → Nat → Nat → Nat
  | [], _, acc => acc
  | b :: bs, root, acc =>
    let root := isqrt (root * 2 ^ 320)
    exp2Frac bs root (if b then acc * root / 2 ^ 320 else acc)

/-- The `n` bits of a fraction below 2^n, highest first. -/
def fracBits (f : Nat) : Nat → List Bool
  | 0 => []
  | n + 1 => decide (f / 2 ^ n % 2 = 1) :: fracBits f n

/-- 2^a (R82): a correctly rounded result is fixed by 320 bits of it (DEDUCED, log 23). -/
def Num.exp2 : Num → Num
  | .nan => .nan
  | .inf n => if n then .fin false 0 0 else .inf false
  | .fin n m e =>
    if m = 0 then .fin false 1 0
    else if (m.log2 : Int) + e ≥ 8 then (if n then .fin false 1 (-1000) else .fin false 1 1000)
    else if (m.log2 : Int) + e < -60 then .fin false 1 0
    else
      let k := (-e).toNat
      let x := signed n m * 2 ^ e.toNat
      let whole := x / 2 ^ k
      let frac := (x % 2 ^ k).toNat
      if frac = 0 then .fin false 1 whole
      else .fin false (2 * exp2Frac (fracBits frac k) (2 * 2 ^ 320) (2 ^ 320) + 1) (whole - 321)

/-- A value rounded to an integer by mode; NaN gives none. -/
def Num.toInt (rm : Rm) : Num → Option Int
  | .nan => none
  | .inf n => some (if n then -(2 ^ 70) else 2 ^ 70)
  | .fin n m e =>
    if e ≥ 0 then some (signed n (m * 2 ^ (Min.min e 100).toNat)) else some (signed n (roundShift m (-e).toNat rm n))

/-! ### Element types (R141) -/

/-- The float format of a TYPE code's elements. -/
def floatOf (t : Nat) : Option Fmt :=
  if t = 0 then some fp32 else if t = 1 then some fp16 else if t = 2 then some bf16
  else if t = 3 ∨ t = 5 then some e4m3 else if t = 4 ∨ t = 6 then some e5m2
  else if t = 7 ∨ t = 8 then some e2m1 else none

abbrev typeOk (t : Nat) : Bool := decide (t ≤ 0x12)
abbrev isFloat (t : Nat) : Bool := decide (t ≤ 8)
abbrev isBlock (t : Nat) : Bool := decide (5 ≤ t) && decide (t ≤ 8)
abbrev isSigned (t : Nat) : Bool := decide (9 ≤ t) && decide (t ≤ 13)
abbrev isInt (t : Nat) : Bool := decide (9 ≤ t) && decide (t ≤ 0x12)

/-- Element width in bits. -/
def typeBits (t : Nat) : Nat :=
  if t = 0 ∨ t = 0xC ∨ t = 0x11 then 32 else if t = 1 ∨ t = 2 ∨ t = 0xB ∨ t = 0x10 then 16
  else if t = 7 ∨ t = 8 ∨ t = 9 ∨ t = 0xE then 4 else if t = 0xD ∨ t = 0x12 then 64 else 8

/-- The integer of an integer type's code. -/
def intOf (t code : Nat) : Int :=
  let n := typeBits t
  let x := code % 2 ^ n
  if isSigned t && decide (x ≥ 2 ^ (n - 1)) then (x : Int) - 2 ^ n else x

/-- An integer modulo the type's width, as a code. -/
def wrapInt (t : Nat) (i : Int) : Nat := (i % 2 ^ typeBits t).toNat

/-- Saturation to an integer type's range. -/
def satInt (t : Nat) (i : Int) : Nat :=
  let n := typeBits t
  let lo : Int := if isSigned t then -(2 ^ (n - 1)) else 0
  let hi : Int := if isSigned t then 2 ^ (n - 1) - 1 else 2 ^ n - 1
  wrapInt t (Max.max lo (Min.min hi i))

/-- The value of an element code with its tag (R72, R73): blocks are scaled by 2^(c − 127). -/
def decodeElem (t code : Nat) (tag : BitVec 16) : Num :=
  match floatOf t with
  | none => .fin (decide (intOf t code < 0)) (intOf t code).natAbs 0
  | some f =>
    if isBlock t then
      let c := tag.toNat % 256
      if c = 255 then .nan
      else if (t = 7 ∨ t = 8) ∧ code % 16 = 8 then (e4m3.decode (tag.toNat / 256)).scale ((c : Int) - 127)
      else (f.decode code).scale ((c : Int) - 127)
    else f.decode code

/-- Conversion of an element to a non-block type (R78, R162). Between integers of one width .sat changes nothing: the bits are
kept (DESIGN CHOICE, log 90). -/
def convert (src dst code : Nat) (tag : BitVec 16) (rm : Rm) (sat : Bool) : Nat :=
  if isInt src && isInt dst then
    (if sat && decide (typeBits dst < typeBits src) then satInt dst (intOf src code) else wrapInt dst (intOf src code))
  else
    let x := decodeElem src code tag
    match floatOf dst with
    | some f => f.round rm sat x
    | none => match x.toInt rm with
      | some i => satInt dst i
      | none => 0

/-- ⌊log2 |x|⌋ of a finite nonzero value. -/
def Num.exponent : Num → Int
  | .fin _ m e => (m.log2 : Int) + e
  | _ => 0

/-- Block quantisation (R79): the 32 codes and the tag. TYPE 7, e2m1s, takes the special form. -/
def quantise (t : Nat) (xs : List Num) (rm : Rm) (sat : Bool) : List Nat × BitVec 16 :=
  let special := decide (t = 7)
  let f := (floatOf t).getD e4m3
  let bad := xs.any fun x => match x with | .fin _ _ _ => false | _ => true
  if bad then (xs.map fun _ => 0, 0x00FF)
  else
    let mags := xs.map Num.abs
    let amax := mags.foldl (fun a b => if a.lt b then b else a) (.fin false 0 0)
    let j := (mags.findIdx? fun x => x.eq amax).getD 0
    let rest := (mags.zipIdx.filter fun p => p.2 != j).map (·.1)
    let m := rest.foldl (fun a b => if a.lt b then b else a) (.fin false 0 0)
    let emax : Int := if t = 7 ∨ t = 8 then 2 else if t = 5 then 8 else 15
    let e0 : Int :=
      if special then
        let e := if m.isZero then -127 else m.exponent - 2
        if amax.isZero then e else Max.max e (amax.exponent - 7)
      else if amax.isZero then 0 else amax.exponent - emax
    let e := Min.min (Max.max e0 (-127)) 127
    let codes := xs.zipIdx.map fun p =>
      if special && p.2 == j then 8
      else
        let c := f.round rm sat (p.1.scale (-e))
        if (t = 7 ∨ t = 8) ∧ c = 8 then 0 else c
    let p := if special then e4m3.round rm false ((xs.getD j .nan).scale (-e)) else 0x80
    let k := (e + 127).toNat
    (codes, BitVec.ofNat 16 (if t = 7 ∨ t = 8 then p * 256 + k else k))

/-- Floating-point add of one FP32 word, or of two BF16 halves (R87). -/
def faddWord (old x : Nat) : Nat := fp32.round .rne false ((fp32.decode old).add (fp32.decode x))

def faddBf16Word (old x : Nat) : Nat :=
  let h := fun (a b : Nat) => bf16.round .rne false ((bf16.decode (a % 65536)).add (bf16.decode (b % 65536)))
  h old x + 65536 * h (old / 65536) (x / 65536)

/-- The new value of an atomic on `8 × size` bits (R158, R293): none where nothing is written. -/
def atomicNew (fn : AtFn) (size old x cmp : Nat) : Option Nat :=
  let n := 8 * size
  let o := old % 2 ^ n
  let y := x % 2 ^ n
  let so := (BitVec.ofNat n o).toInt
  let sy := (BitVec.ofNat n y).toInt
  match fn with
  | .add => some ((o + y) % 2 ^ n)
  | .and => some (Nat.land o y)
  | .or => some (Nat.lor o y)
  | .xor => some (Nat.xor o y)
  | .min => some (if so ≤ sy then o else y)
  | .max => some (if so ≥ sy then o else y)
  | .minn => some (Min.min o y)
  | .maxn => some (Max.max o y)
  | .swap => some y
  | .cas => if o = cmp % 2 ^ n then some y else none
  | .fadd => some (faddWord o y)
  | .faddBf16 => some (faddBf16Word o y)

end Sys2Proof.Machine
end

