-- ==== Sys2Proof/Machine/Home.lean ====
section
/-! DEFINITION. Home slices, the directory and the L1 data caches: serving stores, reads, atomics and pushes, and the
coherence messages they send (R222 to R235, R294, R328). -/

namespace Sys2Proof.Machine

/-! ### Lines as numbers -/

/-- The 128 bytes of a line at its home. -/
def State.homeLine (s : State) (line : Nat) : Line := BitVec.ofNat 1024 (s.homeRead (line * 128) 128)

/-- `size` bytes of a line's copy. -/
def lineGet (l : Line) (off size : Nat) : Word := word (l.toNat / 2 ^ (8 * off) % 2 ^ (8 * size))

/-- A line's copy with its bytes `off` to `off + size − 1` replaced. -/
def lineSet (l : Line) (off size : Nat) (v : Nat) : Line :=
  let m : Line := BitVec.ofNat 1024 ((2 ^ (8 * size) - 1) * 2 ^ (8 * off))
  (l &&& ~~~m) ||| (BitVec.ofNat 1024 (v % 2 ^ (8 * size) * 2 ^ (8 * off)))

/-- Where a thread's arrivals go: its context number's directory, or the core it runs on (R294, R308, R328). -/
def State.arrivalNode (s : State) (n : Nat) : Node :=
  match (s.thr n).ctx with
  | some k => .dir (k / 4096)
  | none => .core (s.thr n).core

/-- The hit notice of a thread for a line: the position of the line in its set (R294). -/
def State.hitOf (s : State) (n line : Nat) : Node × (Nat → Body) :=
  let t := s.thr n
  (s.arrivalNode n, fun id => .hit n ((t.resv.findIdx? (· = line)).getD 0 + 1) t.ctx id)

/-- The hit notices of a write to a line, for every registered thread but one (R294). -/
def State.hits (s : State) (line : Nat) (exempt : Option Nat) : List (Node × (Nat → Body)) :=
  (s.regs.filter fun p => p.2 = line && some p.1 != exempt).map fun p => s.hitOf p.1 line

/-- Registrations that a write to a line ends. -/
def State.endRegs (s : State) (line : Nat) (exempt : Option Nat) : State :=
  let gone := (s.regs.filter fun p => p.2 = line && some p.1 != exempt).map (·.1)
  { s with regs := s.regs.filter fun p => !gone.contains p.1 }

/-- A write at the home slice: bytes, updates to every recorded sharer, invalidations to agents, hits on reservations;
`done` follows the last reply (R229, R231, R294). -/
def State.applyWrite (s : State) (pa size v : Nat) (exempt : Option Nat) (done : Done) : State :=
  let line := pa / 128
  let x := s.dirOf line
  let s := { s with mem := writeN s.mem pa size v }
  let ups := (sharers (homeDie pa) x.form).map fun c =>
    ((Node.core c, fun id => Body.update c pa size (BitVec.ofNat 1024 v) id) : Node × (Nat → Body))
  let invs := x.agents.map fun a => ((Node.outside a, fun id => Body.agentInval a line id) : Node × (Nat → Body))
  let hs := s.hits line exempt
  let s := if x.agents.isEmpty then s else s.setDir line { x with agents := [] }.settle
  (s.endRegs line exempt).transact line (ups ++ invs ++ hs) done

/-! ### L1 data cache (R222) -/

/-- The lines of a set. -/
def Core.l1Set (c : Core) (line : Nat) : List (Nat × L1Line) :=
  c.l1.filterMap fun p => match p.2 with
    | some l => if p.1 % 64 = line % 64 then some (p.1, l) else none
    | none => none

/-- The oldest of a list by stamp. -/
def oldest : List (Nat × L1Line) → Option Nat
  | [] => none
  | p :: ps => match oldest ps with
    | none => some p.1
    | some k => match ps.find? (·.1 = k) with
      | some q => if q.2.stamp < p.2.stamp then some k else some p.1
      | none => some p.1

/-- The way a fill takes: `some none` an I way, `some (some k)` line k's way, `none` no way (R222). C and M lines are
replaced in the order of V lines (DEDUCED, log 24). A push takes an I or a V way alone (R235). -/
def Core.way (c : Core) (line : Nat) (push : Bool) : Option (Option Nat) :=
  let set := (c.l1Set line).filter (·.1 != line)
  if set.length < 8 then some none
  else
    let free := set.filter fun p => p.2.watch.isEmpty
    if push then (oldest (free.filter fun p => p.2.st == .v)).map some
    else match oldest (free.filter fun p => p.2.st != .d) with
      | some k => some (some k)
      | none => (oldest (free.filter fun p => p.2.st == .d)).map some

def Core.dCount (c : Core) : Nat := c.l1.countP fun p => match p.2 with | some l => l.st == .d | none => false

def State.l1 (s : State) (c line : Nat) : Option L1Line := mget none (s.core c).l1 line
def State.setL1 (s : State) (c line : Nat) (x : Option L1Line) : State :=
  s.onCore c fun k => { k with l1 := mset none k.l1 line x }

/-- Wake a thread that watches: at once on a prompt fabric, else by WAITA_WAKE; the home hears that its watch ended. -/
def State.wakeWatcher (s : State) (n line : Nat) : State :=
  let t := s.thr n
  let s := s.onCore t.core fun c => c.unwatch t.slot
  let s := s.send (.core t.core) (s.homeNode (line * 128)) (.watchEnd n line)
  if s.prompt then s.again n else s.park n .sleeping .woken

/-- The threads that watch a line of a core through its marked slots, over a byte range. -/
def State.watchers (s : State) (c line pa size : Nat) : List Nat :=
  match s.l1 c line with
  | none => []
  | some l => l.watch.filterMap fun k => (s.occupant c k).bind fun n =>
      match (s.thr n).wait with
      | .watch a z _ _ _ _ _ => if a < pa + size ∧ pa < a + z then some n else none
      | _ => none

/-- A copy leaves a core's L1: its watchers wake (R228). -/
def State.invalidate (s : State) (c line : Nat) : State :=
  let ws := s.watchers c line (line * 128) 128
  let s := s.setL1 c line none
  ws.foldl (fun s n => s.wakeWatcher n line) s

/-- ST of the region that covers an address: 0 where there is none (R238). -/
def State.regionSt (s : State) (pa : Nat) : Nat := match s.regionOf pa with | some (_, e) => rgnSt e | none => 0

/-- A fill meets a region whose ST is 1: hardware clears it (R238, R240). -/
def State.regionFilled (s : State) (pa : Nat) : State :=
  match s.regionOf pa with
  | some (i, e) =>
    if rgnSt e = 1 then s.onDie (homeDie pa) fun x => { x with regions := mset 0 x.regions i (e &&& 0xCFFF_FFFF_FFFF_FFFF) }
    else s
  | none => s

/-! ### L2 (R227, R232) -/

/-- A line leaves the L2: every copy is invalidated, and its reservations are hit (R232, R294). An open counter's line
is pinned (R258), and a busy line stays. -/
def State.evictL2 (s : State) (line : Nat) : State :=
  if s.busy line || (s.altHomes.any fun h => h.line = line) then s
  else
    let d := homeDie (line * 128)
    let x := s.dirOf line
    let cores := if x.form = .x then s.holders line else sharers d x.form
    let msgs := cores.map (fun c => ((Node.core c, fun id => Body.inval c line id) : Node × (Nat → Body)))
      ++ x.agents.map (fun a => ((Node.outside a, fun id => Body.agentInval a line id) : Node × (Nat → Body)))
      ++ s.hits line none
    let s := { s.setDir line {} with l2 := mset none s.l2 line none }
    (s.endRegs line none).transact line msgs .nothing

/-- The L2 lines of a line's slice and set, other than itself: a slice has 512 sets of 16 ways (R227; log 79). -/
def State.l2Others (s : State) (line : Nat) : List (Nat × Option Bool) :=
  s.l2.filter fun p => decide (p.1 ≠ line) && decide (s.homeNode (p.1 * 128) = s.homeNode (line * 128))
    && decide (Config.l2Set p.1 % 512 = Config.l2Set line % 512)

/-- The line that leaves a full set: one marked first for replacement, else a free choice (R251, R252; log 79). A busy
line and an open counter's line stay. -/
def State.l2Victim (s : State) (l : List (Nat × Option Bool)) : Option Nat × State :=
  let may := l.filter fun p => !s.busy p.1 && !s.altHomes.any fun h => h.line = p.1
  match may.find? fun p => p.2 = some true with
  | some p => (some p.1, s)
  | none => if may.isEmpty then (none, s)
    else ((may[s.fresh.1.toNat % may.length]?).map (·.1), s.fresh.2)

/-- A line stands in the L2; `strm` marks it first for replacement. -/
def State.l2Keep (s : State) (line : Nat) (strm : Bool) : State :=
  { s with l2 := mset none s.l2 line (some (strm || (mget none s.l2 line).getD false)) }

/-- A request that a home slice serves finds its line in the L2 or brings it there. Where all 16 ways of the set are busy
or pinned by open counters the request is served without a way: the spec says nothing of it (DESIGN CHOICE, log 79). -/
def State.l2Touch (s : State) (line : Nat) (strm : Bool) : State :=
  if (mget none s.l2 line).isSome || decide (s.l2.length < 16) || decide ((s.l2Others line).length < 16) then
    s.l2Keep line strm
  else
    let v := s.l2Victim (s.l2Others line)
    match v.1 with
    | some k => (v.2.evictL2 k).l2Keep line strm
    | none => v.2

/-! ### The end of a discovery (R230) -/

/-- A request finds a dropped line: the slice probes every L1 of the die; the request proceeds when the entry is
rebuilt. A prompt fabric answers the probes at once (log 4). -/
def State.discover (s : State) (line : Nat) (m : Msg) : State :=
  let d := homeDie (line * 128)
  if s.prompt then { s.rebuild line (s.holders line) with msgs := m :: s.msgs }
  else s.transact line ((List.range 256).map fun k =>
    ((Node.core (256 * d + k), fun id => Body.probe (256 * d + k) line id) : Node × (Nat → Body))) (.again m)

/-! ### Open counters (R256, R258) -/

/-- The units that allotments and returns in flight hold for a counter. -/
def State.units (s : State) (line : Nat) : Nat :=
  (s.cores.foldl (fun a p => match p.2 with
    | some c => c.alt.foldl (fun a e => if e.line = line then a + e.count else a) a
    | none => a) 0)
  + s.msgs.foldl (fun a m => match m.body with
    | .alt t _ l (.give n) => if l = line ∧ t = nobody then a + n else a
    | .alt _ _ l (.leave n _) => if l = line then a + n else a
    | _ => a) 0

/-- Add units to RESERVE; past 2^64 − 1 it saturates and OVF is set (R264). -/
def State.addReserve (s : State) (line n : Nat) : State :=
  let r := readN s.mem (line * 128) 8 + n
  if r < 2 ^ 64 then { s with mem := writeN s.mem (line * 128) 8 r }
  else
    let w1 := readN s.mem (line * 128 + 8) 8
    { s with mem := writeN (writeN s.mem (line * 128) 8 (2 ^ 64 - 1)) (line * 128 + 8) 8 (Nat.lor w1 (2 ^ 62)) }

/-- Close a counter: every allotment and return goes into the total, word 0 holds it, words 1 to 15 are zero, every
holder's entry is removed, and who waited for one issues again; a take in flight finds no entry later, so its l is 0 (R258). -/
def State.closeCounter (s : State) (line : Nat) : State :=
  if !s.counterOpen line then s
  else
    let n := s.units line
    let s := s.addReserve line n
    let total := readN s.mem (line * 128) 8
    let s : State := { s with
      mem := writeN (writeN s.mem (line * 128) 8 total) (line * 128 + 8) 120 0
      cores := s.cores.map fun (p : Nat × Option Core) => (p.1, p.2.map fun c => { c with alt := c.alt.filter fun e => e.line != line })
      msgs := s.msgs.filterMap fun (m : Msg) => match m.body with
        | .alt t _ l (.give _) => if l = line ∧ t = nobody then none else some m
        | .alt t c l (.leave _ d) =>
          if l ≠ line then some m else if t = nobody then none else some { m with body := .alt t c l (.left d) }
        | _ => some m
      altHomes := s.altHomes.filter fun h => h.line != line }
    s.cores.foldl (fun s p => s.freeAllot p.1) s

/-- A write that hardware makes at a home slice, with the updates of a store; `done` follows its acknowledgement. -/
def State.hwWriteThen (s : State) (pa size v : Nat) (done : Done) : State :=
  (((s.homeMeet pa).l2Touch (pa / 128) false).closeCounter (pa / 128)).applyWrite pa size v none done

/-- A write that hardware makes at a home slice; nothing waits for its acknowledgement. -/
def State.hwWrite (s : State) (pa size v : Nat) : State := s.hwWriteThen pa size v .nothing

/-! ### Late stores (R328) -/

/-- The window entry of a store. -/
def State.entryOf (s : State) (n id : Nat) : Option Unacked := (s.thr n).unacked.find? fun u => u.id = id

/-- A discarded store's report goes to the context that issued it, by the number it had then; one for a context that has
ended is dropped (R328). -/
def State.reportLate (s : State) (n id pa : Nat) : State :=
  let ctx := match s.entryOf n id with | some u => u.ctx | none => (s.thr n).ctx
  match ctx with
  | some k => s.send (s.homeNode pa) (.dir (k / 4096)) (.late n ctx (word pa))
  | none => if ghostBase ≤ n then s else s.send (s.homeNode pa) (.core (originOf n)) (.late n none (word pa))

/-- A DEEDLATE arrives at its context: up to 16 are held, those beyond are counted; the 16 that are held when the count
begins are the traps of which the 16th reports it (R302; DEDUCED, log 80). -/
def Thread.holdLate (t : Thread) (v : Word) : Thread :=
  if t.late.length < 16 then { t with late := t.late ++ [v] }
  else { t with lateMore := t.lateMore + 1, lateTaken := if t.lateMore = 0 then 0 else t.lateTaken }

/-- The domain of a thread number's requests. -/
abbrev State.domainOf (s : State) (n : Nat) : Domain := (s.thr n).domain

/-- The domain that issued a store: the mode in which it issued decides (R317). -/
def State.storeDom (s : State) (n id : Nat) : Domain :=
  match s.entryOf n id with
  | some u => u.dom
  | none => s.domainOf n

/-! ### Serving requests -/

/-- An M line's modified bytes at the home slice, as a write of its line: invalidations to agents, hits on reservations;
`done` follows the last reply (R229, R239, R294). -/
def State.takeBack (s : State) (line : Nat) (data : Line) (dirty : BitVec 128) (done : Done) : State :=
  let s := (s.l2Touch line false).closeCounter line
  let s := (List.range 128).foldl (fun s i =>
    if dirty.getLsbD i then { s with mem := writeByte s.mem (line * 128 + i) (data.extractLsb' (8 * i) 8) } else s) s
  let x := s.dirOf line
  let invs := x.agents.map fun a => ((Node.outside a, fun id => Body.agentInval a line id) : Node × (Nat → Body))
  let hs := s.hits line none
  let s := if x.agents.isEmpty then s else s.setDir line { x with agents := [] }.settle
  (s.endRegs line none).transact line (invs ++ hs) done

/-- Who hears that a write-back is acknowledged: its CL.FLUSH, or nobody. -/
abbrev backDone (n id : Nat) : Done := if n = nobody then .nothing else .ack n id

/-- HOME_STORE: a store or a line of zeros (R229, R252), or the write-back of an M line (R239). A write-back that the
accelerator has no grant for is discarded, and acknowledged (R328). -/
def serveStore (id : Nat) (s : State) : State :=
  match s.due id with
  | some ⟨_, src, dst, after, .store n pa size v⟩ =>
    let s := s.drop id
    if s.dropped (pa / 128) then s.discover (pa / 128) ⟨id, src, dst, after, .store n pa size v⟩
    else if !s.granted (s.storeDom n id) pa then (s.reportLate n id pa).conclude (pa / 128) (.ack n id)
    else
      let s := s.l2Touch (pa / 128) (match s.entryOf n id with | some u => u.strm | none => false)
      (s.closeCounter (pa / 128)).applyWrite pa size v.toNat none (.ack n id)
  | some ⟨_, src, dst, after, .wback n line data dirty⟩ =>
    let s := s.drop id
    if s.dropped line then s.discover line ⟨id, src, dst, after, .wback n line data dirty⟩
    else if !s.granted .acc (line * 128) then (s.conclude line (backDone n id)).settleOn id
    else (s.takeBack line data dirty (backDone n id)).settleOn id
  | _ => s

/-! ### Write-backs and fills (R222, R239) -/

/-- An M line's modified bytes are sent to its home slice, behind what the core holds for the line: a replacement, or ahead
of an access at home (R239, R283). -/
def State.sendBack (s : State) (c line : Nat) (l : L1Line) : State :=
  if l.st = .m then
    let id := s.nextId
    ({ s.put id (.core c) (s.homeNode (line * 128)) (s.heldLine c line) (.wback nobody line l.data l.dirty) with
      nextId := id + 1 } : State).promptly id serveStore
  else s

/-- An M line's modified bytes as a region change collects them (R255). -/
def State.writeBack (s : State) (line : Nat) (l : L1Line) : State :=
  if l.st = .m ∧ s.granted .acc (line * 128) then (s.homeMeet (line * 128)).takeBack line l.data l.dirty .nothing else s

/-- The line of a region may enter an L1 in a state: not while the region switches (R240), V and D in a hardware-coherent
one, C and M in a software-managed one (R239). -/
def State.mayHold (s : State) (line : Nat) (st : L1St) : Bool :=
  match s.regionOf (line * 128) with
  | some (_, e) => decide (rgnSt e ≠ 2) && (rgnSw e == decide (st = .c ∨ st = .m))
  | none => decide (st = .v ∨ st = .d)

/-- Put a line into a core's L1 in a way of R222; false when every way is watch-marked, or where the line may not be held in
the state. -/
def State.placeL1 (s : State) (c line : Nat) (st : L1St) (data : Line) : Bool × State :=
  if !s.mayHold line st then (false, s)
  else match (s.core c).way line false with
  | none => (false, s)
  | some v =>
    let s := match v with
      | some k => match s.l1 c k with
        | some l => (s.sendBack c k l).setL1 c k none
        | none => s
      | none => s
    let w := match s.l1 c line with | some l => l.watch | none => []
    (true, s.onCore c fun x =>
      { x with l1 := mset none x.l1 line (some { st := st, data := data, watch := w, stamp := x.l1clock }),
               l1clock := x.l1clock + 1 })

/-- A fill: a region whose ST is 1 loses it (R240). -/
def State.fillL1 (s : State) (c line : Nat) (st : L1St) (data : Line) : Bool × State :=
  let r := s.placeL1 c line st data
  (r.1, if r.1 then r.2.regionFilled (line * 128) else r.2)

/-- HOME_PUSH: the store of a PUSH, then an offer to each named core that may hold the line (R235, R253). -/
def servePush (id : Nat) (s : State) : State :=
  match s.due id with
  | some ⟨_, src, dst, after, .push n pa data cores reach⟩ =>
    let s := s.drop id
    let line := pa / 128
    if s.dropped line then s.discover line ⟨id, src, dst, after, .push n pa data cores reach⟩
    else if !s.granted (s.storeDom n id) pa then
      (s.reportLate n id pa).conclude line (.ack n id)
    else
      let s := (s.l2Touch line false).closeCounter line
      let s := match data with
        | some (size, v) => { s with mem := writeN s.mem pa size v.toNat }
        | none => s
      let x := s.dirOf line
      let named := if reach && s.mayHold line .d then cores.filter fun c => dieOf c = homeDie pa else []
      -- The offers read the line (R253): a double-bit error stops them and raises MCHK in the issuer (R249; DEDUCED, log 114).
      let bad := !named.isEmpty && s.flawed false (line * 128) 128
      let s := if bad then (s.raiseMc (homeDie pa) 2 0 (line * 128)).machineCheck n (word pa) else s
      let named := if bad then [] else named
      let ups := match data with
        | some (size, v) => (sharers (homeDie pa) x.form).map fun c =>
            ((Node.core c, fun i => Body.update c pa size v i) : Node × (Nat → Body))
        | none => []
      let invs := if data.isSome then
          x.agents.map fun a => ((Node.outside a, fun i => Body.agentInval a line i) : Node × (Nat → Body))
        else []
      let hs := if data.isSome then s.hits line none else []
      let s := if data.isSome then s.endRegs line none else s
      let s := if invs.isEmpty then s else s.setDir line { x with agents := [] }.settle
      let s := if named.isEmpty then s else s.dirRoom line
      let offs := named.map fun c => ((Node.core c, fun i => Body.offer c line i) : Node × (Nat → Body))
      s.transact line (ups ++ invs ++ hs ++ offs) (.ack n id)
  | _ => s

/-- Register a thread for a line; a slice's table holds 512, and its oldest registration ends as a hit (R294). -/
def State.register (s : State) (n line : Nat) : State :=
  if s.regs.contains (n, line) then s
  else
    let here := s.regs.filter fun p => s.homeNode (p.2 * 128) = s.homeNode (line * 128)
    let s := if here.length < 512 then s
      else match here with
        | [] => s
        | p :: _ =>
          ({ s with regs := s.regs.filter fun q => q.1 != p.1 } : State).transact p.2 [s.hitOf p.1 p.2] .nothing
    { s with regs := s.regs ++ [(n, line)] }

/-- The reservation set with a line added: the oldest of four leaves first (R294). -/
def addResv (l : List Nat) (line : Nat) : List Nat :=
  if l.contains line then l else if l.length < 4 then l ++ [line] else l.drop 1 ++ [line]

/-- A thread's registrations of lines that its set holds no longer end (R294). -/
def State.trimRegs (s : State) (n : Nat) : State :=
  { s with regs := s.regs.filter fun p => p.1 != n || (s.thr n).resv.contains p.2 }

/-- An LR's line joins the set of its thread, and its home slice registers the thread (R294). -/
def State.reserveLine (s : State) (n line : Nat) : State :=
  let s := (s.onThr n fun t => { t with resv := addResv t.resv line }).trimRegs n
  s.register n line

/-- A read that the roll refuses raises DEED at the virtual address (R328). -/
def State.refuseRead (s : State) (n : Nat) : State :=
  match (s.thr n).cont with
  | some k => s.raise n .deed k.va
  | none => s

/-- A machine check of a read at home: the die reports it, and the thread that waits for the read takes MCHK (R249, R340). -/
def State.readError (s : State) (n pa : Nat) (cause : Cause) : State :=
  let s := s.raiseMc (homeDie pa) 2 0 pa
  match (s.thr n).cont with
  | some k => s.raise n cause k.va
  | none => s

/-- Reads that bring their whole line into an L1. -/
def ReadFor.fills : ReadFor → Bool
  | .fill | .fillSw | .fillStore _ | .pref | .prefSw => true
  | _ => false

/-- A CL.PREF's read: no thread waits for it. -/
def ReadFor.prefs : ReadFor → Bool
  | .pref | .prefSw | .prefL2 => true
  | _ => false

/-- A plain store's bytes in a software-managed line that the core holds (R239). -/
def State.putSw (s : State) (c line off size : Nat) (v : Line) (l : L1Line) : State :=
  let dirt : BitVec 128 := BitVec.ofNat 128 ((2 ^ size - 1) * 2 ^ off)
  s.setL1 c line (some { l with st := .m, data := lineSet l.data off size v.toNat, dirty := l.dirty ||| dirt })

/-- A software-managed line into the L1 of core `c` in C (R239); not while its counter is open (R256). -/
def State.fillSw (s : State) (c line : Nat) : Bool × State :=
  if s.counterOpen line then (false, s) else s.fillL1 c line .c (s.homeLine line)

/-- A store that a thread sends to a home through its window (R96, R252). -/
def State.sendStore (s : State) (n pa size : Nat) (v : Line) (after : List Nat) : State :=
  let id := s.nextId
  let s := { s with
    msgs := s.msgs ++ [({ id := id, src := .core (s.thr n).core, dst := s.homeNode pa, after := after, body := .store n pa size v } : Msg)]
    nextId := s.nextId + 1 }
  s.onThr n fun t =>
    { t with unacked := t.unacked ++ [({ id := id, pa := pa, size := size, ctx := t.ctx, dom := t.domain } : Unacked)] }

/-- A line into the L1 of core `c` for a demand fill, with the core as a sharer; false where it cannot be held there. -/
def State.fillFor (s : State) (c line : Nat) : Bool × State :=
  if s.counterOpen line then (false, s)
  else
    let r := (s.dirRoom line).fillL1 c line .v (s.homeLine line)
    (r.1, if r.1 then r.2.addSharer line c else r.2)

/-- A WAITA whose read returned the comparand sleeps: on a line that its L1 holds or may hold, with a watch mark and the
watch bit of the entry; else on an untracked line (R100, R227, R228). -/
def State.watchOn (s : State) (n pa size : Nat) (cmp : Word) (d : Reg) (track : Bool) (since : Nat) : State :=
  let line := pa / 128
  let c := (s.thr n).core
  let held := track && (match s.l1 c line with | some l => decide (l.st = .v ∨ l.st = .d) | none => false)
  let r := if held then (true, s) else if track then s.fillFor c line else (false, s)
  let s := r.2
  if r.1 then
    let s := s.setDir line { s.dirOf line with w := true }
    let s := match s.l1 c line with
      | some l => s.setL1 c line (some { l with watch := l.watch ++ [(s.thr n).slot] })
      | none => s
    s.park n .sleeping (.watch pa size cmp d track true since)
  else s.park n .sleeping (.watch pa size cmp d track false since)

/-- HOME_FILL: a fill, a read at home, an LR or a WAITA's read (R228, R229, R251, R295, R100). `evict` names a line that
leaves the L2 for it. -/
def serveRead (evict : Option Nat) (err : Bool) (id : Nat) (s : State) : State :=
  match s.due id with
  | some ⟨_, src, dst, after, .read n pa size why⟩ =>
    let s := s.drop id
    let line := pa / 128
    if why.prefs = false ∧ (s.thr n).cont = none then s
    else if s.dropped line then s.discover line ⟨id, src, dst, after, .read n pa size why⟩
    else if !s.granted (s.domainOf n) pa then (if why.prefs then s else s.refuseRead n)
    else if err || (if why.fills then s.flawed false (line * 128) 128 else s.flawed false pa size) then
      (if why.prefs then s.raiseMc (homeDie pa) 2 0 pa else s.readError n pa .mchk)
    else
      let s := match evict with | some l => if l = line then s else s.evictL2 l | none => s
      let s := s.l2Touch line (why == .strm)
      let v := word (s.homeRead pa size)
      let c := match src with | .core c => c | _ => (s.thr n).core
      match why with
      | .acquire | .strm => s.complete n v
      | .prefL2 => s
      | .lr => (s.reserveLine n line).complete n v
      | .fill => (s.fillFor c line).2.complete n v
      | .pref => (s.fillFor c line).2
      | .fillSw => (s.fillSw c line).2.complete n v
      | .prefSw => (s.fillSw c line).2
      | .fillStore x =>
        let r := s.fillSw c line
        match r.1, r.2.l1 c line with
        | true, some l => (r.2.putSw c line (pa % 128) size x l).complete n 0
        | _, _ => (r.2.sendStore n pa size x (r.2.heldBack n ++ r.2.heldBacks c line)).complete n 0
      | .waita cmp d track =>
        if v ≠ cmp then s.complete n v else s.watchOn n pa size cmp d track s.reft
  | _ => s

/-- HOME_ATOMIC: an atomic or an SC, as one step in the line's order (R229, R293, R296); `err` is a double-bit error on
the read, `late` an error that a sharer or agent reports after the write (R291). An atomic that the roll refuses raises DEED, as
R328 has it (DEDUCED, log 76). -/
def serveAtomic (err late : Bool) (id : Nat) (s : State) : State :=
  match s.due id with
  | some ⟨_, src, dst, after, .atomic n pa op⟩ =>
    let s := s.drop id
    let line := pa / 128
    if s.dropped line then s.discover line ⟨id, src, dst, after, .atomic n pa op⟩
    else
      match op with
      | .atomic fn size x cmp =>
        if !s.granted (s.domainOf n) pa then s.refuseRead n
        else if err || s.flawed false pa size then s.readError n pa .amoerr
        else
          let s := (s.l2Touch line false).closeCounter line
          let old := s.homeRead pa size
          match atomicNew fn size old x.toNat cmp.toNat with
          | some v => s.applyWrite pa size v none (.reply n (word old) late)
          | none => s.conclude line (.reply n (word old) false)
      | .sc size v =>
        if !s.granted (s.domainOf n) pa then
          ((s.reportLate n id pa).clearResv n).complete n 0
        else if s.regs.contains (n, line) then
          let s := ((s.l2Touch line false).closeCounter line)
          (s.applyWrite pa size v.toNat (some n) (.sc n)).clearResv n
        else (s.clearResv n).complete n 0
  | _ => s

end Sys2Proof.Machine
end

