-- ==== Sys2Proof/Machine/Devices.lean ====
section
/-! DEFINITION. The device registers of a die: what a load of them reads and what a store to them does (R17, R139, R181,
R199, R226, R236, R238, R246, R247, R250, R268, R307, R324, R331, R334, R340, R341, R343, R345, R349, R355). -/

namespace Sys2Proof.Machine

/-- A 256-bit plot mask's word j. -/
abbrev maskWord (m : BitVec 256) (j : Nat) : Word := m.extractLsb' (64 * j) 64
def setMaskWord (m : BitVec 256) (j : Nat) (v : Word) : BitVec 256 :=
  (m &&& ~~~(BitVec.ofNat 256 ((2 ^ 64 - 1) * 2 ^ (64 * j)))) ||| BitVec.ofNat 256 (v.toNat * 2 ^ (64 * j))

/-- A set of slots as a bit mask. -/
def slotMask (f : Nat → Bool) : Nat := (List.range 16).foldl (fun a k => if f k then a + 2 ^ k else a) 0

abbrev Core.freeSeq (c : Core) : Nat := 16 - c.seq.length - c.held.countP (·.1 = .seq)

/-- The per-core block (R139, R236, R268, R307). -/
def State.coreReg (s : State) (cn off : Nat) : Word :=
  let c := s.core cn
  if off < 0x20 then maskWord c.plotRsv (off / 8)
  else if off < 0x40 then maskWord c.plotPin (off / 8 - 4)
  else if off = 0x40 then
    word (slotMask (fun k => c.stall.any fun p => p.1 = .seq ∧ p.2 = 16 * cn + k) * 2 ^ 32 + c.freeSeq * 2 ^ 16
      + slotMask fun k => c.seq.any fun e => e.thread = 16 * cn + k)
  else if off = 0x48 then word (c.portDone % 2 ^ 32 * 2 ^ 32 + c.porter.length)
  else if off = 0x50 then word c.dCount
  else if off = 0x58 then word c.pushIn
  else if off = 0x60 then word c.pushRef
  else if off = 0x68 then word c.alt.length
  else if off = 0x70 then word c.altAsk
  else if off = 0x78 then word c.altRet
  else if off = 0x80 then c.cdlog
  else if off = 0x88 then c.cdpasid
  else if off = 0x98 then c.cdres
  else 0

def Latch.claimBits (l : Latch) : Nat := match l.claim with | some o => 8 + o | none => l.own

/-- The Mill block (R181). -/
def State.millReg (s : State) (t off : Nat) : Word :=
  let m := s.tile t
  if off = 0 then word (m.w1.claimBits * 2 ^ 12 + m.w0.claimBits * 16)
  else if off = 8 then word ((List.range 8).foldl (fun a l => a + mget 0 m.wt l * 8 ^ l) 0)
  else if off = 0x10 then m.busy
  else if off = 0x18 then m.runs
  else if 0x20 ≤ off ∧ off < 0x60 then mget 0 m.cyc ((off - 0x20) / 8)
  else 0

def State.freeLines (s : State) (d : Nat) : Nat := (s.die d).poolsize.toNat % 2 ^ 32 - (s.die d).pool.length

def linkWord (l : Link) : Nat := l.st * 2 ^ 14 + l.wakes % 2 ^ 14

/-- Entries per ring of the die queue (R199). -/
def Die.dqCap (x : Die) : Nat := let l := x.dqbase.toNat % 32; 2 ^ (if 8 ≤ l ∧ l ≤ 20 then l else 8)

/-- DQDEPTH (R199): entries in each ring, those held beyond its capacity not among them. -/
def Die.dqDepth (x : Die) : Word :=
  word ((List.range 4).foldl (fun a p => a + Min.min 65535 (Min.min x.dqCap (x.dieq.countP (·.prio = p))) * 65536 ^ p) 0)

/-- A word of an RDWIN register as it reads: FMT 3 is read as 0 (R343). -/
def rdwinRead (k : Nat) (w : Word) : Word :=
  if k % 2 = 0 ∧ w.toNat / 2 ^ 61 % 4 = 3 then w &&& 0x9FFF_FFFF_FFFF_FFFF else w

/-- The 8-byte register at an offset of a die's device range; an offset where none is defined reads 0 (R17). LOG
of DQBASE and of CQOBASE reads as it was written; its use goes by the value that R199 takes in its place (DESIGN CHOICE, log
121). -/
def State.devReg (s : State) (d off : Nat) : Word :=
  let x := s.die d
  if off < 0x1_0000 then 0
  else if off < 0x2_0000 then s.coreReg (256 * d + (off - 0x1_0000) / 0x100) (off % 0x100)
  else if off < 0x2_1000 then s.millReg (32 * d + (off - 0x2_0000) / 0x80) (off % 0x80)
  else if off < 0x3_0000 then 0
  else if off < 0x4_0000 then
    let o := off - 0x3_0000
    if o = 0x00 then x.kpost else if o = 0x08 then x.dkvec else if o = 0x10 then x.dqbase else if o = 0x18 then x.cqobase
    else if o = 0x20 then x.poolbase else if o = 0x28 then x.poolsize else if o = 0x30 then word (s.freeLines d)
    else if o = 0x38 then x.dqDepth
    else if o = 0x40 then x.spills else if o = 0x48 then x.postdrop else if o = 0x50 then x.cdbase else 0
  else if off < 0x5_0000 then 0
  else if off < 0x6_0000 then
    let o := off - 0x5_0000
    if o = 0x40 then x.dpevq else if o = 0x48 then word (x.dphead % 2 ^ 32) else if o = 0x50 then word x.dptail
    else if o = 0x58 then x.dppost else if o = 0x60 then word (x.reject % 2 ^ 32 * 2 ^ 32 + x.hostlate % 2 ^ 32)
    else if o = 0x68 then word (x.rollLateHost % 2 ^ 32 * 2 ^ 32 + x.rollLateAcc % 2 ^ 32)
    else if o = 0x70 then x.rollbase else 0
  else if off < 0x7_0000 then
    let o := off - 0x6_0000
    if o = 0x000 then x.slicemap
    else if o = 0x008 then word ((if x.carveErr then 2 ^ 16 else 0) + x.carveBusy.toNat * 256 + x.carve.toNat)
    else if o = 0x010 then word (linkWord x.linkV * 65536 + linkWord x.linkH)
    else if o = 0x018 then x.linkctl
    else if 0x100 ≤ o ∧ o < 0x300 then mget 0 x.regions ((o - 0x100) / 8) else 0
  else if off < 0x8_0000 then (if off = 0x7_0000 then word (x.sdDone % 2 ^ 32) else 0)
  else if off < 0x9_0000 then
    let o := off - 0x8_0000
    if o = 0x00 then word (x.fcur * 2 ^ 24 + x.fmax * 2 ^ 8 + x.fmin)
    else if o = 0x08 then word (Min.min x.pwrcap 3200) else if o = 0x10 then word (x.pwrnow % 65536)
    else if o = 0x18 then word (x.steps % 2 ^ 32 * 2 ^ 32 + x.lastStep % 2 ^ 32) else 0
  else if off < 0xA_0000 then
    let o := off - 0x9_0000
    if o = 0x40 then x.bootscar else if 0x80 ≤ o ∧ o < 0xA0 then maskWord x.dbgbrk ((o - 0x80) / 8) else 0
  else if off = 0xA_0000 then x.mcrec
  else if off < 0xB_0000 then 0
  else if off < 0xB_0200 then
    let o := off - 0xB_0000
    if o = 0 then x.pkgid
    else if 0x40 ≤ o ∧ o < 0x80 then mget 0 x.lroute ((o - 0x40) / 8)
    else if 0x100 ≤ o ∧ o < 0x180 then rdwinRead ((o - 0x100) / 8) (mget 0 x.rdwin ((o - 0x100) / 8))
    else if 0x180 ≤ o ∧ o < 0x1C0 then mget 0 x.winerr ((o - 0x180) / 8) else 0
  else 0

/-- A load of a device register: the matching bytes of its 8-byte word (log 25). -/
def State.devRead (s : State) (d off size : Nat) : Word :=
  word ((s.devReg d (off / 8 * 8)).toNat / 2 ^ (8 * (off % 8)) % 2 ^ (8 * size))

/-! ### Host events (R330) -/

/-- Entries of a die's host event ring (R331). -/
def Die.ringSize (x : Die) : Nat :=
  let l := x.dpevq.toNat % 32
  2 ^ (if 4 ≤ l ∧ l ≤ 16 then l else 4)

def Die.ringFull (x : Die) : Bool := decide (x.ringSize ≤ (x.dphead + 2 ^ 32 - x.dptail) % 2 ^ 32)

/-- Write two 64-bit words where they lie in package memory that a domain may write; elsewhere they leave the package. -/
def State.writePair (s : State) (dom : Domain) (a : Nat) (w0 w1 : Word) : State :=
  if inPackage a && s.populated a && s.granted dom a then
    s.hwWrite a 16 (w0.toNat + 2 ^ 64 * w1.toNat)
  else s

/-- Write one ring entry and raise MSI-X 0. -/
def State.ringWrite (s : State) (d : Nat) (e : DeedEvent) : State :=
  let x := s.die d
  let a := x.dpevq.toNat / 4096 * 4096 + x.dphead % x.ringSize * 16
  (s.writePair .host a e.w0 e.w1).onDie d fun x => { x with dphead := x.dphead + 1, msi := x.msi ++ [0] }

/-- The ring of a die takes no entry now: it is full, or its home die relocks, or the next entry's line is busy (R330, R336,
R374). -/
def State.ringShut (s : State) (d : Nat) : Bool :=
  let x := s.die d
  let a := x.dpevq.toNat / 4096 * 4096 + x.dphead % x.ringSize * 16
  x.ringFull || (inPackage a && (s.halted (homeDie a) || s.busy (a / 128) || s.binBusy a))

/-- Held events enter the ring in order while it has room. -/
def State.ringFlush (s : State) (d : Nat) : Nat → State
  | 0 => s
  | k + 1 => match (s.die d).events with
    | [] => s
    | e :: rest =>
      if s.ringShut d then s
      else ((s.onDie d fun x => { x with events := rest }).ringWrite d e).ringFlush d k

/-- DPEVTAIL: the host has consumed entries, so held events enter the ring (R330, R331). -/
def State.setDptail (s : State) (d tail : Nat) : State :=
  let s := s.onDie d fun x => { x with dptail := tail % 2 ^ 32 }
  s.ringFlush d (s.die d).events.length

/-! ### Stores -/

/-- Queues and pool of a die are all empty (R199). -/
def State.queuesEmpty (s : State) (d : Nat) : Bool :=
  (s.die d).dieq.isEmpty && (s.die d).pool.isEmpty
    && (List.range 256).all fun k => (s.core (256 * d + k)).taskq.isEmpty && (s.core (256 * d + k)).overq.isEmpty

/-- Every context-directory entry of a die is free (R307). -/
def State.ctxsFree (s : State) (d : Nat) : Bool :=
  s.ctxs.all fun p => p.1 / 4096 != d || p.2.st == .free

/-- Remove every byte of a range from a memory: it reads as unwritten again. -/
def clearRange (m : List Host.Cell) (a n : Nat) : List Host.Cell :=
  m.filter fun p => !(decide (a ≤ p.1) && decide (p.1 < a + n))

abbrev binBase (d b : Nat) : Nat := d * 2 ^ 38 + 0x30_0000_0000 + b * 0x400_0000

/-- Writing a 1 over a 0 of CARVE: the bin is zeroed and busy (R250). -/
def State.carve (s : State) (d b : Nat) : State :=
  if (s.die d).carve.getLsbD b then s
  else
    let s := { s with mem := clearRange s.mem (binBase d b) 0x400_0000 }
    s.onDie d fun x => { x with carve := x.carve ||| (1#8 <<< b), carveBusy := x.carveBusy ||| (1#8 <<< b) }

/-- The lines of a range leave every L1, with the watchers woken, every agent and the L2, with their reservations hit;
their counters and allotments are lost (R228, R231, R250, R294). -/
def State.scrapLines (s : State) (has : Nat → Bool) : State :=
  let copies := (s.cores.map fun (p : Nat × Option Core) => match p.2 with
    | some c => (c.l1.filter fun q => has q.1).map fun q => (p.1, q.1)
    | none => []).flatten
  let s := copies.foldl (fun s p => s.invalidate p.1 p.2) s
  let agents := s.dir.filter fun q => has q.1 && !q.2.agents.isEmpty
  let s := agents.foldl (fun s q => s.transact q.1
    (q.2.agents.map fun a => ((Node.outside a, fun id => Body.agentInval a q.1 id) : Node × (Nat → Body))) .nothing) s
  let hit := (s.regs.filter fun p => has p.2).map (·.2)
  let s := hit.foldl (fun s l => (s.endRegs l none).transact l (s.hits l none) .nothing) s
  let s : State := { s with
    dir := s.dir.filter fun q => !has q.1
    l2 := s.l2.filter fun q => !has q.1
    altHomes := s.altHomes.filter fun h => !has h.line
    cores := s.cores.map fun (p : Nat × Option Core) =>
      (p.1, p.2.map fun (c : Core) => { c with alt := c.alt.filter fun e => !has e.line }) }
  s.cores.foldl (fun s p => s.freeAllot p.1) s

/-- Writing a 0 over a 1: refused while a frame of the bin is not in state owned by the accelerator (R250). -/
def State.uncarve (s : State) (d b : Nat) : State :=
  if !(s.die d).carve.getLsbD b then s
  else
    let ok := (List.range 16384).all fun i =>
      let e := s.deed (binBase d b / 4096 + i)
      e.owner == .acc && e.state == 0
    if !ok then s.onDie d fun x => { x with carveErr := true }
    else
      let lo := binBase d b
      let s := s.scrapLines fun line => decide (lo ≤ line * 128) && decide (line * 128 < lo + 0x400_0000)
      let s := { s with mem := clearRange s.mem lo 0x400_0000 }
      s.onDie d fun x => { x with carve := x.carve &&& ~~~(1#8 <<< b), carveBusy := x.carveBusy ||| (1#8 <<< b) }

/-- CLKCTL's FMAX and FMIN (R334). -/
def Die.setClk (x : Die) (v : Word) : Die :=
  let hi := v.toNat / 256 % 256
  let lo := v.toNat % 256
  if 20 ≤ lo ∧ lo ≤ hi ∧ hi ≤ 40 then { x with fmax := hi, fmin := lo } else x

/-- A wake is sent over a sleeping link. -/
def Link.wake (x : Link) : Link := if x.st = 1 then { x with st := 2, waited := 0 } else x

/-- LINKCTL: a set bit wakes a sleeping link (R247). -/
def State.setLinkctl (s : State) (d : Nat) (v : Word) : State :=
  let s := s.onDie d fun x => { x with linkctl := v &&& 3 }
  let s := if v.getLsbD 0 then s.onLink d .h Link.wake else s
  if v.getLsbD 1 then s.onLink d .v Link.wake else s

/-- The dies joined with a die by links, itself among them. -/
def State.joined (s : State) (d : Nat) : List Nat := (List.range 4).filter fun e => !s.cut d e

/-- The host port of a die is in the insecure state: its traffic is refused (R353). -/
abbrev Die.hostShut (x : Die) : Bool := x.insecure.contains 4

/-- STEP of BOOTSCAR (R349). -/
abbrev Die.bootStep (x : Die) : Nat := x.bootscar.toNat / 65536 % 256

/-- The die's boot has passed step `k`, of the steps 3 to 7. -/
abbrev Die.passed (x : Die) (k : Nat) : Bool :=
  x.boot == .waitLoad || x.boot == .serving || (x.boot == .failed && decide (k < x.bootStep))

/-- The die is out of reset: it has passed boot steps 1 and 2 (R347). -/
abbrev Die.up (x : Die) : Bool := x.boot != .off && !(x.boot == .failed && decide (x.bootStep ≤ 2))

/-- A boot step holds the die in reset (R347). A die whose boot has not begun is not held. -/
abbrev Die.held (x : Die) : Bool := !x.up && decide (x.bootStep ≠ 0)

/-- The links of a die are trained once its boot has passed step 5 (R347). -/
abbrev Die.trained (x : Die) : Bool := x.passed 5 && !x.alone

/-- The dies that trained links join with die `d`, which counts as one whose links are trained: over two links at most, since
the dies stand in a square (R11). -/
def State.reaches (s : State) (d : Nat) : List Nat :=
  let grow := fun (l : List Nat) => (List.range 4).filter fun e =>
    l.contains e || ((s.die e).trained && !s.dead e && (l.contains (farDie e .h) || l.contains (farDie e .v)))
  grow (grow (grow [d]))

/-- The dies whose reeves act as one with a die's: those joined with it by trained links (R334). -/
def State.fellows (s : State) (d : Nat) : List Nat := if (s.die d).trained then s.reaches d else [d]

/-- A window's registers change: its partial sums are discarded when V falls or another field changes (R344). -/
def State.setRdwin (s : State) (d k : Nat) (v : Word) : State :=
  let old := mget 0 (s.die d).rdwin k
  let s := s.onDie d fun x => { x with rdwin := mset 0 x.rdwin k v }
  if old = v then s
  else { s with windows := s.windows.filterMap fun p =>
    if p.1 / 2 ^ 48 = k / 2 then (if p.2.adds.isEmpty then none else some (p.1, { p.2 with parts := [] })) else some p }

/-- The writable bits of RDWIN words (R343). -/
abbrev rdwinMask (k : Nat) : Word := if k % 2 = 0 then 0xFFFF_FFFF_FFE0_0000 else 0x0000_FFFF_FFE0_01FF

/-- A word of the windows' registers is written, the same on every die (R343). -/
def State.setWindow (s : State) (k : Nat) (v : Word) : State :=
  (List.range 4).foldl (fun s d => if s.dead d then s else s.setRdwin d k (v &&& rdwinMask k)) s

/-- Threads stopped at a BRK whose core's bit is clear go on to execute it (R355). -/
def State.debugRelease (s : State) (d : Nat) : State :=
  { s with threads := s.threads.map fun (p : Nat × Option Thread) => (p.1, p.2.map fun (t : Thread) =>
    if t.wait = Wait.debug ∧ dieOf t.core = d ∧ (s.die d).dbgbrk.getLsbD (t.core % 256) = false
    then { t with run := .ready, wait := .none } else t) }

/-- A core's directory command for a lost or fenced die completes with OK = 0 (R307). -/
def State.cmdLost (s : State) (c : Nat) : State :=
  s.onCore c fun k => { k with cdcmd := none, cdres := 0x8000_0000_0000_0000 }

/-- A store of a whole 8-byte register, by a requester of domain `dom`; `lanes` marks the bytes that it writes. -/
def State.devSet (s : State) (dom : Domain) (d off : Nat) (v : Word) (lanes : Word) : State :=
  let acc := dom == .acc
  let host := dom == .host
  if off < 0x1_0000 then s
  else if off < 0x2_0000 then
    let cn := 256 * d + (off - 0x1_0000) / 0x100
    let o := off % 0x100
    if o < 0x20 then s.onCore cn fun c => { c with plotRsv := setMaskWord c.plotRsv (o / 8) v }
    else if o = 0x80 then s.onCore cn fun c => { c with cdlog := v &&& 0xFFFF_FFFF_FFFF_FFCF }
    else if o = 0x88 then s.onCore cn fun c => { c with cdpasid := v &&& 0xFFFFF }
    else if o = 0x90 then
      let op := v.toNat / 2 ^ 62
      if op = 3 then s
      else
        let num := v.toNat % 16384
        -- A command for a lost or fenced die completes with OK = 0.
        if s.cut d (num / 4096) then s.cmdLost cn
        else
          (s.onCore cn fun c => { c with cdres := c.cdres &&& 0x7FFF_FFFF_FFFF_FFFF, cdcmd := some v }).send (.core cn)
            (.dir (num / 4096)) (.cmd cn num op)
    else s
  else if off < 0x2_1000 then
    let t := 32 * d + (off - 0x2_0000) / 0x80
    let o := off % 0x80
    let cl := fun (l : Latch) (b : Nat) =>
      { l with claim := if v.getLsbD (b + 3) then some (v.toNat / 2 ^ b % 8) else none, own := v.toNat / 2 ^ b % 8 }
    if o = 0 then s.onTile t fun m => { m with w0 := cl m.w0 4, w1 := cl m.w1 12 }
    else if o = 8 then s.onTile t fun m =>
      { m with wt := (List.range 8).foldl (fun w l => mset 0 w l (v.toNat / 8 ^ l % 8)) [] }
    else s
  else if off < 0x3_0000 then s
  else if off < 0x4_0000 then
    let o := off - 0x3_0000
    let e := s.queuesEmpty d
    if o = 0x00 then s.onDie d fun x => { x with kpost := v &&& 0xBFFF }
    else if o = 0x08 then s.onDie d fun x => { x with dkvec := v &&& 0xFFFF_FFFF_FFFF_FFFC }
    else if o = 0x10 then s.onDie d fun x => if e then { x with dqbase := v &&& 0xFFFF_FFFF_FFFF_F01F } else x
    else if o = 0x18 then s.onDie d fun x => if e then { x with cqobase := v &&& 0xFFFF_FFFF_FFFF_F01F } else x
    else if o = 0x20 then s.onDie d fun x => if e then { x with poolbase := v &&& 0xFFFF_FFFF_FFFF_FF80 } else x
    else if o = 0x28 then s.onDie d fun x => if e then { x with poolsize := v &&& 0xFFFF_FFFF } else x
    else if o = 0x50 then
      if s.ctxsFree d then s.onDie d fun x => { x with cdbase := v &&& 0xFFFF_FFFF_FFFE_0000 } else s
    else s
  else if off < 0x5_0000 then s
  else if off < 0x6_0000 then
    let o := off - 0x5_0000
    let bad := s.onDie d fun x => { x with reject := x.reject + 1 }
    if o = 0x40 then (if host then s.onDie d fun x => { x with dpevq := v &&& 0xFFFF_FFFF_FFFF_F01F } else bad)
    else if o = 0x50 then (if host then s.setDptail d v.toNat else bad)
    else if o = 0x58 then (if acc then s.onDie d fun x => { x with dppost := v &&& 0xBFFF } else bad)
    else if o = 0x70 then
      if dom == .stew then s.onDie d fun x => { x with rollbase := v &&& 0xFFFF_FFFF_FFFF_F000 } else bad
    else if o < 0x40 then bad
    else s
  else if off < 0x7_0000 then
    let o := off - 0x6_0000
    if o = 0x008 then
      let s := s.onDie d fun x => { x with carveErr := x.carveErr && !(v.getLsbD 16 && lanes.getLsbD 16) }
      (List.range 8).foldl (fun s b => if v.getLsbD b then s.carve d b else s.uncarve d b) s
    else if o = 0x018 then s.setLinkctl d v
    else s
  else if off < 0x8_0000 then
    if off = 0x7_0000 ∧ lanes = 0xFFFF_FFFF_FFFF_FFFF ∧ v.toNat / 2 ^ 61 ≤ 4 then
      s.onDie d fun x => { x with sdq := x.sdq ++ [(v, s.nextId)] }
    else s
  else if off < 0x9_0000 then
    let o := off - 0x8_0000
    if o = 0x00 then (if acc then s.onDie d fun x => x.setClk v else s)
    else if o = 0x08 then
      if host then (s.fellows d).foldl (fun s e => s.onDie e fun x => { x with pwrcap := v.toNat % 65536 }) s else s
    else s
  else if off < 0xA_0000 then
    let o := off - 0x9_0000
    if 0x80 ≤ o ∧ o < 0xA0 ∧ host ∧ (s.die d).debugOpen then
      (s.onDie d fun x => { x with dbgbrk := setMaskWord x.dbgbrk ((o - 0x80) / 8) v }).debugRelease d
    else s
  else if off < 0xB_0000 then s
  else if off < 0xB_0200 then
    let o := off - 0xB_0000
    if !host then s
    else if o = 0 then s.onDie d fun x => { x with pkgid := v &&& 0x3F }
    -- LROUTE is the same on every die (R341).
    else if 0x40 ≤ o ∧ o < 0x80 then (List.range 4).foldl (fun s e =>
      if s.dead e then s else s.onDie e fun x => { x with lroute := mset 0 x.lroute ((o - 0x40) / 8) v }) s
    -- So are the registers of the reduction windows (R343).
    else if 0x100 ≤ o ∧ o < 0x180 then s.setWindow ((o - 0x100) / 8) v
    else if 0x180 ≤ o ∧ o < 0x1C0 then
      s.onDie d fun x => { x with winerr := mset 0 x.winerr ((o - 0x180) / 8) (v &&& 0xFFFF_FFFF_FFFF_0000) }
    else s
  else s

/-- An arrival is sent to a postbox (R204). -/
def State.post (s : State) (src : Node) (n : Option Nat) (box : Nat) (v : Word) : State := s.send src (.box box) (.post n box v)

/-- A store to a doorbell: 8 aligned bytes make an arrival; the steward's box is ignored and counted (R204, R346). -/
def State.doorbell (s : State) (src : Node) (d off size : Nat) (v : Word) : State :=
  let i := (off - 0x4_0000) / 8
  if size ≠ 8 ∨ off % 8 ≠ 0 then s
  else if i = 4095 then s.onDie d fun x => { x with postdrop := x.postdrop + 1 }
  else s.post src none (4096 * d + i) v

/-- A store to a device register; a partial store replaces the bytes it covers (log 25). -/
def State.devWrite (s : State) (src : Node) (dom : Domain) (d off size : Nat) (v : Word) : State :=
  if 0x4_0000 ≤ off ∧ off < 0x4_8000 then s.doorbell src d off size v
  else
    let old := s.devReg d (off / 8 * 8)
    let m : Word := word ((2 ^ (8 * size) - 1) * 2 ^ (8 * (off % 8)))
    let new := (old &&& ~~~m) ||| (word (v.toNat * 2 ^ (8 * (off % 8))) &&& m)
    s.devSet dom d (off / 8 * 8) new m

end Sys2Proof.Machine
end

