-- ==== Sys2Proof/Machine/Access.lean ====
section
/-! DEFINITION. What every memory instruction shares: where an access is served, asking a home, waiting, leaving for
another die, and the store window (R96, R221, R241, R252, R279). -/

namespace Sys2Proof.Machine

/-- Where an access goes. `far` accesses are served at the home slice without a fill: a commons reference to another
die (R114), accesses to a region whose switch is in progress (R240), and every access of a steward thread, which has no place to migrate to (DEDUCED, log 26). -/
inductive Place where
  | refuse (c : Cause) (v : Word)
  | migrate (die line : Nat) (va : Word)
  | hold
  | here (pa : Nat) (kind : Kind) (far : Bool)
  deriving DecidableEq, Repr

/-- Translate an access of thread `n` and decide where it is served (R221, R241, R243, R248). -/
def State.locate (s : State) (n : Nat) (commons : Bool) (va : Word) (acc : Acc) : Place × State :=
  let r := s.translate n va acc
  let d := dieOf (s.thr n).core
  if r.2.met then (.hold, r.2) else
  match r.1 with
  | .bad c v => (.refuse c v, r.2)
  | .ok pa kind =>
    let p : Place :=
      if s.binBusy pa then .hold
      else match kind with
        | .cacheable | .software =>
          if homeDie pa = d then .here pa kind (decide (16384 ≤ n) || decide (s.regionSt pa = 2))
          else if commons || decide (16384 ≤ n) then
            if s.cut d (homeDie pa) then .refuse .mchk va else .here pa kind true
          else if s.cut d (homeDie pa) then .refuse .migrate va
          else .migrate (homeDie pa) (pa / 128) va
        | .streaming => if s.cut d (homeDie pa) then .refuse .mchk va else .here pa kind false
        | .device =>
          if s.cut d (deviceDie pa) then .refuse .mchk va
          else if !s.linksOpen d (deviceDie pa) then .hold
          else .here pa kind false
        | .system => if s.cut d (s.sysDie d pa) then .refuse .mchk va else .here pa kind false
    (p, if kind = .device ∧ !s.cut d (deviceDie pa) then r.2.crossing d (deviceDie pa) else r.2)

/-- The same for an instruction that some kinds of memory do not serve: its trap follows the translation, before anything
asks whether the die reached is lost (R270, R293, R295, R296). -/
def State.locateFor (s : State) (n : Nat) (commons : Bool) (va : Word) (acc : Acc) (trap : Nat → Kind → Option Cause) :
    Place × State :=
  let r := s.translate n va acc
  match r.1 with
  | .ok pa kind => match (if r.2.met then none else trap pa kind) with
    | some c => (.refuse c va, r.2)
    | none => s.locate n commons va acc
  | .bad _ _ => s.locate n commons va acc

/-- Await operations, then issue the same instruction again. -/
def State.await (s : State) (n : Nat) (ids : List Nat) : State :=
  s.onThr n fun t => { t with run := .waiting, wait := .ops ids, snap := s.keepCommons n }

/-- The thread's unacknowledged stores, PUSHes, CL.ZEROs and posted adds. -/
abbrev State.stores (s : State) (n : Nat) : List Nat := (s.thr n).unacked.map (·.id)

/-- Go on once every earlier store of the thread is acknowledged. -/
def State.afterStores (s : State) (n : Nat) (go : State) : State :=
  if (s.stores n).isEmpty then go else s.await n (s.stores n)

/-- Step 2 of a migration: the thread waits until its earlier stores are acknowledged (R242). -/
def State.depart (s : State) (n die : Nat) (line : Option Nat) (va : Word) : State :=
  ((s.unallot n).onThr n fun t => { t with cont := some { d := none, len := 0, size := 8, sign := false, va := va } }).park n
    .waiting (.leaving die line)

/-- Act on a place: trap, leave, hold, or go on with the physical address. -/
def State.placed (n : Nat) (r : Place × State) (go : Nat → Kind → Bool → State → State) : State :=
  match r.1 with
  | .refuse c v => r.2.raise n c v
  | .migrate d l va => r.2.depart n d (some l) va
  | .hold => r.2.hold n .hold
  | .here pa k far => go pa k far r.2

/-- Ask a home slice or another unit, and wait for the reply: the message's identifier and the state. -/
def State.ask (s : State) (n : Nat) (dst : Node) (after : List Nat) (b : Body) (k : Cont) : Nat × State :=
  let id := s.nextId
  let s := { s with
    msgs := s.msgs ++ [({ id := id, src := .core (s.thr n).core, dst := dst, after := after, body := b } : Msg)]
    nextId := s.nextId + 1 }
  (id, s.onThr n fun t => { t with run := .waiting, wait := .reply id, cont := some k })

/-- Ask and, on a prompt fabric, be served at once. -/
def State.askNow (s : State) (n : Nat) (dst : Node) (after : List Nat) (b : Body) (k : Cont)
    (serve : Nat → State → State) : State :=
  let r := s.ask n dst after b k
  r.2.promptly r.1 serve

/-- Unacknowledged stores of a thread that overlap bytes (R223). -/
def State.overlaps (s : State) (n pa size : Nat) : List Nat :=
  ((s.thr n).unacked.filter fun u => decide (u.pa < pa + size) && decide (pa < u.pa + u.size)).map (·.id)

/-- Stores of a thread to bytes of a range that a FENCE still holds at its core. -/
def State.heldOver (s : State) (n pa size : Nat) : List Nat :=
  (s.overlaps n pa size).filter fun i => s.msgs.any fun m => decide (m.id = i) && !s.unheld m

/-- Reads whose line stays as it is filled: no update reaches it (R239). -/
def ReadFor.still : ReadFor → Bool
  | .fillSw | .fillStore _ => true
  | _ => false

/-- A read at the home slice for thread `n`: it follows the thread's own stores to its bytes (R281), or to its line where
no update reaches that later, and the core's write-backs of the line, and does not wait for others (R280). -/
def State.readHome (s : State) (n pa size : Nat) (why : ReadFor) (k : Cont) : State :=
  s.askNow n (s.homeNode pa)
    ((if why.still then s.heldOver n (pa / 128 * 128) 128 else s.heldOver n pa size) ++ s.heldBacks (s.thr n).core (pa / 128))
    (.read n pa size why) k (serveRead none false)


/-- An operation of class w or o that needs no window entry waits for what a FENCE names (R298). -/
def State.afterGate (s : State) (n : Nat) (go : State) : State :=
  if (s.heldBack n).isEmpty then go else s.await n (s.heldBack n)

/-- Where a thread's access to the system region leaves the package. -/
abbrev State.sysNode (s : State) (n pa : Nat) : Node := portNode (s.sysDie (dieOf (s.thr n).core) pa)

/-- A read, write or atomic of the system region: its completion comes from outside (R289, R291, R341). -/
def State.askSystem (s : State) (n pa size : Nat) (load : Bool) (atomic : Option AtFn) (v cmp : Word) (k : Cont) : State :=
  (s.ask n (s.sysNode n pa) (s.heldBack n) (.system n pa size load atomic v cmp false) k).2

/-- The store window holds 8 (R96); a full one stalls the thread with the instruction unissued. A CL.FLUSH's write-back
takes no entry of it (R254). -/
abbrev State.windowFull (s : State) (n : Nat) : Bool := decide (8 ≤ (s.thr n).unacked.countP fun u => !u.back)

/-- Send a window operation to a home: the thread does not wait. -/
def State.sendWindow (s : State) (n pa size : Nat) (b : Body) (strm : Bool := false) : State :=
  let id := s.nextId
  let s := { s with
    msgs := s.msgs ++ [({ id := id, src := .core (s.thr n).core, dst := s.homeNode pa, after := s.heldBack n ++ s.heldBacks (s.thr n).core (pa / 128), body := b } : Msg)]
    nextId := s.nextId + 1 }
  s.onThr n fun t =>
    { t with unacked := t.unacked ++ [({ id := id, pa := pa, size := size, ctx := t.ctx, dom := t.domain, strm := strm } : Unacked)] }

/-- What an operation sends finds a FIFO full on its way (R337). -/
def State.jams (s : State) (go : State) : Bool := (go.msgs.filter fun m => decide (s.nextId ≤ m.id)).any go.jammed

/-- Through the window, or stalled by it (R96). -/
def State.viaEntry (s : State) (n : Nat) (go : State) : State := if s.windowFull n then s.park n .sleeping .window else go

/-- The same for what may leave its die: a die link that does not drain stalls it too (R337). -/
def State.viaWindow (s : State) (n : Nat) (go : State) : State := s.viaEntry n (if s.jams go then s.hold n .link else go)

/-- A store to the system region: posted, and unconfirmed until its target answers, under the identifier that follows its
own. Its port or link accepts it at once, unless a FENCE holds it: then it keeps its window entry, under its own
identifier, till it is accepted (R289, R298). -/
def State.sendSystem (s : State) (n pa size : Nat) (atomic : Option AtFn) (v : Word) : State :=
  let id := s.nextId
  let held := s.heldBack n
  let s := { s with
    msgs := s.msgs ++ [({ id := id, src := .core (s.thr n).core, dst := s.sysNode n pa, after := held, body := .system n pa size false atomic v 0 true } : Msg)]
    nextId := s.nextId + 2 }
  s.onThr n fun t =>
    { t with
      unconfirmed := t.unconfirmed ++ [id + 1]
      unacked := if held.isEmpty then t.unacked else t.unacked ++ [({ id := id, pa := pa, size := size } : Unacked)] }

/-- An M copy of the issuing core's L1 is written back and kept in C before an access at home (R239). -/
def State.cleanM (s : State) (c line : Nat) : State :=
  match s.l1 c line with
  | some l => if l.st = .m then (s.sendBack c line l).setL1 c line (some { l with st := .c, dirty := 0 }) else s
  | none => s

/-- A CL.FLUSH's write-back: the line is kept in C, and the thread waits for the acknowledgement (R254). -/
def State.flushM (s : State) (n line : Nat) (l : L1Line) : State :=
  let id := s.nextId
  let c := (s.thr n).core
  let s := { s with
    msgs := s.msgs ++ [({ id := id, src := .core c, dst := s.homeNode (line * 128), after := s.heldBack n ++ s.heldLine c line, body := .wback n line l.data l.dirty } : Msg)]
    nextId := s.nextId + 1 }
  let s := s.setL1 c line (some { l with st := .c, dirty := 0 })
  let s := s.onThr n fun t =>
    { t with unacked := t.unacked ++ [({ id := id, pa := line * 128, size := 128, back := true } : Unacked)] }
  (s.await n [id]).promptly id serveStore

end Sys2Proof.Machine
end

