-- ==== Sys2Proof/Machine/Memory.lean ====
section
/-! DEFINITION. Loads, stores, pushes, line operations, fences and WAITA (chapters 6, 11 and 13). -/

namespace Sys2Proof.Machine

/-- ALIGN unless the address is a multiple of the size. -/
abbrev misaligned (va : Word) (size : Nat) : Refuse := failIf (decide (va.toNat % size ≠ 0)) .align va

/-- A plain load that hits a V or D copy: D goes to V; an overlapping store of the thread's own is awaited (R223, R228). -/
def State.hitLoad (s : State) (n pa : Nat) (l : L1Line) (k : Cont) : State :=
  let own := s.overlaps n pa k.size
  if own.isEmpty then
    let c := (s.thr n).core
    let s := s.setL1 c (pa / 128) (some { l with st := if l.st = .d then .v else l.st, stamp := (s.core c).l1clock })
    let s := s.onCore c fun x => { x with l1clock := x.l1clock + 1 }
    let v := extend k.size k.sign (lineGet l.data (pa % 128) k.size)
    match k.d with
    | some d => s.write n d v 5 k.len
    | none => s.finish n k.len
  else s.await n own

/-- A read of SDCMD waits for the commands accepted before it (R324). -/
abbrev State.sdBusy (s : State) (pa : Nat) : Bool :=
  decide (deviceOff pa / 8 = 0x7_0000 / 8) && !(s.die (deviceDie pa)).sdq.isEmpty

/-- LD at a place (R251). -/
def loadAt (n : Nat) (ord : LdOrd) (k : Cont) (pa : Nat) (kind : Kind) (far : Bool) (s : State) : State :=
  match kind with
  | .software =>
    if ord = .plain ∧ !far then
      match s.l1 (s.thr n).core (pa / 128) with
      | some l => s.hitLoad n pa l k
      | none => s.readHome n pa k.size .fillSw k
    else (s.cleanM (s.thr n).core (pa / 128)).readHome n pa k.size (if ord = .strm then .strm else .acquire) k
  | .cacheable =>
    if ord = .plain ∧ !far then
      match s.l1 (s.thr n).core (pa / 128) with
      | some l => s.hitLoad n pa l k
      | none => s.readHome n pa k.size .fill k
    else s.readHome n pa k.size (if ord = .strm then .strm else .acquire) k
  | .streaming => s.readHome n pa k.size .acquire k
  | .device => s.afterGate n
    (let d := deviceDie pa
    -- A load of SDCMD is answered once every command accepted before it is complete (R324).
    if s.sdBusy pa then s.hold n .hold
    else
      let v := extend k.size k.sign (s.devRead d (deviceOff pa) k.size)
      match k.d with
      | some d => s.write n d v replyDelay k.len
      | none => s.finish n k.len)
  | .system => s.askSystem n pa k.size true none 0 0 k

/-- LD (R251). -/
def execLd (d a : Reg) (f : AForm) (sz : Size) (z : Bool) (ord : LdOrd) (s : State) : Result :=
  let n := s.cur
  let va := s.addr n a f
  let k : Cont := { d := some d, len := f.len, size := sz.bytes, sign := !z, va := va }
  .next (s.check n (misaligned va sz.bytes)
    (State.placed n (s.locate n (commonsRef (.ld d a f sz z ord)) va .load) (loadAt n ord k)))

/-- A plain store into a software-managed line of the issuing core's L1 (R239): from I the line is filled first. Like every
store it awaits a free entry of the window (R252). -/
def storeSw (n pa size : Nat) (v : Line) (va : Word) (len : Nat) (s : State) : State :=
  let c := (s.thr n).core
  s.viaEntry n (match s.l1 c (pa / 128) with
    | some l => (s.putSw c (pa / 128) (pa % 128) size v l).finish n len
    | none => s.readHome n pa size (.fillStore v) { d := none, len := len, size := 8, sign := false, va := va })

/-- ST, and the store of CL.ZERO, at a place (R252, R254). -/
def storeAt (n : Nat) (ord : StOrd) (size : Nat) (v : Line) (va : Word) (len : Nat) (pa : Nat) (kind : Kind) (far : Bool)
    (s : State) : State :=
  let home := fun (s : State) =>
    s.viaWindow n ((s.sendWindow n pa size (.store n pa size v) (ord == .strm)).finish n len)
  match kind with
  | .software =>
    if ord = .plain ∧ !far then storeSw n pa size v va len s
    else home (s.cleanM (s.thr n).core (pa / 128))
  | .cacheable | .streaming => home s
  | .device =>
    if size = 128 then s.raise n .transs va
    else s.viaEntry n (s.afterGate n
      ((s.devWrite (.core (s.thr n).core) (s.domainOf n) (deviceDie pa) (deviceOff pa) size (v.setWidth 64)).finish n len))
  | .system => s.viaWindow n ((s.sendSystem n pa size none (v.setWidth 64)).finish n len)

/-- ST (R252). A release awaits every earlier store of the thread (R279). -/
def execSt (a : Reg) (f : AForm) (c : Reg) (sz : Size) (ord : StOrd) (s : State) : Result :=
  let n := s.cur
  let va := s.addr n a f
  let v : Line := BitVec.ofNat 1024 ((s.reg n c).toNat % 2 ^ (8 * sz.bytes))
  let go := State.placed n (s.locate n (commonsRef (.st a f c sz ord)) va .store) fun pa k far s =>
    if ord = .rel then s.afterStores n (storeAt n ord sz.bytes v va f.len pa k far s)
    else storeAt n ord sz.bytes v va f.len pa k far s
  .next (s.check n (misaligned va sz.bytes) go)

/-! ### Pushes (R234, R235, R253) -/

/-- The cores that a set value names on a die: tile form, or the mask bytes of pointer form. -/
def coreSet (d : Nat) (v : Word) (mask : BitVec 256) : List Nat :=
  (List.range 256).filterMap fun k =>
    let c := 256 * d + k
    let named := if v.getLsbD 63 then v.getLsbD (tileOf c % 32) && v.getLsbD (40 + laneOf c) else mask.getLsbD k
    if named then some c else none

/-- What a PUSH finds where its set points: the mask, a trap, or the thread's own stores to it that are under way. -/
inductive MaskRead where
  | mask (m : BitVec 256)
  | refuse (c : Cause) (v : Word)
  | own (ids : List Nat)
  deriving DecidableEq, Repr

/-- Four 64-bit words, the first lowest. -/
abbrev mask4 (w : Nat → Word) : BitVec 256 :=
  BitVec.ofNat 256 ((List.range 4).foldr (fun i a => a * 2 ^ 64 + (w i).toNat) 0)

/-- The 32-byte mask of pointer form, read at its home slice under the thread's translation (R234), as the thread's own
stores leave it (R281, R283). -/
def State.pushMask (s : State) (n : Nat) (v : Word) : MaskRead × State :=
  if v.getLsbD 63 then (.mask 0, s)
  else if v.toNat % 32 ≠ 0 then (.refuse .align v, s)
  else
    let r := s.translate n v .load
    let d := dieOf (s.thr n).core
    match r.1 with
    | .bad c x => (.refuse c x, r.2)
    | .ok pa .device =>
      if s.cut d (deviceDie pa) then (.refuse .mchk v, r.2)
      else
        let q := r.2.crossing d (deviceDie pa)
        (.mask (mask4 fun i => q.devRead (deviceDie pa) (deviceOff pa + 8 * i) 8), if s.sdBusy pa then q.meet else q)
    | .ok pa .system =>
      let q := r.2.windowLoad d pa
      if q.1 || s.insecurePath d pa || s.cut d (s.sysDie d pa) then (.refuse .mchk v, q.2)
      else (.mask (mask4 fun i => Config.freeValue (r.2.free + i)), { r.2 with free := r.2.free + 4 })
    | .ok pa _ =>
      let own := s.overlaps n pa 32
      if s.cut d (homeDie pa) then (.refuse .mchk v, r.2)
      else if !own.isEmpty then (.own own, r.2)
      else if !s.granted (s.domainOf n) pa then (.refuse .deed v, r.2.homeMeet pa)
      else
        let q := r.2.coreMeets (s.thr n).core pa 32
        if q.1 then (.refuse .mchk v, q.2) else (.mask (BitVec.ofNat 256 (s.homeRead pa 32)), q.2)

/-- PUSH and PUSHL at a place. -/
def pushAt (n : Nat) (data : Option (Nat × Line)) (cores : List Nat) (va : Word) (len : Nat) (pa : Nat) (kind : Kind)
    (far : Bool) (s : State) : State :=
  let size := match data with | some p => p.1 | none => 128
  let go := fun (s : State) => s.viaWindow n
    ((s.sendWindow n pa size (.push n pa data cores (kind == .cacheable))).finish n len)
  match kind with
  | .cacheable | .streaming => go s
  | .software => go (s.cleanM (s.thr n).core (pa / 128))
  | .device | .system => match data with
    | some (z, v) => storeAt n .plain z v va len pa kind far s
    | none => s.viaEntry n (s.finish n len)

/-- The shared operation of PUSH and PUSHL. The mask is read before the PUSH's own address is translated, so its trap comes
first, and before any migration (DESIGN CHOICE, log 96). -/
def pushOp (commons : Bool) (va set' : Word) (data : Option (Nat × Line)) (len : Nat) (s : State) : State :=
  let n := s.cur
  let m := s.pushMask n set'
  match m.1 with
  | .refuse c v => m.2.raise n c v
  | .own ids => m.2.await n ids
  | .mask mask => State.placed n (m.2.locate n commons va .store) fun pa k far s =>
      pushAt n data (coreSet (dieOf (s.thr n).core) set' mask) va len pa k far s

/-- PUSH (R253). -/
def execPush (a : Reg) (f : AForm) (c d : Reg) (sz : Size) (s : State) : Result :=
  let n := s.cur
  let va := s.addr n a f
  let v : Line := BitVec.ofNat 1024 ((s.reg n c).toNat % 2 ^ (8 * sz.bytes))
  .next (s.check n (misaligned va sz.bytes)
    (pushOp (commonsRef (.push a f c d sz)) va (s.reg n d) (some (sz.bytes, v)) f.len s))

/-- PUSHL (R253). -/
def execPushl (a : Reg) (f : AForm) (d : Reg) (s : State) : Result :=
  .next (pushOp (commonsRef (.pushl a f d)) (s.addr s.cur a f) (s.reg s.cur d) none f.len s)

/-! ### Line operations (R254) -/

/-- The address of a CL instruction. -/
abbrev clAddr (a : Reg) (disp : Off) (s : State) : Word := s.reg s.cur a + disp.val

/-- CL.PREF: a fault, a refusal or another die's line does nothing; the thread goes on at once. S = 1 fills the slice alone,
for a cacheable line (R254). -/
def execClPref (a : Reg) (disp : Off) (slice : Bool) (s : State) : Result :=
  let n := s.cur
  let r := s.translate n (clAddr a disp s) .load
  let s := r.2
  let c := (s.thr n).core
  let go := fun (pa : Nat) (why : ReadFor) =>
    let id := s.nextId
    ((s.send (.core c) (s.homeNode pa) (.read n pa 8 why)).promptly id (serveRead none false)).finish n disp.len
  .next (match r.1 with
    | .ok pa .cacheable =>
      if homeDie pa ≠ dieOf c then s.finish n disp.len
      else if slice then go pa .prefL2
      else if (s.l1 c (pa / 128)).isSome then s.finish n disp.len else go pa .pref
    | .ok pa .software =>
      if homeDie pa ≠ dieOf c then s.finish n disp.len
      else if slice then go pa .prefL2
      else if (s.l1 c (pa / 128)).isSome then s.finish n disp.len else go pa .prefSw
    | _ => s.finish n disp.len)

/-- The checks CL.FLUSH and CL.INV share (R254, R320): translation under R or X, and the roll check of a load. -/
def State.clPlace (s : State) (n : Nat) (va : Word) (go : Nat → Kind → State → State) : State :=
  let r := s.translate n va .flush
  match r.1 with
  | .bad c v => r.2.raise n c v
  | .ok pa k =>
    if inPackage pa && !s.granted (s.domainOf n) pa then r.2.raise n .deed va else go pa k r.2

/-- CL.FLUSH. -/
def execClFlush (a : Reg) (disp : Off) (s : State) : Result :=
  let n := s.cur
  .next (s.clPlace n (clAddr a disp s) fun pa k s =>
    let c := (s.thr n).core
    let line := pa / 128
    let own := s.overlaps n (line * 128) 128
    let wait := if own.isEmpty then s.finish n disp.len else s.await n own
    -- A write-back of the line that an earlier replacement or access has sent is awaited too: then M data is at home (R239).
    let backs := s.backsOf c line
    let gone := fun (s : State) => if backs.isEmpty then s.finish n disp.len else s.await n backs
    match k with
    | .device => s.finish n disp.len
    | .streaming | .system => wait
    | .cacheable => if homeDie pa ≠ dieOf c then s.finish n disp.len else wait
    | .software =>
      if homeDie pa ≠ dieOf c then s.finish n disp.len
      else match s.l1 c line with
        | some l =>
          if l.st = .m then s.flushM n line l else gone (s.setL1 c line none)
        | none => gone s)

/-- CL.INV; I also drops the line from this core's instruction cache. -/
def execClInv (a : Reg) (disp : Off) (i : Bool) (s : State) : Result :=
  let n := s.cur
  .next (s.clPlace n (clAddr a disp s) fun pa k s =>
    let c := (s.thr n).core
    let line := pa / 128
    let s := if i then s.onCore c fun x => { x with icache := mset none x.icache line none } else s
    match k with
    | .cacheable | .software =>
      if homeDie pa ≠ dieOf c then s.finish n disp.len else (s.invalidate c line).finish n disp.len
    | _ => s.finish n disp.len)

/-- CL.ZERO: a 128-byte store of zeros. -/
def execClZero (a : Reg) (disp : Off) (s : State) : Result :=
  let n := s.cur
  let va := clAddr a disp s
  .next (State.placed n (s.locate n (commonsRef (.clZero a disp)) va .store) fun pa k far s =>
    let base := pa / 128 * 128
    match k with
    | .software =>
      if far then storeAt n .plain 128 0 va disp.len base k far s
      else
        let r := if s.counterOpen (pa / 128) then (false, s) else s.placeL1 (s.thr n).core (pa / 128) .m 0
        s.viaEntry n (
          if r.1 then
            (r.2.onCore (s.thr n).core fun x =>
              let y := (mget none x.l1 (pa / 128)).map fun l => { l with dirty := ~~~0 }
              { x with l1 := mset none x.l1 (pa / 128) y }).finish n disp.len
          else (s.sendWindow n base 128 (.store n base 128 0)).finish n disp.len)
    | _ => storeAt n .plain 128 0 va disp.len base k far s)

/-! ### FENCE (R298) and WAITA (R100) -/

/-- The recorded operations of a fence: classes w (bit 1), e (bit 3) and o (bit 5): at system scope every store, add and
copy to the system region that its target has not confirmed, else those not yet accepted; every other class is performed when
its instruction completes (R275, R277). -/
def fenceRecord (s : State) (n : Nat) (scope : Scope) (pred : BitVec 6) : List Nat :=
  (if pred.getLsbD 1 then ((s.thr n).unacked.filter fun u => inPackage u.pa).map (·.id) else [])
    ++ (if pred.getLsbD 3 then s.engineOps n ++ (if scope == .sys then s.copyOut n else []) else [])
    ++ (if pred.getLsbD 5 then
        (if scope == .sys then (s.thr n).unconfirmed
          else ((s.thr n).unacked.filter fun u => !inPackage u.pa).map (·.id))
      else [])

/-- FENCE: with only w and o after it, later stores are held; otherwise the thread waits here. -/
def execFence (scope : Scope) (pred succ : BitVec 6) (s : State) : Result :=
  let n := s.cur
  if pred = 0 ∨ succ = 0 then .next (s.raise n .ill (w0Of (.fence scope pred succ)))
  else
    let rec' := fenceRecord s n scope pred
    if succ &&& 0b011101 = 0 then
      .next ((s.onThr n fun t =>
        { t with gate := t.gate.filter (fun i => (s.openOps n).contains i) ++ rec' }).finish n 8)
    else if rec'.isEmpty then .next (s.finish n 8)
    else .next (s.await n rec')

/-- WAITA at a place. A device or system word, a streaming or software-managed line, and a line of another die reached
through the commons are watched as untracked lines. -/
def waitaAt (n size : Nat) (cmp : Word) (d : Reg) (k : Cont) (pa : Nat) (kind : Kind) (far : Bool) (s : State) : State :=
  -- The comparand is read once, at the first issue (R100): a re-issue after a wake reads the same commons.
  let s := s.onThr n fun t => { t with snap := s.keepCommons n }
  match kind with
  | .cacheable => s.readHome n pa size (.waita cmp d !far) k
  | .software => (s.cleanM (s.thr n).core (pa / 128)).readHome n pa size (.waita cmp d false) k
  | .streaming => s.readHome n pa size (.waita cmp d false) k
  | .device => s.afterGate n
    (let v := s.devRead (deviceDie pa) (deviceOff pa) size
    if s.sdBusy pa then s.hold n .hold
    else if v ≠ cmp then s.write n d v replyDelay 8
    else (s.onThr n fun t => { t with cont := some k }).park n .sleeping (.watch pa size cmp d false false s.reft))
  | .system => (s.ask n (s.sysNode n pa) (s.heldBack n) (.system n pa size true none 0 cmp true) k).2

/-- WAITA (R100). -/
def execWaita (d a : Reg) (y : WaitCmp) (w : Bool) (s : State) : Result :=
  let n := s.cur
  let va := s.reg n a
  let size := if w then 4 else 8
  let c := match y with | .reg b => s.reg n b | .i20 x => sext x
  let cmp := if w then zext (c.setWidth 32) else c
  let k : Cont := { d := some d, len := 8, size := size, sign := false, va := va }
  .next (s.check n (misaligned va size)
    (State.placed n (s.locate n (commonsRef (.waita d a y w)) va .load) (waitaAt n size cmp d k)))

end Sys2Proof.Machine
end

