-- ==== Sys2Proof/Machine/Atomics.lean ====
section
/-! DEFINITION. Atomics, reservations, and the local store with its porters (chapters 8 and 13). -/

namespace Sys2Proof.Machine

/-- Orderings that release (R279). -/
abbrev AtOrd.releases (o : AtOrd) : Bool := o == .rel || o == .ar

/-- Operations that a system-region target serves (R292). -/
def AtFn.system : AtFn → Bool
  | .add | .swap | .cas => true
  | _ => false

/-- Whether a reduction window of a format takes an operation of a size as a posted add (R292, R344). -/
def windowTakes (fmt : Nat) (fn : AtFn) (size : Nat) : Bool :=
  (fmt == 0 && fn == .fadd) || (fmt == 1 && fn == .faddBf16) || (fmt == 2 && fn == .add && size == 4)

/-- The window that a system address of the thread's die lies in, with its format. -/
def State.windowFmt (s : State) (n pa : Nat) : Option Nat :=
  let d := dieOf (s.thr n).core
  (s.windowOf d pa).map fun i => winFmt ((s.die d).win i)

/-- The trap of an AMO that its kind of memory does not serve (R292). -/
def State.amoTrap (s : State) (n : Nat) (fn : AtFn) (size pa : Nat) : Kind → Option Cause
  | .device => some .transs
  | .system => match s.windowFmt n pa with
    | some fmt => if windowTakes fmt fn size then none else some .transs
    | none => if AtFn.system fn then none else some .transs
  | _ => none

/-- AMO at a place (R292, R293). A posted add of a reduction window, which no reply completes, writes its destination at t + 2
(DESIGN CHOICE, log 118). -/
def amoAt (n : Nat) (fn : AtFn) (size : Nat) (x cmp : Word) (ord : AtOrd) (d : Reg) (va : Word) (pa : Nat) (kind : Kind)
    (_far : Bool) (s : State) : State :=
  let k : Cont := { d := some d, len := 8, size := size, sign := true, va := va }
  let rel := fun (go : State → State) => if AtOrd.releases ord then s.afterStores n (go s) else go s
  let home := fun (s : State) =>
    s.askNow n (s.homeNode pa) (s.heldBack n ++ s.heldBacks (s.thr n).core (pa / 128)) (.atomic n pa (.atomic fn size x cmp)) k
      (serveAtomic false false)
  match kind with
  | .cacheable | .streaming => rel home
  | .software => rel fun s => home (s.cleanM (s.thr n).core (pa / 128))
  | .device => s.raise n .transs va
  | .system => match s.windowFmt n pa with
    | some fmt =>
      if windowTakes fmt fn size then
        rel fun s => s.viaWindow n ((s.sendSystem n pa 4 (some fn) x).write n d 0 2 8)
      else s.raise n .transs va
    | none =>
      if AtFn.system fn then rel fun s => s.askSystem n pa size false (some fn) x cmp k else s.raise n .transs va

/-- The shared operation of the AMO instructions. -/
def amoOp (i : Instr) (fn : AtFn) (d a c : Reg) (cmp : Option Reg) (ord : AtOrd) (size : Nat) (s : State) : State :=
  let n := s.cur
  let va := s.reg n a
  let y := match cmp with | some r => s.reg n r | none => 0
  s.check n (misaligned va size)
    (State.placed n (s.locateFor n (commonsRef i) va .store (s.amoTrap n fn size)) (amoAt n fn size (s.reg n c) y ord d va))

/-! ### Reservations (R294 to R297) -/

/-- LR and SC name no device register and no address of the system region (R295, R296). -/
def noReserve (c : Cause) (_ : Nat) (kind : Kind) : Option Cause := if kind = .device ∨ kind = .system then some c else none

/-- LR (R295). -/
def execLr (d a : Reg) (acq dw : Bool) (s : State) : Result :=
  let n := s.cur
  let va := s.reg n a
  let size := wd dw
  .next (s.check n (misaligned va size)
    (State.placed n (s.locateFor n (commonsRef (.lr d a acq dw)) va .load (noReserve .transl)) fun pa kind _ s =>
      (if kind = .software then s.cleanM (s.thr n).core (pa / 128) else s).readHome n pa size .lr { d := some d, len := 8, size := size, sign := true, va := va }))

/-- SC (R296). One that fails without a message writes its 0 in its issue cycle (DESIGN CHOICE, log 118). -/
def execSc (d a c : Reg) (rel dw : Bool) (s : State) : Result :=
  let n := s.cur
  let va := s.reg n a
  let size := wd dw
  .next (s.check n (misaligned va size)
    (State.placed n (s.locateFor n (commonsRef (.sc d a c rel dw)) va .store (noReserve .transs)) fun pa _ _ s =>
        let go := fun (s : State) =>
          if (s.thr n).resv.contains (pa / 128) then
            s.askNow n (s.homeNode pa) (s.heldBack n ++ s.heldBacks (s.thr n).core (pa / 128))
              (.atomic n pa (.sc size (word ((s.reg n c).toNat % 2 ^ (8 * size)))))
              { d := some d, len := 8, size := 8, sign := false, va := va } (serveAtomic false false)
          else (s.clearResv n).write n d 0 replyDelay 8
        if rel then s.afterStores n (go s) else go s))

/-- WAITRS (R297). One that does not sleep writes in its issue cycle (DESIGN CHOICE, log 118). -/
def execWaitrs (d : Reg) (s : State) : Result :=
  let n := s.cur
  let t := s.thr n
  if t.hit ≠ 0 then .next ((s.onThr n fun t => { t with hit := 0 }).write n d (word t.hit) replyDelay 8)
  else if t.resv.isEmpty then .next (s.write n d 0 replyDelay 8)
  else .next (s.park n .sleeping (.resv d))

/-! ### Local store (R132 to R134, R156) -/

/-- The key of a core's local offset in the package's local store. -/
abbrev locKey (c off : Nat) : Nat := c * 0x8_0000 + off

def State.readLoc (s : State) (c off size : Nat) : Nat := readN s.loc (locKey c off) size
def State.writeLoc (s : State) (c off size v : Nat) : State := { s with loc := writeN s.loc (locKey c off) size v }

/-- The checks of a local access. -/
def localCheck (a : Word) (size : Nat) (c : Cause) : Refuse :=
  orElse' (misaligned a size) (failIf (decide (a.toNat > 0x7_FFFF)) c a)

/-- LDL (R156). -/
def execLdl (d a : Reg) (f : AForm) (sz : Size) (z : Bool) (s : State) : Result :=
  let n := s.cur
  let x := s.addr n a f
  let k := locKey (originOf n) x.toNat
  .next (s.check n (orElse' (localCheck x sz.bytes .transl) (failIf (s.flawed true k sz.bytes) .mchk x))
    (s.write n d (extend sz.bytes (!z) (word (s.readLoc (originOf n) x.toNat sz.bytes))) 5 f.len))

/-- STL (R156). -/
def execStl (a : Reg) (f : AForm) (c : Reg) (sz : Size) (s : State) : Result :=
  let n := s.cur
  let x := s.addr n a f
  .next (s.check n (localCheck x sz.bytes .transs)
    ((s.writeLoc (originOf n) x.toNat sz.bytes (s.reg n c).toNat).finish n f.len))

/-! ### Porters (R94, R153 to R158) -/

/-- Apply one arrival to core `c`'s local store and reply; `err`, like a flaw of the bytes, is a double-bit error on its read,
`late` an error reported after its write (R157, R158). -/
def portApply (c : Nat) (a : Arrival) (err late : Bool) (s : State) : State :=
  match a.op with
  | .load size =>
    if err || s.flawed true (locKey c a.off) size then
      match (s.thr a.thread).cont with | some k => s.raise a.thread .mchk k.va | none => s
    else s.complete a.thread (word (s.readLoc c a.off size))
  | .store size v => (s.writeLoc c a.off size v.toNat).complete a.thread 0
  | .atomic fn size x cmp =>
    if err || s.flawed true (locKey c a.off) size then
      match (s.thr a.thread).cont with | some k => s.raise a.thread .amoerr k.va | none => s
    else
      let old := s.readLoc c a.off size
      let s := match atomicNew fn size old x.toNat cmp.toNat with
        | some v => s.writeLoc c a.off size v
        | none => s
      s.conclude 0 (.reply a.thread (word old) late)

/-- Arrivals that have credit enter the porter's queue of 16, in the order they reach it (R153). -/
def portEnter (id : Nat) (s : State) : State :=
  match s.due id with
  | some ⟨_, _, _, _, .arrive c a⟩ =>
    if (s.core c).porter.length < 16 then (s.drop id).onCore c fun x => { x with porter := x.porter ++ [a] } else s
  | _ => s

/-- The arrivals in flight to a core enter its queue while it has room. -/
def portRefill (c : Nat) (s : State) : State :=
  (s.msgs.filterMap fun m => match m.body with | .arrive k _ => if k = c then some m.id else none | _ => none).foldl
    (fun s id => portEnter id s) s

/-- The porter's issue (R94): it executes the arrival at the head of its queue. -/
def portStep (c : Nat) (err late : Bool) (s : State) : State :=
  match (s.core c).porter with
  | [] => s
  | a :: rest =>
    let s := s.onCore c fun x =>
      { x with porter := rest, portDone := x.portDone + 1, portAt := x.cycle + 8, last := 16 }
    portRefill c (portApply c a err late s)

/-- Send an arrival to the porter of core `c` and wait for its reply. On a prompt fabric it enters the queue at once. -/
def State.sendPort (s : State) (n c off : Nat) (op : PortOp) (k : Cont) : State :=
  let r := s.ask n (.core c) [] (.arrive c { thread := n, off := off, op := op }) k
  r.2.promptly r.1 portEnter

/-- The checks of LDX, STX and AMOX. -/
def portCheck (s : State) (a core : Word) (size : Nat) (c : Cause) : Refuse :=
  orElse' (misaligned a size)
    (orElse' (failIf (decide (a.toNat > 0x7_FFFF) || decide (core.toNat > 1023)) c a)
      (failIf (s.cut (dieOf s.me.core) (dieOf core.toNat)) .mchk core))

/-- LDX (R157). -/
def execLdx (d a b : Reg) (disp : BitVec 20) (sz : Size) (z : Bool) (s : State) : Result :=
  let n := s.cur
  let x := s.reg n a + sext disp
  let c := s.reg n b
  .next (s.check n (portCheck s x c sz.bytes .transl)
    (s.sendPort n c.toNat x.toNat (.load sz.bytes) { d := some d, len := 8, size := sz.bytes, sign := !z, va := x }))

/-- STX (R157). -/
def execStx (a b c : Reg) (disp : BitVec 20) (sz : Size) (s : State) : Result :=
  let n := s.cur
  let x := s.reg n a + sext disp
  let core := s.reg n b
  .next (s.check n (portCheck s x core sz.bytes .transs)
    (s.sendPort n core.toNat x.toNat (.store sz.bytes (s.reg n c)) { d := none, len := 8, size := 8, sign := false, va := x }))

/-- The shared operation of the AMOX instructions (R158). -/
def amoxOp (fn : AtFn) (d a b c : Reg) (cmp : Option Reg) (ord : AtOrd) (size : Nat) (s : State) : State :=
  let n := s.cur
  let x := s.reg n a
  let core := s.reg n b
  let y := match cmp with | some r => s.reg n r | none => 0
  let go := s.sendPort n core.toNat x.toNat (.atomic fn size (s.reg n c) y)
    { d := some d, len := 8, size := size, sign := true, va := x }
  s.check n (portCheck s x core size .transs) (if AtOrd.releases ord then s.afterStores n go else go)

/-- AMOX.ADD (R158). -/
def execAmoxAdd (d a b c : Reg) (ord : AtOrd) (dw : Bool) (s : State) : Result :=
  .next (amoxOp .add d a b c none ord (wd dw) s)
/-- AMOX.AND (R158). -/
def execAmoxAnd (d a b c : Reg) (ord : AtOrd) (dw : Bool) (s : State) : Result :=
  .next (amoxOp .and d a b c none ord (wd dw) s)
/-- AMOX.OR (R158). -/
def execAmoxOr (d a b c : Reg) (ord : AtOrd) (dw : Bool) (s : State) : Result :=
  .next (amoxOp .or d a b c none ord (wd dw) s)
/-- AMOX.XOR (R158). -/
def execAmoxXor (d a b c : Reg) (ord : AtOrd) (dw : Bool) (s : State) : Result :=
  .next (amoxOp .xor d a b c none ord (wd dw) s)
/-- AMOX.MIN (R158). -/
def execAmoxMin (d a b c : Reg) (ord : AtOrd) (dw : Bool) (s : State) : Result :=
  .next (amoxOp .min d a b c none ord (wd dw) s)
/-- AMOX.MAX (R158). -/
def execAmoxMax (d a b c : Reg) (ord : AtOrd) (dw : Bool) (s : State) : Result :=
  .next (amoxOp .max d a b c none ord (wd dw) s)
/-- AMOX.MINN (R158). -/
def execAmoxMinn (d a b c : Reg) (ord : AtOrd) (dw : Bool) (s : State) : Result :=
  .next (amoxOp .minn d a b c none ord (wd dw) s)
/-- AMOX.MAXN (R158). -/
def execAmoxMaxn (d a b c : Reg) (ord : AtOrd) (dw : Bool) (s : State) : Result :=
  .next (amoxOp .maxn d a b c none ord (wd dw) s)
/-- AMOX.SWAP (R158). -/
def execAmoxSwap (d a b c : Reg) (ord : AtOrd) (dw : Bool) (s : State) : Result :=
  .next (amoxOp .swap d a b c none ord (wd dw) s)
/-- AMOX.CAS (R158). -/
def execAmoxCas (d a b c cmp : Reg) (ord : AtOrd) (dw : Bool) (s : State) : Result :=
  .next (amoxOp .cas d a b c (some cmp) ord (wd dw) s)
/-- AMOX.FADD (R158, R87). -/
def execAmoxFadd (d a b c : Reg) (ord : AtOrd) (s : State) : Result := .next (amoxOp .fadd d a b c none ord 4 s)
/-- AMOX.FADD.BF16 (R158, R87). -/
def execAmoxFaddBf16 (d a b c : Reg) (ord : AtOrd) (s : State) : Result := .next (amoxOp .faddBf16 d a b c none ord 4 s)
/-- AMO.ADD (R293). -/
def execAmoAdd (d a c : Reg) (ord : AtOrd) (dw : Bool) (s : State) : Result :=
  .next (amoOp (.amoAdd d a c ord dw) .add d a c none ord (wd dw) s)
/-- AMO.AND (R293). -/
def execAmoAnd (d a c : Reg) (ord : AtOrd) (dw : Bool) (s : State) : Result :=
  .next (amoOp (.amoAnd d a c ord dw) .and d a c none ord (wd dw) s)
/-- AMO.OR (R293). -/
def execAmoOr (d a c : Reg) (ord : AtOrd) (dw : Bool) (s : State) : Result :=
  .next (amoOp (.amoOr d a c ord dw) .or d a c none ord (wd dw) s)
/-- AMO.XOR (R293). -/
def execAmoXor (d a c : Reg) (ord : AtOrd) (dw : Bool) (s : State) : Result :=
  .next (amoOp (.amoXor d a c ord dw) .xor d a c none ord (wd dw) s)
/-- AMO.MIN (R293). -/
def execAmoMin (d a c : Reg) (ord : AtOrd) (dw : Bool) (s : State) : Result :=
  .next (amoOp (.amoMin d a c ord dw) .min d a c none ord (wd dw) s)
/-- AMO.MAX (R293). -/
def execAmoMax (d a c : Reg) (ord : AtOrd) (dw : Bool) (s : State) : Result :=
  .next (amoOp (.amoMax d a c ord dw) .max d a c none ord (wd dw) s)
/-- AMO.MINN (R293). -/
def execAmoMinn (d a c : Reg) (ord : AtOrd) (dw : Bool) (s : State) : Result :=
  .next (amoOp (.amoMinn d a c ord dw) .minn d a c none ord (wd dw) s)
/-- AMO.MAXN (R293). -/
def execAmoMaxn (d a c : Reg) (ord : AtOrd) (dw : Bool) (s : State) : Result :=
  .next (amoOp (.amoMaxn d a c ord dw) .maxn d a c none ord (wd dw) s)
/-- AMO.SWAP (R293). -/
def execAmoSwap (d a c : Reg) (ord : AtOrd) (dw : Bool) (s : State) : Result :=
  .next (amoOp (.amoSwap d a c ord dw) .swap d a c none ord (wd dw) s)
/-- AMO.CAS (R293). -/
def execAmoCas (d a c cmp : Reg) (ord : AtOrd) (dw : Bool) (s : State) : Result :=
  .next (amoOp (.amoCas d a c cmp ord dw) .cas d a c (some cmp) ord (wd dw) s)
/-- AMO.FADD (R293, R87). -/
def execAmoFadd (d a c : Reg) (ord : AtOrd) (s : State) : Result :=
  .next (amoOp (.amoFadd d a c ord) .fadd d a c none ord 4 s)
/-- AMO.FADD.BF16 (R293, R87). -/
def execAmoFaddBf16 (d a c : Reg) (ord : AtOrd) (s : State) : Result :=
  .next (amoOp (.amoFaddBf16 d a c ord) .faddBf16 d a c none ord 4 s)

end Sys2Proof.Machine
end

