-- ==== Sys2Proof/Machine/Shapes.lean ====
section
/-! DEFINITION. Shape records: their fields, validity, and the elements and block tags they name (R140 to R143). -/

namespace Sys2Proof.Machine

abbrev Shape.base (r : Shape) : Nat := r.w0.toNat % 2 ^ 19
abbrev Shape.ty (r : Shape) : Nat := r.w0.toNat / 2 ^ 32 % 32
abbrev Shape.tagb (r : Shape) : Nat := r.w0.toNat / 2 ^ 40 % 2 ^ 19
/-- Extent of dimension `k`. -/
abbrev Shape.ext (r : Shape) (k : Nat) : Nat := r.w1.toNat / 2 ^ (16 * k) % 2 ^ 16
/-- Stride of dimension `k`, 1 to 3, signed. -/
def Shape.stride (r : Shape) (k : Nat) : Int := (r.w2.extractLsb' (20 * (k - 1)) 20).toInt

/-- Elements of a record. -/
abbrev Shape.size (r : Shape) : Nat := r.ext 0 * r.ext 1 * r.ext 2 * r.ext 3
abbrev Shape.isEmpty (r : Shape) : Bool := decide (r.size = 0)

/-- The RZ fields of R140. -/
def Shape.rz (r : Shape) : Bool :=
  decide (r.w0 &&& 0xF800_00E0_FFF8_0000 = 0) && decide (r.w2.toNat / 2 ^ 60 = 0) && decide (r.w3 = 0)

/-- Element size in bytes; 4-bit types count none. -/
abbrev elemBytes (t : Nat) : Nat := typeBits t / 8

/-- Bytes of one row. -/
abbrev Shape.rowBytes (r : Shape) : Nat := (r.ext 0 * typeBits r.ty + 7) / 8

/-- The part of a corner's offset that dimension `k` adds, at its low and high ends. -/
def Shape.reach (r : Shape) (k : Nat) (hi : Bool) : Int :=
  let d := ((r.ext k : Int) - 1) * r.stride k
  if hi then Max.max 0 d else Min.min 0 d

/-- Condition 7 of R143. -/
def Shape.inRange (r : Shape) : Bool :=
  r.isEmpty ||
    (let lo := (r.base : Int) + r.reach 1 false + r.reach 2 false + r.reach 3 false
     let hi := (r.base : Int) + r.reach 1 true + r.reach 2 true + r.reach 3 true + r.rowBytes
     decide (0 ≤ lo) && decide (hi ≤ 0x8_0000)
       && (!isBlock r.ty || decide (r.tagb + 2 * (r.size / 32) ≤ 0x8_0000)))

/-- The conditions of R143 in order: the cause of the first that fails. -/
def Shape.check (r : Shape) : Option Cause :=
  if !r.rz || !typeOk r.ty then some .ill
  else if !isBlock r.ty && decide (r.tagb ≠ 0) then some .ill
  else if typeBits r.ty = 4 ∧ r.ext 0 % 2 = 1 then some .ill
  else if isBlock r.ty && decide (r.ext 0 % 32 ≠ 0) then some .ill
  else if typeBits r.ty ≠ 4 ∧ (r.base % elemBytes r.ty ≠ 0 ∨ r.stride 1 % elemBytes r.ty ≠ 0
      ∨ r.stride 2 % elemBytes r.ty ≠ 0 ∨ r.stride 3 % elemBytes r.ty ≠ 0) then some .align
  else if isBlock r.ty && decide (r.tagb % 2 ≠ 0) then some .align
  else if !r.inRange then some .transl
  else none

abbrev Shape.valid (r : Shape) : Bool := r.check.isNone

/-- Indices of an element. -/
structure Index where
  i0 : Nat
  i1 : Nat
  i2 : Nat
  i3 : Nat
  deriving DecidableEq, Repr

/-- The indices of a linear index (R142). -/
def Shape.index (r : Shape) (l : Nat) : Index :=
  ⟨l % r.ext 0, l / r.ext 0 % r.ext 1, l / (r.ext 0 * r.ext 1) % r.ext 2, l / (r.ext 0 * r.ext 1 * r.ext 2)⟩

/-- The byte that holds an element (R142). -/
def Shape.byteOf (r : Shape) (i : Index) : Nat :=
  ((r.base : Int) + i.i1 * r.stride 1 + i.i2 * r.stride 2 + i.i3 * r.stride 3
    + (i.i0 * typeBits r.ty / 8 : Nat)).toNat

/-- The offset of an element's block tag (R142). -/
def Shape.tagOf (r : Shape) (i : Index) : Nat :=
  r.tagb + 2 * (i.i0 / 32 + r.ext 0 / 32 * (i.i1 + r.ext 1 * (i.i2 + r.ext 2 * i.i3)))

/-- The linear index of an element (R142). -/
def Shape.linear (r : Shape) (i : Index) : Nat := i.i0 + r.ext 0 * (i.i1 + r.ext 1 * (i.i2 + r.ext 2 * i.i3))

/-- An element's code. -/
def State.elem (s : State) (c : Nat) (r : Shape) (i : Index) : Nat :=
  let a := r.byteOf i
  if typeBits r.ty = 4 then s.readLoc c a 1 / 16 ^ (i.i0 % 2) % 16 else s.readLoc c a (elemBytes r.ty)

/-- The tag of an element's block; records of other types have none. -/
def State.tag (s : State) (c : Nat) (r : Shape) (i : Index) : BitVec 16 :=
  if isBlock r.ty then BitVec.ofNat 16 (s.readLoc c (r.tagOf i) 2) else 0

/-- Write an element's code. -/
def State.setElem (s : State) (c : Nat) (r : Shape) (i : Index) (v : Nat) : State :=
  let a := r.byteOf i
  if typeBits r.ty = 4 then
    let old := s.readLoc c a 1
    s.writeLoc c a 1 (if i.i0 % 2 = 0 then old / 16 * 16 + v % 16 else v % 16 * 16 + old % 16)
  else s.writeLoc c a (elemBytes r.ty) v

def State.setTag (s : State) (c : Nat) (r : Shape) (i : Index) (v : BitVec 16) : State := s.writeLoc c (r.tagOf i) 2 v.toNat

/-- The source index under broadcast: extent 1 reads index 0 (R149). -/
def Shape.bcast (r : Shape) (i : Index) : Index :=
  ⟨if r.ext 0 = 1 then 0 else i.i0, if r.ext 1 = 1 then 0 else i.i1, if r.ext 2 = 1 then 0 else i.i2,
    if r.ext 3 = 1 then 0 else i.i3⟩

/-- A source fits a destination under broadcast (R149). -/
def Shape.fits (a d : Shape) : Bool := (List.range 4).all fun k => a.ext k == d.ext k || a.ext k == 1
/-- Equal extents. -/
def Shape.same (a d : Shape) : Bool := decide (a.w1 = d.w1)

/-- A source element: its type, code and tag. -/
structure Elem where
  ty : Nat
  code : Nat
  tag : BitVec 16
  deriving DecidableEq, Repr

def State.source (s : State) (c : Nat) (r : Shape) (i : Index) : Elem :=
  { ty := r.ty, code := s.elem c r (r.bcast i), tag := s.tag c r (r.bcast i) }

abbrev Elem.num (e : Elem) : Num := decodeElem e.ty e.code e.tag
abbrev Elem.int (e : Elem) : Int := intOf e.ty e.code

/-- Run `f` on the linear indices from `l`, `k` of them, in ascending order. -/
def eachIndex (f : Nat → State → State) : Nat → Nat → State → State
  | 0, _, s => s
  | k + 1, l, s => eachIndex f k (l + 1) (f l s)

/-- A shape record of a local store (R140). -/
def State.record (s : State) (c off : Nat) : Shape :=
  ⟨word (s.readLoc c off 8), word (s.readLoc c (off + 8) 8), word (s.readLoc c (off + 16) 8), word (s.readLoc c (off + 24) 8)⟩

end Sys2Proof.Machine
end

