-- ==== Sys2Proof/Machine/Fetch.lean ====
section
/-! DEFINITION. Fetching the instruction at an address: translation, the roll, the fetch block, the instruction cache and
decoding (R21 to R24, R34, R222). -/

namespace Sys2Proof.Machine

/-- What a fetch finds. -/
inductive Fetched where
  | ok (i : Instr) (len : Nat) (w0 : BitVec 32)
  | bad (w0 : BitVec 32)
  | fault (c : FetchCause) (tval : Word)
  deriving DecidableEq, Repr

/-- Lines that the instruction cache of a core holds: 32 KiB (R222). -/
abbrev icacheLines : Nat := 256

/-- A full cache drops its line of the lowest address (DESIGN CHOICE, log 29). -/
def Core.fillCode (c : Core) (line : Nat) (v : Line) : Core :=
  { c with icache := mset none (if c.icache.length < icacheLines then c.icache else c.icache.drop 1) line (some v) }

/-- The bytes of a code line as a core fetches them: its cached copy, or the home slice's bytes, which it then holds unless
a counter is open there (R258); none where they hold a double-bit error (R249). -/
def State.codeLine (s : State) (c line : Nat) : Option Line × State :=
  match mget none (s.core c).icache line with
  | some v => (some v, s)
  | none =>
    let v := s.homeLine line
    let r := s.coreMeets c (line * 128) 128
    if r.1 then (none, r.2)
    else (some v, if s.counterOpen line then r.2 else r.2.onCore c fun x => x.fillCode line v)

/-- `k` bytes of a line from an offset. -/
def lineBytes (v : Line) (off : Nat) : Nat → List Byte
  | 0 => []
  | k + 1 => v.extractLsb' (8 * off) 8 :: lineBytes v (off + 1) k

/-- The bytes from `pa` to the end of its fetch block, or none for a machine check. Device registers are read as a load
reads them; a reduction window and an insecure port or link refuse (R344, R353); what the rest of the system region holds is
a free value. -/
def State.codeBytes (s : State) (c pa : Nat) : Option (List Byte) × State :=
  let k := 32 - pa % 32
  if inPackage pa then
    let r := s.codeLine c (pa / 128)
    (r.1.map fun v => lineBytes v (pa % 128) k, r.2)
  else if inDevice pa then
    (some ((List.range k).map fun i => (s.devRead (deviceDie pa) (deviceOff pa + i) 1).setWidth 8),
      let s := s.crossing (dieOf c) (deviceDie pa)
      if s.sdBusy pa then s.meet else s)
  else
    let r := s.windowLoad (dieOf c) pa
    if r.1 || s.insecurePath (dieOf c) pa then (none, r.2)
    else (some ((List.range k).map fun i => (Config.freeValue (s.free + i)).setWidth 8), { s with free := s.free + k })

/-- Decode the bytes of a fetch block from an offset in it. -/
def fetchDecode (pc : Word) (bs : List Byte) : Fetched :=
  let w0 := wordOfBytes bs
  let len := lenBytes w0
  if w0.extractLsb' 0 2 = 0 then (if w0 = padWord then .ok .pad 4 w0 else .bad w0)
  else if 32 < pc.toNat % 32 + len then .fault .straddle pc
  else match decode (bs.take len) with
    | .ok i => .ok i len w0
    | .error _ => .bad w0

/-- Fetch for thread `n` at `pc` (R34, steps 1 to 5). -/
def State.fetch (s : State) (n : Nat) (pc : Word) : Fetched × State :=
  if pc.toNat % 4 ≠ 0 then (.fault .align pc, s)
  else
    let r := s.translate n pc .fetch
    match r.1 with
    | .bad .deed _ => (.fault .deed pc, r.2)
    | .bad .mchk _ => (.fault .mchk pc, r.2)
    | .bad _ _ => (.fault .transf pc, r.2)
    | .ok pa _ =>
      let s := r.2
      if (inPackage pa && s.cut (dieOf (s.thr n).core) (homeDie pa))
        || (inDevice pa && s.cut (dieOf (s.thr n).core) (deviceDie pa)) then (.fault .mchk pc, s)
      else if inPackage pa && !s.granted (s.domainOf n) pa then (.fault .deed pc, s)
      else
        let b := s.codeBytes (s.thr n).core pa
        (match b.1 with | some bs => fetchDecode pc bs | none => .fault .mchk pc, b.2)

/-! ### TRET never holds the address of a PAD word (R24) -/

/-- The first address from `pc` on, within `k` words, where thread `n` would fetch no PAD, and what the fetch that says so
has met. -/
def State.pastPads (s : State) (n : Nat) (pc : Word) : Nat → Word × State
  | 0 => (pc, s)
  | k + 1 =>
    let r := s.fetch n pc
    if r.2.met then (pc, r.2)
    else match r.1 with
      | .ok .pad _ _ => s.pastPads n (pc + 4) k
      | _ => (pc, s)

/-- A trap that returns to the instruction at `pc`, whose TRET is the next one that is not PAD, over the whole address
space. Where the fetch that finds it must wait, so does the trap (log 77). -/
def State.softTrap (s : State) (n : Nat) (tval pc : Word) : State :=
  let r := s.pastPads n pc (2 ^ 62)
  if r.2.met then r.2 else s.trap n .soft tval r.1 false false

/-- TRAP (R312). -/
def execTrap (imm : BitVec 20) (s : State) : Result :=
  .next (s.softTrap s.cur (zext imm) (s.me.pc + 8))

/-- A debug breakpoint stands on the core of a thread: one of its die's compute cores (R355). -/
def State.broken (s : State) (c : Nat) : Bool :=
  decide (c < 1024) && (s.die (dieOf c)).debugOpen && (s.die (dieOf c)).dbgbrk.getLsbD (c % 256)

/-- BRK (R312): on a core whose debug breakpoints are open the thread stops before it (R355). -/
def execBrk (imm : BitVec 20) (s : State) : Result :=
  let n := s.cur
  if s.broken s.me.core then .next (s.park n .sleeping .debug)
  else .next (s.softTrap n (0x8000_0000_0000_0000 + zext imm) (s.me.pc + 8))

end Sys2Proof.Machine
end

