-- ==== Sys2Proof/Machine/Async.lean ====
section
/-! DEFINITION. What happens at an instruction boundary: readiness, asynchronous traps, timers, the stop at a PAD; clock
gating (chapters 6 and 14). -/

namespace Sys2Proof.Machine

/-! ### Readiness (R89, R92) -/

/-- The die on which a thread runs is halted by a relock; the steward core runs on (R336). -/
abbrev State.stopped (s : State) (n : Nat) : Bool :=
  decide ((s.thr n).core < 1024) && s.halted (dieOf (s.thr n).core)

/-- Past its re-issue distance in the core cycle to come. -/
def State.rested (s : State) (n : Nat) : Bool := decide ((s.thr n).readyAt ≤ (s.core (s.thr n).core).cycle + 1)

/-- THREAD_READY: what the thread awaited has come, or its re-issue distance has ended. -/
def threadReadyNow (n : Nat) (s : State) : State :=
  let s := s.settle n
  if (s.thr n).run = .ready && s.rested n && decide ((s.thr n).readyAt ≠ 0) then s.onThr n fun t => { t with readyAt := 0 }
  else s

/-- THREAD_READY (R92). -/
def execThreadReady (n : Nat) (s : State) : Result := .next (threadReadyNow n s)

/-! ### Asynchronous traps (R301, R302, R305) -/

/-- The word at the thread's PC is a PAD: TRET never holds its address (R24). -/
def State.atPad (s : State) (n : Nat) : Bool :=
  match (s.fetch n (s.thr n).pc).1 with
  | .ok .pad _ _ => true
  | _ => false

/-- The thread stands at a boundary: ready and not in the middle of an instruction that issues again, sleeping, or in
step 2 of a migration; not in transit. -/
def Thread.atBoundary (t : Thread) : Bool :=
  (decide (t.run = .ready) && t.snap.isNone) || decide (t.run = .sleeping)
    || (match t.wait with | .leaving _ _ => true | _ => false)

/-- The asynchronous trap that is taken first: MCHK, then DEEDLATE, then TIMER; only MCHK at a trap level (R301, R302). -/
def Thread.pending (t : Thread) : Option Cause :=
  if !t.mchk.isEmpty then some .mchk
  else if t.lvl ≠ 0 then none
  else if !t.late.isEmpty then some .deedlate
  else if t.timPend.isSome then some .timer
  else none

/-- The 16th DEEDLATE trap of a batch reports the count of those beyond, where there are any (R302; log 80). -/
def Thread.lateVal (t : Thread) : Word :=
  match t.late with
  | v :: _ => if t.lateMore ≠ 0 ∧ t.lateTaken = 15 then word (2 ^ 63 + t.lateMore) else v
  | [] => 0

/-- The TVAL of a pending trap, and the thread without it. -/
def Thread.takePending (t : Thread) (c : Cause) : Word × Thread :=
  match c with
  | .mchk => (t.mchk.headD 0, { t with mchk := t.mchk.drop 1 })
  | .deedlate => (t.lateVal, { t with
      late := t.late.drop 1
      lateTaken := t.lateTaken + 1
      lateMore := if t.lateTaken = 15 then 0 else t.lateMore })
  | _ => (t.timPend.getD 0, { t with timPend := none })

/-- The asynchronous trap that thread `n` may take now: not at a PAD, and not where the fetch that would show one must
wait, which its issue finds. -/
def State.asyncDue (s : State) (n : Nat) : Option Cause :=
  let t := s.thr n
  if t.run = .free ∨ !t.atBoundary ∨ s.stopped n then none
  else match t.pending with
    | some c => if t.run = .ready && (s.atPad n || (s.fetch n t.pc).2.met) then none else some c
    | none => none

/-- Take it: TRET is the next instruction, or the sleeping one. The entry of a handler is a boundary too: a second MCHK
pending is taken before the handler's first instruction (DEDUCED, log 94). -/
def asyncNow (n : Nat) (s : State) : State :=
  match s.asyncDue n with
  | none => s
  | some c =>
    let r := (s.thr n).takePending c
    (s.setThr n r.2).trap n c r.1 r.2.pc true false

/-- ASYNC_TRAP_TAKE (R107, R245, R301, R302, R305). -/
def execAsyncTrapTake (n : Nat) (s : State) : Result := .next (asyncNow n s)

/-- The timer of a thread is due (R107). A context saved or ended has none. -/
def State.timerDue (s : State) (n : Nat) : Bool :=
  let t := s.thr n
  !decide (t.run = .free) && !s.stopped n && t.tmr != 0 && decide (t.tmr.toNat ≤ s.reft)

/-- TIMER: it becomes due with TVAL TMR, and TMR is 0. One that falls due while an earlier TIMER is still held takes its
place: the context holds one TVAL (DESIGN CHOICE, log 81). -/
def timerNow (n : Nat) (s : State) : State :=
  if s.timerDue n then s.onThr n fun t => { t with timPend := some t.tmr, tmr := 0 } else s

/-- TIMER (R107). -/
def execTimer (n : Nat) (s : State) : Result := .next (timerNow n s)

/-! ### The rotation (R91) -/

/-- The thread of a slot that is ready and past its re-issue distance. -/
def State.ready (s : State) (c k : Nat) : Option Nat :=
  match s.occupant c k with
  | some n => if (s.thr n).run = .ready ∧ s.rested n then some n else none
  | none => none

/-- In the core cycle to come the porter has an arrival to execute, 8 core cycles or more after its last issue (R91, R94). -/
def State.porterReady (s : State) (c : Nat) : Bool :=
  !(s.core c).porter.isEmpty && decide ((s.core c).portAt ≤ (s.core c).cycle + 1)

/-- The first eligible context after the one that issued last: 0 to 15, or 16 for the porter. -/
def State.pick (s : State) (c : Nat) : Option Nat :=
  ((List.range 17).map fun j => ((s.core c).last + 1 + j) % 17).find? fun k =>
    if k = 16 then s.porterReady c else (s.ready c k).isSome

/-! ### Clock gating (R99) -/

/-- A core has no ready or waiting slot and no engine work. -/
def State.quiet (s : State) (c : Nat) : Bool :=
  let x := s.core c
  x.porter.isEmpty && x.seq.isEmpty && x.mill.isEmpty && x.copy.isEmpty
    && (List.range 16).all fun k => match s.occupant c k with
      | some n => decide ((s.thr n).run = .sleeping)
      | none => true

/-- Something would make a context of the core eligible: a ready slot, a porter arrival, a trap to take. -/
def State.stirs (s : State) (c : Nat) : Bool :=
  !(s.core c).porter.isEmpty || (List.range 16).any fun k => match s.occupant c k with
    | some n => decide ((s.thr n).run = .ready) || (s.asyncDue n).isSome
    | none => false

/-- CORE_GATE (R99): after 16 consecutive idle core cycles. -/
def execCoreGate (c : Nat) (s : State) : Result :=
  .next (if !(s.core c).gated && decide (16 ≤ (s.core c).idle) && s.quiet c
    then s.onCore c fun x => { x with gated := true, idle := 0 } else s)

/-- CORE_UNGATE (R99): 6 core cycles after the event. -/
def execCoreUngate (c : Nat) (s : State) : Result :=
  .next (if (s.core c).gated && s.stirs c && decide (6 ≤ (s.core c).idle)
    then s.onCore c fun x => { x with gated := false, idle := 0 } else s)

/-- The cycles that a core has run in the present tick. -/
abbrev Core.spent (x : Core) : Nat := x.cycle - x.base

/-- The core cycles of a REFT tick: FCUR in units of 50 MHz, none in a relock; the steward's clock is 1 GHz (R19, R336). -/
def State.tickCycles (s : State) (c : Nat) : Nat :=
  let x := s.die (dieOf c)
  if 1024 ≤ c then 10 else if x.relock.isSome then 0 else (x.fcur + (if x.half then 1 else 0)) / 2

/-- A core that does not move now: its die is lost or relocks, or it has run the cycles of the present tick (R19, R20, R248,
R336). -/
def State.resting (s : State) (c : Nat) : Bool :=
  decide (1028 ≤ c) || s.dead (dieOf c) || (decide (c < 1024) && s.halted (dieOf c))
    || decide (s.tickCycles c ≤ (s.core c).spent)

/-- Thread `n` issues nothing before the next REFT tick of its core. -/
def State.untilTick (s : State) (n : Nat) : State :=
  let c := (s.thr n).core
  s.onThr n fun t => { t with readyAt := (s.core c).base + s.tickCycles c + 1 }

/-- SLHASH takes the writes of a core whose write-back cycle is past (R116). -/
def State.commitHash (s : State) (c : Nat) : State :=
  let d := dieOf c
  if (s.die d).slPend.isEmpty then s
  else
    let now := (s.core c).cycle
    s.onDie d fun x => { x with
      slhash := latest now ((x.slPend.filter (·.1 = c)).map (·.2)) x.slhash
      slPend := x.slPend.filter fun p => decide (p.1 ≠ c) || decide (now ≤ p.2.1) }

/-- `k` core cycles pass: commons writes that are due commit, and the count toward gating or ungating goes on (R99). -/
def State.passCycles (s : State) (c k : Nat) : State :=
  let s := (s.onCore c fun x => ({ x with cycle := x.cycle + k }).commit).commitHash c
  let go := if (s.core c).gated then s.stirs c else s.quiet c
  s.onCore c fun x => { x with idle := if go then x.idle + k else 0 }

/-- One core cycle passes. -/
def State.cycleCore (s : State) (c : Nat) : State := s.passCycles c 1

end Sys2Proof.Machine
end

