-- ==== Sys2Proof/Machine/Deeds.lean ====
section
/-! DEFINITION. The Deed Roll's transactions, expiry, notices, generations and shootdown; the DEED instructions and the
deed port (chapter 15). -/

namespace Sys2Proof.Machine

/-! ### Notices (R330) -/

/-- An event for the host kernel: into the ring, or held in order. -/
def State.hostEvent (s : State) (d : Nat) (e : DeedEvent) : State :=
  if s.ringShut d || !(s.die d).events.isEmpty then s.onDie d fun x => { x with events := x.events ++ [e] }
  else s.ringWrite d e

/-- A discarded host write (R328, R330): it joins a held LATE event of its frame, or starts one. -/
def State.hostLate (s : State) (pa : Nat) : State :=
  let d := homeDie pa
  let w0 := word (pa / 4096 * 4096 + 8)
  let s := s.onDie d fun x => { x with hostlate := x.hostlate + 1 }
  if (s.die d).events.any fun e => e.w0 = w0 then
    s.onDie d fun x => { x with events := x.events.map fun e => if e.w0 = w0 then { e with w1 := e.w1 + 1 } else e }
  else s.hostEvent d { w0 := w0, w1 := 1 }

/-- A notice of a frame to a domain's kernel (R330): codes 1 to 7; `w1` is T_d for RECALLED, else REFT. -/
def State.deedNotice (s : State) (dom : Domain) (frame code w1 : Nat) : State :=
  let d := homeDie (frame * 4096)
  let p := word (frame * 4096 + code)
  match dom with
  | .acc =>
    let k := (s.die d).dppost
    if k.getLsbD 15 then s.send (.unit d) (.box (k.toNat % 16384)) (.post none (k.toNat % 16384) p) else s
  | .host => s.hostEvent d { w0 := p, w1 := word w1 }
  | _ => s

/-! ### Generations and grants -/

/-- A TLB entry that covers a frame. -/
def TlbEntry.covers (e : TlbEntry) (frame : Nat) : Bool :=
  decide (e.ppn ≤ frame) && decide (frame < e.ppn + 2 ^ (9 * e.level))

/-- Whether an SDCMD command names a TLB entry. -/
def sdNames (v : Word) (e : TlbEntry) : Bool :=
  let op := v.toNat / 2 ^ 61
  let asid := v.toNat / 2 ^ 45 % 2 ^ 16
  let vpn := v.toNat % 2 ^ 45
  let page := decide (vpn / 2 ^ (9 * e.level) = e.vpn)
  if op = 0 then true
  else if op = 1 then decide (e.asid = asid)
  else if op = 2 then decide (e.asid = asid) && page && !e.glob
  else if op = 3 then page
  else if op = 4 then decide (e.pasid.toNat = vpn % 2 ^ 20)
  else false

/-- The commands of die `d` that name an entry it holds: the accesses that used the entry are those sent by now (R324). -/
def State.sdStamp (s : State) (d : Nat) : State :=
  if (s.die d).sdq.isEmpty then s
  else
    let has := fun (v : Word) => (s.die d).tlb.any (sdNames v) || s.cores.any fun (p : Nat × Option Core) =>
      decide (dieOf p.1 = d) && (match p.2 with | some c => c.tlb.any (sdNames v) | none => false)
    s.onDie d fun x => { x with sdq := x.sdq.map fun v => if has v.1 then (v.1, s.nextId) else v }

/-- Every L1 and last-level TLB entry of all dies that covers a frame goes (R323). -/
def State.shootFrame (s : State) (frame : Nat) : State :=
  let s := (List.range 4).foldl State.sdStamp s
  { s with
    cores := s.cores.map fun (p : Nat × Option Core) => (p.1, p.2.map fun (c : Core) => { c with tlb := c.tlb.filter fun e => !e.covers frame })
    dies := s.dies.map fun (p : Nat × Option Die) => (p.1, p.2.map fun (x : Die) => { x with tlb := x.tlb.filter fun e => !e.covers frame }) }

/-- Bump a frame's generation and its spans' (R322). -/
def State.bump (s : State) (frame : Nat) : State :=
  let e := s.deed frame
  let s := s.setDeed frame { e with gen := e.gen + 1 }
  { s with span2m := mset 0 s.span2m (frame / 512) (mget 0 s.span2m (frame / 512) + 1)
           span1g := mset 0 s.span1g (frame / 2 ^ 18) (mget 0 s.span1g (frame / 2 ^ 18) + 1) }

/-- The cores whose L1 may hold a line: those its entry records, and those that hold it untracked. -/
def State.copyHolders (s : State) (line : Nat) : List Nat :=
  let x := s.dirOf line
  let known := if x.form = .x then s.holders line else sharers (homeDie (line * 128)) x.form
  known ++ s.cores.filterMap fun p => match p.2 with
    | some c => match mget none c.l1 line with
      | some l => if (l.st = .c ∨ l.st = .m) ∧ !known.contains p.1 then some p.1 else none
      | none => none
    | none => none

/-- The invalidations at the instant of a lost grant: L1 copies where the accelerator lost it, agent copies where the
host did; each line stays busy until they are answered (R328, R374). -/
def State.loseGrant (s : State) (frame : Nat) (acc host : Bool) : State :=
  if !acc && !host then s
  else (List.range 32).foldl (fun s i =>
    let line := frame * 32 + i
    let x := s.dirOf line
    let cores := if acc then s.copyHolders line else []
    let agents := if host then x.agents else []
    let x := { x with agents := if host then [] else x.agents, form := if acc then (match x.form with | .n => .n | _ => .p []) else x.form }
    (s.setDir line x.settle).transact line
      (cores.map (fun c => ((Node.core c, fun id => Body.inval c line id) : Node × (Nat → Body)))
        ++ agents.map fun a => ((Node.outside a, fun id => Body.agentInval a line id) : Node × (Nat → Body))) .nothing) s

/-- The copies that a change of a frame's entry takes from the domains that had its grant `before`. -/
def State.loseBefore (s : State) (frame : Nat) (before : Deed) : State :=
  let after := s.deed frame
  s.loseGrant frame (before.grants .acc && !after.grants .acc) (before.grants .host && !after.grants .host)

/-- The end of a tick in which an OFFER or a RETURN took a domain's grant, unless the tick has restored it: the copies go. -/
def State.loseCopies (s : State) (frame : Nat) (dom : Domain) : State :=
  if (s.deed frame).grants dom then s else s.loseGrant frame (dom == .acc) (dom == .host)

/-- The counterpart kernel. -/
def counterpart : Domain → Domain
  | .host => .acc | .acc => .host | d => d

/-- Expiry (R329): at T_d the frame is its owner's again. The late count that rises is that of the frame's home die (DESIGN
CHOICE, log 100). -/
def State.expire (s : State) (frame : Nat) : State :=
  let e := s.deed frame
  if e.state = 3 ∧ e.due ≤ s.reft then
    -- An open counter in the frame is closed at the deadline (R258).
    let s := (List.range 32).foldl (fun s i => s.closeCounter (frame * 32 + i)) s
    let s := s.setDeed frame { e with state := 0, exp := true, dclass := 0, due := 0 }
    let s := (s.loseBefore frame e).bump frame
    let d := homeDie (frame * 4096)
    let s := s.onDie d fun x => if e.cpart = .host then { x with rollLateHost := x.rollLateHost + 1 }
      else { x with rollLateAcc := x.rollLateAcc + 1 }
    let s := (s.deedNotice e.owner frame 7 s.reft).deedNotice e.cpart frame 7 s.reft
    if s.prompt then s.shootFrame frame else s.send (.unit d) (.unit d) (.genShoot frame none)
  else s

/-- A successful transaction clears EXP and the kept CPART (R327). -/
def Deed.clean (e : Deed) : Deed := if e.exp then { e with exp := false, cpart := if e.state = 0 then .free else e.cpart } else e

/-- A roll transaction (R327): the status (or QUERY's entry), whether a generation was bumped, and the state. A RETURN leaves
DCLASS 0 (DESIGN CHOICE, log 99). -/
def State.rollApply (s : State) (op : RollOp) (frame : Nat) (me : Domain) : Word × Bool × State :=
  let s := s.expire frame
  let e := s.deed frame
  let kernel := me == .host || me == .acc
  let own := kernel && e.owner == me
  let other := kernel && e.cpart == me
  match op with
  | .query =>
    (if own || other || me == .stew then e.word else e.word &&& 0xC000_0000_0000_0000, false, s)
  | .offer =>
    if e.state = 0 ∧ own then
      let s := { s.setDeed frame { e.clean with state := 1, cpart := counterpart me } with losing := s.losing ++ [(frame, me)] }
      (1, true, (s.bump frame).deedNotice (counterpart me) frame 1 s.reft)
    else (0, false, s)
  | .accept =>
    if e.state = 1 ∧ other then
      (1, false, (s.setDeed frame { e.clean with state := 0, owner := me, cpart := .free }).deedNotice e.owner frame 2 s.reft)
    else (0, false, s)
  | .lend k =>
    if e.state = 0 ∧ own then
      (1, false, (s.setDeed frame { e.clean with state := 2, cpart := counterpart me, dclass := k }).deedNotice
        (counterpart me) frame 4 s.reft)
    else (0, false, s)
  | .recall =>
    if e.state = 1 ∧ own then
      (1, false, (s.setDeed frame { e.clean with state := 0, cpart := .free }).deedNotice e.cpart frame 3 s.reft)
    else if e.state = 2 ∧ own then
      let due := s.reft + 1600 * 2 ^ e.dclass
      (1, false, (s.setDeed frame { e.clean with state := 3, due := due }).deedNotice e.cpart frame 5 due)
    else (0, false, s)
  | .return =>
    if (e.state = 2 ∨ e.state = 3) ∧ other then
      let s := { s.setDeed frame { e.clean with state := 0, cpart := .free, dclass := 0, due := 0 } with
        losing := s.losing ++ [(frame, me)] }
      (1, true, (s.bump frame).deedNotice e.owner frame 6 s.reft)
    else if e.state = 0 ∧ e.exp ∧ other then (3, false, s)
    else (0, false, s)

/-- The node that a frame's roll transactions go to: the home slice of the entry's line (R326, R327). -/
def State.rollNode (s : State) (frame : Nat) : Node := s.homeNode (s.entryAddr frame)

/-- Serve a thread's roll transaction: OFFER and RETURN are answered after the shootdown (R332). -/
def rollServe (id : Nat) (s : State) : State :=
  match s.due id with
  | some ⟨_, _, _, _, .roll n op frame me⟩ =>
    let r := (s.drop id).rollApply op frame me
    let s := r.2.2
    if r.2.1 then
      if s.prompt then (s.shootFrame frame).complete n r.1
      else s.send (s.rollNode frame) (.unit (homeDie (frame * 4096))) (.genShoot frame (some (n, r.1)))
    else s.complete n r.1
  | _ => s

/-- Whether an address names a frame of the roll (R326, R332). -/
def State.rollFrame (s : State) (f : Nat) : Bool := inPackage f && s.populated f

/-- The shared operation of the DEED instructions (R332). -/
def deedOp (i : Instr) (op : RollOp) (d a : Reg) (s : State) : State :=
  let n := s.cur
  let f := s.reg n a
  let stew := decide (s.me.priv = .steward)
  let me : Domain := if stew then .stew else .acc
  s.check n (orElse' (privCheck s i) (failIf (decide (f.toNat % 4096 ≠ 0)) .align f))
    (if !s.rollFrame f.toNat then s.write n d 2 replyDelay 8
    else s.afterStores n
      (if s.cut (dieOf s.me.core) (homeDie f.toNat) then s.write n d 4 replyDelay 8
      else if stew && op != .query then s.write n d 0 replyDelay 8
      else s.askNow n (s.rollNode (f.toNat / 4096)) [] (.roll n op (f.toNat / 4096) me)
        { d := some d, len := 8, size := 8, sign := false, va := f } rollServe))

/-- DEED.OFFER (R332). -/
def execDeedOffer (d a : Reg) (s : State) : Result := .next (deedOp (.deedOffer d a) .offer d a s)
/-- DEED.ACCEPT (R332). -/
def execDeedAccept (d a : Reg) (s : State) : Result := .next (deedOp (.deedAccept d a) .accept d a s)
/-- DEED.LEND (R332). -/
def execDeedLend (d a : Reg) (k : BitVec 3) (s : State) : Result := .next (deedOp (.deedLend d a k) (.lend k.toNat) d a s)
/-- DEED.RECALL (R332). -/
def execDeedRecall (d a : Reg) (s : State) : Result := .next (deedOp (.deedRecall d a) .recall d a s)
/-- DEED.RETURN (R332). -/
def execDeedReturn (d a : Reg) (s : State) : Result := .next (deedOp (.deedReturn d a) .return d a s)
/-- DEED.QUERY (R332). -/
def execDeedQuery (d a : Reg) (s : State) : Result := .next (deedOp (.deedQuery d a) .query d a s)

/-- A roll event serves only the transaction it names. -/
def rollEvent (p : RollOp → Bool) (id : Nat) (s : State) : State :=
  match s.msg id with
  | some ⟨_, _, _, _, .roll _ op _ _⟩ => if p op then rollServe id s else s
  | _ => s

/-- ROLL_OFFER (R327). -/
def execRollOffer (id : Nat) (s : State) : Result := .next (rollEvent (· == .offer) id s)
/-- ROLL_ACCEPT (R327). -/
def execRollAccept (id : Nat) (s : State) : Result := .next (rollEvent (· == .accept) id s)
/-- ROLL_LEND (R327). -/
def execRollLend (id : Nat) (s : State) : Result :=
  .next (rollEvent (fun o => match o with | .lend _ => true | _ => false) id s)
/-- ROLL_RECALL (R327). -/
def execRollRecall (id : Nat) (s : State) : Result := .next (rollEvent (· == .recall) id s)
/-- ROLL_RETURN (R327). -/
def execRollReturn (id : Nat) (s : State) : Result := .next (rollEvent (· == .return) id s)
/-- ROLL_QUERY (R327). -/
def execRollQuery (id : Nat) (s : State) : Result := .next (rollEvent (· == .query) id s)
/-- DEED_EXPIRY (R329). -/
def execDeedExpiry (frame : Nat) (s : State) : Result := .next (s.expire frame)

/-- GEN_SHOOTDOWN_DONE (R323): the covering entries are gone; an OFFER or RETURN that waited for it is answered. -/
def execGenShootdownDone (id : Nat) (s : State) : Result :=
  match s.due id with
  | some ⟨_, _, _, _, .genShoot frame reply⟩ =>
    let s := (s.drop id).shootFrame frame
    .next (match reply with | some (n, v) => s.complete n v | none => s)
  | _ => .next s

/-! ### The deed port (R331) -/

/-- A completion of the host domain: two words at CPL × 16, or dropped and counted in REJECT. -/
def State.dpComplete (s : State) (d tag cpl : Nat) (status w1 : Word) : State :=
  let a := cpl * 16
  if inSystem a || (inPackage a && s.populated a && s.granted .host a) then
    s.writePair .host a (word (tag % 2 ^ 32 * 2 ^ 32) + status) w1
  else s.onDie d fun x => { x with reject := x.reject + 1 }

/-- The way from die `d` to a frame's roll slice (R326, R331): a command goes over it, or meets a closed way or a die that
relocks (R246, R336). -/
def State.viaRoll (s : State) (d frame : Nat) (go : State → State) : State :=
  let e := homeDie (s.entryAddr frame)
  if s.linksOpen d e then go (s.carry d e) else s.meetLinks d e

/-- A deed-port command of die `d`: the transaction, its shootdown, its completion. -/
def dpCommand (op : RollOp) (d tag frame cpl : Nat) (s : State) : State :=
  if !s.rollFrame (frame * 4096) then s.dpComplete d tag cpl 2 0
  else if s.cut d (homeDie (frame * 4096)) then s.dpComplete d tag cpl 4 0
  else s.viaRoll d frame fun s =>
    let r := s.rollApply op frame .host
    let s := if r.2.1 then r.2.2.shootFrame frame else r.2.2
    match op with
    -- The port answers the entry whoever the host is to it (R331).
    | .query => s.dpComplete d tag cpl 1 (s.deed frame).word
    | _ => s.dpComplete d tag cpl r.1 0

/-- A store of 64 bytes, at most, to DPCMD: the command that its words hold, where R331 lets it through; every other store
longer than a register's is counted in REJECT. -/
def State.dpStore (s : State) (dom : Domain) (d off size v : Nat) : State :=
  let w := fun (i : Nat) => v / 2 ^ (64 * i) % 2 ^ 64
  let op := w 0 % 8
  let ok := decide (off = 0x5_0000) && decide (size = 64) && dom == .host && decide (op ≤ 5)
    && decide (w 0 / 2 ^ 11 % 2 ^ 21 = 0) && decide (w 0 / 8 % 32 = 0)
    && decide (w 1 / 2 ^ 48 = 0) && decide (w 1 % 4096 = 0) && decide (w 2 % 16 = 0) && decide (v / 2 ^ 192 % 2 ^ 320 = 0)
  let t : RollOp := if op = 0 then .offer else if op = 1 then .accept else if op = 2 then .lend (w 0 / 256 % 8)
    else if op = 3 then .recall else if op = 4 then .return else .query
  if ok then dpCommand t d (w 0 / 2 ^ 32) (w 1 / 4096) (w 2 / 16) s
  else s.onDie d fun x => { x with reject := x.reject + 1 }

/-- A store from outside to device registers of a die by a requester of a domain: one that lies within a register's 8 bytes,
or a command at the deed port (R331); a longer one elsewhere writes nothing (log 25). -/
def State.regStore (s : State) (src : Node) (dom : Domain) (d off size v : Nat) : State :=
  if off % 8 + size ≤ 8 then s.devWrite src dom d off size (word (v % 2 ^ 64))
  else if 0x5_0000 ≤ off ∧ off < 0x6_0000 then s.dpStore dom d off size v
  else s

/-- DPCMD_OFFER (R331). -/
def execDpcmdOffer (d tag frame cpl : Nat) (s : State) : Result := .next (dpCommand .offer d tag frame cpl s)
/-- DPCMD_ACCEPT (R331). -/
def execDpcmdAccept (d tag frame cpl : Nat) (s : State) : Result := .next (dpCommand .accept d tag frame cpl s)
/-- DPCMD_LEND (R331). -/
def execDpcmdLend (d tag frame cpl k : Nat) (s : State) : Result := .next (dpCommand (.lend (k % 8)) d tag frame cpl s)
/-- DPCMD_RECALL (R331). -/
def execDpcmdRecall (d tag frame cpl : Nat) (s : State) : Result := .next (dpCommand .recall d tag frame cpl s)
/-- DPCMD_RETURN (R331). -/
def execDpcmdReturn (d tag frame cpl : Nat) (s : State) : Result := .next (dpCommand .return d tag frame cpl s)
/-- DPCMD_QUERY (R331). -/
def execDpcmdQuery (d tag frame cpl : Nat) (s : State) : Result := .next (dpCommand .query d tag frame cpl s)

/-- DPEVTAIL_WRITE (R330, R331): the host has consumed entries, so held events enter the ring. -/
def execDpevtailWrite (d tail : Nat) (s : State) : Result :=
  .next (s.setDptail d tail)

/-! ### Shootdown (R324) -/

/-- Drop the entries of die `d` that a command names. -/
def State.sdApply (s : State) (d : Nat) (v : Word) : State :=
  let s := { s with cores := s.cores.map fun (p : Nat × Option Core) =>
    (p.1, p.2.map fun (c : Core) => if dieOf p.1 = d then { c with tlb := c.tlb.filter fun e => !sdNames v e } else c) }
  s.onDie d fun x => { x with tlb := x.tlb.filter fun e => !sdNames v e }

/-- Requests that a translation led to. -/
def Body.access : Body → Bool
  | .store _ _ _ _ | .push _ _ _ _ _ | .read _ _ _ _ | .atomic _ _ _ | .alt _ _ _ _ => true
  | .system _ _ _ load _ _ _ posted => !(load && posted)
  | _ => false

/-- A message is an access that a core of die `d` sent before the identifier `at'` and whose target has not accepted it. -/
def State.accessOpen (s : State) (d at' : Nat) (m : Msg) : Bool :=
  decide (m.id < at') && m.body.access && (match m.src with
    | .core c => decide (dieOf c = d) && (match m.body with
      | .system _ _ _ false _ _ _ true => !s.unheld m
      | _ => true)
    | _ => false)

/-- A transaction at a home holds a request of a core of die `d`: one that a discovery or a census keeps. -/
def State.txnOpen (s : State) (d at' : Nat) (t : Txn) : Bool :=
  match t.done with
  | .again m => s.accessOpen d at' m
  | .census _ c _ _ => decide (dieOf c = d)
  | _ => false

/-- Every access that a core of die `d` sent before the identifier `at'` has been performed at its home slice or accepted
by its system target. -/
def State.accessesDone (s : State) (d at' : Nat) : Bool :=
  (s.msgs.all fun m => !s.accessOpen d at' m)
    && (s.txns.all fun t => !s.txnOpen d at' t)
    && s.threads.all fun p => match p.2 with
      | some t => decide (dieOf t.core ≠ d) || t.unacked.all fun u => decide (at' ≤ u.id)
      | none => true

/-- SHOOTDOWN_COMPLETE (R324): the entries that the oldest command of die `d` names go; it completes, in order of acceptance,
once the accesses that used such an entry are performed: those before its acceptance, or before an entry went. -/
def execShootdownComplete (d : Nat) (s : State) : Result :=
  let s := s.sdStamp d
  match (s.die d).sdq with
  | [] => .next s
  | v :: rest =>
    let s' := s.sdApply d v.1
    .next (if s.accessesDone d v.2
      then (s'.onDie d fun x => { x with sdq := rest, sdDone := x.sdDone + 1 }).unhold else s')

/-- A store to SDCMD queues a command. -/
def sdCommand (d op asid vpn : Nat) (s : State) : State :=
  s.devSet .host d 0x7_0000 (word (op * 2 ^ 61 + asid % 2 ^ 16 * 2 ^ 45 + vpn % 2 ^ 45)) 0xFFFF_FFFF_FFFF_FFFF

/-- SDCMD_ALL (R324). -/
def execSdcmdAll (d : Nat) (s : State) : Result := .next (sdCommand d 0 0 0 s)
/-- SDCMD_ASID (R324). -/
def execSdcmdAsid (d asid : Nat) (s : State) : Result := .next (sdCommand d 1 asid 0 s)
/-- SDCMD_PAGE_ASID (R324). -/
def execSdcmdPageAsid (d asid vpn : Nat) (s : State) : Result := .next (sdCommand d 2 asid vpn s)
/-- SDCMD_PAGE (R324). -/
def execSdcmdPage (d vpn : Nat) (s : State) : Result := .next (sdCommand d 3 0 vpn s)
/-- SDCMD_PASID (R324). -/
def execSdcmdPasid (d pasid : Nat) (s : State) : Result := .next (sdCommand d 4 0 (pasid % 2 ^ 20) s)
/-- SDCMD_READ (R324): a load from outside is answered once every command accepted before it is complete. -/
def execSdcmdRead (d : Nat) (s : State) : Result :=
  if (s.die d).sdq.isEmpty then .next (s.answers (some ((s.devReg d 0x7_0000).setWidth 1024))) else .next s

end Sys2Proof.Machine
end

