-- ==== Sys2Proof/Machine/Lines.lean ====
section
/-! DEFINITION. Events of homes, of the L1 data caches and of agents; the wakes and re-reads of WAITA; migration;
regions; porters and reservation hits (chapters 6, 8, 11 and 13). -/

namespace Sys2Proof.Machine

/-! ### Home slices (R229, R235) -/

/-- HOME_STORE (R229, R252). -/
def execHomeStore (id : Nat) (s : State) : Result := .next (serveStore id s)
/-- HOME_FILL (R229); `evict` names a line that leaves the L2 for it (R232). -/
def execHomeFill (id : Nat) (evict : Option Nat) (err : Bool) (s : State) : Result := .next (serveRead evict err id s)
/-- HOME_ATOMIC (R229, R291, R293, R296). -/
def execHomeAtomic (id : Nat) (err late : Bool) (s : State) : Result := .next (serveAtomic err late id s)
/-- HOME_PUSH (R235, R253). -/
def execHomePush (id : Nat) (s : State) : Result := .next (servePush id s)

/-- STORE_ACK (R252): the store leaves the thread's window; what awaited it goes on. -/
def ackServe (id : Nat) (s : State) : State :=
  match s.due id with
  | some ⟨_, _, _, _, .ack n op⟩ =>
    let s := (s.drop id).onThr n fun t => { t with unacked := t.unacked.filter fun u => u.id != op }
    let s := if (s.thr n).wait = Wait.window then s.again n else s
    s.settle n
  | _ => s

/-- STORE_ACK (R252). -/
def execStoreAck (id : Nat) (s : State) : Result := .next (ackServe id s)

/-! ### L1 data caches (R228) -/

/-- An update: bytes applied in V and D, and the watchers of those bytes wake (R100); "not held" drops the sharer. -/
def updateServe (id : Nat) (s : State) : State :=
  match s.due id with
  | some ⟨_, _, _, _, .update c pa size v txn⟩ =>
    let s := s.drop id
    let line := pa / 128
    match s.l1 c line with
    | some l =>
      if l.st = .v ∨ l.st = .d then
        let ws := s.watchers c line pa size
        let s := s.setL1 c line (some { l with data := lineSet l.data (pa % 128) size v.toNat })
        (ws.foldl (fun s n => s.wakeWatcher n line) s).replied txn
      else (s.dropSharer line c).replied txn
    | none => (s.dropSharer line c).replied txn
  | _ => s

/-- L1_UPDATE (R228). -/
def execL1Update (id : Nat) (s : State) : Result := .next (updateServe id s)

/-- The domain whose push a transaction serves: a D copy that it places is that domain's (R317, R328). -/
def State.offerDom (s : State) (txn : Nat) : Domain :=
  match s.txns.find? fun t => t.id = txn with
  | some t => match t.done with
    | .ack n op => s.storeDom n op
    | _ => .acc
  | none => .acc

/-- A push offer (R235): accepted where the line is held, or where a way and the D count allow; else refused, and counted.
One that arrives after the instant at which its domain has lost the grant, or in a region that switches or has switched,
places nothing (R240, R328, R374): it is refused, and no core counts it, for only the third row counts (DEDUCED, log 102). -/
def offerServe (id : Nat) (s : State) : State :=
  match s.due id with
  | some ⟨_, _, _, _, .offer c line txn⟩ =>
    let ok := s.granted (s.offerDom txn) (line * 128) && s.mayHold line .d
    let s := s.drop id
    let data := s.homeLine line
    let yes := fun (s : State) =>
      (((s.onCore c fun x => { x with pushIn := x.pushIn + 1 }).dirRoom line).addSharer line c).replied txn
    let no := (s.onCore c fun x => { x with pushRef := x.pushRef + 1 }).replied txn
    if !ok then s.replied txn
    else match s.l1 c line with
    | some l => if l.st = .v ∨ l.st = .d then yes (s.setL1 c line (some { l with data := data })) else no
    | none =>
      if 64 ≤ (s.core c).dCount then no
      else match (s.core c).way line true with
        | none => no
        | some v =>
          let s := match v with
            | some k => s.setL1 c k none
            | none => s
          yes (s.onCore c fun x =>
            { x with l1 := mset none x.l1 line (some { st := .d, data := data, stamp := x.l1clock })
                     l1clock := x.l1clock + 1 })
  | _ => s

/-- L1_PUSH_OFFER (R228, R235, R236). -/
def execL1PushOffer (id : Nat) (s : State) : Result := .next (offerServe id s)

/-- L1_INVALIDATION (R228): the copy goes, its watchers wake, the home hears. -/
def invalServe (id : Nat) (s : State) : State :=
  match s.due id with
  | some ⟨_, _, _, _, .inval c line txn⟩ => ((s.drop id).invalidate c line).replied txn
  | _ => s

/-- L1_INVALIDATION (R228). -/
def execL1Invalidation (id : Nat) (s : State) : Result := .next (invalServe id s)

/-- A probe (R230): a core that holds the line in V or D says so; with the last reply the entry is rebuilt and the
request proceeds. -/
def probeServe (id : Nat) (s : State) : State :=
  match s.due id with
  | some ⟨_, _, _, _, .probe c line txn⟩ =>
    let s := s.drop id
    let held : Bool := match s.l1 c line with | some l => decide (l.st = .v ∨ l.st = .d) | none => false
    let s := if held then { s with txns := s.txns.map fun (t : Txn) =>
      if t.id = txn then { t with found := t.found ++ [c] } else t } else s
    match s.txns.find? fun t => t.id = txn with
    | some t => if t.left ≤ 1 then (s.rebuild line t.found).replied txn else s.replied txn
    | none => s
  | _ => s

/-- L1_DISCOVERY_PROBE (R228, R230). -/
def execL1DiscoveryProbe (id : Nat) (s : State) : Result := .next (probeServe id s)

/-- A watch's end notice clears W (R227), unless a copy of the line still bears a mark (DEDUCED from R100, log 27). -/
def watchEndServe (id : Nat) (s : State) : State :=
  match s.due id with
  | some ⟨_, _, _, _, .watchEnd _ line⟩ =>
    let s := s.drop id
    let marked := s.cores.any fun (p : Nat × Option Core) => match p.2 with
      | some c => match mget none c.l1 line with | some l => !l.watch.isEmpty | none => false
      | none => false
    if marked then s else s.setDir line { s.dirOf line with w := false }
  | _ => s

/-- WATCH_END_NOTICE (R227). -/
def execWatchEndNotice (id : Nat) (s : State) : Result := .next (watchEndServe id s)

/-! ### Agents (R231, R290, R328) -/


/-- Whether an agent's request can be served now: its line is free, its home runs, and so does its own hall cluster's
die (agents 0 to 3), or the home's host port takes traffic (agent 4, the external host). -/
def State.agentReady (s : State) (agent pa : Nat) : Bool :=
  decide (agent < 5) && inPackage pa && s.populated pa && !s.dead (homeDie pa) && !(s.die (homeDie pa)).held && !s.busy (pa / 128)
    && !s.binBusy pa && !s.halted (homeDie pa)
    && (if agent = 4 then !(s.die (homeDie pa)).hostShut
      else !s.dead agent && !s.cut agent (homeDie pa) && s.linksOpen agent (homeDie pa))

/-- A hall cluster's request that meets a sleeping link wants it awake (R246). -/
def State.agentMeets (s : State) (agent pa : Nat) : State :=
  if agent < 4 ∧ inPackage pa ∧ !s.dead agent ∧ !s.cut agent (homeDie pa) ∧ !s.linksOpen agent (homeDie pa)
  then s.meetLinks agent (homeDie pa) else s

/-- A hall cluster's access crosses die links on its way to a die (R246). -/
def State.agentCarry (s : State) (agent d : Nat) : State := if agent < 4 then s.carry agent d else s

/-- An agent's access to the device registers of a die, where it reaches them: a hall core's, or the host's through BAR0
(R338). One that meets a sleeping link wants it awake (R246), and a die that relocks takes it later (R336). -/
def State.agentDevice (s : State) (agent d : Nat) (go : State → State) : State :=
  if 5 ≤ agent ∨ s.dead d ∨ (agent = 4 ∧ (s.die d).hostShut) ∨ (agent < 4 ∧ (s.dead agent ∨ s.cut agent d)) then s
  else if agent < 4 ∧ !s.linksOpen agent d then s.meetLinks agent d
  else if s.halted d then s.meet
  else go (s.agentCarry agent d)

/-- A register that a die held in reset serves: BOOTSCAR, always on, by which the host sees the failed step (R347, R349). -/
abbrev alwaysOn (pa : Nat) : Bool := decide (deviceOff pa / 8 = 0x9_0040 / 8)

/-- An agent's read of a device register: one of SDCMD waits as a thread's does. -/
def agentDeviceRead (agent pa : Nat) (s : State) : State :=
  if (s.die (deviceDie pa)).held && !alwaysOn pa then s
  else s.agentDevice agent (deviceDie pa) fun t =>
    if t.sdBusy pa then s else t.answers (some ((t.devRead (deviceDie pa) (deviceOff pa) 8).setWidth 1024))

/-- AGENT_READ (R229, R338): the agent's bit is set and the line returned; a refused read returns none (R328), and one that
meets a double-bit error is poisoned (R340; log 103). A device register answers its 8 bytes. -/
def execAgentRead (agent pa : Nat) (s : State) : Result :=
  if inDevice pa then .next (agentDeviceRead agent pa s)
  else if !s.agentReady agent pa then .next (s.agentMeets agent pa)
  else if !s.granted .host pa then .next (s.answers none)
  else if s.flawed false (pa / 128 * 128) 128 then
    .next (((s.agentCarry agent (homeDie pa)).raiseMc (homeDie pa) 2 0 pa).poisons)
  else
    let line := pa / 128
    let s := (((s.agentCarry agent (homeDie pa)).found line).l2Touch line false).dirRoom line
    let x := s.dirOf line
    let form := match x.form with | .n | .x => DirForm.p [] | f => f
    let born := match x.form with | .n | .x => s.nextId | _ => x.born
    let s := s.setDir line { x with form := form, born := born, agents := if x.agents.contains agent then x.agents else x.agents ++ [agent] }
    .next (s.answers (some (s.homeLine line)))

/-- The operations of an agent's atomic, as AGENT_WRITE's size names them: 256 × (1 + its place here) above the bytes
(log 89). -/
def agentFns : List AtFn := [.add, .and, .or, .xor, .min, .max, .minn, .maxn, .swap, .cas, .fadd, .faddBf16]

/-- AGENT_WRITE (R231, R290): a write performed at the home slice as a store, or, where `size` names one of `agentFns`, an
atomic performed there in the line's order, with its operand and comparand in the low two words of `value`, which answers
the old bytes; a double-bit error on the read poisons it, with nothing applied (R340; log 103). The agent's operation stands
in `agentOps` until the home slice acknowledges it. One that the roll refuses is discarded and counted (R328, R330). It lies
within one line. A write to device registers is a store of the host domain there (R317, R331). -/
def execAgentWrite (agent pa size : Nat) (value : Line) (s : State) : Result :=
  let n := size % 256
  if inDevice pa then
    .next (if 256 ≤ size ∨ (s.die (deviceDie pa)).held then s
      else s.agentDevice agent (deviceDie pa) fun s =>
        s.regStore (.outside agent) .host (deviceDie pa) (deviceOff pa) n value.toNat)
  else if !s.agentReady agent pa || decide (128 < pa % 128 + n) then .next (s.agentMeets agent pa)
  else if !s.granted .host pa then .next ((s.agentCarry agent (homeDie pa)).hostLate pa)
  else if 256 ≤ size ∧ s.flawed false pa n then
    .next (((s.agentCarry agent (homeDie pa)).raiseMc (homeDie pa) 2 0 pa).poisons)
  else
    let id := s.nextId
    let s := s.agentCarry agent (homeDie pa)
    let s := { s with nextId := id + 1, agentOps := s.agentOps ++ [(agent, id)] }
    if size < 256 then .next (s.hwWriteThen pa n value.toNat (.agent agent id))
    else
      let s := ((s.found (pa / 128)).l2Touch (pa / 128) false).closeCounter (pa / 128)
      let old := s.homeRead pa n
      let s := s.answers (some (BitVec.ofNat 1024 old))
      match (agentFns[size / 256 - 1]?).bind fun f => atomicNew f n old (value.toNat % 2 ^ 64) (value.toNat / 2 ^ 64 % 2 ^ 64) with
      | some v => .next (s.applyWrite pa n v none (.agent agent id))
      | none => .next (s.conclude (pa / 128) (.agent agent id))

/-- AGENT_INVALIDATION (R229, R231, R339): the agent has dropped its copy. -/
def execAgentInvalidation (id : Nat) (s : State) : Result :=
  .next (match s.due id with
    | some ⟨_, _, _, _, .agentInval _ _ txn⟩ => (s.drop id).replied txn
    | _ => s)

/-! ### WAITA's wakes (R100, R365) -/

/-- WAITA_WAKE: the woken thread issues again and re-reads. -/
def execWaitaWake (n : Nat) (s : State) : Result :=
  .next (if (s.thr n).wait = Wait.woken then s.again n else s)

/-- WAITA_REREAD (R365): the re-read of an untracked line at the ticks s + 16k; one whose line is busy, or whose way is
closed, is made when it can be. Its reply comes as the tick ends: a thread that it completes issues in the next (R369; log
104). A tracked line's refused fill is tried again (R100, full sets). -/
def execWaitaReread (n : Nat) (s : State) : Result :=
  let t := s.thr n
  let d := dieOf t.core
  match t.wait, t.cont with
  | .watch pa size cmp r track false since, some k =>
    if s.reft < since + 16 ∨ s.stopped n then .next s
    else
      let since := since + (s.reft - since) / 16 * 16
      if inDevice pa then
        if s.cut d (deviceDie pa) then .next (s.raise n .mchk k.va)
        else if !s.linksOpen d (deviceDie pa) then .next (s.meetLinks d (deviceDie pa))
        else if s.sdBusy pa then .next s
        else
          let v := s.devRead (deviceDie pa) (deviceOff pa) size
          let s := s.carry d (deviceDie pa)
          .next (if v ≠ cmp then (s.complete n v).untilTick n else s.park n .sleeping (.watch pa size cmp r track false since))
      else if inSystem pa then
        if s.cut d (s.sysDie d pa) then .next (s.raise n .mchk k.va)
        else .next ((s.send (.core t.core) (s.sysNode n pa) (.system n pa size true none 0 cmp true)).park n .sleeping
          (.watch pa size cmp r track false since))
      else if s.cut d (homeDie pa) then .next (s.raise n .mchk k.va)
      else if s.busy (pa / 128) || s.binBusy pa then .next s
      else if !s.linksOpen d (homeDie pa) then .next (s.meetLinks d (homeDie pa))
      else if !s.granted (s.domainOf n) pa then .next ((s.carry d (homeDie pa)).raise n .deed k.va)
      else
        let m := s.coreMeets t.core pa size
        if m.2.met then .next m.2
        else if m.1 then .next (m.2.raise n .mchk k.va)
        else
          let s := m.2.l2Touch (pa / 128) false
          let v := word (s.homeRead pa size)
          .next (if v ≠ cmp then (s.complete n v).untilTick n else s.watchOn n pa size cmp r track since)
  | _, _ => .next s

/-! ### Migration (R241 to R245) -/

/-- The mesh stop of a slice (R14). -/
abbrev stopOf (slice : Nat) : Nat := 4 * slice

/-- Manhattan distance between two cores of a die. -/
def meshDist (j k : Nat) : Nat :=
  let gap := fun (a b : Nat) => if a ≤ b then b - a else a - b
  gap (j / 16) (k / 16) + gap (j % 16) (k % 16)

/-- The core of a die with a free slot that is nearest to a stop, ties to the lowest (R243). -/
def State.nearest (s : State) (d stop : Nat) : Option Nat :=
  (List.range 256).foldl (fun (best : Option Nat) k =>
    if (s.freeSlot (256 * d + k)).isSome then
      match best with
      | none => some k
      | some b => if meshDist stop k < meshDist stop b then some k else best
    else best) none

/-- Whether the target die can take the context message: its own origin die always can (R243). -/
def State.canDepart (s : State) (n d : Nat) : Bool :=
  decide (d = dieOf (originOf n)) ||
    decide ((s.die d).migq.length + s.msgs.countP (fun m => match m.body with
      | .migrate _ e _ => decide (e = d)
      | _ => false) < 256)

/-- MIGRATION_DEPART (R242 step 3): the context leaves once its earlier stores are acknowledged. A target lost since step 1
raises MIGRATE, for an ALT instruction too (R243; DESIGN CHOICE, log 38). -/
def departNow (n : Nat) (s : State) : State :=
  let t := s.thr n
  match t.wait with
  | .leaving d line =>
    if !t.unacked.isEmpty then s
    -- A trap that falls due in step 2 is taken first (R245).
    else if s.timerDue n || (s.asyncDue n).isSome || s.stopped n then s
    else if s.cut (dieOf t.core) d then
      s.raise n .migrate (match t.cont with | some k => k.va | none => t.pc)
    else if !s.canDepart n d then s
    else
      let s := s.clearResv n
      let from' := t.core
      let s := s.onThr n fun t => { t with away := true, run := .waiting, wait := .transit, cont := none, snap := none }
      -- A guest's slot is free from here on; an origin slot stays reserved (R97).
      (if t.away then s.slotNotice from' else s).send (.core from') (.unit d) (.migrate n d line)
  | _ => s

/-- MIGRATION_DEPART (R242). -/
def execMigrationDepart (n : Nat) (s : State) : Result := .next (departNow n s)

/-- The thread is a ready guest, or home again. Its re-issue distance is past: the message took longer (R92, R242). -/
def State.seat (s : State) (n c k : Nat) : State :=
  s.onThr n fun t =>
    { t with core := c, slot := k, away := !(decide (c = originOf n) && decide (k = n % 16)), run := .ready, wait := .none
             readyAt := 0 }

/-- MIGRATION_PLACE (R243): home to its own slot; else the nearest core with a free slot; else the die's queue. -/
def placeNow (id : Nat) (s : State) : State :=
  match s.due id with
  | some ⟨_, _, _, _, .migrate n d line⟩ =>
    if d = dieOf (originOf n) then (s.drop id).seat n (originOf n) (n % 16)
    else
      let stop := match line with | some l => stopOf (s.sliceOf (l * 128)) | none => 0
      match (if (s.die d).migq.isEmpty then s.nearest d stop else none) with
      | some k => match s.freeSlot (256 * d + k) with
        | some j => (s.drop id).seat n (256 * d + k) j
        | none => s
      | none =>
        if (s.die d).migq.length < 256 then (s.drop id).onDie d fun x => { x with migq := x.migq ++ [n] } else s
  | _ => s

/-- MIGRATION_PLACE (R242, R243). -/
def execMigrationPlace (id : Nat) (s : State) : Result := .next (placeNow id s)

/-! ### Regions (R238 to R240, R255) -/

def State.setRegion (s : State) (d i : Nat) (v : Word) : State :=
  s.onDie d fun x => { x with regions := mset 0 x.regions i v }

/-- An entry with its SW and ST fields replaced. -/
def rgnWith (e : Word) (sw : Bool) (st : Nat) : Word :=
  (e &&& 0x8FFF_FFFF_FFFF_FFFF) ||| (if sw then 0x4000_0000_0000_0000 else 0) ||| word (st % 4 * 2 ^ 60)

/-- A range lies wholly inside its die's HBM, or wholly inside its carved bins (R238). -/
def State.rgnPlaced (s : State) (d : Nat) (v : Word) : Bool :=
  let lo := rgnBase v % 2 ^ 38
  let hi := lo + rgnLen v
  decide (homeDie (rgnBase v) = d) && (decide (hi ≤ 0x30_0000_0000) ||
    (decide (0x30_0000_0000 ≤ lo) && decide (hi ≤ 0x30_2000_0000) && (List.range 8).all fun b =>
      decide (0x30_0000_0000 + (b + 1) * 0x400_0000 ≤ lo) || decide (hi ≤ 0x30_0000_0000 + b * 0x400_0000)
        || (s.die d).carve.getLsbD b))

/-- A range overlaps no valid entry of the die (R238). -/
def State.rgnAlone (s : State) (d : Nat) (v : Word) : Bool :=
  (s.die d).regions.all fun p => !rgnValid p.2 ||
    decide (rgnBase p.2 + rgnLen p.2 ≤ rgnBase v) || decide (rgnBase v + rgnLen v ≤ rgnBase p.2)

/-- OP 0's answer and the entry it leaves (R255). -/
def rgnDefineTo (s : State) (d : Nat) (e v : Word) : Option Word :=
  if rgnValid v then
    if !rgnValid e && !rgnSw v && decide (rgnSt v = 0) && decide (v &&& 0x0000_0100_001F_FFFF = 0)
        && s.rgnPlaced d v && s.rgnAlone d v then some v else none
  else if !rgnSw e && decide (rgnSt e = 0) then some 0 else none

/-- Whether OP 1, 2 or 3 may start on an entry (R255). -/
def rgnStarts (op : Nat) (e : Word) : Bool :=
  rgnValid e && (
    if op = 1 then !rgnSw e && decide (rgnSt e = 0)
    else if op = 2 then rgnSw e && decide (rgnSt e ≠ 2)
    else rgnSw e && decide (rgnSt e = 1))

/-- Copies of a region's lines leave every L1 of its die: M lines are written back, watchers wake. -/
def State.rgnDrop (s : State) (d : Nat) (e : Word) : State :=
  (List.range 256).foldl (fun s k =>
    let c := 256 * d + k
    ((s.core c).l1.filter fun p => rgnHas e (p.1 * 128)).foldl (fun s p => match p.2 with
      | some l => (s.writeBack p.1 l).invalidate c p.1
      | none => s) s) s

/-- The agent copies of a region's lines: line and agent. -/
def State.rgnAgents (s : State) (e : Word) : List (Nat × Nat) :=
  ((s.dir.filter fun p => rgnHas e (p.1 * 128)).map fun p => p.2.agents.map fun a => (p.1, a)).flatten

/-- The agent copies of a region's lines are invalidated for the transaction `txn` of its change, which then awaits one reply
for each and its own end (R255). -/
def State.rgnAsk (s : State) (e : Word) (txn : Nat) : State :=
  let ags := s.rgnAgents e
  let s := (s.dir.filter fun p => rgnHas e (p.1 * 128) && !p.2.agents.isEmpty).foldl (fun s p =>
    s.setDir p.1 ({ p.2 with agents := [] } : Dir).settle) s
  let s : State := { s with txns := s.txns.map fun t => if t.id = txn then { t with left := ags.length + 1 } else t }
  ags.foldl (fun s p => s.send (s.homeNode (p.1 * 128)) (.outside p.2) (.agentInval p.2 p.1 txn)) s

/-- A write-back of a region's lines has not arrived. -/
def State.rgnBacks (s : State) (e : Word) : Bool :=
  s.msgs.any fun m => match m.body with | .wback _ line _ _ => rgnHas e (line * 128) | _ => false

/-- The slices free the range's entries and clear DR. -/
def State.rgnFree (s : State) (e : Word) : State :=
  { s with dir := s.dir.filter fun p => !rgnHas e (p.1 * 128) }

/-- The transaction key of a region change: no line has it. -/
abbrev rgnKey (d i : Nat) : Nat := 2 ^ 60 + d * 64 + i

/-- A region change of a die is in progress. -/
def State.regionBusy (s : State) (d : Nat) : Bool :=
  s.txns.any fun t => match t.done with | .region _ e _ _ => e == d | _ => false

/-- REGION_CHANGE_DONE (R255): the change completes and its requester is answered. Agents that have read the range since OP 1
invalidated its copies are asked again; OP 2 awaits the range's write-backs that are under way. -/
def regionDone (d i : Nat) (s : State) : State :=
  match s.txns.find? fun t => decide (t.line = rgnKey d i) && decide (t.left ≤ 1) with
  | some t => if s.halted d then s else match t.done with
    | .region n _ _ op =>
      let e := mget 0 (s.die d).regions i
      if op = 1 ∧ s.rgnAgents e ≠ [] then s.rgnAsk e t.id
      else if op = 2 ∧ s.rgnBacks e then s
      else
      let s := { s with txns := s.txns.filter fun x => x.id != t.id }
      let s :=
        if op = 1 then ((s.rgnDrop d e).rgnFree e).setRegion d i (rgnWith e true 0)
        else if op = 2 then (s.rgnDrop d e).setRegion d i (rgnWith e true 1)
        else (s.rgnFree e).setRegion d i (rgnWith e false 0)
      s.complete n 1
    | _ => s
  | none => s

/-- REGION_REQUEST (R255): requests to one die are served one at a time. -/
def regionServe (id : Nat) (s : State) : State :=
  match s.due id with
  | some ⟨_, _, _, _, .region n op i v d⟩ =>
    if s.regionBusy d then s
    else
      let s := s.drop id
      let e := mget 0 (s.die d).regions i
      if op = 0 then
        match rgnDefineTo s d e v with
        | some w => (s.setRegion d i w).complete n 1
        | none => s.complete n 0
      else if rgnStarts op e then
        -- OP 1 invalidates the agents' copies first: the change is done once they have answered.
        let txn := s.nextId
        let s := { s.setRegion d i (rgnWith e (rgnSw e) 2) with
          txns := s.txns ++ [{ id := txn, line := rgnKey d i, left := 1, done := .region n d i op }]
          nextId := txn + 1 }
        let s := if op = 1 then s.rgnAsk e txn else s
        if s.prompt then regionDone d i s else s
      else s.complete n 0
  | _ => s

/-- REGION_REQUEST (R255). -/
def execRegionRequest (id : Nat) (s : State) : Result := .next (regionServe id s)
/-- REGION_CHANGE_DONE (R255). -/
def execRegionChangeDone (d i : Nat) (s : State) : Result := .next (regionDone d i s)

/-- The shared operation of RGN.SET (R255). -/
def rgnOp (i : Instr) (op : Nat) (d a b : Reg) (s : State) : State :=
  let n := s.cur
  let x := (s.reg n a).toNat
  s.check n (privCheck s i)
    (if x > 255 || s.cut (dieOf s.me.core) (x / 64) then s.write n d 0 replyDelay 8
    else s.askNow n (.unit (x / 64)) [] (.region n op (x % 64) (s.reg n b) (x / 64))
      { d := some d, len := 8, size := 8, sign := false, va := 0 } regionServe)

/-- RGN.SET OP 0 (R255). -/
def execRgnDefine (d a b : Reg) (s : State) : Result := .next (rgnOp (.rgnDefine d a b) 0 d a b s)
/-- RGN.SET OP 1 (R255). -/
def execRgnToSw (d a b : Reg) (s : State) : Result := .next (rgnOp (.rgnToSw d a b) 1 d a b s)
/-- RGN.SET OP 2 (R255). -/
def execRgnFlush (d a b : Reg) (s : State) : Result := .next (rgnOp (.rgnFlush d a b) 2 d a b s)
/-- RGN.SET OP 3 (R255). -/
def execRgnToCoherent (d a b : Reg) (s : State) : Result := .next (rgnOp (.rgnToCoherent d a b) 3 d a b s)

/-! ### Porters and reservation hits -/

/-- PORTER_EXECUTE (R91, R94, R153 to R158): arrivals that have reached the core enter the porter's queue; in a core cycle
in which the rotation gives the issue to the porter, it executes the head of the queue. -/
def execPorterExecute (c : Nat) (err late : Bool) (s : State) : Result :=
  let s := portRefill c s
  .next (if s.resting c || (s.core c).gated then s
    else if s.pick c = some 16 then portStep c err late (s.cycleCore c)
    else s)

/-- A hit reaches its thread (R294): the set is emptied, HIT holds the position, and a sleeping WAITRS completes. One
that finds the set already empty changes nothing (log 28). -/
def hitApply (n pos : Nat) (s : State) : State :=
  if (s.thr n).resv.isEmpty then s
  else
    let s := (s.clearResv n).onThr n fun t => { t with hit := pos }
    match (s.thr n).wait with
    | .resv d => (s.onThr n fun t => { t with hit := 0 }).write n d (word pos) replyDelay 8
    | _ => s

/-- An arrival for thread `n` at core `c`: while the thread is in transit the core holds it; where the thread runs elsewhere
the origin core forwards it there, and a core that a guest has left sends it to the origin; else it is applied (R308). -/
def State.arriveAt (s : State) (id n c : Nat) (b : Body) (go : State → State) : State :=
  let t := s.thr n
  if t.wait = Wait.transit then s
  else if t.core = c then go (s.drop id)
  else (s.drop id).send (.core c) (.core (if c = originOf n then t.core else originOf n)) b

/-- RESERVATION_HIT (R294): the notice at a core of its thread. One addressed by a context number that the thread no longer
holds is answered and changes nothing (R308). -/
def hitServe (id : Nat) (s : State) : State :=
  match s.due id with
  | some ⟨_, _, .core c, _, .hit n pos ctx txn⟩ =>
    if ctx.isSome ∧ (s.thr n).ctx ≠ ctx then (s.drop id).replied txn
    else s.arriveAt id n c (.hit n pos ctx txn) fun s => (hitApply n pos s).replied txn
  | _ => s

/-- RESERVATION_HIT (R294). -/
def execReservationHit (id : Nat) (s : State) : Result := .next (hitServe id s)

end Sys2Proof.Machine
end

