-- ==== Sys2Proof/Machine/Global.lean ====
section
/-! DEFINITION. Engine accesses to global memory under given credentials: reads at the home slices, writes as coherent
stores, without migration (R194, R217, R241). -/

namespace Sys2Proof.Machine

/-- Bytes at a physical address as an engine of die `a` reads them, or the cause that refuses them. A reduction window
refuses, and counts, loads (R344, R345); an insecure port or link refuses them (R353). -/
def State.physRaw (s : State) (a : Nat) (dom : Domain) (pa k : Nat) (kind : Kind) : Except Cause (List Byte) × State :=
  match kind with
  | .device =>
    if s.cut a (deviceDie pa) then (.error .mchk, s)
    else
      (.ok ((List.range k).map fun i => (s.devRead (deviceDie pa) (deviceOff pa + i) 1).setWidth 8),
        let s := s.crossing a (deviceDie pa)
        if s.sdBusy pa then s.meet else s)
  | .system =>
    let r := s.windowLoad a pa
    if r.1 || s.insecurePath a pa || s.cut a (s.sysDie a pa) then (.error .mchk, r.2)
    else (.ok ((List.range k).map fun i => (Config.freeValue (s.free + i)).setWidth 8), { s with free := s.free + k })
  | _ =>
    if s.cut a (homeDie pa) then (.error .mchk, s)
    else if !s.granted dom pa then (.error .deed, s.readVia a pa k)
    else (.ok (s.homeBytes pa k), s.readVia a pa k)

/-- The same for a reader that a double-bit error of package memory stops with MCHK (R249). -/
def State.physBytes (s : State) (a : Nat) (dom : Domain) (pa k : Nat) (kind : Kind) : Except Cause (List Byte) × State :=
  let r := s.physRaw a dom pa k kind
  match r.1 with
  | .error e => (.error e, r.2)
  | .ok bs =>
    if inPackage pa && r.2.flawed false pa k then (.error .mchk, r.2.raiseMc (homeDie pa) 2 0 pa) else (.ok bs, r.2)

/-- Bytes from `va` to a page's end at most, `k` of them, under credentials on core `c`; `stop` where a double-bit error
stops the reader. -/
def State.readPart (s : State) (stop : Bool) (cr : Creds) (c : Nat) (va : Word) (k : Nat) : Except Cause (List Byte) × State :=
  let r := s.translateAs cr c va .load
  match r.1 with
  | .bad e _ => (.error e, r.2)
  | .ok pa kind =>
    if stop then r.2.physBytes (dieOf c) cr.domain pa k kind else r.2.physRaw (dieOf c) cr.domain pa k kind

/-- Read `k` bytes at `va`, page by page; `fuel` bounds the pages. On a fault, the bytes before it come with the cause. -/
def State.gread (s : State) (stop : Bool) (cr : Creds) (c : Nat) (va : Word) (k : Nat) : Nat → (List Byte × Option Cause) × State
  | 0 => (([], none), s)
  | fuel + 1 =>
    if k = 0 then (([], none), s)
    else
      let m := Min.min k (4096 - va.toNat % 4096)
      let r := s.readPart stop cr c va m
      match r.1 with
      | .error e => (([], some e), r.2)
      | .ok bs =>
        let q := r.2.gread stop cr c (va + word m) (k - m) fuel
        ((bs ++ q.1.1, q.1.2), q.2)

/-- Pages that a range of `k` bytes can touch. -/
abbrev pagesOf (k : Nat) : Nat := k / 4096 + 2

/-- Split `k` bytes at `pa` where lines end: the length of the first part. -/
abbrev linePart (pa k : Nat) : Nat := Min.min k (128 - pa % 128)

/-- Write bytes at a physical address as coherent stores, line by line; `fuel` bounds the lines. -/
def State.hwBytes (s : State) (pa : Nat) (bs : List Byte) : Nat → State
  | 0 => s
  | fuel + 1 =>
    match bs with
    | [] => s
    | _ =>
      let m := linePart pa bs.length
      (s.hwWrite pa m (natOfBytes (bs.take m))).hwBytes (pa + m) (bs.drop m) fuel

/-- Write bytes to a device register range, in naturally aligned parts of 8 bytes where they allow it. -/
def State.devBytes (s : State) (src : Node) (dom : Domain) (pa : Nat) (bs : List Byte) : Nat → State
  | 0 => s
  | fuel + 1 =>
    match bs with
    | [] => s
    | _ =>
      let m := if pa % 8 = 0 ∧ 8 ≤ bs.length then 8 else 1
      (s.devWrite src dom (deviceDie pa) (deviceOff pa) m (word (natOfBytes (bs.take m)))).devBytes src dom (pa + m) (bs.drop m) fuel

/-- Write bytes to the system region from die `a`: stores that their target confirms, of no thread, in parts of an aligned
8 bytes at most. -/
def State.sysBytes (s : State) (a : Nat) (src : Node) (pa : Nat) (bs : List Byte) : Nat → State
  | 0 => s
  | fuel + 1 =>
    match bs with
    | [] => s
    | _ =>
      let m := if pa % 8 = 0 ∧ 8 ≤ bs.length then 8 else 1
      (s.send src (portNode (s.sysDie a pa)) (.system nobody pa m false none (word (natOfBytes (bs.take m))) 0 true)).sysBytes
        a src (pa + m) (bs.drop m) fuel

/-- Write bytes that lie in one page at `va` under credentials on core `c`: the cause that refuses them, if any. -/
def State.writePart (s : State) (cr : Creds) (c : Nat) (va : Word) (bs : List Byte) : Option Cause × State :=
  let r := s.translateAs cr c va .store
  match r.1 with
  | .bad e _ => (some e, r.2)
  | .ok pa kind =>
    match kind with
    | .device =>
      if r.2.cut (dieOf c) (deviceDie pa) then (some .mchk, r.2)
      else (none, (r.2.crossing (dieOf c) (deviceDie pa)).devBytes (.core c) cr.domain pa bs bs.length)
    | .system =>
      if r.2.cut (dieOf c) (r.2.sysDie (dieOf c) pa) then (some .mchk, r.2)
      else (none, r.2.sysBytes (dieOf c) (.core c) pa bs bs.length)
    | _ =>
      if r.2.cut (dieOf c) (homeDie pa) then (some .mchk, r.2)
      else if !r.2.granted cr.domain pa then (some .deed, r.2.readVia (dieOf c) pa bs.length)
      else (none, (r.2.crossing (dieOf c) (homeDie pa)).hwBytes pa bs bs.length)

/-- Write bytes at `va`, page by page; on a fault, the bytes before it stay. -/
def State.gwrite (s : State) (cr : Creds) (c : Nat) (va : Word) (bs : List Byte) : Nat → Option Cause × State
  | 0 => (none, s)
  | fuel + 1 =>
    match bs with
    | [] => (none, s)
    | _ =>
      let m := Min.min bs.length (4096 - va.toNat % 4096)
      let r := s.writePart cr c va (bs.take m)
      match r.1 with
      | some e => (some e, r.2)
      | none => r.2.gwrite cr c (va + word m) (bs.drop m) fuel

end Sys2Proof.Machine
end

