-- ==== Sys2Proof/Machine/Records.lean ====
section
/-! DEFINITION. Task records, sheaf headers, queues, plots and the delivery of arrivals to postboxes (R136, R191 to R205). -/

namespace Sys2Proof.Machine

/-! ### Records (R191) -/

/-- The sixteen words of a record or header at a physical address. -/
def State.words (s : State) (pa : Nat) : List Word := (List.range 16).map fun i => word (readN s.mem (pa + 8 * i) 8)

abbrev wordAt (ws : List Word) (i : Nat) : Word := ws.getD i 0

/-- Q, PRIO, K, PASID and JCOUNT of word 3. -/
abbrev recQ (ws : List Word) : Bool := (wordAt ws 3).getLsbD 63
abbrev recPrio (ws : List Word) : Nat := (wordAt ws 3).toNat / 2 ^ 54 % 4
abbrev recK (ws : List Word) : Bool := (wordAt ws 3).getLsbD 53
abbrev recPasid (ws : List Word) : Word := word ((wordAt ws 3).toNat / 2 ^ 32 % 2 ^ 20)
/-- Footprint length and address of range `j`. -/
abbrev recLen (ws : List Word) (j : Nat) : Nat := (wordAt ws (7 + j / 3)).toNat / 2 ^ (20 * (j % 3)) % 2 ^ 20
abbrev recAddr (ws : List Word) (j : Nat) : Word := wordAt ws (9 + j)
abbrev recLens (ws : List Word) : List Nat := (List.range 6).map (recLen ws)
abbrev plotsFor (len : Nat) : Nat := (len + 2047) / 2048
/-- P of R191. -/
abbrev recPlots (ws : List Word) : Nat := ((recLens ws).map plotsFor).sum

/-- Credentials of a push of a record (R192): the record's own in kernel mode, the thread's in user mode. -/
def pushCreds (t : Thread) (ws : List Word) : Creds :=
  if t.priv = .user then { atp := t.atp, pasid := t.pasid, priv := .user }
  else { atp := wordAt ws 5, pasid := recPasid ws, priv := if recK ws then .kernel else .user }

/-- The words of a queued record: an instance's pool line, or the record line. -/
def State.entryWords (s : State) (e : QEntry) : List Word := match e.form with | .plain => s.words e.recPa | _ => e.words

/-! ### Plots (R135, R136) -/

/-- The lowest run of `k` plots that are neither pinned nor reserved. -/
def lowestRun (busy : BitVec 256) (k : Nat) : Option Nat :=
  (List.range 256).find? fun p => decide (p + k ≤ 256) && (List.range k).all fun i => !busy.getLsbD (p + i)

/-- Place ranges in record order: the plots taken and each range's offset. -/
def placePlots (busy : BitVec 256) : List Nat → Option (BitVec 256 × List Word)
  | [] => some (0, [])
  | 0 :: ls => (placePlots busy ls).map fun r => (r.1, 0 :: r.2)
  | l :: ls =>
    let k := plotsFor l
    match lowestRun busy k with
    | none => none
    | some p =>
      let m : BitVec 256 := BitVec.ofNat 256 ((2 ^ k - 1) * 2 ^ p)
      (placePlots (busy ||| m) ls).map fun r => (r.1 ||| m, word (2048 * p) :: r.2)

def Core.place (c : Core) (ws : List Word) : Option (BitVec 256 × List Word) :=
  placePlots (c.plotRsv ||| c.plotPin) (recLens ws)

/-- Plots that the kernel has not reserved. A pinned plot whose reserved bit is set counts as reserved, though the bit takes
effect when the plot is unpinned (R135, R136; DESIGN CHOICE, log 120). -/
def Core.unreserved (c : Core) : Nat := (List.range 256).countP fun p => !c.plotRsv.getLsbD p

/-! ### Queues (R193) -/

/-- Entries per ring of the overflow queues (R199). -/
def Die.cqCap (x : Die) : Nat := let l := x.cqobase.toNat % 32; 2 ^ (if 4 ≤ l ∧ l ≤ 16 then l else 4)

/-- Where a push may go: a core's queue, or a die's. -/
inductive Target where
  | core (c : Nat)
  | die (d : Nat)
  deriving DecidableEq, Repr

def targetOf (t : Word) : Option Target :=
  if t.toNat < 1024 then some (.core t.toNat)
  else if 0x1000 ≤ t.toNat ∧ t.toNat ≤ 0x1003 then some (.die (t.toNat - 0x1000)) else none

def Target.dieNo : Target → Nat
  | .core c => dieOf c | .die d => d

/-- An entry of a priority goes to its overflow ring: the 32 are full, or entries of its priority wait there already. -/
def Core.spills (c : Core) (p : Nat) : Bool := decide (32 ≤ c.taskq.length) || c.overq.any fun e => decide (e.prio = p)

/-- Whether a push of a priority finds its ring full (R193). -/
def State.ringFullFor (s : State) (t : Target) (p : Nat) : Bool :=
  match t with
  | .core c => (s.core c).spills p && decide ((s.die (dieOf c)).cqCap ≤ (s.core c).overq.countP (·.prio = p))
  | .die d => decide ((s.die d).dqCap ≤ (s.die d).dieq.countP (·.prio = p))

/-- The queue engine of die `d` writes words by physical address, as an accelerator-domain requester, where memory takes
them (R199). -/
def State.engineWrite (s : State) (d pa : Nat) (ws : List Word) : State :=
  if inPackage pa && s.populated pa && !s.cut d (homeDie pa) && s.granted .acc pa then
    if s.linksOpen d (homeDie pa) then
      s.hwWrite pa (8 * ws.length) (ws.foldr (fun w a => w.toNat + 2 ^ 64 * a) 0)
    else s.meetLinks d (homeDie pa)
  else s

/-- The 32 bytes of a ring entry, whose contents are the hardware's own (R193), at place `k` of a ring of `cap` entries. -/
def State.ringEntry (s : State) (d base ring cap k : Nat) : State :=
  let ws := (List.range 4).map fun i => Config.freeValue (s.free + i)
  { s with free := s.free + 4 }.engineWrite d (base / 4096 * 4096 + (ring * cap + k % cap) * 32) ws

/-- An entry takes the next place of its die ring. -/
def State.toDieRing (s : State) (d p : Nat) : State :=
  let x := s.die d
  let k := mget 0 x.dqPos p
  (s.ringEntry d x.dqbase.toNat p x.dqCap k).onDie d fun x => { x with dqPos := mset 0 x.dqPos p (k + 1) }

/-- An entry takes the next place of a core's overflow ring, and is counted. -/
def State.toOverRing (s : State) (c p : Nat) : State :=
  let d := dieOf c
  let x := s.die d
  let k := mget 0 (s.core c).ovPos p
  ((s.ringEntry d x.cqobase.toNat (4 * (c % 256) + p) x.cqCap k).onCore c fun y => { y with ovPos := mset 0 y.ovPos p (k + 1) }).onDie d
    fun x => { x with spills := x.spills + 1 }

/-- Queue an entry. One that finds its ring full is held at the queue engine, after those of its ring (R193). -/
def State.queue (s : State) (t : Target) (e : QEntry) : State :=
  let full := s.ringFullFor t e.prio
  match t with
  | .core c =>
    if (s.core c).spills e.prio then
      (if full then s else s.toOverRing c e.prio).onCore c fun x => { x with overq := x.overq ++ [e] }
    else s.onCore c fun x => { x with taskq := x.taskq ++ [e] }
  | .die d => (if full then s else s.toDieRing d e.prio).onDie d fun x => { x with dieq := x.dieq ++ [e] }

/-- The entries that stand in a die's rings: those beyond a ring's capacity are held at the queue engine (R193). -/
def Die.ringed (x : Die) : List QEntry :=
  ((List.range 4).map fun p => (x.dieq.filter (·.prio = p)).take x.dqCap).flatten

/-- An entry leaves a die's queue: one that the engine holds takes its place in the ring. -/
def State.leaveDie (s : State) (d : Nat) (e : QEntry) : State :=
  let full := s.ringFullFor (.die d) e.prio
  let s := s.onDie d fun x => { x with dieq := x.dieq.filter fun y => y.id != e.id }
  if full && s.ringFullFor (.die d) e.prio then s.toDieRing d e.prio else s

/-- An entry leaves a core's overflow queue likewise. -/
def State.leaveOver (s : State) (c : Nat) (e : QEntry) : State :=
  let full := decide ((s.die (dieOf c)).cqCap < (s.core c).overq.countP (·.prio = e.prio))
  let s := s.onCore c fun x => { x with overq := x.overq.filter fun y => y.id != e.id }
  if full then s.toOverRing c e.prio else s

/-- A list in pop order: priorities 3 to 0, first in first out (R194). -/
def popOrder (l : List QEntry) : List QEntry :=
  l.filter (·.prio = 3) ++ l.filter (·.prio = 2) ++ l.filter (·.prio = 1) ++ l.filter (·.prio = 0)

/-- An instance's line of its die's pool (R200). -/
def State.poolWrite (s : State) (d l : Nat) (ws : List Word) : State :=
  s.engineWrite d ((s.die d).poolbase.toNat / 128 * 128 + 128 * l) ws

/-- Set or clear Q in a record line or pool line, where the accelerator's grant and the line's die let hardware write it. -/
def State.setQ (s : State) (e : QEntry) (q : Bool) : State :=
  match e.form with
  | .plain =>
    if inPackage e.recPa && s.populated e.recPa && !s.dead (homeDie e.recPa) && s.granted e.creds.domain e.recPa then
      let w := wordAt (s.words e.recPa) 3
      s.hwWrite (e.recPa + 24) 8 (if q then w ||| 0x8000_0000_0000_0000 else w &&& 0x7FFF_FFFF_FFFF_FFFF).toNat
    else s
  | .pooled d l | .expanded d l _ _ =>
    let ws := e.words.mapIdx fun i w =>
      if i = 3 then (if q then w ||| 0x8000_0000_0000_0000 else w &&& 0x7FFF_FFFF_FFFF_FFFF) else w
    s.poolWrite d l ws

/-- Queue a record as TASK.PUSH does: Q set, and the entry on its target. -/
def State.launch (s : State) (t : Target) (va : Word) (pa : Nat) (ws : List Word) (cr : Creds) (payload : Word) : State :=
  let id := s.nextId
  let e : QEntry := { id := id, recVa := va, recPa := pa, creds := cr, prio := recPrio ws, payload := payload }
  ({ s with nextId := id + 1 }.setQ e true).queue t e

/-- The notice of a record that the queue engine gives up (R196). -/
def State.recNotice (s : State) (d : Nat) (va : Word) (code : Nat) : State := s.notify d (va + word code)

/-! ### Reading records under translation (R206) -/

/-- A record line at its home slice: its physical address and words, or the trap of the read. -/
def State.readRec (s : State) (n : Nat) (va : Word) : Except (Cause × Word) (Nat × List Word) × State :=
  let t := s.thr n
  let r := s.translate n va .load
  match r.1 with
  | .bad c v => (.error (c, v), r.2)
  | .ok pa kind =>
    let b := r.2.physBytes (dieOf t.core) t.domain pa 128 kind
    match b.1 with
    | .error c => (.error (c, va), b.2)
    | .ok bs => (.ok (pa, (List.range 16).map fun i => word (natOfBytes ((bs.drop (8 * i)).take 8))), b.2)

/-- The same for the queue engine under credentials, on a die (R203). An address that is not a multiple of 128 is used as it
stands (DESIGN CHOICE, log 122). -/
def State.engineRec (s : State) (cr : Creds) (d : Nat) (va : Word) : Except Cause (Nat × List Word) × State :=
  let c := 256 * d
  let r := s.translateAs cr c va .load
  match r.1 with
  | .bad e _ => (.error e, r.2)
  | .ok pa kind =>
    let b := r.2.physBytes d cr.domain pa 128 kind
    match b.1 with
    | .error e => (.error e, b.2)
    | .ok bs => (.ok (pa, (List.range 16).map fun i => word (natOfBytes ((bs.drop (8 * i)).take 8))), b.2)

/-! ### JOIN at a home (R208) -/

/-- Decrement a join count; at zero the record is queued on its home die's queue with the joiner's credentials. -/
def State.joinAt (s : State) (va : Word) (pa : Nat) (cr : Creds) : State :=
  let ws := s.words pa
  let w := wordAt ws 3
  let j := w.toNat % 2 ^ 32
  if j = 0 then s
  else
    let s := s.hwWrite (pa + 24) 8 (w - 1).toNat
    if j = 1 then s.launch (.die (homeDie pa)) va pa (s.words pa) cr 0 else s

/-! ### Sheaves (R201 to R203) -/

abbrev shCount (ws : List Word) : Nat := (wordAt ws 1).toNat
abbrev shNf (ws : List Word) : Nat := (wordAt ws 2).toNat / 2 ^ 36 % 8
abbrev shGl (ws : List Word) : Nat := (wordAt ws 2).toNat / 2 ^ 39 % 8
abbrev shFw (ws : List Word) (j : Nat) : Nat := (wordAt ws 2).toNat / 2 ^ (6 * j) % 64
abbrev shExt (ws : List Word) (j : Nat) : Nat := (wordAt ws (3 + j / 2)).toNat / 2 ^ (32 * (j % 2)) % 2 ^ 32
/-- STR of range `j`, signed. -/
abbrev shStr (ws : List Word) (j : Nat) : Word := sext ((wordAt ws (13 + j / 2)).extractLsb' (32 * (j % 2)) 32)
/-- EXT0 × … × EXT(k−1). -/
def shProd (ws : List Word) : Nat → Nat
  | 0 => 1
  | k + 1 => shProd ws k * shExt ws k
/-- G of R203: the last field has no extent, so GL = NF is the whole launch. -/
def shGroup (ws : List Word) : Nat := if shGl ws = shNf ws then shCount ws else shProd ws (shGl ws)
def shGroups (ws : List Word) : Nat := (shCount ws + shGroup ws - 1) / shGroup ws

/-- The conditions of R201; COUNT is 1 to 2^48. -/
def sheafOk (ws : List Word) : Bool :=
  let nf := shNf ws
  decide ((wordAt ws 0).toNat % 128 = 0) && decide ((wordAt ws 2).toNat / 2 ^ 42 = 0) && decide ((wordAt ws 5).toNat / 2 ^ 32 = 0)
    && decide (wordAt ws 9 = 0) && decide (1 ≤ nf) && decide (nf ≤ 6) && decide (shGl ws ≤ nf)
    && decide (1 ≤ shCount ws) && decide (shCount ws ≤ 2 ^ 48)
    && decide (((List.range nf).map (shFw ws)).sum ≤ 64)
    && ((List.range (nf - 1)).all fun j => decide (1 ≤ shExt ws j) && decide (shExt ws j ≤ 2 ^ shFw ws j))
    && decide ((shCount ws - 1) / shProd ws (nf - 1) < 2 ^ shFw ws (nf - 1))

/-- The WID of record `i` (R202): the digits from field `j`, `k` fields left. -/
def shWid (ws : List Word) (nf : Nat) : Nat → Nat → Nat → Nat → Nat
  | _, _, _, 0 => 0
  | q, j, pos, k + 1 =>
    let last := decide (j + 1 = nf)
    let dig := if last then q else q % shExt ws j
    dig * 2 ^ pos + shWid ws nf (if last then 0 else q / shExt ws j) (j + 1) (pos + shFw ws j) k

/-- Record `i` of a launch (R202): the template's words changed. -/
def expandWords (hdr : Word) (h t : List Word) (i : Nat) : List Word :=
  (List.range 16).map fun w =>
    if w = 2 then word (shWid h (shNf h) i 0 0 (shNf h))
    else if w = 3 then wordAt t 3 ||| 0x8000_0000_0000_0000
    else if w = 6 then hdr
    else if 9 ≤ w ∧ w ≤ 14 then wordAt t w + word i * shStr h (w - 9)
    else wordAt t w

/-- The die whose queue engine serves a launch. -/
abbrev Launch.die (l : Launch) : Nat := if l.target < 1024 then dieOf l.target else l.target - 0x1000

/-- Add 1 to a state word of a launch's header; its new value. A header that the issuer's domain has lost counts nothing
(R328). -/
def State.bumpWord (s : State) (l : Launch) (o : Nat) : Nat × State :=
  let pa := l.hdrPa + o
  if inPackage pa && !s.dead (homeDie pa) && s.granted l.creds.domain pa then
    let s := s.readVia l.die pa 8
    let v := (readN s.mem pa 8 + 1) % 2 ^ 64
    (v, s.hwWrite pa 8 v)
  else (0, s)

/-- NEXT is queued once every group has triggered (R203). A read of its record that meets a double-bit error or a lost die
gives a notice of cause 17 (DESIGN CHOICE, log 119). -/
def State.queueNext (s : State) (l : Launch) (h : List Word) : State :=
  let va := wordAt h 6
  let t : Target := if l.target < 1024 then .core l.target else .die (l.target - 0x1000)
  let d := t.dieNo
  if va = 0 then s
  else
    let r := s.engineRec l.creds d va
    match r.1 with
    | .error c => r.2.recNotice d va (Cause.code c)
    | .ok (pa, ws) =>
      let room := match t with | .core c => (s.core c).unreserved | .die _ => 256
      if recPlots ws > Min.min 256 room then r.2.recNotice d va 15
      else if recQ ws then r.2
      else r.2.launch t va pa ws l.creds 0

/-- DONE is joined once every record has retired (R203). -/
def State.joinDone (s : State) (l : Launch) (h : List Word) : State :=
  let va := wordAt h 7
  let d := l.die
  if va = 0 then s
  else
    let r := s.engineRec l.creds d va
    match r.1 with
    | .error c => r.2.recNotice d va (Cause.code c)
    | .ok (pa, _) => r.2.joinAt va pa l.creds

/-- The physical address of group word `g`, where the issuer's credentials reach it (R203); a word that they do not reach
counts nothing (DESIGN CHOICE, log 88). -/
def State.groupPa (s : State) (l : Launch) (h : List Word) (g : Nat) : Option Nat × State :=
  let d := l.die
  let r := s.translateAs l.creds (256 * d) (wordAt h 8 + word (8 * g)) .store
  match r.1 with
  | .ok _ .device | .ok _ .system => (none, r.2)
  | .ok pa _ =>
    if !r.2.dead (homeDie pa) && r.2.granted l.creds.domain pa then (some pa, r.2.readVia d pa 8) else (none, r.2)
  | .bad _ _ => (none, r.2)

/-- Group `g` triggers unless it has (R203). -/
def State.trigger (s : State) (l : Launch) (h : List Word) (g : Nat) : State :=
  let r := s.groupPa l h g
  match r.1 with
  | none => r.2
  | some pa =>
    let s := r.2
    let v := readN s.mem pa 8
    if v.testBit 63 then s
    else
      let s := s.hwWrite pa 8 (v + 2 ^ 63)
      let b := s.bumpWord l 96
      if b.1 = shGroups h then b.2.queueNext l h else b.2

/-- A record of a launch retires (R203, R210). -/
def State.retireOne (s : State) (l : Launch) (i : Nat) : State :=
  let h := s.words l.hdrPa
  let b := s.bumpWord l 88
  let g := i / shGroup h
  let r := b.2.groupPa l h g
  let s := match r.1 with
    | none => r.2
    | some pa =>
      let v := readN r.2.mem pa 8
      let n := (v % 2 ^ 32 + 1) % 2 ^ 32
      let s := r.2.hwWrite pa 8 (v / 2 ^ 32 * 2 ^ 32 + n)
      if n = Min.min (shGroup h) (shCount h - g * shGroup h) then s.trigger l h g else s
  if b.1 = shCount h then
    { s.joinDone l h with launches := s.launches.filter fun x => x.id != l.id }
  else s

/-! ### Postboxes (R204, R205) -/

/-- The steward's postbox of a die (R346). -/
abbrev isSteward (p : Nat) : Bool := decide (p % 4096 = 4095)

/-- A pool line that is free. -/
def Die.freeLine (x : Die) : Option Nat := (List.range (x.pool.length + 1)).find? fun l => decide (l < x.poolsize.toNat % 2 ^ 32) && !x.pool.contains l

/-- What becomes of an arrival. -/
inductive Fate where
  | held
  | dropped (s : State)
  | queued (s : State)

/-- An arrival at a postbox: an instance of the bound record on the die queue, dropped and counted when unbound, held
while the pool has no free line. One whose record the accelerator may no longer read is dropped (log 31). -/
def State.arrive (s : State) (p : Nat) (v : Word) : Fate :=
  let d := p / 4096
  let drop := s.onDie d fun x => { x with postdrop := x.postdrop + 1 }
  match mget none s.posts p with
  | none => .dropped drop
  | some b =>
    if !inPackage b.recPa || s.dead (homeDie b.recPa) || !s.granted b.creds.domain b.recPa then .dropped drop
    else match (s.die d).freeLine with
      | none => .held
      | some l =>
        let s := s.readVia d b.recPa 128
        let ws := (s.words b.recPa).mapIdx fun i w =>
          if i = 3 then w ||| 0x8000_0000_0000_0000 else if i = 6 then 0 else w
        let e : QEntry := { id := s.nextId, recVa := b.recVa, recPa := b.recPa, form := .pooled d l, words := ws, creds := b.creds, prio := recPrio ws, payload := v }
        .queued ((({ s with nextId := s.nextId + 1 }.onDie d fun x => { x with pool := x.pool ++ [l] }).setQ e true).queue (.die d) e)

/-- A command for the steward: the 64 bytes at a physical address that the accelerator may read (R346). -/
def State.stewardCommand (s : State) (d : Nat) (a : Word) : State :=
  let pa := a.toNat
  if inPackage pa && s.populated pa && !s.dead (homeDie pa) && s.granted .acc pa then
    let s := s.readVia d pa 64
    let ws := (List.range 8).map fun i => word (readN s.mem (pa + 8 * i) 8)
    s.onDie d fun x => { x with romq := x.romq ++
      [{ code := (wordAt ws 0).toNat % 256, tag := (wordAt ws 0).toNat / 2 ^ 32, stew := .acc, args := ws.drop 1 }] }
  else s

/-- An arrival waits at its postbox for a pool line, behind those that wait there already (R205). -/
def State.holdAtBox (s : State) (m : Msg) (p : Nat) : State :=
  if m.src = .box p then s else { s.drop m.id with msgs := (s.drop m.id).msgs ++ [{ m with src := .box p }] }

/-- A drain's wake that waited at its postbox finds no binding: ERR.NOWAKE of its core (R187). -/
def State.nowake (s : State) (id : Nat) : State :=
  { s with cores := s.cores.map fun (p : Nat × Option Core) => (p.1, p.2.map fun (c : Core) =>
    if c.mill.any fun y => decide (y.ph = .arrived id) then { c with errNowake := true } else c) }

/-- POSTBOX_ARRIVAL: serve one arrival; a SEND's thread is answered when it is accepted (R205, R213, R346). One whose
record the accelerator may no longer read is dropped and counted as at an unbound postbox (DESIGN CHOICE, log 31). One that
has waited for a pool line meets the binding of the moment at which it is served: it is dropped where there is none, and makes
an instance of a new record (DESIGN CHOICE, log 109). A SEND whose arrival waits for a pool line is answered when the
instance is queued (DESIGN CHOICE, log 123). -/
def postServe (id : Nat) (s : State) : State :=
  match s.due id with
  | some ⟨mid, src, dst, after, .post n p v⟩ =>
    let reply := fun (s : State) (r : Word) => match n with | some n => s.complete n r | none => s
    let user : Bool := match n with | some n => decide ((s.thr n).priv = .user) | none => false
    if s.dead (p / 4096) then reply (s.drop id) 0
    else if isSteward p then
      if user then reply (s.drop id) 0
      else if n.isNone then (s.drop id).onDie (p / 4096) fun x => { x with postdrop := x.postdrop + 1 }
      else reply ((s.drop id).stewardCommand (p / 4096) v) 1
    else
      let foreign : Bool := match n, mget none s.posts p with
        | some n, some b => user && decide ((s.thr n).pasid ≠ b.creds.pasid)
        | _, _ => false
      let behind := decide (src ≠ .box p) && s.msgs.any fun m => decide (m.src = .box p)
      if foreign then reply (s.drop id) 0
      else if behind then s.holdAtBox ⟨mid, src, dst, after, .post n p v⟩ p
      else match (s.drop id).arrive p v with
        | .held => s.holdAtBox ⟨mid, src, dst, after, .post n p v⟩ p
        | .dropped s => reply (s.nowake mid) 1
        | .queued s => reply s 1
  | _ => s

end Sys2Proof.Machine
end

