-- ==== Sys2Proof/Machine/Tasks.lean ====
section
/-! DEFINITION. Launching, joining, triggering, retiring and yielding; SPAWN, SEND and BIND; staging, dispatch and the
other events of the queue engine (chapters 6 and 10). -/

namespace Sys2Proof.Machine

/-- The continuation of a task instruction of 8 bytes whose D takes a status. -/
abbrev statusCont (d : Reg) : Cont := { d := some d, len := 8, size := 8, sign := false, va := 0 }

/-- Whether a record's footprint can never be placed on its target (R206). -/
def State.tooLarge (s : State) (t : Target) (ws : List Word) : Bool :=
  decide (256 < recPlots ws) || (match t with
    | .core c => decide ((s.core c).unreserved < recPlots ws)
    | .die _ => false)

/-! ### TASK.PUSH, SHEAF, JOIN -/

/-- TASK.PUSH once the thread's stores are acknowledged: the record read, checked and queued in one step at its home. While
its ring is full the push waits with Q still clear, and reads the record again when an entry frees (DESIGN CHOICE, log
110). -/
def pushRecord (n : Nat) (d : Reg) (r : Word) (t : Target) (s : State) : State :=
  let x := s.readRec n r
  let s := x.2
  match x.1 with
  | .error (c, v) => s.raise n c v
  | .ok (pa, ws) =>
    if s.tooLarge t ws then s.raise n .plots r
    else if s.cut (dieOf (s.thr n).core) t.dieNo then s.write n d 0 replyDelay 8
    else if recQ ws then s.write n d 2 replyDelay 8
    else if s.ringFullFor t (recPrio ws) then s.hold n .hold
    else (s.launch t r pa ws (pushCreds (s.thr n) ws) 0).write n d 1 replyDelay 8

/-- TASK.PUSH (R206). -/
def execTaskPush (d a b : Reg) (s : State) : Result :=
  let n := s.cur
  let r := s.reg n a
  .next (s.check n (misaligned r 128)
    (match targetOf (s.reg n b) with
      | none => s.write n d 3 replyDelay 8
      | some t => s.afterStores n (pushRecord n d r t s)))

/-- SHEAF once the thread's stores are acknowledged: header and template read, and the launch accepted. -/
def acceptSheaf (n : Nat) (d : Reg) (r : Word) (t : Target) (tgt : Nat) (s : State) : State :=
  let x := s.readRec n r
  match x.1 with
  | .error (c, v) => x.2.raise n c v
  | .ok (pa, h) =>
    if !sheafOk h then x.2.write n d 2 replyDelay 8
    else
      let y := x.2.readRec n (wordAt h 0)
      let s := y.2
      match y.1 with
      | .error (c, v) => s.raise n c v
      | .ok (tpa, ws) =>
        if s.tooLarge t ws then s.raise n .plots r
        else if s.cut (dieOf (s.thr n).core) t.dieNo then s.write n d 0 replyDelay 8
        else
          let l : Launch := { id := s.nextId, hdrVa := r, hdrPa := pa, tmplVa := wordAt h 0, tmplPa := tpa, creds := pushCreds (s.thr n) ws, target := tgt }
          { s with launches := s.launches ++ [l], nextId := s.nextId + 1 }.write n d 1 replyDelay 8

/-- SHEAF (R207). -/
def execSheaf (d a b : Reg) (s : State) : Result :=
  let n := s.cur
  let r := s.reg n a
  .next (s.check n (misaligned r 128)
    (match targetOf (s.reg n b) with
      | none => s.write n d 3 replyDelay 8
      | some t => s.afterStores n (acceptSheaf n d r t (s.reg n b).toNat s)))

/-- JOIN once the thread's stores are acknowledged: one atomic step at the record's home slice. -/
def joinRecord (n : Nat) (r : Word) (s : State) : State :=
  let x := s.translate n r .store
  let s := x.2
  match x.1 with
  | .bad c v => s.raise n c v
  | .ok pa kind =>
    match kind with
    | .device | .system => s.raise n .transs r
    | _ =>
      if s.cut (dieOf (s.thr n).core) (homeDie pa) then s.raise n .mchk r
      else if !s.granted (s.domainOf n) pa then s.raise n .deed r
      else
        let m := s.readMeets (dieOf (s.thr n).core) pa 128
        if m.1 then m.2.raise n .mchk r else (m.2.joinAt r pa (s.thr n).creds).finish n 8

/-- JOIN (R208). -/
def execJoin (a : Reg) (s : State) : Result :=
  let n := s.cur
  let r := s.reg n a
  .next (s.check n (misaligned r 128) (s.afterStores n (joinRecord n r s)))

/-! ### TRIG, RETIRE, YIELD -/

/-- The launch and the index of an expanded record that a thread runs. -/
def State.launchOf (s : State) (t : Thread) : Option (Launch × Nat) :=
  match t.work with
  | some ⟨_, _, .expanded _ _ l i, _, _, _, _, _⟩ => (s.launches.find? fun x => x.id = l).map fun x => (x, i)
  | _ => none

/-- TRIG (R209). -/
def execTrig (s : State) : Result :=
  let n := s.cur
  .next (match s.launchOf s.me with
    | none => s.finish n 8
    | some (l, i) => s.afterStores n
        (let h := s.words l.hdrPa
         (s.trigger l h (i / shGroup h)).finish n 8))

/-- The stores and sequencer entries that RETIRE and YIELD await (R104, R210). -/
def State.unfinished (s : State) (n : Nat) : List Nat :=
  s.stores n ++ ((s.core (originOf n)).seq.filter (·.thread = n)).map (·.id)

/-- A resident entry is freed, its log discarded (R306). -/
def State.ctxFree (s : State) (n : Nat) : State :=
  match (s.thr n).ctx with
  | some k => if (s.ctx k).st = CtxSt.resident then s.setCtx k {} else s
  | none => s

/-- RETIRE once nothing is outstanding (R210). -/
def retireNow (n : Nat) (s : State) : State :=
  let t := s.thr n
  let s := match s.launchOf t with | some (l, i) => s.retireOne l i | none => s
  let s := match t.work with
    | some w => (s.freePool w.form).unpin (originOf n) w.plots
    | none => s
  ((s.ctxFree n).vacate n).unhold

/-- RETIRE (R210). -/
def execRetire (s : State) : Result :=
  let n := s.cur
  .next (if (s.unfinished n).isEmpty then retireNow n s else s.await n (s.unfinished n))

/-- Engine commands of a record that waits in a queue after YIELD are kept under this number and its entry's identifier
(R104). -/
abbrev yieldBase : Nat := 0x20_0000

/-- The code word of a record is replaced: a store to its line, or to the pool line of an instance (R104). -/
def yieldWords (w : Work) (pc : Word) : List Word :=
  w.words.mapIdx fun i x => if i = 0 then pc else if i = 3 then x ||| 0x8000_0000_0000_0000 else x

/-- YIELD once nothing is outstanding (R104). -/
def yieldNow (n : Nat) (w : Work) (s : State) : State :=
  let t := s.thr n
  let c := originOf n
  let plain := decide (w.form = .plain)
  if plain && inPackage w.recPa && s.cut (dieOf (s.thr n).core) (homeDie w.recPa) then s.raise n .mchk w.recVa
  else if s.ringFullFor (.core c) w.prio then s.park n .waiting .hold
  else
    let id := s.nextId
    let e : QEntry := { id := id, recVa := w.recVa, recPa := w.recPa, form := w.form, words := yieldWords w (t.pc + 8), creds := t.creds, prio := w.prio, kept := some (w.plots, w.offs) }
    let s := { s with nextId := id + 1 }
    let s := if plain && inPackage w.recPa && s.granted t.domain w.recPa
      then s.hwWrite w.recPa 8 (t.pc + 8).toNat else s
    let s := (s.setQ e true).queue (.core c) e
    let s := s.renameEngines c n (yieldBase + id)
    let s := s.onThr (yieldBase + id) fun x => { x with copyFault := t.copyFault }
    (s.ctxFree n).vacate n

/-- YIELD (R104). -/
def execYield (s : State) : Result :=
  let n := s.cur
  .next (if s.me.lvl ≠ 0 then s.raise n .ill (w0Of .yield)
    else match s.me.work with
      | none => s.finish n 8
      -- A TIMER that falls due meanwhile is taken first: the wait leaves the thread at a boundary.
      | some w => if (s.unfinished n).isEmpty then yieldNow n w s else s.park n .waiting (.ops (s.unfinished n)))

/-! ### SPAWN (R211, R212) -/

/-- Guests that wait for a slot of a core's die take its free slots; `fuel` bounds their number (R97, R243). -/
def State.seatWaiting (s : State) (c : Nat) : Nat → State
  | 0 => s
  | fuel + 1 =>
    match (s.die (dieOf c)).migq, s.freeSlot c with
    | n :: rest, some k => ((s.onDie (dieOf c) fun x => { x with migq := rest }).seat n c k).seatWaiting c fuel
    | _, _ => s

/-- The state in which a thread starts, beside its registers (R197). -/
def State.fresh' (s : State) (c k : Nat) : Thread :=
  { Thread.init (16 * c + k) with run := .ready, core := c, slot := k, kvec := (s.die (dieOf c)).dkvec }

/-- SPAWN_ARRIVAL: the lowest free slot starts at A, or the SPAWN is refused. -/
def spawnServe (id : Nat) (s : State) : State :=
  match s.due id with
  | some ⟨_, _, _, _, .spawn n c code arg wait⟩ =>
    let s := (s.drop id).seatWaiting c 16
    let t := s.thr n
    if t.cont = none then s
    else match s.freeSlot c with
      | some k =>
        let u := { s.fresh' c k with
          pc := code, g := mset 0 (mset 0 [] 0 arg) 1 (word n), atp := t.atp, pasid := t.pasid, priv := t.priv, wid := t.wid }
        (s.setThr (16 * c + k) u).complete n 1
      | none =>
        if !wait then s.complete n 0
        else if 16 ≤ (s.core c).notices.length then s.complete n 2
        else (s.onCore c fun x => { x with notices := x.notices ++ [n] }).park n .sleeping
          (.notice c (match t.cont with | some k => k.d.getD 0 | none => 0))
  | _ => s

/-- SPAWN (R211). -/
def execSpawn (d a b c : Reg) (wait : Bool) (s : State) : Result :=
  let n := s.cur
  let code := s.reg n a
  let k := (s.reg n b).toNat
  .next (s.check n (orElse' (misaligned code 4) (failIf (decide (1023 < k)) .transs (s.reg n b)))
    (s.afterStores n
      (if s.cut (dieOf (s.thr n).core) (dieOf k) then s.write n d 0 replyDelay 8
      else s.askNow n (.core k) [] (.spawn n k code (s.reg n c) wait) (statusCont d) spawnServe)))

/-- SPAWN_ARRIVAL (R97, R211). -/
def execSpawnArrival (id : Nat) (s : State) : Result := .next (spawnServe id s)

/-- SLOT_FREE_NOTICE (R212). -/
def execSlotFreeNotice (c : Nat) (s : State) : Result :=
  .next (if (s.core c).owed = 0 then s else (s.onCore c fun x => { x with owed := x.owed - 1 }).sendNotice c)

/-! ### SEND, BIND, UNBIND (R213, R214) -/

/-- SEND (R213). -/
def execSend (d a b : Reg) (s : State) : Result :=
  let n := s.cur
  let p := (s.reg n a).toNat
  .next (s.afterStores n
    (if 16383 < p || s.cut (dieOf (s.thr n).core) (p / 4096) then s.write n d 0 replyDelay 8
    else s.askNow n (.box p) [] (.post (some n) p (s.reg n b)) (statusCont d) postServe))

/-- BIND past its checks. -/
def bindNow (n : Nat) (d : Reg) (p : Nat) (r : Word) (s : State) : State :=
  if isSteward p || s.cut (dieOf (s.thr n).core) (p / 4096) || (mget none s.posts p).isSome then s.write n d 0 replyDelay 8
  else
    let x := s.readRec n r
    match x.1 with
    | .error (c, v) => x.2.raise n c v
    | .ok (pa, ws) =>
      { x.2 with posts := mset none x.2.posts p (some { recVa := r, recPa := pa, creds := pushCreds (x.2.thr n) ws }) }.write n d 1 replyDelay 8

/-- BIND (R214). -/
def execBind (d a b : Reg) (s : State) : Result :=
  let n := s.cur
  let p := s.reg n a
  let r := s.reg n b
  .next (s.check n (orElse' (privCheck s (.bind d a b))
      (orElse' (failIf (decide (16383 < p.toNat)) .transs p) (misaligned r 128)))
    (s.afterStores n (bindNow n d p.toNat r s)))

/-- UNBIND (R214): of a postbox on a die that the issuer's does not reach too, where R214 names no check (DESIGN CHOICE, log
111). -/
def execUnbind (d a : Reg) (s : State) : Result :=
  let n := s.cur
  let p := s.reg n a
  .next (s.check n (orElse' (privCheck s (.unbind d a)) (failIf (decide (16383 < p.toNat)) .transs p))
    (if isSteward p.toNat then s.write n d 0 replyDelay 8
    else
      let old := match mget none s.posts p.toNat with | some x => x.recVa | none => 0
      { s with posts := mset none s.posts p.toNat none }.write n d old replyDelay 8))

/-- POSTBOX_ARRIVAL (R204, R205). -/
def execPostboxArrival (id : Nat) (s : State) : Result := .next (postServe id s)

/-- DOORBELL_STORE (R204): 8 aligned bytes stored to a doorbell from outside the cores. -/
def execDoorbellStore (box : Nat) (value : Word) (s : State) : Result :=
  .next (if 16384 ≤ box || s.dead (box / 4096) then s
    else s.doorbell (.outside 9) (box / 4096) (0x4_0000 + 8 * (box % 4096)) 8 value)

/-! ### The queue engine: staging (R194 to R196) -/

/-- A record that leaves its queue undispatched: its line of the pool, if any, is free, and its launch may expand on. -/
def State.undone (s : State) (f : Form) : State :=
  match f with
  | .expanded _ _ l _ => { s.freePool f with launches := s.launches.map fun (x : Launch) => if x.id = l then { x with live := x.live - 1 } else x }
  | _ => s.freePool f

/-- An entry is taken out of a core's queue. -/
def State.unqueue (s : State) (c id : Nat) : State :=
  s.onCore c fun x => { x with
    taskq := x.taskq.filter fun e => e.id != id
    staging := x.staging.filter fun g => g.entry.id != id }

/-- A record given up: Q cleared, its notice sent (R196). -/
def State.giveUp (s : State) (c : Nat) (e : QEntry) (code : Nat) : State :=
  ((((s.unqueue c e.id).setQ e false).undone e.form).recNotice (dieOf c) e.recVa code).unhold

/-- A queued record of a core that awaits staging. -/
def State.unstaged (s : State) (c : Nat) (e : QEntry) : Bool :=
  e.kept.isNone && !decide (recPlots (s.entryWords e) = 0) && !(s.core c).staging.any fun g => g.entry.id = e.id

/-- A footprint that a core cannot place even with every unreserved plot free (R136). -/
def Core.hopeless (c : Core) (ws : List Word) : Bool := (placePlots c.plotRsv (recLens ws)).isNone

/-- What the next staging of a core acts on: a record that its unreserved plots can never hold, or the first whose plots
can be placed. -/
inductive Next where
  | none
  | giveUp (e : QEntry)
  | stage (e : QEntry) (plots : BitVec 256) (offs : List Word)

/-- The first of a list that a core can place, or must give up. -/
def State.stageable (s : State) (c : Nat) : List QEntry → Next
  | [] => .none
  | e :: l =>
    let ws := s.entryWords e
    if !s.unstaged c e then s.stageable c l
    else if (s.core c).hopeless ws then .giveUp e
    else if 4 ≤ (s.core c).staging.length then s.stageable c l
    else match (s.core c).place ws with
      | some (p, o) => .stage e p o
      | none => s.stageable c l

/-- Pin the plots of a record and start its fill. -/
def State.stage (s : State) (c : Nat) (e : QEntry) (p : BitVec 256) (o : List Word) : State :=
  s.onCore c fun x => { x with plotPin := x.plotPin ||| p, staging := x.staging ++ [{ entry := e, plots := p, offs := o, filled := false }] }

/-- RECORD_STAGE (R136, R194, R196). -/
def execRecordStage (c : Nat) (s : State) : Result :=
  .next (match s.stageable c (popOrder (s.core c).taskq) with
    | .none => s
    | .giveUp e => s.giveUp c e 15
    | .stage e p o => s.stage c e p o)

/-- Whether core `c` may take a record of its die's queue: a free staging place, and nothing stageable of its own
(R194). -/
def State.mayAsk (s : State) (c : Nat) : Bool :=
  decide (c < 1024) && !s.dead (dieOf c) && decide ((s.core c).staging.length < 4) && (match s.stageable c (popOrder (s.core c).taskq) with | .none => true | _ => false)

/-- The first record of a die's queue, in pop order, that core `c` can place. -/
def State.offerTo (s : State) (c : Nat) : Option (QEntry × BitVec 256 × List Word) :=
  (popOrder (s.die (dieOf c)).ringed).findSome? fun e =>
    if e.kept.isSome then some (e, 0, []) else ((s.core c).place (s.entryWords e)).map fun r => (e, r.1, r.2)

/-- The record moves to the tail of the core's queue and is staged at once. -/
def State.takeFromDie (s : State) (c : Nat) (e : QEntry) (p : BitVec 256) (o : List Word) : State :=
  let s := (s.leaveDie (dieOf c) e).onDie (dieOf c) fun x => { x with asks := x.asks.filter (· != c) }
  let s := s.queue (.core c) e
  (if recPlots (s.entryWords e) = 0 then s else s.stage c e p o).unhold

/-- The die answers the first of the requests, in the order they were made, that it has a record for. -/
def State.answerAsk (s : State) (d : Nat) : State :=
  match (s.die d).asks.findSome? fun c => if s.mayAsk c then (s.offerTo c).map fun r => (c, r) else none with
  | some (c, e, p, o) => s.takeFromDie c e p o
  | none => s

/-- A record of the die queue that no core of the die could ever place is given up (R196). -/
def State.dropHopeless (s : State) (d : Nat) : State :=
  match (popOrder (s.die d).ringed).find? fun e => e.kept.isNone &&
      (List.range 256).all fun k => (s.core (256 * d + k)).hopeless (s.entryWords e) with
  | some e => ((((s.leaveDie d e).setQ e false).undone e.form).recNotice d e.recVa 15).unhold
  | none => s

/-- DIE_QUEUE_REQUEST (R194): a core asks its die's queue; a request without a record for it stands. -/
def execDieQueueRequest (c : Nat) (s : State) : Result :=
  if !s.mayAsk c then .next s
  else
    let d := dieOf c
    let s := s.onDie d fun x => { x with asks := if x.asks.contains c then x.asks else x.asks ++ [c] }
    .next ((s.dropHopeless d).answerAsk d)

/-- Fill footprint ranges of a record into a core's local store, under its credentials, with zeros to the end of each range's last
plot (R136). -/
def State.fillRanges (s : State) (c : Nat) (cr : Creds) (ws : List Word) : List (Nat × Word) → Option Cause × State
  | [] => (none, s)
  | (j, off) :: l =>
    let len := recLen ws j
    let r := s.gread true cr c (recAddr ws j) len (pagesOf len)
    match r.1.2 with
    | some e => (some e, r.2)
    | none =>
      let rest : List Byte := List.replicate ((2048 - len % 2048) % 2048) 0
      { r.2 with loc := writeBytes r.2.loc (c * 0x8_0000 + off.toNat) (r.1.1 ++ rest) }.fillRanges c cr ws l

/-- The fill of a staged record. -/
def State.fillOf (s : State) (c id : Nat) : Option (Stage × Option Cause × State) :=
  match (s.core c).staging.find? fun g => g.entry.id = id && !g.filled with
  | none => none
  | some g => some (g, s.fillRanges c g.entry.creds (s.entryWords g.entry) ((List.range 6).zip g.offs))

/-- FOOTPRINT_FILL_DONE (R194): the footprint stands in the record's plots. -/
def execFootprintFillDone (c id : Nat) (s : State) : Result :=
  .next (match s.fillOf c id with
    | some (_, none, s) => s.onCore c fun x => { x with staging := x.staging.map fun g => if g.entry.id = id then { g with filled := true } else g }
    | _ => s)

/-- The cause of a fill's notice: TRANSL or DEED; the read of a lost die, and one that meets a double-bit error, are taken
as a refusal (DESIGN CHOICE, log 119). -/
def fillCode : Cause → Nat
  | .transl => 6 | _ => 8

/-- FOOTPRINT_FILL_FAULT (R196). -/
def execFootprintFillFault (c id : Nat) (s : State) : Result :=
  .next (match s.fillOf c id with
    | some (g, some e, s) => (s.unpin c g.plots).giveUp c g.entry (fillCode e)
    | _ => s)

/-! ### Dispatch (R195, R197) -/

/-- Whether a queued record may start on a core: its fill is complete, or it has no footprint. -/
def State.startable (s : State) (c : Nat) (e : QEntry) : Bool :=
  e.kept.isSome || decide (recPlots (s.entryWords e) = 0) || (s.core c).staging.any fun g => g.entry.id = e.id && g.filled

def State.nextStart (s : State) (c : Nat) : Option QEntry := (popOrder (s.core c).taskq).find? fun e => s.startable c e

/-- Plots and offsets with which a record starts. -/
def State.plotsOf (s : State) (c : Nat) (e : QEntry) : BitVec 256 × List Word :=
  match e.kept with
  | some k => k
  | none => match (s.core c).staging.find? fun g => g.entry.id = e.id with
    | some g => (g.plots, g.offs)
    | none => (0, [0, 0, 0, 0, 0, 0])

/-- The private registers at dispatch (R197). -/
def startRegs (e : QEntry) (ws offs : List Word) : Map Word :=
  let g := mset 0 [] 0 e.recVa
  let g := (List.range 6).foldl (fun g j => mset 0 g (j + 1) (wordAt offs j)) g
  let g := mset 0 g 7 (wordAt ws 1)
  let g := mset 0 g 8 e.payload
  mset 0 g 12 (wordAt ws 4 &&& 0xFFFF_FFFF_FFFF_FF80)

/-- The thread that a record starts as (R197). -/
def State.startThread (s : State) (c k : Nat) (e : QEntry) : Thread :=
  let ws := s.entryWords e
  let p := s.plotsOf c e
  let w : Work := { recVa := e.recVa, recPa := e.recPa, form := e.form, words := e.words.mapIdx fun i x => if i = 3 then x &&& 0x7FFF_FFFF_FFFF_FFFF else x, plots := p.1, offs := p.2, creds := e.creds, prio := e.prio }
  { s.fresh' c k with
    g := startRegs e ws p.2, pc := wordAt ws 0, wid := wordAt ws 2, atp := e.creds.atp, pasid := e.creds.pasid, priv := e.creds.priv, work := some w }

/-- A record at its first dispatch no longer counts among its launch's queued ones (R202). -/
def State.started (s : State) (e : QEntry) : State :=
  match e.form, e.kept with
  | .expanded _ _ l _, none => { s with launches := s.launches.map fun (x : Launch) => if x.id = l then { x with live := x.live - 1 } else x }
  | _, _ => s

/-- What a record that yielded left at the engines is its thread's again (R104). -/
def State.reclaim (s : State) (c n : Nat) (e : QEntry) : State :=
  if e.kept.isSome then
    let f := (s.thr (yieldBase + e.id)).copyFault
    let s := (s.renameEngines c (yieldBase + e.id) n).onThr n fun t => { t with copyFault := f }
    { s with threads := mset none s.threads (yieldBase + e.id) none }
  else s

/-- A free slot takes the first record that may start, where no guest waits for it (R97). -/
def dispatchNow (c k : Nat) (s : State) : State :=
  if 16 ≤ k || s.dead (dieOf c) || !s.slotFree c k || !(s.die (dieOf c)).migq.isEmpty then s
  else match s.nextStart c with
    | none => s
    | some e =>
      let u := s.startThread c k e
      let s := ((s.setThr (16 * c + k) u).unqueue c e.id).setQ e false
      ((s.started e).reclaim c (16 * c + k) e).unhold

/-- DISPATCH (R195, R197). -/
def execDispatch (c k : Nat) (s : State) : Result := .next (dispatchNow c k s)

/-- SLOT_ALLOT (R97, R243): a free slot takes the first guest that waits on its die, else pops its queue. -/
def execSlotAllot (c k : Nat) (s : State) : Result :=
  if 16 ≤ k || 1024 ≤ c || s.dead (dieOf c) || !s.slotFree c k then .next s
  else match (s.die (dieOf c)).migq with
    | n :: rest => .next ((s.onDie (dieOf c) fun x => { x with migq := rest }).seat n c k)
    | [] => .next (dispatchNow c k s)

/-- OVERFLOW_RETURN (R193): the oldest overflow entry returns on chip. -/
def execOverflowReturn (c : Nat) (s : State) : Result :=
  .next (match (s.core c).overq with
    | [] => s
    | e :: _ =>
      if 32 ≤ (s.core c).taskq.length then s
      else ((s.leaveOver c e).onCore c fun x => { x with taskq := x.taskq ++ [e] }).unhold)

/-- SHEAF_EXPAND (R202): the next record of a launch is made in a pool line and queued, while fewer than 8 are queued. -/
def execSheafExpand (id : Nat) (s : State) : Result :=
  .next (match s.launches.find? fun l => l.id = id with
    | none => s
    | some l =>
      let t : Target := if l.target < 1024 then .core l.target else .die (l.target - 0x1000)
      let d := t.dieNo
      let s := (s.readVia d l.hdrPa 128).readVia d l.tmplPa 128
      let h := s.words l.hdrPa
      let ws := s.words l.tmplPa
      if shCount h ≤ l.next || 8 ≤ l.live || s.dead d || s.ringFullFor t (recPrio ws) then s
      else match (s.die d).freeLine with
        | none => s
        | some k =>
          let e : QEntry := { id := s.nextId, recVa := l.tmplVa, recPa := l.tmplPa, form := .expanded d k l.id l.next, words := expandWords l.hdrVa h ws l.next, creds := l.creds, prio := recPrio ws }
          let s := { s with
            nextId := s.nextId + 1
            launches := s.launches.map fun (x : Launch) => if x.id = id then { x with next := x.next + 1, live := x.live + 1 } else x }
          let s := s.onDie d fun x => { x with pool := x.pool ++ [k] }
          ((s.bumpWord l 80).2.setQ e true).queue t e)

end Sys2Proof.Machine
end

