-- ==== Sys2Proof/Machine/Mill.lean ====
section
/-! DEFINITION. The Mill: its commands, weight latches, gathers, runs, drains and status (chapter 9). -/

namespace Sys2Proof.Machine

/-! ### Formats (R176, R185) -/

def fmtCode : MmFmt → Nat
  | .bf16 => 0 | .e4m3 => 1 | .e5m2 => 2 | .e2m1 => 3 | .i8 => 4

/-- TYPEs that a run's format takes (R185). -/
def fmtTakes (f : MmFmt) (ty : Nat) : Bool :=
  match f with
  | .bf16 => ty == 2 | .e4m3 => ty == 3 || ty == 5 | .e5m2 => ty == 4 || ty == 6
  | .e2m1 => ty == 7 || ty == 8 | .i8 => ty == 0xA

/-- TYPEs of weights and activations (R183, R184). -/
abbrev millType (ty : Nat) : Bool := (decide (2 ≤ ty) && decide (ty ≤ 8)) || ty == 0xA

/-- The pairs of R176, with twice the Mill cycles per row. -/
def comboRate (ann : Nat) (f : MmFmt) : Option Nat :=
  if ann = 2 ∧ f = .bf16 then some 4
  else if 3 ≤ ann ∧ ann ≤ 6 ∧ (f = .e4m3 ∨ f = .e5m2) then some 2
  else if (ann = 7 ∨ ann = 8) ∧ f = .e2m1 then some 1
  else if (ann = 7 ∨ ann = 8) ∧ f = .e4m3 then some 2
  else if ann = 0xA ∧ f = .i8 then some 2
  else none

/-- Occupancy of a run of `r` rows (R174). -/
def occupancy (rate r : Nat) : Nat := Max.max 4 ((r * rate + 1) / 2)

/-! ### Latches -/

abbrev Tile.latch (m : Tile) (w : Nat) : Latch := if w = 0 then m.w0 else m.w1
def Tile.onLatch (m : Tile) (w : Nat) (f : Latch → Latch) : Tile :=
  if w = 0 then { m with w0 := f m.w0 } else { m with w1 := f m.w1 }

/-- E0 = 256 and E2 = E3 = 1. -/
abbrev millShape (r : Shape) : Bool := r.ext 0 == 256 && r.ext 2 == 1 && r.ext 3 == 1
/-- E1 from 1 to 64. -/
abbrev millRows (r : Shape) : Bool := decide (1 ≤ r.ext 1) && decide (r.ext 1 ≤ 64)

/-! ### Commands in a queue (R171, R172) -/

/-- The accumulator a command names. -/
def MillOp.acc : MillOp → Option Nat
  | .run a _ _ _ | .accz a | .drain a _ _ _ _ => some a
  | _ => none

abbrev MillCmd.isRun (x : MillCmd) : Bool := match x.op with | .run _ _ _ _ => true | _ => false
abbrev MillCmd.isGather (x : MillCmd) : Bool := match x.op with | .gather _ _ => true | _ => false
/-- Commands that take the tile bus. -/
abbrev MillCmd.onBus (x : MillCmd) : Bool := match x.op with | .gather _ _ | .loadw _ _ => true | _ => false
/-- A run that has finished streaming. -/
abbrev MillCmd.streamedOut (x : MillCmd) : Bool := decide (x.ph = .streamed)

/-- The commands of every core of a tile; identifiers rise in tile order. -/
def State.tileCmds (s : State) (t : Nat) : List MillCmd :=
  ((List.range 8).map fun l => (s.core (coreOfLane t l)).mill).flatten

/-- Whether earlier commands of its core that name its accumulator let a command start (R172). -/
def accFree (q : List MillCmd) (x : MillCmd) : Bool :=
  match x.op.acc with
  | none => true
  | some a => (q.filter fun y => decide (y.id < x.id) && decide (y.op.acc = some a)).all fun y =>
      x.isRun && y.isRun && y.streamedOut

/-- Whether R172 lets a queued command of core `c` start. A run's implicit gather takes no turn on the tile bus: its rows are
read at the run's grant (DESIGN CHOICE, log 92). -/
def State.millReady (s : State) (c : Nat) (x : MillCmd) : Bool :=
  let q := (s.core c).mill
  let all := s.tileCmds (tileOf c)
  let bus := !x.onBus || (all.filter fun y => y.onBus && decide (y.id < x.id)).isEmpty
  decide (x.ph = .queued) && !s.dead (dieOf c) && accFree q x && bus && (match x.op with
    | .gather _ _ => (q.filter fun y => y.isRun && decide (y.id < x.id)).all MillCmd.streamedOut
    | .loadw w _ => all.all fun y => match y.op with
        | .run _ l _ _ => !(decide (l = w) && decide (y.id < x.id))
        | _ => true
    | .run _ l _ _ =>
        (q.filter fun y => y.isGather && decide (y.id < x.id)).isEmpty && all.all fun y => match y.op with
          | .loadw w _ => !(decide (w = l) && decide (y.id < x.id))
          | _ => true
    | _ => true)

/-- The core that holds a Mill command. -/
def State.millCore (s : State) (id : Nat) : Option (Nat × MillCmd) :=
  s.cores.findSome? fun p => ((s.core p.1).mill.find? fun x => x.id = id).map fun x => (p.1, x)

def Core.setMill (c : Core) (id : Nat) (f : MillCmd → MillCmd) : Core :=
  { c with mill := c.mill.map fun x => if x.id = id then f x else x }

/-- A command completes: its entry is free, and the threads that wait for it go on. -/
def State.millDone (s : State) (c id : Nat) : State :=
  (s.onCore c fun x => { x with mill := x.mill.filter fun y => y.id != id }).settleCore c

/-- The earliest run of a lane that R172 lets start. -/
def State.laneRun (s : State) (t l : Nat) : Option MillCmd :=
  (s.core (coreOfLane t l)).mill.find? fun x => x.isRun && s.millReady (coreOfLane t l) x

/-- The next lane's visit begins; after the last, a new round under the weights of now. -/
def Tile.nextLane (m : Tile) : Tile :=
  if m.lane = 7 then { m with lane := 0, used := 0, rwt := m.wt } else { m with lane := m.lane + 1, used := 0 }

/-- Visits end until one of a lane that has a run which can start (R173). -/
def State.nextVisit (s : State) (t : Nat) : Nat → State
  | 0 => s
  | k + 1 => if (s.laneRun t (s.tile t).lane).isSome then s else (s.onTile t Tile.nextLane).nextVisit t k

/-- The array is free: a lane none of whose runs can start leaves its visit, and with no run that can start, every lane
does and the round ends (R173). -/
def State.arrayFree (s : State) (t : Nat) : State :=
  let s := s.onTile t fun m => { m with holder := none }
  if (List.range 8).any fun l => (s.laneRun t l).isSome then s.nextVisit t 8 else s.onTile t fun m => { m with idle := true }

/-- The run that holds the array has finished streaming, some time after its grant. -/
def State.streamEnd (s : State) (t : Nat) : State :=
  match (s.tile t).holder with
  | none => s
  | some id =>
    ((List.range 8).foldl (fun s l => s.onCore (coreOfLane t l) fun c =>
      c.setMill id fun x => if x.ph = .streaming then { x with ph := .streamed } else x) s).arrayFree t

/-! ### Reading rows (R177 to R180) -/

/-- A row of elements as bytes, and the tags of its eight blocks. -/
abbrev Row := List Byte × List (BitVec 16)

/-- The byte of an element that an error poisons: the canonical NaN, or 0 of I8. -/
def nanByte (ty p : Nat) : Byte :=
  if ty = 2 then (if p % 2 = 0 then 0xC0 else 0x7F) else if ty = 3 ∨ ty = 5 then 0x7F else if ty = 4 ∨ ty = 6 then 0x7E else 0

/-- Row `i1` of a record in a core's local store. `errs` are local-store bytes, as keys of `State.loc`, whose 8-byte words
have double-bit errors; an E2M1 block of one becomes a NaN block. -/
def State.row (s : State) (c : Nat) (r : Shape) (i1 : Nat) (errs : List Nat) : Row :=
  let a := c * 0x8_0000 + r.byteOf ⟨0, i1, 0, 0⟩
  let hit := fun (k : Nat) => errs.any fun e => decide (e / 8 = k / 8)
  let bytes := (readBytes s.loc a r.rowBytes).zipIdx.map fun p =>
    if hit (a + p.2) && typeBits r.ty != 4 then nanByte r.ty p.2 else p.1
  let tags := (List.range 8).map fun b =>
    let tk := c * 0x8_0000 + r.tagOf ⟨32 * b, i1, 0, 0⟩
    let bad := hit tk || (typeBits r.ty == 4 && (List.range 16).any fun i => hit (a + 16 * b + i))
    if !isBlock r.ty then 0x007F else if bad then 0x00FF else s.tag c r ⟨32 * b, i1, 0, 0⟩
  (bytes, tags)

/-- A row that an error in its index entry poisons: canonical NaNs, or zeros of I8 (DEDUCED from R180, log 19). -/
def nanRow (r : Shape) : Row :=
  ((List.range r.rowBytes).map (nanByte r.ty), List.replicate 8 (if isBlock r.ty then 0x00FF else 0x007F))

/-- Whether a command's row reads the word of an error. -/
def State.rowHit (c : Nat) (r : Shape) (i1 : Nat) (err : Nat) : Bool :=
  let a := c * 0x8_0000 + r.byteOf ⟨0, i1, 0, 0⟩
  (decide (a / 8 ≤ err / 8) && decide (err / 8 ≤ (a + r.rowBytes - 1) / 8))
    || (isBlock r.ty && (List.range 8).any fun b => decide (err / 8 = (c * 0x8_0000 + r.tagOf ⟨32 * b, i1, 0, 0⟩) / 8))

/-- The words of the local stores with a double-bit error, as an engine's command meets them: the event's, and those that
stand (R180; log 19). -/
def State.locErrs (s : State) (err : Option Nat) : List Nat :=
  err.toList ++ s.flaws.filterMap fun p => if p.1 && !err.any fun e => decide (e / 8 = p.2) then some (8 * p.2) else none

/-- MCHK in the issuing thread for each word with an error that its command has read, with the local offset (R180). -/
def State.localChecks (s : State) (n : Nat) (errs : List Nat) (read : Nat → Bool) : State :=
  (errs.filter read).foldl (fun s e => s.machineCheck n (word (e % 0x8_0000))) s

/-- Element `k` of a row as a value of a TYPE. -/
def rowNum (ty : Nat) (row : Row) (k : Nat) : Num :=
  let bits := typeBits ty
  let b := fun (i : Nat) => (row.1.getD i 0).toNat
  let code := if bits = 16 then b (2 * k) + 256 * b (2 * k + 1) else if bits = 8 then b k else b (k / 2) / 16 ^ (k % 2) % 16
  decodeElem ty code (row.2.getD (k / 32) 0)

def rowInt (row : Row) (k : Nat) : Int := intOf 0xA ((row.1.getD k 0).toNat)

/-! ### MM.LOADW (R183) -/

/-- Take an entry of the Mill's queue. -/
def State.millQueue (s : State) (n : Nat) (op : MillOp) (len : Nat) : State :=
  let id := s.nextId
  ({ s with nextId := id + 1 }.onCore (originOf n) fun c => { c with mill := c.mill ++ [({ id := id, thread := n, op := op } : MillCmd)] }).finish n len

/-- MM.LOADW. -/
def execMmLoadw (d : Unit2) (a : Slot) (s : State) : Result :=
  let n := s.cur
  let c := originOf n
  let w := d.toNat
  let bad := s.raise n .ill (w0Of (.mmLoadw d a))
  .next (if ((s.tile (tileOf c)).latch w).claim ≠ some (laneOf c) then bad
    else match mget none s.me.shapes a.toNat with
      | none => bad
      | some r =>
        if !(millType r.ty && millShape r && r.ext 1 == 256) then bad
        else s.taking n .mill 1 fun s =>
          (s.onTile (tileOf c) fun m => m.onLatch w fun l => { l with ann := some r.ty }).millQueue n (.loadw w r) 8)

/-- MILL_LOADW_EXEC (R177, R180, R183). -/
def execMillLoadwExec (id : Nat) (err : Option Nat) (s : State) : Result :=
  .next (match s.millCore id with
    | some (c, ⟨_, n, .loadw w r, ph, rows⟩) =>
      if !s.millReady c ⟨id, n, .loadw w r, ph, rows⟩ then s
      else
        let errs := s.locErrs err
        let cols := (List.range 256).map fun i1 => s.row c r i1 errs
        let s := s.onTile (tileOf c) fun m => m.onLatch w fun l =>
          { l with type := some r.ty, elems := (cols.map (·.1)).flatten, tags := (cols.map (·.2)).flatten }
        (s.localChecks n errs fun e => (List.range 256).any fun i => State.rowHit c r i e).millDone c id
    | _ => s)

/-! ### MM.GATHER (R184) -/

/-- The two records' rules (R178, R184). -/
def gatherOk (r x : Shape) : Bool :=
  millType r.ty && millShape r && x.ty == 0x10 && decide (1 ≤ x.ext 0) && decide (x.ext 0 ≤ 64)
    && x.ext 1 == 1 && x.ext 2 == 1 && x.ext 3 == 1

/-- MM.GATHER. -/
def execMmGather (d a : Slot) (s : State) : Result :=
  let n := s.cur
  .next (match mget none s.me.shapes d.toNat, mget none s.me.shapes a.toNat with
    | some r, some x =>
      if gatherOk r x then s.taking n .mill 1 fun s => s.millQueue n (.gather r x) 8
      else s.raise n .ill (w0Of (.mmGather d a))
    | _, _ => s.raise n .ill (w0Of (.mmGather d a)))

/-- The lane and row of entry `m` of an index vector. -/
def State.gatherAt (s : State) (c : Nat) (x : Shape) (m : Nat) : Nat × Nat :=
  let v := s.elem c x ⟨m, 0, 0, 0⟩
  (v / 2 ^ 13 % 8, v % 2 ^ 13)

/-- MILL_GATHER_EXEC (R178 to R180, R184). -/
def execMillGatherExec (id : Nat) (err : Option Nat) (s : State) : Result :=
  .next (match s.millCore id with
    | some (c, ⟨_, n, .gather r x, ph, rows⟩) =>
      let u := s.streamEnd (tileOf c)
      if !u.millReady c ⟨id, n, .gather r x, ph, rows⟩ then s
      else
        let errs := u.locErrs err
        let idx := fun (m : Nat) => (c * 0x8_0000 + x.byteOf ⟨m, 0, 0, 0⟩) / 8
        let at' := (List.range (x.ext 0)).map fun m =>
          (u.gatherAt c x m, errs.any fun e => decide (idx m = e / 8))
        let got := at'.map fun p =>
          if p.2 then nanRow r
          else if p.1.2 < r.ext 1 then u.row (coreOfLane (tileOf c) p.1.1) r p.1.2 errs
          else (List.replicate r.rowBytes 0, List.replicate 8 0)
        let out := at'.any fun p => !p.2 && decide (r.ext 1 ≤ p.1.2)
        let u := u.onCore c fun k => { k with latchRows := some got, errIdx := k.errIdx || out }
        (u.localChecks n errs fun e => (List.range (x.ext 0)).any (fun m => decide (idx m = e / 8))
          || at'.any fun p => !p.2 && decide (p.1.2 < r.ext 1) && State.rowHit (coreOfLane (tileOf c) p.1.1) r p.1.2 e).millDone c id
    | _ => s)

/-! ### MM.RUN (R185) -/

/-- MM.RUN. -/
def execMmRun (d a : Unit2) (b : Slot) (fmt : MmFmt) (s : State) : Result :=
  let n := s.cur
  let c := originOf n
  let bad := s.raise n .ill (w0Of (.mmRun d a b fmt))
  .next (match mget none s.me.shapes b.toNat with
    | none => bad
    | some r =>
      if !(fmtTakes fmt r.ty && millShape r && millRows r) then bad
      else match ((s.tile (tileOf c)).latch a.toNat).ann with
        | none => bad
        | some t =>
          if (comboRate t fmt).isNone then s.raise n .mmcombo (word (t * 256 + fmtCode fmt))
          else s.taking n .mill 1 fun s => s.millQueue n (.run d.toNat a.toNat fmt r) 8)

/-- Gathered bytes that a run's format needs and its gather did not read are free values (R185). -/
def State.padRow (s : State) (need : Nat) (row : Row) : Row × State :=
  let k := need - row.1.length
  ((row.1 ++ (List.range k).map fun i => (Config.freeValue (s.free + i)).setWidth 8, row.2), { s with free := s.free + k })

def State.padRows (s : State) (need : Nat) : List Row → List Row × State
  | [] => ([], s)
  | r :: rs =>
    let p := s.padRow need r
    let q := p.2.padRows need rs
    (p.1 :: q.1, q.2)

/-- The rows that a run multiplies: those of the latest gather, unless an earlier run uses them, else its own B
record's (R179). A run that starts ahead of an earlier one of its core leaves the gathered rows to that one (DEDUCED, log
106). -/
def State.runRows (s : State) (c : Nat) (x : MillCmd) (r : Shape) : List Row × State :=
  let k := s.core c
  let mine := k.latchRows.isSome && !k.mill.any fun y => y.isRun && decide (y.ph = .queued) && decide (y.id < x.id)
  match mine, k.latchRows with
  | true, some rows => (s.onCore c fun k => { k with latchRows := none }).padRows r.rowBytes rows
  | _, _ =>
    let errs := s.locErrs none
    ((List.range (r.ext 1)).map fun i => s.row c r i errs,
      s.localChecks x.thread errs fun e => (List.range (r.ext 1)).any fun i => State.rowHit c r i e)

/-- A run takes the array: its rows are gathered and its occupancy is counted (R173, R174, R181). A latch whose announced
load a warm reset has discarded serves with what it holds: its old weights under their TYPE, or zeros of BF16, at rate 2
where R176 has no pair (DESIGN CHOICE, log 107). -/
def State.grantRun (s : State) (t l : Nat) (x : MillCmd) : State :=
  match x.op with
  | .run _ w fmt r =>
    let c := coreOfLane t l
    let g := s.runRows c x r
    let s := g.2
    let rate := (comboRate (((s.tile t).latch w).type.getD 2) fmt).getD 2
    let o := word (occupancy rate g.1.length)
    let s := s.onCore c fun k => k.setMill x.id fun y => { y with ph := .streaming, rows := g.1 }
    s.onTile t fun m => { m with
      holder := some x.id, used := m.used + 1, busy := m.busy + o, cyc := mset 0 m.cyc l (mget 0 m.cyc l + o) }
  | _ => s

/-- The rounds of R173: the lane in its visit, else the next that has a run which can start. -/
def State.nextGrant (s : State) (t : Nat) : Nat → State
  | 0 => s
  | k + 1 =>
    let m := s.tile t
    match s.laneRun t m.lane with
    | some x =>
      if m.used ≤ mget 0 m.rwt m.lane then s.grantRun t m.lane x
      else (s.onTile t Tile.nextLane).nextGrant t k
    | none => (s.onTile t Tile.nextLane).nextGrant t k

/-- A round begins, under the weights of now, when none is in progress (R173). -/
def Tile.wakeRound (m : Tile) : Tile := if m.idle then { m with idle := false, lane := 0, used := 0, rwt := m.wt } else m

/-- MILL_RUN_GRANT (R173, R185): the run that held the array has streamed out; where no run can start, the round ends. -/
def execMillRunGrant (t : Nat) (s : State) : Result :=
  let e := s.streamEnd t
  let u := e.onTile t Tile.wakeRound
  .next (if (List.range 8).any fun l => (u.laneRun t l).isSome then u.nextGrant t 17 else e)

/-- One group of R84: exact sum, one rounding, the flush. -/
def groupFp (wt at' : Nat) (col row : Row) (acc g : Nat) : Nat :=
  let sum := (List.range 32).foldl (fun (a : Num) k => a.add ((rowNum wt col (32 * g + k)).mul (rowNum at' row (32 * g + k))))
    (.fin true 0 0)
  let r := fp32.round .rne false ((fp32.decode acc).add sum)
  if r / 2 ^ 23 % 256 = 0 then r / 2 ^ 31 * 2 ^ 31 else r

/-- One group of R86: exact, wrapping in I32. -/
def groupInt (col row : Row) (acc g : Nat) : Nat :=
  let sum := (List.range 32).foldl (fun (a : Int) k => a + rowInt col (32 * g + k) * rowInt row (32 * g + k)) 0
  (((acc : Int) + sum) % 2 ^ 32).toNat

/-- Column `n` of a latch. -/
def Latch.col (l : Latch) (n : Nat) : Row :=
  let k := typeBits (l.type.getD 2) * 32
  ((l.elems.drop (n * k)).take k, (l.tags.drop (n * 8)).take 8)

abbrev accKey (a m n : Nat) : Nat := a * 16384 + m * 256 + n

/-- Accumulate the rows of a run (R84 to R86, R185). Whether its rows have tags goes by the TYPE of its B record (DESIGN
CHOICE, log 115). -/
def Core.accumulate (c : Core) (l : Latch) (a : Nat) (fmt : MmFmt) (ty : Nat) (rows : List Row) : Core :=
  let wt := l.type.getD 2
  (List.range 256).foldl (fun (c : Core) n =>
    let col := l.col n
    rows.zipIdx.foldl (fun (c : Core) p =>
      let old := (mget 0 c.acc (accKey a p.2 n)).toNat
      let new := (List.range 8).foldl (fun acc g =>
        if fmt = .i8 then groupInt col p.1 acc g else groupFp wt ty col p.1 acc g) old
      { c with acc := mset 0 c.acc (accKey a p.2 n) (BitVec.ofNat 32 new) }) c) c

/-- MILL_RUN_COMPLETE (R84 to R86, R174): updates of one accumulator apply in queue order. -/
def execMillRunComplete (id : Nat) (s : State) : Result :=
  .next (match s.millCore id with
    | some (c, ⟨_, _, .run a w fmt r, ph, rows⟩) =>
      if ph = .queued ∨ s.dead (dieOf c) ∨ ((s.core c).mill.any fun y => y.isRun && decide (y.op.acc = some a) && decide (y.id < id)) then s
      else
        let t := tileOf c
        let held := decide ((s.tile t).holder = some id)
        let l := (s.tile t).latch w
        let s := s.onCore c fun k => k.accumulate l a fmt r.ty rows
        let s := (s.onTile t fun m => { m with runs := m.runs + 1 }).millDone c id
        if held then s.arrayFree t else s
    | _ => s)

/-! ### MM.ACCZ (R186) -/

/-- MM.ACCZ. -/
def execMmAccz (d : Unit2) (s : State) : Result :=
  let n := s.cur
  .next (s.taking n .mill 1 fun s => s.millQueue n (.accz d.toNat) 8)

/-- MILL_ACCZ_EXEC (R186). -/
def execMillAcczExec (id : Nat) (s : State) : Result :=
  .next (match s.millCore id with
    | some (c, ⟨_, n, .accz a, ph, rows⟩) =>
      if !s.millReady c ⟨id, n, .accz a, ph, rows⟩ then s
      else (s.onCore c fun k => { k with acc := k.acc.filter fun p => !decide (p.1 / 16384 = a) }).millDone c id
    | _ => s)

/-! ### MM.DRAIN (R187) -/

/-- TYPEs that a drain writes. -/
abbrev drainType (ty : Nat) : Bool := decide (ty ≤ 8) || ty == 0xC

/-- MM.DRAIN. -/
def execMmDrain (d : Unit2) (a : Slot) (dest : DrainTo) (s : State) : Result :=
  let n := s.cur
  let bad := s.raise n .ill (w0Of (.mmDrain d a dest))
  let target : Word := match dest with
    | .own => word (originOf n) | .remote c => s.reg n c | .wake _ c => s.reg n c
  let box : Word := match dest with | .wake b _ => s.reg n b | _ => 0
  let mode := match dest with | .own => 0 | .remote _ => 1 | .wake _ _ => 2
  .next (match mget none s.me.shapes a.toNat with
    | none => bad
    | some r =>
      if !(drainType r.ty && millShape r && millRows r) then bad
      else if 1023 < target.toNat ∧ mode ≠ 0 then s.raise n .transs target
      else if 16383 < box.toNat then s.raise n .transs box
      else if s.cut (dieOf s.me.core) (dieOf target.toNat) then s.raise n .mchk target
      else s.taking n .mill 1 fun s => s.millQueue n (.drain d.toNat r mode target.toNat box.toNat) 8)

/-- Write one element of a drained row: `poison` marks one that an error replaces. -/
def drainCode (ty acc : Nat) (poison : Bool) : Nat :=
  if ty = 0xC then (if poison then 0 else acc)
  else if ty = 0 then (if poison then fp32.nan else acc)
  else convert 0 ty (if poison then fp32.nan else acc) 0 .rne false

/-- Write row `m` of an accumulator as a record's row (R187). An element is poisoned whose target byte lies in the word that
`err` names, or whose accumulator word has a double-bit error (R180; log 19). -/
def State.drainRow (s : State) (k : Core) (a dst : Nat) (r : Shape) (err : Option Nat) (m : Nat) : State :=
  let val := fun (i : Nat) => (mget 0 k.acc (accKey a m i)).toNat
  let bad := fun (i : Nat) => k.accErr.contains (accKey a m i) || match err with
    | some e => decide (r.byteOf ⟨i, m, 0, 0⟩ / 8 = e / 8)
    | none => false
  if isBlock r.ty then
    (List.range 8).foldl (fun s b =>
      let xs := (List.range 32).map fun i => if bad (32 * b + i) then Num.nan else fp32.decode (val (32 * b + i))
      let q := quantise r.ty xs .rne false
      let s := q.1.zipIdx.foldl (fun s p => s.setElem dst r ⟨32 * b + p.2, m, 0, 0⟩ p.1) s
      s.setTag dst r ⟨32 * b, m, 0, 0⟩ q.2) s
  else (List.range 256).foldl (fun s i => s.setElem dst r ⟨i, m, 0, 0⟩ (drainCode r.ty (val i) (bad i))) s

/-- MILL_DRAIN_EXEC (R187): the rows are written, with MCHK for each double-bit error that the drain reads (R180); a drain to
a lost die ends with ERR.LOST, and one to a halted die or over a closed way waits (R336, R337). -/
def execMillDrainExec (id : Nat) (err : Option Nat) (s : State) : Result :=
  .next (match s.millCore id with
    | some (c, ⟨_, n, .drain a r mode dst box, ph, rows⟩) =>
      if !s.millReady c ⟨id, n, .drain a r mode dst box, ph, rows⟩ then s
      else if s.cut (dieOf c) (dieOf dst) then (s.onCore c fun k => { k with errLost := true }).millDone c id
      else if !s.linksOpen (dieOf c) (dieOf dst) then s.meetLinks (dieOf c) (dieOf dst)
      else
        let k := s.core c
        let s := (List.range (r.ext 1)).foldl (fun s m => s.drainRow k a dst r err m) s
        let named := err.toList.map (· % 0x8_0000)
        let errs := (k.accErr.filter fun e => decide (e / 16384 = a ∧ e % 16384 / 256 < r.ext 1)).map fun e =>
          r.byteOf ⟨e % 256, e % 16384 / 256, 0, 0⟩
        let s := (named ++ errs.filter fun e => !named.any fun x => decide (x / 8 = e / 8)).foldl (fun s e => s.machineCheck n (word e)) s
        if mode = 2 then s.onCore c fun k => k.setMill id fun y => { y with ph := .waking } else s.millDone c id
    | _ => s)

/-- MILL_DRAIN_WAKE (R55, R187): the wake follows the last write; without a bound record it is dropped, and behind
arrivals that wait at its postbox, or for a pool line, it waits there (R205). One whose postbox lies on a lost die sends no
wake and sets ERR.LOST, as for a lost target; one that waits at its postbox when that die is lost completes with no error
bit (DESIGN CHOICE, log 86). -/
def execMillDrainWake (id : Nat) (s : State) : Result :=
  .next (match s.millCore id with
    | some (c, ⟨_, _, .drain _ r _ dst box, .waking, _⟩) =>
      let v := word (dst * 2 ^ 32 + r.base)
      let wait := fun (s : State) =>
        let m := s.nextId
        { s with
          nextId := m + 1
          msgs := s.msgs ++ [({ id := m, src := .box box, dst := .box box, body := .post none box v } : Msg)] }.onCore c fun k =>
            k.setMill id fun y => { y with ph := .arrived m }
      if s.cut (dieOf c) (box / 4096) || s.cut (dieOf c) (dieOf dst) then (s.onCore c fun k => { k with errLost := true }).millDone c id
      else if !s.linksOpen (dieOf c) (box / 4096) then s.meetLinks (dieOf c) (box / 4096)
      else if s.msgs.any fun m => decide (m.src = .box box) then wait s
      else match s.arrive box v with
        | .held => wait s
        | .dropped s => (s.onCore c fun k => { k with errNowake := true }).millDone c id
        | .queued s => s.millDone c id
    | some (c, ⟨_, _, .drain _ _ _ _ _, .arrived m, _⟩) => if (s.msg m).isSome then s else s.millDone c id
    | _ => s)

/-! ### MM.WAIT, MM.CFG, MM.STAT (R188 to R190) -/

/-- MM.WAIT. -/
def execMmWait (d : Option Unit2) (s : State) : Result :=
  let n := s.cur
  let q := (s.core (originOf n)).mill
  let ids := (match d with
    | none => q
    | some a => q.filter fun x => decide (x.op.acc = some a.toNat)).map fun (x : MillCmd) => x.id
  .next (if ids.isEmpty then s.finish n 8 else s.park n .sleeping (.engine ids none))

/-- MM.CFG OP 0: claim. -/
def execMmClaim (d : Reg) (l : Unit2) (s : State) : Result :=
  let n := s.cur
  let c := originOf n
  let t := tileOf c
  let free := ((s.tile t).latch l.toNat).claim.isNone
  let s := if free then s.onTile t fun m => m.onLatch l.toNat fun x => { x with claim := some (laneOf c), own := laneOf c } else s
  .next (s.write n d (if ((s.tile t).latch l.toNat).claim = some (laneOf c) then 1 else 0) 7 8)

/-- MM.CFG OP 1: release. -/
def execMmRelease (d : Reg) (l : Unit2) (s : State) : Result :=
  let n := s.cur
  let c := originOf n
  let t := tileOf c
  .next (if ((s.tile t).latch l.toNat).claim = some (laneOf c) then
      (s.onTile t fun m => m.onLatch l.toNat fun x => { x with claim := none }).write n d 1 7 8
    else s.write n d 0 7 8)

/-- MM.CFG OP 2: set this lane's weight. -/
def execMmSetWeight (d a : Reg) (s : State) : Result :=
  let n := s.cur
  let c := originOf n
  let t := tileOf c
  let old := mget 0 (s.tile t).wt (laneOf c) + 1
  let new := Min.min (Max.max (s.reg n a).toNat 1) 8
  .next (s.check n (privCheck s (.mmSetWeight d a))
    ((s.onTile t fun m => { m with wt := mset 0 m.wt (laneOf c) (new - 1) }).write n d (word old) 7 8))

/-- A latch's half of MM.STAT. The claiming lane of an unclaimed latch reads 0 (DESIGN CHOICE, log 108). -/
def Latch.stat (l : Latch) : Nat :=
  (match l.claim with | some o => 2 ^ 15 + o * 2 ^ 12 | none => 0) + (match l.ann with | some t => 2 ^ 11 + t | none => 0)

/-- The word that MM.STAT reads (R190). -/
def State.millStat (s : State) (c : Nat) : Word :=
  let k := s.core c
  let m := s.tile (tileOf c)
  let b := fun (p : Bool) (i : Nat) => if p then 2 ^ i else 0
  word (b k.errLost 55 + b k.errNowake 54 + b k.errIdx 53 + mget 0 m.wt (laneOf c) * 2 ^ 48 + k.mill.length * 2 ^ 44
    + b k.latchRows.isSome 43 + (k.latchRows.getD []).length * 2 ^ 36 + m.w1.stat * 2 ^ 16 + m.w0.stat)

/-- MM.STAT. -/
def execMmStat (d : Reg) (s : State) : Result :=
  let n := s.cur
  let c := originOf n
  .next ((s.onCore c fun k => { k with errLost := false, errNowake := false, errIdx := false }).write n d (s.millStat c) 7 8)

end Sys2Proof.Machine
end

