-- ==== Sys2Proof/Machine/Copy.lean ====
section
/-! DEFINITION. Copy commands, their conversions and flags, and CP.WAIT (R215 to R219). -/

namespace Sys2Proof

open Machine

/-! ### Sizes (R216) -/

/-- Elements of a command: those of the source TYPE in its length, or its bytes. -/
def CpArgs.count (x : CpArgs) (len : Nat) : Nat := if x.conv then len * 8 / typeBits x.srct.toNat else len

/-- Bytes of `n` elements of a TYPE, tags apart. -/
abbrev Machine.bytesOf (ty n : Nat) : Nat := (n * typeBits ty + 7) / 8

/-- Bytes of tags of `n` elements: 2 for each block of 32. -/
def Machine.tagBytes (ty n : Nat) : Nat := if isBlock ty then 2 * (n / 32) else 0

def CpArgs.srcBytes (x : CpArgs) (len : Nat) : Nat := if x.conv then len + tagBytes x.srct.toNat (x.count len) else len
def CpArgs.dstBytes (x : CpArgs) (len : Nat) : Nat :=
  if x.conv then bytesOf x.dstt.toNat (x.count len) + tagBytes x.dstt.toNat (x.count len) else len

/-- The checks of CONV, SCALE and the TYPEs. -/
def CpArgs.bad (x : CpArgs) (len : Nat) : Bool :=
  let st := x.srct.toNat
  let dt := x.dstt.toNat
  if !x.conv then decide (st ≠ 0 ∨ dt ≠ 0 ∨ x.scale ≠ 0 ∨ x.sat = true ∨ x.rm ≠ .rne)
  else decide (x.scale = 0xFF) || !typeOk st || !typeOk dt || (isBlock dt && !isFloat st)
    || decide (len * 8 % typeBits st ≠ 0) || ((isBlock st || isBlock dt) && decide (x.count len % 32 ≠ 0))

/-- How many elements of a conversion are read and written at a time: a block as one unit (R74), else each for itself. -/
def CpArgs.unit (x : CpArgs) : Nat := if isBlock x.srct.toNat || isBlock x.dstt.toNat then 32 else 1

namespace Machine

abbrev CopyDir.localSrc (d : CopyDir) : Bool := d == .l2g || d == .l2l
abbrev CopyDir.localDst (d : CopyDir) : Bool := d == .g2l || d == .l2l

/-- The checks of a copy command, in the order of R216. -/
def cpCheck (s : State) (i : Instr) (dir : CopyDir) (x : CpArgs) : Refuse :=
  let n := s.cur
  let a := s.reg n x.a
  let b := s.reg n x.b
  let len := (s.reg n x.c).toNat
  let core := b.toNat / 2 ^ 32
  let ill := w0Of i
  orElse' (failIf (decide (2 ^ 32 ≤ len)) .ill ill) (orElse' (failIf (x.bad len) .ill ill)
    (orElse' (failIf (dir.localSrc && decide (0x8_0000 < a.toNat + x.srcBytes len)) .transl a)
    (orElse' (failIf (dir.localDst && (decide (1023 < core) || decide (0x8_0000 < b.toNat % 2 ^ 32 + x.dstBytes len))) .transs b)
    (orElse' (failIf (x.flag && decide ((s.reg n x.d).toNat % 8 ≠ 0)) .align (s.reg n x.d))
    (orElse' (failIf (!x.flag && decide (x.d ≠ 0 ∨ x.value ≠ 0)) .ill ill)
      (failIf (dir.localDst && s.cut (dieOf s.me.core) (dieOf core)) .mchk b))))))

/-- The shared operation of the copy instructions: operands are read at issue. The command takes two identifiers: its own,
and the one under which a FENCE at system scope knows it (R275). -/
def cpOp (i : Instr) (dir : CopyDir) (x : CpArgs) (s : State) : State :=
  let n := s.cur
  s.check n (cpCheck s i dir x) (s.taking n .copy 1 fun s =>
    let id := s.nextId
    let y : CopyCmd := { id := id, thread := n, dir := dir, args := x, src := s.reg n x.a, dst := s.reg n x.b, len := (s.reg n x.c).toNat, flag := s.reg n x.d, creds := (s.thr n).creds, after := s.stores n }
    ({ s with nextId := id + 2 }.onCore (originOf n) fun c => { c with copy := c.copy ++ [y] }).finish n 16)

/-- CP.G2L (R216). -/
def execCpG2l (x : CpArgs) (s : State) : Result := .next (cpOp (.cpG2l x) .g2l x s)
/-- CP.L2G (R216). -/
def execCpL2g (x : CpArgs) (s : State) : Result := .next (cpOp (.cpL2g x) .l2g x s)
/-- CP.L2L (R216). -/
def execCpL2l (x : CpArgs) (s : State) : Result := .next (cpOp (.cpL2l x) .l2l x s)
/-- CP.G2G (R216). -/
def execCpG2g (x : CpArgs) (s : State) : Result := .next (cpOp (.cpG2g x) .g2g x s)

/-! ### Execution at the channel -/

/-- `k` bytes of the source from its byte `o`: those before a fault, and the fault. -/
def CopyCmd.read (x : CopyCmd) (c o k : Nat) (s : State) : (List Byte × Option Cause) × State :=
  if x.dir.localSrc then ((readBytes s.loc (c * 0x8_0000 + x.src.toNat + o) k, none), s)
  else s.gread false x.creds c (x.src + word o) k (pagesOf k)

/-- Write bytes at the destination's byte `o`. -/
def CopyCmd.write (x : CopyCmd) (c o : Nat) (bs : List Byte) (s : State) : Option Cause × State :=
  if x.dir.localDst then
    (none, { s with loc := writeBytes s.loc (x.dst.toNat / 2 ^ 32 * 0x8_0000 + x.dst.toNat % 2 ^ 32 + o) bs })
  else s.gwrite x.creds c (x.dst + word o) bs (pagesOf bs.length)

/-- The code of element `i` of a byte string of a TYPE. -/
def codeAt (ty : Nat) (bs : List Byte) (i : Nat) : Nat :=
  if typeBits ty = 4 then (bs.getD (i / 2) 0).toNat / 16 ^ (i % 2) % 16
  else natOfBytes ((bs.drop (i * elemBytes ty)).take (elemBytes ty))

/-- A byte of two 4-bit codes, the even element's low. -/
abbrev nibbles (lo hi : Nat) : Byte := BitVec.ofNat 8 (lo % 16 + 16 * (hi % 16))

/-- Codes as bytes: two of a 4-bit TYPE to a byte. -/
def codeBytes4 : List Nat → List Byte
  | a :: b :: l => nibbles a b :: codeBytes4 l
  | _ => []

def codesToBytes (ty : Nat) (codes : List Nat) : List Byte :=
  if typeBits ty = 4 then codeBytes4 codes
  else (codes.map fun x => (List.range (elemBytes ty)).map fun i => BitVec.ofNat 8 (x / 256 ^ i)).flatten

/-- A converted element of a non-block TYPE: the scaled value under R78. -/
def convertScaled (x : CpArgs) (code : Nat) (tag : BitVec 16) : Nat :=
  let st := x.srct.toNat
  let dt := x.dstt.toNat
  let v := (decodeElem st code tag).scale ((x.scale.toNat : Int) - 127)
  match floatOf dt with
  | some f => f.round x.rm x.sat v
  | none => match v.toInt x.rm with
    | none => 0
    | some i =>
      if isInt st && !(x.sat && (decide (typeBits dt < typeBits st) || decide (x.scale ≠ 0x7F))) then wrapInt dt i else satInt dt i

/-- Whether element `i` of the source lies in the 8-byte word of source byte `e`. -/
def CopyCmd.hits (x : CopyCmd) (bits i e : Nat) : Bool :=
  decide ((x.src.toNat + e) / 8 = (x.src.toNat + i * bits / 8) / 8)

/-- Whether it lies in the word of one of the source bytes `errs`. -/
abbrev CopyCmd.hit (x : CopyCmd) (errs : List Nat) (bits i : Nat) : Bool := errs.any (x.hits bits i)

/-- Whether source byte `o` lies in a word that holds a double-bit error (log 19). -/
def CopyCmd.flawAt (x : CopyCmd) (c : Nat) (s : State) (o : Nat) : Bool :=
  if x.dir.localSrc then s.flawed true (c * 0x8_0000 + x.src.toNat + o) 1
  else match (s.translateAs x.creds c (x.src + word o) .load).1 with
    | .ok pa _ => inPackage pa && s.flawed false pa 1
    | .bad _ _ => false

/-- The words of the source that hold a double-bit error, each by its first byte in the source: the one that the event
names, if any, and those that stand in such words. -/
def CopyCmd.errs (x : CopyCmd) (c : Nat) (err : Option Nat) (s : State) : List Nat :=
  err.toList ++ if s.flaws.isEmpty then [] else
    ((List.range (x.args.srcBytes x.len / 8 + 2)).map fun k => 8 * (x.src.toNat / 8 + k) - x.src.toNat).filter fun o =>
      decide (o < x.args.srcBytes x.len) && x.flawAt c s o && !err.any (x.hits 8 o)

/-- What stops a copy, and where. -/
abbrev CopyEnd := Option (Cause × Word)

/-- A store that meets a fault of a load's name reports the store's. -/
abbrev storeCause (e : Cause) : Cause := if e = .transl then .transs else e

/-- The scaled value of a source element; `none` is one that a double-bit error poisoned: NaN (R218). -/
def elemValue (x : CpArgs) (tag : BitVec 16) : Option Nat → Num
  | none => .nan
  | some y => (decodeElem x.srct.toNat y tag).scale ((x.scale.toNat : Int) - 127)

/-- The code of a non-block destination element: the canonical NaN, or zero, for a poisoned one (R78, R218). -/
def elemCode (x : CpArgs) (tag : BitVec 16) : Option Nat → Nat
  | none => match floatOf x.dstt.toNat with | some f => f.nan | none => 0
  | some y => convertScaled x y tag

/-- The byte at the destination's byte `o` as it stands, where reading it has no effect: none at a device or a system
address. An address that a store may not reach answers 0: the store says why. -/
def CopyCmd.peek (x : CopyCmd) (c o : Nat) (s : State) : Option Nat :=
  if x.dir.localDst then some (readN s.loc (x.dst.toNat / 2 ^ 32 * 0x8_0000 + x.dst.toNat % 2 ^ 32 + o) 1)
  else match (s.translateAs x.creds c (x.dst + word o) .store).1 with
    | .ok pa _ => if inPackage pa then some (s.homeRead pa 1) else none
    | .bad _ _ => some 0

/-- Write 4-bit element `u` into its half of a byte; `low` is the even element of the byte. Where the byte cannot be read
first it is written with its odd element. The half that a last odd element leaves has no stated value (log 49). -/
def CopyCmd.write4 (x : CopyCmd) (c u low code : Nat) (s : State) : Option Cause × State :=
  if u % 2 = 1 then x.write c (u / 2) [nibbles low code] s
  else if u + 1 = x.args.count x.len then x.write c (u / 2) [nibbles code s.fresh.1.toNat] s.fresh.2
  else match x.peek c (u / 2) s with
    | some b => x.write c (u / 2) [nibbles code (b / 16)] s
    | none => (none, s)

/-- Write the elements of unit `u`, elements and tag as one (R74): the cause that refuses it, nothing of it written. -/
def CopyCmd.writeUnit (x : CopyCmd) (c u low : Nat) (elems : List (Option Nat)) (tag : BitVec 16) (s : State) : Option Cause × State :=
  let dt := x.args.dstt.toNat
  let at' := bytesOf dt (u * x.args.unit)
  if isBlock dt then
    let q := quantise dt (elems.map (elemValue x.args tag)) x.args.rm x.args.sat
    let a := x.write c at' (codesToBytes dt q.1) s
    let b := x.write c (bytesOf dt (x.args.count x.len) + 2 * u) [q.2.extractLsb' 0 8, q.2.extractLsb' 8 8] a.2
    match a.1, b.1 with
    | none, none => b
    | some e, _ => (some e, s)
    | none, some e => (some e, s)
  else match typeBits dt, elems.map (elemCode x.args tag) with
    | 4, [code] => x.write4 c u low code s
    | _, codes => x.write c at' (codesToBytes dt codes) s

/-- A double-bit error of a source word: MCHK to the issuing thread, and a record where the word lies in package memory
(R218, R340). -/
def CopyCmd.sourceError (x : CopyCmd) (c e : Nat) (s : State) : State :=
  let va := x.src + word e
  let s := s.machineCheck x.thread va
  if x.dir.localSrc then s
  else match (s.translateAs x.creds c va .load).1 with
    | .ok pa _ => if inPackage pa then s.raiseMc (homeDie pa) 2 0 pa else s
    | .bad _ _ => s

/-- A part of the source has been read: the errors that it is the first to find. -/
def CopyCmd.found (x : CopyCmd) (c : Nat) (errs : List Nat) (here before : Nat → Bool) (s : State) : State :=
  errs.foldl (fun s e => if here e && !before e then x.sourceError c e s else s) s

/-- Whether unit `u` reads the word of source byte `e`, as an element or as its tag. -/
def CopyCmd.unitHits (x : CopyCmd) (u e : Nat) : Bool :=
  (isBlock x.args.srct.toNat && x.hits 8 (x.len + 2 * u) e)
    || (List.range x.args.unit).any fun i =>
      decide (u * x.args.unit + i < x.args.count x.len) && x.hits (typeBits x.args.srct.toNat) (u * x.args.unit + i) e

/-- Read, convert and write unit `u` of a conversion: its elements, and its tag from a block source (R216, R74). Also the
code of its first element, which a 4-bit destination's next element needs. -/
def CopyCmd.moveUnit (x : CopyCmd) (c u low : Nat) (errs : List Nat) (s : State) : CopyEnd × Nat × State :=
  let st := x.args.srct.toNat
  let bits := typeBits st
  let k := x.args.unit
  let o := u * k * bits / 8
  let r := x.read c o (bytesOf st k) s
  let q := if isBlock st then x.read c (x.len + 2 * u) 2 r.2 else (([], none), r.2)
  match r.1.2, q.1.2 with
  | some e, _ => (some (e, x.src + word (o + r.1.1.length)), low, r.2)
  | none, some e => (some (e, x.src + word (x.len + 2 * u + q.1.1.length)), low, q.2)
  | none, none =>
    let tag := BitVec.ofNat 16 (natOfBytes q.1.1)
    let tagBad := isBlock st && x.hit errs 8 (x.len + 2 * u)
    let elems := (List.range k).map fun i =>
      if tagBad || x.hit errs bits (u * k + i) then none else some (codeAt st r.1.1 (i + u * k % (8 / Min.min bits 8)))
    let s := x.found c errs (x.unitHits u) (fun e => (List.range u).any fun v => x.unitHits v e) q.2
    let w := x.writeUnit c u low elems tag s
    (w.1.map fun e => (storeCause e, x.dst), elemCode x.args tag (elems.getD 0 none), w.2)

/-- Read and write bytes of a copy without conversion: 8 where both ends are aligned, else one. -/
def CopyCmd.moveBytes (x : CopyCmd) (c o k : Nat) (errs : List Nat) (s : State) : CopyEnd × State :=
  let r := x.read c o k s
  match r.1.2 with
  | some e => (some (e, x.src + word (o + r.1.1.length)), r.2)
  | none =>
    let s := x.found c errs (fun e => (List.range k).any fun i => x.hits 8 (o + i) e)
      (fun e => decide (0 < o) && x.hits 8 (o - 1) e) r.2
    let w := x.write c o (r.1.1.zipIdx.map fun p => if x.hit errs 8 (o + p.2) then 0 else p.1) s
    (w.1.map fun e => (storeCause e, x.dst), w.2)

/-- The bytes of a command without conversion from byte `o` on, in ascending address (R216). -/
def CopyCmd.bytes (x : CopyCmd) (c : Nat) (errs : List Nat) : Nat → Nat → State → CopyEnd × State
  | 0, _, s => (none, s)
  | fuel + 1, o, s =>
    if x.len ≤ o then (none, s)
    else
      let k := if x.src.toNat % 8 = 0 ∧ x.dst.toNat % 8 = 0 ∧ o + 8 ≤ x.len then 8 else 1
      let r := x.moveBytes c o k errs s
      match r.1 with
      | some e => (some e, r.2)
      | none => x.bytes c errs fuel (o + k) r.2

/-- The units of a conversion from unit `u` on, in ascending address (R216). -/
def CopyCmd.units (x : CopyCmd) (c : Nat) (errs : List Nat) : Nat → Nat → Nat → State → CopyEnd × State
  | 0, _, _, s => (none, s)
  | k + 1, u, low, s =>
    let r := x.moveUnit c u low errs s
    match r.1 with
    | some e => (some e, r.2.2)
    | none => x.units c errs k (u + 1) r.2.1 r.2.2

/-- The payload of a command (R216). -/
def CopyCmd.payload (x : CopyCmd) (c : Nat) (err : Option Nat) (s : State) : CopyEnd × State :=
  let errs := x.errs c err s
  if x.args.conv then x.units c errs (x.args.count x.len / x.args.unit) 0 0 s else x.bytes c errs x.len 0 s

/-- The flag of a command (R216, R218). -/
def CopyCmd.writeFlag (x : CopyCmd) (c : Nat) (s : State) : CopyEnd × State :=
  let w := s.gwrite x.creds c x.flag (codesToBytes 0x12 [x.args.value.toNat]) 2
  (w.1.map fun e => (storeCause e, x.flag), w.2)

/-- A stopped command records its cause, the first since CP.WAIT; a lost die gives MCHK (R218, R248). -/
def State.copyStop (s : State) (n : Nat) (e : CopyEnd) : State :=
  match e with
  | none => s
  | some (.mchk, v) => s.machineCheck n v
  | some (e, _) => s.onThr n fun t => { t with copyFault := if t.copyFault = 0 then Cause.code e else t.copyFault }

/-- The core whose channel holds a copy command. -/
def State.copyCore (s : State) (id : Nat) : Option (Nat × CopyCmd) :=
  s.cores.findSome? fun p => ((s.core p.1).copy.find? fun x => x.id = id).map fun x => (p.1, x)

/-- Whether a command's next part may run: its payload when it and those before it in the queue have their thread's earlier
stores acknowledged; its flag when its payload is acknowledged, or at system scope confirmed, and no earlier command of
the channel with a flag is left; its end when its flag is acknowledged (R215, R216, R275, R289, R336). -/
def State.copyReady (s : State) (c : Nat) (x : CopyCmd) : Bool :=
  let before := (s.core c).copy.takeWhile fun y => y.id != x.id
  !s.dead (dieOf c) && !s.halted (dieOf c) && (s.homeWrites x.pend).isEmpty
    && (match x.ph with
      | .queued => (before ++ [x]).all fun y => y.after.all fun i => !(s.stores y.thread).contains i
      | .payload => !x.args.flag
        || ((before.all fun y => !y.args.flag) && (x.args.scope != .sys || (s.outstanding x.pend).isEmpty))
      | .flag => true)

/-- A command's part has run: it awaits the writes that the part began, with those of the part before that are still out;
or it ends with the flag unwritten where it stopped. -/
def CopyCmd.ran (x : CopyCmd) (c i : Nat) (r : CopyEnd × State) (ph : CopyPh) : State :=
  let pend := r.2.outstanding x.pend ++ r.2.begun i
  (r.2.onCore c fun k => { k with
    copy := k.copy.map fun y => if y.id = x.id then { y with ph := if r.1.isSome then .flag else ph, pend := pend } else y }).copyStop
    x.thread r.1

/-- A command completes: what its system targets have not confirmed stays open at system scope (R275). -/
def CopyCmd.ends (x : CopyCmd) (c : Nat) (s : State) : State :=
  let out := s.outstanding x.pend
  let s := s.onCore c fun k => { k with copy := k.copy.filter fun y => y.id != x.id }
  (if out.isEmpty then s else s.onThr x.thread fun t => { t with copyOut := t.copyOut ++ out.map fun i => (x.id + 1, i) }).settleCore c

/-- The next part of a command. -/
def State.copyPart (s : State) (id : Nat) (err : Option Nat) : State :=
  match s.copyCore id with
  | none => s
  | some (c, x) =>
    if !s.copyReady c x then s
    else match x.ph with
      | .queued => x.ran c s.nextId (x.payload c err s) .payload
      | .payload =>
        if x.args.flag then x.ran c s.nextId (x.writeFlag c s) .flag else x.ran c s.nextId (none, s) .flag
      | .flag => x.ends c s

/-- COPY_EXECUTE (R215 to R218): the payload, the flag and the end, as far as each may run now; `err` is a source byte whose
word has a double-bit error. -/
def execCopyExecute (id : Nat) (err : Option Nat) (s : State) : Result :=
  .next (((s.copyPart id err).copyPart id none).copyPart id none)

/-- CP.WAIT (R219). One with nothing to wait for writes in its issue cycle (DESIGN CHOICE, log 118). -/
def execCpWait (d : Reg) (s : State) : Result :=
  let n := s.cur
  let ids := ((s.core (originOf n)).copy.filter fun x => x.thread = n).map (·.id)
  .next (if ids.isEmpty then (s.onThr n fun t => { t with copyFault := 0 }).write n d (word s.me.copyFault) replyDelay 8
    else s.park n .sleeping (.engine ids (some d)))

end Machine

end Sys2Proof
end

