-- ==== Sys2Proof/Machine/Context.lean ====
section
/-! DEFINITION. Wakes, the context directory and its arrivals, and the context image of CTX.SAVE and CTX.LOAD
(chapters 6 and 14). -/

namespace Sys2Proof.Machine

/-! ### The directory's log (R308 to R310) -/

/-- Entries that a context's log holds (R307). -/
abbrev Ctx.cap (x : Ctx) : Nat := 2 ^ (x.size + 4)

/-- An arrival joins the overflow fields (R309). -/
def Ctx.overflow (x : Ctx) (kind : Nat) (v : Word) : Ctx :=
  if kind = 1 then { x with ovf := true, ovWake := x.ovWake ||| v, ovWoke := true }
  else if kind = 2 then { x with ovf := true, ovHit := v.toNat }
  else { x with ovf := true, ovLate := x.ovLate + 1 }

/-- Append an arrival to a context's log; its 16 bytes are written upward from the log base. -/
def State.logArrival (s : State) (num kind : Nat) (v : Word) : State :=
  let x := s.ctx num
  if x.log.length < x.cap then
    (s.writePair .acc (x.base + 16 * x.log.length) (word (kind * 2 ^ 56)) v).setCtx num { x with log := x.log ++ [(kind, v)] }
  else s.setCtx num (x.overflow kind v)

/-- The thread that a directory entry names. -/
abbrev Ctx.thread (x : Ctx) : Nat := 16 * x.core + x.slot

/-- One log entry applied to the context being loaded (R310). -/
def Thread.replay (t : Thread) (e : Nat × Word) : Thread :=
  if e.1 = 1 then { t with latchVal := t.latchVal ||| e.2, latchV := true }
  else if e.1 = 2 then { t with hit := e.2.toNat }
  else t.holdLate e.2

/-- The overflow fields applied after the log. -/
def Thread.replayOverflow (t : Thread) (x : Ctx) : Thread :=
  let t := if x.ovWoke then { t with latchVal := t.latchVal ||| x.ovWake, latchV := true } else t
  let t := if x.ovHit = 0 then t else { t with hit := x.ovHit }
  { t with lateMore := t.lateMore + x.ovLate }

/-- A whole replay. -/
def Thread.replayLog (t : Thread) (x : Ctx) : Thread := (x.log.foldl Thread.replay t).replayOverflow x

/-! ### WAKE and SLEEP (R101 to R103) -/

/-- A wake reaches its thread: the latch takes the value, and SLEEP ends. -/
def State.wakeThread (s : State) (n : Nat) (v : Word) : State :=
  let s := s.onThr n fun t => { t with latchVal := t.latchVal ||| v, latchV := true }
  if (s.thr n).wait = Wait.latch then s.again n else s

/-- WAKE_DELIVER: at a core of its thread (R308); a context that has ended does not take it. -/
def wakeServe (id : Nat) (s : State) : State :=
  match s.due id with
  | some ⟨_, _, .core c, _, .wakeTo num n v⟩ =>
    if (s.thr n).ctx ≠ some num then s.drop id
    else s.arriveAt id n c (.wakeTo num n v) fun s => s.wakeThread n v
  | _ => s

/-- WAKE_DELIVER (R102, R308). -/
def execWakeDeliver (id : Nat) (s : State) : Result := .next (wakeServe id s)

/-- DIR_WAKE_ARRIVAL: by the entry's state, forwarded, logged or refused (R102, R308). -/
def dirWakeServe (id : Nat) (s : State) : State :=
  match s.due id with
  | some ⟨_, _, _, _, .wake n num v check⟩ =>
    let s := s.drop id
    let x := s.ctx num
    let foreign : Bool := match check with | some p => decide (p ≠ x.pasid) | none => false
    if x.st = .free ∨ foreign then s.complete n 0
    else if x.st = .resident then
      let m := s.nextId
      ((s.send (.dir (num / 4096)) (.core x.core) (.wakeTo num x.thread v)).complete n 1).promptly m wakeServe
    else (s.logArrival num 1 v).complete n 2
  | _ => s

/-- DIR_WAKE_ARRIVAL (R102, R308). -/
def execDirWakeArrival (id : Nat) (s : State) : Result := .next (dirWakeServe id s)

/-- WAKE (R102). -/
def execWake (d a b : Reg) (s : State) : Result :=
  let n := s.cur
  let num := (s.reg n a).toNat
  let check := if s.me.priv = .user then some s.me.pasid else none
  .next (s.afterStores n
    (if 16384 ≤ num || s.cut (dieOf s.me.core) (num / 4096) then s.write n d 0 replyDelay 8
    else s.askNow n (.dir (num / 4096)) [] (.wake n num (s.reg n b) check) (statusCont d) dirWakeServe))

/-- SLEEP (R101). One that does not sleep writes in its issue cycle (DESIGN CHOICE, log 118). -/
def execSleep (d : Reg) (s : State) : Result :=
  let n := s.cur
  .next (if s.me.latchV then
      (s.onThr n fun t => { t with latchV := false, latchVal := 0 }).write n d s.me.latchVal replyDelay 8
    else s.park n .sleeping .latch)

/-! ### Hits and DEEDLATE reports (R294, R308, R328) -/

/-- DIR_HIT_ARRIVAL (R308). -/
def execDirHitArrival (id : Nat) (s : State) : Result :=
  .next (match s.due id with
    | some ⟨_, _, .dir d, _, .hit _ pos (some k) txn⟩ =>
      let s := s.drop id
      let x := s.ctx k
      if x.st = .free then s.replied txn
      else if x.st = .resident then
        let m := s.nextId
        (s.send (.dir d) (.core x.core) (.hit x.thread pos (some k) txn)).promptly m hitServe
      else (s.logArrival k 2 (word pos)).replied txn
    | _ => s)

/-- A DEEDLATE report reaches its thread; a context that has ended drops it (R302, R328). -/
def State.takeLate (s : State) (n : Nat) (v : Word) : State :=
  if (s.thr n).run = .free then s else s.onThr n fun t => t.holdLate v

/-- DEEDLATE_REPORT: at a core of its thread. A report for a context that has ended is dropped (R308, R328). -/
def lateServe (id : Nat) (s : State) : State :=
  match s.due id with
  | some ⟨_, _, .core c, _, .late n ctx v⟩ =>
    if ghostBase ≤ n then s.drop id else s.arriveAt id n c (.late n ctx v) fun s => s.takeLate n v
  | some ⟨_, _, .core c, _, .lateTo n num v⟩ =>
    if (s.thr n).ctx ≠ some num then s.drop id
    else s.arriveAt id n c (.lateTo n num v) fun s => s.takeLate n v
  | _ => s

/-- DEEDLATE_REPORT (R328). -/
def execDeedlateReport (id : Nat) (s : State) : Result := .next (lateServe id s)

/-- DIR_DEEDLATE_ARRIVAL (R308). -/
def execDirDeedlateArrival (id : Nat) (s : State) : Result :=
  .next (match s.due id with
    | some ⟨_, _, .dir d, _, .late _ (some k) v⟩ =>
      let s := s.drop id
      let x := s.ctx k
      if x.st = .free then s
      else if x.st = .resident then
        let m := s.nextId
        (s.send (.dir d) (.core x.core) (.lateTo x.thread k v)).promptly m lateServe
      else s.logArrival k 3 v
    | _ => s)

/-! ### Directory commands (R306, R307) -/

def ctxCode : CtxSt → Nat
  | .free => 0 | .absent => 1 | .resident => 2 | .restoring => 3

/-- CDRES after a command. -/
def Ctx.result (x : Ctx) (ok : Bool) : Word :=
  let there := x.st == .resident || x.st == .restoring
  word (2 ^ 63 + (if ok then 2 ^ 62 else 0) + ctxCode x.st * 2 ^ 60 + (if x.killed then 2 ^ 59 else 0)
    + (if x.ovf then 2 ^ 58 else 0) + Min.min 65535 x.log.length * 2 ^ 32
    + (if there then x.core % 1024 * 2 ^ 20 + x.slot % 16 * 2 ^ 16 else 0))

/-- A command that core `c` has sent is applied at the directory of its number's die, and CDRES says so. -/
def dirCommand (op c num : Nat) (s : State) : State :=
  match s.msgs.find? fun m => decide (m.body = .cmd c num op) && s.deliverable m with
  | none => s
  | some m =>
    let s := s.drop m.id
    let k := s.core c
    let x := s.ctx num
    let next : Option Ctx :=
      if s.cut (dieOf c) (num / 4096) then none
      else if op = 0 then
        (if x.st = .free then some { st := .absent, base := k.cdlog.toNat / 64 * 64, size := k.cdlog.toNat % 16, pasid := k.cdpasid } else none)
      else if op = 1 then (if x.st = .absent then some {} else none)
      else some x
    let s := match next with | some y => s.setCtx num y | none => s
    s.onCore c fun k => { k with cdcmd := none, cdres := (s.ctx num).result next.isSome }

/-- CDCMD_ALLOC (R306, R307). -/
def execCdcmdAlloc (c num : Nat) (s : State) : Result := .next (dirCommand 0 c num s)
/-- CDCMD_RELEASE (R306, R307). -/
def execCdcmdRelease (c num : Nat) (s : State) : Result := .next (dirCommand 1 c num s)
/-- CDCMD_QUERY (R307). -/
def execCdcmdQuery (c num : Nat) (s : State) : Result := .next (dirCommand 2 c num s)

/-! ### The context image (R311) -/

/-- A slot's four words; an unset slot is zero. -/
def slotWords (r : Option Shape) : List Word := match r with | some x => [x.w0, x.w1, x.w2, x.w3] | none => [0, 0, 0, 0]

/-- FLAGS. -/
def Thread.flags (t : Thread) (k : Bool) : Word :=
  word (slotMask (fun i => (mget none t.shapes i).isSome) + (if t.latchV then 2 ^ 16 else 0) + t.hit % 8 * 2 ^ 17
    + (if k then 2 ^ 20 else 0) + t.late.length * 2 ^ 21)

/-- TSTAT as an image holds it. -/
def Thread.imageStat (t : Thread) : Word :=
  word ((if t.timPend.isSome then 2 ^ 8 else 0) + t.pv2.code * 64 + t.pv1.code * 16 + t.priv.code * 4 + t.lvl)

/-- The 128 words of an image; K words are zero in user mode. -/
def Thread.image (t : Thread) : List Word :=
  let k := !decide (t.priv = .user)
  let kk := fun (l : List Word) => if k then l else l.map fun _ => 0
  ((List.range 16).map fun i => mget 0 t.g i)
    ++ ((List.range 16).map fun i => slotWords (mget none t.shapes i)).flatten
    ++ [t.flags k, t.pc + 8]
    ++ kk [t.imageStat, t.cause1, t.ret1, t.val1, t.scratch1, t.cause2, t.ret2, t.val2, t.scratch2, t.tdeleg, t.kvec, t.uvec, t.tmr, t.wid]
    ++ [t.ctxnum] ++ kk [t.atp, t.pasid] ++ [t.latchVal]
    ++ ((List.range 16).map fun i => t.late.getD i 0)
    ++ [word (Min.min t.lateMore (2 ^ 64 - 1))] ++ kk [t.timPend.getD 0] ++ List.replicate 10 0

/-- Words as bytes, little-endian. -/
def wordBytes (ws : List Word) : List Byte := (ws.map fun w => (List.range 8).map fun i => w.extractLsb' (8 * i) 8).flatten

/-- CTX.SAVE's write at `x`, local or at a physical address; once every write is acknowledged, what it clears (R315). -/
def saveNow (n : Nat) (x : Word) (g : Bool) (pa : Nat) (s : State) : State :=
  let t := s.thr n
  let bs := wordBytes t.image
  let i := s.nextId
  let s := s.clearResv n
  let s :=
    if !g then { s with loc := writeBytes s.loc (originOf n * 0x8_0000 + x.toNat) bs }
    else if inDevice pa then s.devBytes (.core t.core) t.domain pa bs 1024
    else if !inPackage pa then s.sysBytes (dieOf t.core) (.core t.core) pa bs 1024
    else if s.granted t.domain pa then s.hwBytes pa bs 1024
    else s.reportLate n i pa
  if (s.begun i).isEmpty then s.onThr n Thread.saved else s.park n .waiting (.saving (s.begun i))

/-- An arrival that a directory has forwarded to a thread. -/
def Body.arrivesAt (n : Nat) : Body → Bool
  | .wakeTo _ m _ | .hit m _ (some _) _ | .lateTo m _ _ => m == n
  | _ => false

/-- The reply of the directory travels behind every arrival that it has forwarded to the thread, wherever the thread was
then (R315). -/
def State.dirQuiet (s : State) (d n : Nat) : Bool :=
  s.msgs.all fun m => !((match m.src with | .dir e => e == d | .core _ => true | _ => false)
    && (match m.dst with | .core _ => true | _ => false) && m.body.arrivesAt n)

/-- DIR_ABSENT_REQUEST: a resident entry becomes absent, and the save goes on (R306, R315). The request's `Cont` holds
the address, the form and the physical address in `va`, `sign` and `size`. -/
def absentServe (id : Nat) (s : State) : State :=
  match s.due id with
  | some ⟨_, _, .dir d, _, .absent n num⟩ =>
    if !s.dirQuiet d n then s
    else
      let s := s.drop id
      let x := s.ctx num
      let s := if x.st = .resident ∧ x.thread = n then s.setCtx num { x with st := .absent } else s
      match (s.thr n).cont with
      | some k => saveNow n k.va k.sign k.size s
      | none => s
  | _ => s

/-- DIR_ABSENT_REQUEST (R306, R315). -/
def execDirAbsentRequest (id : Nat) (s : State) : Result := .next (absentServe id s)

/-- CTX.SAVE past its checks: the directory first, where the context holds a number. -/
def saveAt (n : Nat) (x : Word) (g : Bool) (pa : Nat) (s : State) : State :=
  let t := s.thr n
  match t.ctx with
  | none => saveNow n x g pa s
  | some num =>
    if s.cut (dieOf (s.thr n).core) (num / 4096) then s.raise n .mchk (word num)
    else s.askNow n (.dir (num / 4096)) [] (.absent n num) { d := none, len := 8, size := pa, sign := g, va := x } absentServe

/-- Go on once the thread's earlier stores to bytes of a range are performed (R281). -/
def State.ordered (s : State) (n pa size : Nat) (go : State) : State :=
  if (s.overlaps n pa size).isEmpty then go else s.await n (s.overlaps n pa size)

/-- CTX.SAVE (R315). -/
def execCtxSave (a : Reg) (disp : BitVec 20) (g : Bool) (s : State) : Result :=
  let n := s.cur
  let x := s.reg n a + sext disp
  .next (s.check n (misaligned x 1024)
    (if !g then (if 0x7_FC00 < x.toNat then s.raise n .transs x else saveAt n x false 0 s)
    else
      let r := s.translate n x .store
      match r.1 with
      | .bad c v => r.2.raise n c v
      | .ok pa .device =>
        if r.2.cut (dieOf (s.thr n).core) (deviceDie pa) then r.2.raise n .mchk x
        else saveAt n x true pa (r.2.crossing (dieOf (s.thr n).core) (deviceDie pa))
      | .ok pa .system =>
        if r.2.cut (dieOf (s.thr n).core) (r.2.sysDie (dieOf (s.thr n).core) pa) then r.2.raise n .mchk x
        else saveAt n x true pa r.2
      | .ok pa _ =>
        if r.2.cut (dieOf (s.thr n).core) (homeDie pa) then r.2.raise n .mchk x
        else if !r.2.granted (s.domainOf n) pa then r.2.raise n .deed x
        else r.2.ordered n pa 1024 (saveAt n x true pa r.2)))

/-! ### CTX.LOAD (R316) -/

abbrev imgFlags (img : List Word) : Word := wordAt img 80
abbrev imgK (img : List Word) : Bool := (imgFlags img).getLsbD 20
/-- TSTAT of an image; zero where K is 0. -/
abbrev imgStat (img : List Word) : Nat := if imgK img then (wordAt img 82).toNat else 0
abbrev imgCtx (img : List Word) : Word := wordAt img 96

def imgSlot (img : List Word) (i : Nat) : Option Shape :=
  if (imgFlags img).getLsbD i then
    some ⟨wordAt img (16 + 4 * i), wordAt img (17 + 4 * i), wordAt img (18 + 4 * i), wordAt img (19 + 4 * i)⟩
  else none

/-- Zero fields are zero, and every set slot's record keeps R143. -/
def imgOk (img : List Word) : Bool :=
  ((List.range 10).all fun i => wordAt img (118 + i) == 0)
    && decide ((imgFlags img).toNat / 2 ^ 26 = 0) && decide (imgStat img / 2 ^ 9 = 0)
    && (List.range 16).all fun i => match imgSlot img i with | some r => r.valid | none => true

/-- The privilege checks of an image. -/
def imgPriv (p : Priv) (img : List Word) : Bool :=
  let want := imgStat img / 4 % 4
  !(decide (p = .user) && (decide (imgStat img % 4 ≠ 0) || decide (want ≠ 0))) && decide (want ≤ p.code)

/-- The K fields of an image (R311), with the masks of R116 to R121. -/
def Thread.loadK (t : Thread) (img : List Word) : Thread :=
  let st := imgStat img
  let w := wordAt img
  { t with
    lvl := Min.min (st % 4) 2, priv := Priv.ofCode (st / 4 % 4), pv1 := Priv.ofCode (st / 16 % 4), pv2 := Priv.ofCode (st / 64 % 4)
    timPend := if st.testBit 8 then some (w 117) else none
    cause1 := w 83 &&& causeMask, ret1 := w 84 &&& addrMask, val1 := w 85, scratch1 := w 86
    cause2 := w 87 &&& causeMask, ret2 := w 88 &&& addrMask, val2 := w 89, scratch2 := w 90
    tdeleg := w 91 &&& delegMask, kvec := w 92 &&& addrMask, uvec := w 93 &&& addrMask, tmr := w 94, wid := w 95
    atp := w 97
    pasid := w 98 &&& 0xFFFFF }

/-- The fields of an image restored. Where DEEDLATE traps are held beside a count, they are the last of their 16; where none
is, the count waits for the 16th trap to come (R302; log 80). -/
def Thread.load (t : Thread) (img : List Word) : Thread :=
  let f := imgFlags img
  let k := !decide (t.priv = .user) && imgK img
  let held := Min.min (f.toNat / 2 ^ 21 % 32) 16
  let t := { t with
    g := (List.range 16).foldl (fun m i => mset 0 m i (wordAt img i)) []
    shapes := (List.range 16).foldl (fun m i => mset none m i (imgSlot img i)) []
    latchV := f.getLsbD 16, latchVal := wordAt img 99, hit := f.toNat / 2 ^ 17 % 8
    late := (List.range held).map fun i => wordAt img (100 + i)
    lateMore := (wordAt img 116).toNat, lateTaken := if wordAt img 116 = 0 ∨ held = 0 then 0 else 16 - held, ctxnum := imgCtx img &&& 0xBFFF }
  if k then t.loadK img else t

/-- The restore of an image once the directory has agreed: registers, replay of the log, the entry resident. -/
def loadNow (n : Nat) (img : List Word) (num : Option Nat) (s : State) : State :=
  let s := s.onThr n fun t => t.load img
  let s := match num with
    | none => s
    | some k =>
      let x := s.ctx k
      (s.onThr n fun t => t.replayLog x).setCtx k
        { x with st := .resident, killed := false, log := [], ovf := false, ovWake := 0, ovWoke := false, ovHit := 0, ovLate := 0 }
  { s.onThr n fun t => { t with resv := [] } with regs := s.regs.filter fun p => p.1 != n }.finish n 8

/-- DIR_RESTORE_REQUEST: an absent entry is restored by its loader, or the load is refused (R306, R316). -/
def restoreServe (id : Nat) (s : State) : State :=
  match s.due id with
  | some ⟨_, _, .dir _, _, .restore n num img⟩ =>
    let s := s.drop id
    let t := s.thr n
    let x := s.ctx num
    match t.cont with
    | none => s
    | some k =>
      if x.st = .absent ∧ (t.priv ≠ .user ∨ x.pasid = t.pasid) then
        loadNow n img (some num) (s.setCtx num { x with st := .restoring, core := originOf n, slot := n % 16 })
      else s.raise n .priv k.va
  | _ => s

/-- DIR_RESTORE_REQUEST (R306, R316). -/
def execDirRestoreRequest (id : Nat) (s : State) : Result := .next (restoreServe id s)

/-- CTX.LOAD with the image's 128 words read. -/
def loadImage (i : Instr) (n : Nat) (x : Word) (img : List Word) (s : State) : State :=
  if !imgOk img then s.raise n .ill (w0Of i)
  else if !imgPriv (s.thr n).priv img then s.raise n .priv x
  else if (imgCtx img).getLsbD 15 then
    let num := (imgCtx img).toNat % 16384
    if s.cut (dieOf (s.thr n).core) (num / 4096) then s.raise n .mchk (word num)
    else s.askNow n (.dir (num / 4096)) [] (.restore n num img) { d := none, len := 8, size := 8, sign := false, va := x } restoreServe
  else loadNow n img none s

/-- 1,024 bytes as 128 words. -/
def bytesWords (bs : List Byte) : List Word := (List.range 128).map fun i => word (natOfBytes ((bs.drop (8 * i)).take 8))

/-- CTX.LOAD (R316). -/
def execCtxLoad (a : Reg) (disp : BitVec 20) (g : Bool) (s : State) : Result :=
  let n := s.cur
  let i : Instr := .ctxLoad a disp g
  let x := s.reg n a + sext disp
  .next (s.check n (misaligned x 1024)
    (if !g then
      (if 0x7_FC00 < x.toNat then s.raise n .transl x
      else if s.flawed true (originOf n * 0x8_0000 + x.toNat) 1024 then
        s.raise n .mchk x
      else loadImage i n x (bytesWords (readBytes s.loc (originOf n * 0x8_0000 + x.toNat) 1024)) s)
    else
      let r := s.translate n x .load
      match r.1 with
      | .bad c v => r.2.raise n c v
      | .ok pa kind =>
        r.2.ordered n pa 1024 <|
        let b := r.2.physBytes (dieOf (s.thr n).core) (s.domainOf n) pa 1024 kind
        match b.1 with
        | .error c => b.2.raise n c x
        | .ok bs => loadImage i n x (bytesWords bs) b.2))

end Sys2Proof.Machine
end

