-- ==== Sys2Proof/Machine/Allot.lean ====
section
/-! DEFINITION. Allotment counters: their line at the home, the cores' tables, and the ALT instructions (chapter 12). -/

namespace Sys2Proof.Machine

/-! ### The counter line (R256, R257) -/

def State.reserve (s : State) (line : Nat) : Nat := readN s.mem (line * 128) 8
def State.setReserve (s : State) (line v : Nat) : State := { s with mem := writeN s.mem (line * 128) 8 v }
def State.hmask (s : State) (line : Nat) : Nat := readN s.mem (line * 128 + 16) 32
/-- HCOUNT. -/
def State.hcount (s : State) (line : Nat) : Nat := readN s.mem (line * 128 + 8) 8 % 512

/-- Set or clear a core's HMASK bit, with HCOUNT. -/
def State.setHolder (s : State) (line c : Nat) (b : Bool) : State :=
  let k := c % 256
  let m := s.hmask line
  if m.testBit k = b then s
  else
    let w1 := readN s.mem (line * 128 + 8) 8
    { s with mem := writeN (writeN s.mem (line * 128 + 16) 32 (if b then m + 2 ^ k else m - 2 ^ k)) (line * 128 + 8) 8 (if b then w1 + 1 else w1 - 1) }

/-- A stamp later than every use of a counter so far. -/
def State.altClock (s : State) : Nat := s.altHomes.foldl (fun m h => Max.max m h.used) 0 + 1

/-- A request uses a counter: its entry is the most recently used (R260). -/
def State.useCounter (s : State) (line : Nat) : State :=
  { s with altHomes := s.altHomes.map fun (h : AltHome) => if h.line = line then { h with used := s.altClock } else h }

/-- The least recently used counter of a slice. -/
def lruHome (l : List AltHome) : Option Nat :=
  (l.foldl (fun (b : Option AltHome) h => match b with
    | none => some h
    | some q => if h.used < q.used then some h else some q) none).map (·.line)

/-- A slice whose table of 64 is full closes its least recently used counter (R260). -/
def State.homeRoom (s : State) (line : Nat) : State :=
  let l := s.altHomes.filter fun h => decide (s.homeNode (h.line * 128) = s.homeNode (line * 128))
  if l.length < 64 then s else match lruHome l with | some k => s.closeCounter k | none => s

/-- Open a closed counter: word 0 is RESERVE, OPEN is set, words 2 to 15 are zero (R257). -/
def State.openWords (s : State) (line : Nat) : State :=
  let s := s.homeRoom line
  { s with
    mem := writeN (writeN s.mem (line * 128 + 8) 8 (2 ^ 63)) (line * 128 + 16) 112 0
    altHomes := s.altHomes ++ [{ line := line, used := s.altClock }] }

/-- The copies that opening a counter invalidates: at once on a prompt fabric, agents' by message (R229, R257). -/
def State.openCopies (s : State) (line : Nat) : List (Node × (Nat → Body)) × State :=
  let s := s.found line
  let x := s.dirOf line
  let cores := sharers (homeDie (line * 128)) x.form
  let agents := x.agents.map fun a => ((Node.outside a, fun id => Body.agentInval a line id) : Node × (Nat → Body))
  if s.prompt then (agents, (cores.foldl (fun s c => s.invalidate c line) s).setDir line {})
  else (cores.map (fun c => ((Node.core c, fun id => Body.inval c line id) : Node × (Nat → Body))) ++ agents, s.setDir line {})

/-! ### A core's table (R259) -/


/-- Whether a core uses its table for a counter: its own die's cores do (R381, log 7). -/
abbrev usesTable (c line : Nat) : Bool := decide (c < 1024) && decide (dieOf c = homeDie (line * 128))


/-- Send an allotment message that no thread waits for. ALTASK counts the requests that threads wait for, not these
(DESIGN CHOICE, log 97). -/
def State.altPost (s : State) (c line : Nat) (r : AltReq) : State :=
  s.send (.core c) (s.homeNode (line * 128)) (.alt nobody c line r)

/-- Room for a new entry: the oldest that is not frozen goes home (R259). -/
def State.altRoom (s : State) (c : Nat) : State :=
  if (s.core c).alt.length < 16 then s
  else match (s.core c).alt.find? fun e => !e.frozen with
    | none => s
    | some e =>
      (s.onCore c fun x => { x with alt := x.alt.filter fun y => y.line != e.line, altRet := x.altRet + 1 }).altPost c e.line (.leave e.count 0)

/-- The core's entry as a reply leaves it; one that a close removed, or that
had no place when its request left, is made (R258, R259). -/
def State.putAlt (s : State) (c line count : Nat) : State :=
  match (s.core c).altEntry line with
  | some _ => s.onCore c fun x => x.setAlt line fun e => { e with count := count, frozen := false, asking := false }
  | none =>
    let s := s.altRoom c
    s.onCore c fun x => { x with alt := x.alt ++ [{ line := line, count := count }] }

/-- A reply needs an entry of its core: there is one, or room for one; else it waits until an entry is released (R258,
R259). -/
def State.roomFor (s : State) (c line : Nat) : AltReq → Bool
  | .take _ true | .join _ => !usesTable c line || ((s.core c).altEntry line).isSome || (s.core c).altSpace
  | _ => true

/-- The core's entry is released with its count, a leave's with the units that it was to return (R261, R273); one that a
close removed is made anew (R258). -/
def State.unask (s : State) (c line : Nat) (r : AltReq) : State :=
  let back := match r with | .leave n _ => n | _ => 0
  if ((s.core c).altEntry line).isNone then s.putAlt c line back
  else s.onCore c fun x => x.setAlt line fun e => { e with count := e.count + back, frozen := false, asking := false }

/-- A request that raises a trap leaves no entry that it alone has made (R8). -/
def State.unmake (s : State) (c line : Nat) (r : AltReq) : State :=
  match r with
  | .take _ false => s
  | .take _ true | .join _ | .leave _ _ =>
    if !usesTable c line then s
    else if s.counterOpen line && (s.hmask line).testBit (c % 256) then s.unask c line r
    else s.onCore c fun x => { x with alt := x.alt.filter fun e => e.line != line }
  | _ => s

/-- The count of a core's entry: a take's l when the home serves it (R261; log 34). -/
def State.heldAt (s : State) (c line : Nat) : Nat := match (s.core c).altEntry line with | some e => e.count | none => 0

/-! ### Serving requests (R261, R271 to R273) -/

/-- The holders that HMASK names, but one. -/
def State.otherHolders (s : State) (line : Nat) (but : Option Nat) : List Nat :=
  let d := homeDie (line * 128)
  let m := s.hmask line
  (List.range 256).filterMap fun k =>
    let c := 256 * d + k
    if some c != but && m.testBit k then some c else none

def State.heldBy (s : State) (line : Nat) (cs : List Nat) : Nat := (cs.map fun c => s.heldAt c line).sum

/-- Every other holder's count goes to 0. -/
def State.zeroHeld (s : State) (line : Nat) (cs : List Nat) : State :=
  cs.foldl (fun s c => s.onCore c fun x => x.setAlt line fun e => { e with count := 0 }) s

/-- Release the holders a census froze. -/
def State.releaseAll (s : State) (line : Nat) (cs : List Nat) : State :=
  cs.foldl (fun s c => (s.onCore c fun x => x.setAlt line fun e => { e with frozen := e.asking }).freeAllot c) s

/-- The requester whose entry a census leaves alone. -/
abbrev censusBut (c : Nat) (r : AltReq) : Option Nat := match r with | .take _ true => some c | _ => none

/-- The holders before a request (R261). -/
def State.holdersBefore (s : State) (c line : Nat) (table : Bool) : Nat :=
  s.hcount line - (if table && (s.hmask line).testBit (c % 256) then 1 else 0)

/-- Grant `n` units of `R`, with `H` holders before the request (R261; R381 without a table). -/
def State.grantTake (s : State) (th c line n R H : Nat) (table recalled : Bool) : State :=
  let g := if table then Min.min (Min.min R (Max.max n (R / (H + 1)))) (n + 4096) else n
  let s := s.setReserve line (R - g)
  let s := if table then (s.putAlt c line (g - n)).setHolder line c true else s
  s.complete th (if recalled then 3 else 2)

/-- The answer of a take or a read once the holders' counts are known; `H` holders before the request. -/
def State.afterCensus (s : State) (th c line H : Nat) (r : AltReq) : State :=
  let cs := s.otherHolders line (censusBut c r)
  let S := s.heldBy line cs
  match r with
  | .take n table =>
    let R := s.reserve line + if table then s.heldAt c line else 0
    if R + S < n then
      let s := s.releaseAll line cs
      let s := if table then (s.unask c line r).setHolder line c true else s
      s.complete th 0
    else ((s.zeroHeld line cs).releaseAll line cs).grantTake th c line n (R + S) H table true
  | _ =>
    let s := ((s.addReserve line S).zeroHeld line cs).releaseAll line cs
    s.complete th (word (s.reserve line))

/-- A return that core `k` has sent to a counter and that has not arrived: it precedes the core's census reply (R258). -/
def Msg.returns (m : Msg) (line k : Nat) : Bool :=
  decide (m.src = .core k) && match m.body with
    | .alt n _ l (.give _) => decide (l = line) && decide (n = nobody)
    | .alt _ _ l (.leave _ _) => decide (l = line)
    | _ => false

/-- The home applies a return: its units join RESERVE, and a leave ends the holding: an ALT.CLOSE's with its entry, an
evicted entry's, which nobody waits for, without one (R258, R259, R273). -/
def State.applyReturn (s : State) (th c line : Nat) : AltReq → State
  | .give n => s.addReserve line n
  | .leave n _ =>
    let s := (s.addReserve line n).setHolder line c false
    if th = nobody then s
    else (s.onCore c fun x => { x with alt := x.alt.filter fun e => e.line != line }).freeAllot c
  | _ => s

/-- The returns of a holder on their way arrive before its census reply. -/
def State.landReturns (s : State) (line k : Nat) : State :=
  (s.msgs.filter fun m => m.returns line k).foldl (fun s m => match m.body with
    | .alt th c _ r =>
      let s := (s.drop m.id).applyReturn th c line r
      match r with | .leave _ d => s.complete th (word d) | _ => s
    | _ => s) s

/-- Take the census: at once on a prompt fabric, else by a probe to each holder (R261). -/
def State.census (s : State) (th c line : Nat) (r : AltReq) : State :=
  let cs := s.otherHolders line (censusBut c r)
  let H := s.holdersBefore c line (censusBut c r).isSome
  if s.prompt || cs.isEmpty then (cs.foldl (fun s k => s.landReturns line k) s).afterCensus th c line H r
  else
    let s := cs.foldl (fun s k => s.onCore k fun x => x.setAlt line fun e => { e with frozen := true }) s
    s.transact line (cs.map fun k => ((Node.core k, fun _ => Body.census line k) : Node × (Nat → Body))) (.census th c H r)

/-- A request that the roll refuses raises DEED at its address (R328), one that meets a double-bit error MCHK (R249). -/
def State.altFail (s : State) (th c line : Nat) (r : AltReq) (cause : Cause) : State :=
  let s := s.unmake c line r
  match (s.thr th).cont with
  | some k => s.raise th cause k.va
  | none => s

/-- A double-bit error of a counter's line, which every request but `left` reads; the home reports it (R249, R340). -/
abbrev State.altFlawed (s : State) (line : Nat) : Bool := s.flawed false (line * 128) 128

/-- Serve a request on an open counter. -/
def State.altOpenServe (s : State) (th c line : Nat) (r : AltReq) : State :=
  let s := s.useCounter line
  match r with
  | .join isOpen =>
    let s := if usesTable c line then (s.unask c line r).setHolder line c true else s
    if isOpen then s.complete th 0 else if (s.thr th).cont = none then s else s.again th
  | .take n table =>
    let R := s.reserve line + if table then s.heldAt c line else 0
    if R < n then s.census th c line (.take n table)
    else s.grantTake th c line n R (s.holdersBefore c line table) table false
  | .give n => (s.applyReturn th c line (.give n)).complete th (word n)
  | .read => s.census th c line .read
  | .leave n d => (s.applyReturn th c line (.leave n d)).complete th (word d)
  | .left d => s.complete th (word d)

/-- A census reply arrives, after the returns that its core sent before it; with the last one the request is answered. Where
a deadline has closed the counter since, the request is served again: the roll decides, and it opens the counter (R258,
R328). -/
def censusServe (id : Nat) (s : State) : State :=
  match s.due id with
  | some ⟨_, _, _, _, .census line k⟩ =>
    match s.txns.find? fun t => t.line = line with
    | some ⟨tid, _, left, _, .census th c H r⟩ =>
      if left ≤ 1 ∧ !s.roomFor c line r then s else
      let s := (s.landReturns line k).drop id
      if 1 < left then { s with txns := s.txns.map fun (t : Txn) => if t.id = tid then { t with left := left - 1 } else t }
      else
        let s := { s with txns := s.txns.filter fun t => t.id != tid }
        let s :=
          if s.altFlawed line then
            ((s.releaseAll line (s.otherHolders line (censusBut c r))).raiseMc (homeDie (line * 128)) 2 0 (line * 128)).altFail th c line r .mchk
          else if s.counterOpen line then s.afterCensus th c line H r
          else if !s.granted (s.domainOf th) (line * 128) then s.altFail th c line r .deed
          else (s.openWords line).altOpenServe th c line r
        (s.freeAllot c).unhold
    | _ => s.drop id
  | _ => s

/-- ALT_CENSUS_PROBE (R261). -/
def execAltCensusProbe (id : Nat) (s : State) : Result := .next (censusServe id s)

/-- What a closed counter has left of an ALT.CLOSE: its answer (R258, R273). -/
def AltReq.over : AltReq → Option Nat
  | .leave _ d | .left d => some d
  | _ => none

/-- The service of an allotment request that has arrived: a closed counter is opened first (R257, R258). A double-bit error
stops the requester; a return that no thread waits for joins RESERVE all the same (R249, R264). -/
def State.altRequest (s : State) (m : Msg) (th c line : Nat) (r : AltReq) : State :=
  if th ≠ nobody ∧ !s.granted (s.domainOf th) (line * 128) then s.altFail th c line r .deed
  else match (if s.counterOpen line then none else r.over) with
    | some d => s.complete th (word d)
    | none =>
      let bad : Bool := s.altFlawed line && (match r with | .left _ => false | _ => true)
      let s := if bad then s.raiseMc (homeDie (line * 128)) 2 0 (line * 128) else s
      if bad && th != nobody then s.altFail th c line r .mchk
      else
        let s := s.l2Touch line false
        if s.counterOpen line then s.altOpenServe th c line r
        else
          let o := (s.openWords line).openCopies line
          if o.1.isEmpty then o.2.altOpenServe th c line r else o.2.transact line o.1 (.again m)

/-- Serve an allotment request at its home; what its core's next ALT instruction awaited may be done (R262). -/
def altServe (id : Nat) (s : State) : State :=
  match s.due id with
  | some ⟨_, src, dst, after, .alt th c line r⟩ =>
    if !s.roomFor c line r then s
    else ((s.drop id).altRequest ⟨id, src, dst, after, .alt th c line r⟩ th c line r).freeAllot c
  | _ => s

/-- Serve the request of an event if it is of its kind. -/
def altEvent (p : Nat → AltReq → Bool) (id : Nat) (s : State) : State :=
  match s.msg id with
  | some ⟨_, _, _, _, .alt th _ _ r⟩ => if p th r then altServe id s else s
  | _ => s

/-- ALT_HOME_TAKE (R261). -/
def execAltHomeTake (id : Nat) (s : State) : Result :=
  .next (altEvent (fun _ r => match r with | .take _ _ => true | _ => false) id s)
/-- ALT_HOME_JOIN (R259). -/
def execAltHomeJoin (id : Nat) (s : State) : Result :=
  .next (altEvent (fun _ r => match r with | .join _ => true | _ => false) id s)
/-- ALT_HOME_RETURN (R259, R264, R271). -/
def execAltHomeReturn (id : Nat) (s : State) : Result :=
  .next (altEvent (fun th r => match r with | .give _ => true | .leave _ _ => th == nobody | _ => false) id s)
/-- ALT_HOME_READ (R272). -/
def execAltHomeRead (id : Nat) (s : State) : Result :=
  .next (altEvent (fun _ r => match r with | .read => true | _ => false) id s)
/-- ALT_HOME_LEAVE (R273). -/
def execAltHomeLeave (id : Nat) (s : State) : Result :=
  .next (altEvent (fun _ r => match r with | .leave _ _ | .left _ => true | _ => false) id s)

/-! ### The ALT instructions (R269 to R273, R381) -/

/-- The prologue of every ALT instruction: a line that is not cacheable traps before anything asks for its die; a lost
home raises MCHK (R267), and one that is lost while the thread migrates MIGRATE (DESIGN CHOICE, log 38). `go` gets the line, and whether the core's table is used (R381). -/
def altAt (i : Instr) (a : Reg) (s : State) (go : Nat → Bool → State → State) : State :=
  let n := s.cur
  let va := s.reg n a
  s.check n (misaligned va 128)
    (let r := s.locateFor n (commonsRef i) va .store fun _ kind => if kind ≠ .cacheable then some .transs else none
     match r.1 with
     | .refuse .migrate v => r.2.raise n .mchk v
     | p => State.placed n (p, r.2) fun pa _ _ s => go (pa / 128) (usesTable (s.thr n).core (pa / 128)) s)

/-- Ask the home and wait. -/
def altAsk (n line : Nat) (r : AltReq) (d : Option Reg) (len : Nat) (va : Word) (s : State) : State :=
  let c := (s.thr n).core
  let s := (s.onCore c fun x => { x with altAsk := x.altAsk + 1 }).onThr n fun t => { t with snap := s.keepCommons n }
  s.askNow n (s.homeNode (line * 128)) [] (.alt n c line r) { d := d, len := len, size := 8, sign := false, va := va } altServe

/-- An ALT instruction has its turn at its core's entry of a counter once no earlier one of the core awaits it and what it
awaits holds; else it joins the queue (R262, R265). `room`: it makes an entry where there is none. -/
def altTurn (n line : Nat) (room : Bool) (go : State → State) (s : State) : State :=
  let c := (s.thr n).core
  let x := s.core c
  if (match x.altq.find? fun q => q.1 = line with | some q => q.2 == n | none => true) && s.altFree c line room then
    (go (s.dequeue n)).freeAllot c
  else
    (if x.altq.contains (line, n) then s else s.onCore c fun x => { x with altq := x.altq ++ [(line, n)] }).hold n (.allot line room)

/-- Create this core's entry, which has none, for a request: frozen until the home replies, so that nothing uses it before
the home knows its holder (R259, R262). In a full table it takes the place of another when the reply comes: a request that
the home refuses leaves nothing (R8; DEDUCED, log 112). -/
def altMake (n line : Nat) (ask : State → State) (s : State) : State :=
  let c := (s.thr n).core
  ask (if (s.core c).alt.length < 16
    then s.onCore c fun x => { x with alt := x.alt ++ [{ line := line, frozen := true, asking := true }] } else s)

/-- Create this core's entry by a join, and go on when the home has replied (R259). -/
def altJoin (n line : Nat) (isOpen : Bool) (len : Nat) (va : Word) (s : State) : State :=
  altMake n line (altAsk n line (.join isOpen) none len va) s

/-- ALT.OPEN (R269): where the core has an entry, nothing is sent; one whose request is under way is awaited. -/
def execAltOpen (a : Reg) (s : State) : Result :=
  let n := s.cur
  let va := s.reg n a
  .next (altAt (.altOpen a) a s fun line table s =>
    if !table then altAsk n line (.join true) none 8 va s
    else match (s.core (s.thr n).core).altEntry line with
      | some e => if e.asking then altTurn n line true (·.finish n 8) s else (s.unallot n).finish n 8
      | none => altTurn n line true (altJoin n line true 8 va) s)

/-- ALT.TAKE (R270). -/
def execAltTake (d a : Reg) (m : AltN) (s : State) : Result :=
  let n := s.cur
  let va := s.reg n a
  let k := (s.altN n m).toNat
  .next (altAt (.altTake d a m) a s fun line table s =>
    let c := (s.thr n).core
    if k = 0 then s.write n d 1 5 m.len
    else if !table then altAsk n line (.take k false) (some d) m.len va s
    else altTurn n line true (fun s => match (s.core c).altEntry line with
      | some e =>
        if k ≤ e.count then (s.onCore c fun x => x.setAlt line fun e => { e with count := e.count - k }).write n d 1 5 m.len
        else altAsk n line (.take k true) (some d) m.len va
          (s.onCore c fun x => x.setAlt line fun e => { e with frozen := true, asking := true })
      | none => altMake n line (altAsk n line (.take k true) (some d) m.len va) s) s)

/-- ALT.GIVE (R271). -/
def execAltGive (d a : Reg) (m : AltN) (s : State) : Result :=
  let n := s.cur
  let va := s.reg n a
  let k := (s.altN n m).toNat
  .next (altAt (.altGive d a m) a s fun line table s =>
    let c := (s.thr n).core
    if !table then altAsk n line (.give k) (some d) m.len va s
    else altTurn n line true (fun s => match (s.core c).altEntry line with
      | some e =>
        let x := e.count + k
        if x > 4096 then
          ((s.onCore c fun y => y.setAlt line fun e => { e with count := 4096 }).altPost c line (.give (x - 4096))).write n d (word (x - 4096)) 5 m.len
        else (s.onCore c fun y => y.setAlt line fun e => { e with count := x }).write n d 0 5 m.len
      -- It keeps its turn till it issues again with the entry made.
      | none => altJoin n line false m.len va (s.onCore c fun x => { x with altq := (line, n) :: x.altq })) s)

/-- ALT.READ (R272). -/
def execAltRead (d a : Reg) (s : State) : Result :=
  let n := s.cur
  let va := s.reg n a
  .next (altAt (.altRead d a) a s fun line _ s => s.afterStores n (altAsk n line .read (some d) 8 va s))

/-- ALT.CLOSE (R273): its entry stays, empty and frozen, until the home replies; the units travel in the request. -/
def execAltClose (d a : Reg) (s : State) : Result :=
  let n := s.cur
  let va := s.reg n a
  .next (altAt (.altClose d a) a s fun line table s => s.afterStores n
    (let c := (s.thr n).core
     if !table then altAsk n line (.left 0) (some d) 8 va s
     else match (s.core c).altEntry line with
       | none => if s.altAny (Body.altTakes c line) then altTurn n line false (·.write n d 0 replyDelay 8) s
         else (s.unallot n).write n d 0 replyDelay 8
       | some _ => altTurn n line false (fun s => match (s.core c).altEntry line with
         | some e => altAsk n line (.leave e.count e.count) (some d) 8 va
           (s.onCore c fun x => x.setAlt line fun e => { e with count := 0, frozen := true, asking := true })
         | none => s.write n d 0 replyDelay 8) s))

end Sys2Proof.Machine
end

