-- ==== Sys2Proof/Machine/Outside.lean ====
section
/-! DEFINITION. Bins, die links, the loss of a die, the reeve and clock steps, and the REFT tick (chapters 11 and 16). -/

namespace Sys2Proof.Machine

/-! ### Bins (R250) -/

/-- GRANBIN_CARVE (R250). -/
def execGranbinCarve (d b : Nat) (s : State) : Result := .next (if b < 8 ∧ d < 4 then s.carve d b else s)

/-- GRANBIN_UNCARVE (R250). -/
def execGranbinUncarve (d b : Nat) (s : State) : Result := .next (if b < 8 ∧ d < 4 then s.uncarve d b else s)

/-- GRANBIN_BUSY_CLEAR (R250): what waited for the bins of the die goes on. -/
def execGranbinBusyClear (d : Nat) (s : State) : Result :=
  .next (if (s.die d).carveBusy = 0 then s else (s.onDie d fun x => { x with carveBusy := 0 }).unhold)

/-! ### Die links (R246, R247) -/

/-- LINKCTL_WRITE (R247). -/
def execLinkctlWrite (d : Nat) (v : Word) (s : State) : Result := .next (if d < 4 then s.setLinkctl d v else s)

/-- Whether a message crosses a link, in either direction. -/
def State.crosses (s : State) (m : Msg) (d : Nat) (l : LinkId) : Bool :=
  match m.src.die, m.dst.die with
  | some a, some b => (s.route a b).any fun p => p.2 == l && (p.1 == d || p.1 == farDie d l)
  | _, _ => false

/-- A message waits for a link. -/
def State.linkTraffic (s : State) (d : Nat) (l : LinkId) : Bool := s.msgs.any fun m => s.crosses m d l

/-- NSH or NSV of a die. -/
def Die.noSleep (x : Die) : LinkId → Bool
  | .h => x.linkctl.getLsbD 0
  | .v => x.linkctl.getLsbD 1

/-- A link that neither die keeps awake. -/
def State.maySleep (s : State) (d : Nat) (l : LinkId) : Bool := !(s.die d).noSleep l && !(s.die (farDie d l)).noSleep l

/-- LINK_SLEEP (R246): after 400 ticks with no traffic and no message waiting. -/
def execLinkSleep (d : Nat) (l : LinkId) (s : State) : Result :=
  let x := (s.die d).link l
  .next (if d < 4 ∧ x.st = 0 ∧ 400 ≤ x.idle ∧ s.maySleep d l ∧ !s.linkTraffic d l
    then s.onLink d l fun y => { y with st := 1, slept := 0 } else s)

/-- LINK_WAKE (R246): traffic sends a wake over a sleeping link; a waking link is awake, and the wake is counted. -/
def execLinkWake (d : Nat) (l : LinkId) (s : State) : Result :=
  let x := (s.die d).link l
  .next (if 4 ≤ d then s
    else if x.st = 1 ∧ (s.linkTraffic d l ∨ x.want) then s.onLink d l Link.wake
    else if x.st = 2 then
      (s.onLink d l fun y => { y with st := 0, wakes := y.wakes + 1, idle := 0, waited := 0, want := false }).unhold
    else s)

/-- LINK_CHECK_WAKE (R246): a link that has slept 10,000 ticks is woken to check its far die. -/
def execLinkCheckWake (d : Nat) (l : LinkId) (s : State) : Result :=
  let x := (s.die d).link l
  .next (if d < 4 ∧ x.st = 1 ∧ 10000 ≤ x.slept then s.onLink d l Link.wake else s)

/-- LINK_TIMEOUT (R248): no answer within 5,000 ticks marks the far die lost at this end. -/
def execLinkTimeout (d : Nat) (l : LinkId) (s : State) : Result :=
  let x := (s.die d).link l
  .next (if d < 4 ∧ x.st ≠ 3 ∧ 5000 ≤ x.waited ∧ (s.die (farDie d l)).relock.isNone
    then s.onDie d fun y => y.onLink l fun z => { z with st := 3 } else s)

/-- RELOCK_FLIT (R337): the timeout does not run for a link whose far die is relocking. -/
def execRelockFlit (d : Nat) (l : LinkId) (s : State) : Result :=
  .next (if d < 4 ∧ (s.die (farDie d l)).relock.isSome then s.onDie d fun y => y.onLink l fun z => { z with waited := 0 } else s)

/-! ### Loss of a die (R248) -/

/-- The thread that waits for the reply to a request. -/
def Body.asker : Body → Option Nat
  | .read n _ _ _ | .atomic n _ _ | .alt n _ _ _ | .wake n _ _ _ | .absent n _ | .restore n _ _ | .spawn n _ _ _ _
  | .roll n _ _ _ | .region n _ _ _ _ | .system n _ _ _ _ _ _ _ => some n
  | .arrive _ a => some a.thread
  | .post n _ _ => n
  | _ => none

/-- Whether the reply to a request would be an atomic's. -/
def Body.isAtomic : Body → Bool
  | .atomic _ _ (.atomic _ _ _ _) => true
  | .arrive _ ⟨_, _, .atomic _ _ _ _⟩ => true
  | _ => false

/-- The address or core that the trap of a thread that awaited a lost die reports. -/
def State.lossVal (s : State) (n : Nat) (b : Body) : Word :=
  match b with
  | .spawn _ c _ _ _ => word c
  | .arrive c a => match a.op with
    | .atomic _ _ _ _ => word a.off
    | _ => word c
  | .post _ box _ => word box
  | .wake _ num _ _ => word num
  | _ => match (s.thr n).cont with | some k => k.va | none => 0

/-- A request to the lost die traps its thread: AMOERR with nothing applied for an atomic, else MCHK. -/
def State.loseRequest (s : State) (id : Nat) (b : Body) : State :=
  match b.asker with
  | some n =>
    if (s.thr n).wait = .reply id then
      s.raise n (if b.isAtomic then .amoerr else .mchk) (s.lossVal n b)
    else s
  | none => s

/-- A transaction at the lost die traps the thread that it would have answered. -/
def State.loseTxn (s : State) (t : Txn) : State :=
  let va := fun (n : Nat) => match (s.thr n).cont with | some k => k.va | none => 0
  match t.done with
  | .reply n _ _ => if (s.thr n).cont.isSome then s.raise n .amoerr (va n) else s
  | .sc n => if (s.thr n).cont.isSome then s.raise n .mchk (va n) else s
  | .census n _ _ _ => if (s.thr n).cont.isSome then s.raise n .mchk (va n) else s
  | .region n _ _ _ => if (s.thr n).cont.isSome then s.raise n .mchk (va n) else s
  | .again m => s.loseRequest m.id m.body
  | _ => s

/-- The posted operations of a thread that leave the package by the lost die: identifier and address (R289, R341). -/
def State.lostPosts (s : State) (d n : Nat) : List (Nat × Nat) :=
  s.msgs.filterMap fun m => match m.body with
    | .system t pa _ false _ _ _ true => if t = n ∧ m.dst.die = some d then some (m.id, pa) else none
    | _ => none

/-- Stores of a thread to lines of the lost die will not be acknowledged, nor those that leave by it confirmed: MCHK, at
once where the thread awaits them. -/
def State.loseStores (s : State) (d n : Nat) : State :=
  let t := s.thr n
  let posts := s.lostPosts d n
  let lost := (t.unacked.filter fun (u : Unacked) => inPackage u.pa && decide (homeDie u.pa = d)).map (fun u => (u.id, u.pa))
    ++ posts
  match lost with
  | [] => s
  | u :: _ =>
    let s := s.onThr n fun t => { t with
      unacked := t.unacked.filter fun x => !lost.any fun y => y.1 = x.id
      unconfirmed := t.unconfirmed.filter fun i => !posts.any fun y => y.1 + 1 = i }
    let awaited : Bool := match t.wait with
      | .ops ids => (lost.any fun x => ids.contains x.1) || posts.any fun x => ids.contains (x.1 + 1)
      | _ => false
    if ghostBase ≤ n then s
    else if awaited then s.raise n .mchk (word u.2)
    else
      let s := s.onThr n fun t => { t with mchk := t.mchk ++ lost.map fun x => word x.2 }
      if (s.thr n).wait = Wait.window then s.again n else s.settle n

/-- Where a thread in transit is going. -/
def State.headed (s : State) (n : Nat) : Option Nat :=
  s.msgs.findSome? fun (m : Msg) => match m.body with | .migrate t e _ => if t = n then some e else none | _ => none

/-- A guest of a surviving die on the lost die, or on its way there or waiting there for a slot. -/
def State.guestLost (s : State) (d n : Nat) : Bool :=
  let t := s.thr n
  t.away && (decide (dieOf t.core = d) && t.wait != .transit || s.headed n == some d || (s.die d).migq.contains n
    || s.msgs.any fun m => decide (m.src.die = some d) && (match m.body with | .migrate k _ _ => k == n | _ => false))

/-- Arrivals that wait at the porters of the lost die trap their threads (R157, R158). -/
def State.loseArrivals (s : State) (d : Nat) : State :=
  (s.cores.filter fun p => dieOf p.1 = d).foldl (fun s p => (s.core p.1).porter.foldl (fun s a =>
    match (s.thr a.thread).wait with
    | .reply id => s.loseRequest id (.arrive p.1 a)
    | _ => s) s) s

/-- The writes that a CTX.SAVE or a SEAL instruction awaits. -/
def Wait.writes : Wait → List Nat
  | .saving ids | .acks ids => ids
  | _ => []

/-- A CTX.SAVE or a SEAL instruction that writes to the lost die traps: its writes are not acknowledged. -/
def State.loseImages (s : State) (d : Nat) : State :=
  (s.threads.map (·.1)).foldl (fun s n =>
    let ids := (s.thr n).wait.writes
    match s.txns.find? fun t => ids.contains t.id && decide (homeDie (t.line * 128) = d) with
    | some t => s.raise n .mchk (word (t.line * 128))
    | none => s) s

/-- The messages of home transactions, with the transaction that awaits their answer. -/
def Body.txn : Body → Option Nat
  | .update _ _ _ _ t | .offer _ _ t | .inval _ _ t | .probe _ _ t | .agentInval _ _ t | .hit _ _ _ t => some t
  | _ => none

/-- Messages from and to the lost die are gone; a surviving home counts them as answered, and a directory command to it
completes with OK = 0 (R307). -/
def State.loseMessages (s : State) (d : Nat) : State :=
  let hall := fun (m : Msg) => decide (m.dst = .outside d) && (match m.body with | .agentInval _ _ _ => true | _ => false)
  let gone := s.msgs.filter fun m => m.src.die == some d || m.dst.die == some d || hall m
  let s := { s with msgs := s.msgs.filter fun m => !gone.any fun x => x.id = m.id }
  gone.foldl (fun s m => match m.body with
    | .cmd c _ _ => if dieOf c = d then s else s.cmdLost c
    | b => match b.txn with | some t => s.replied t | none => s) s

/-- The slots of the lost die send no notices; its killed threads stand in no queue of a migration target, and their remote
operations at the porters of surviving cores answer nobody (R154, R220, R248, R303). -/
def State.loseThreads (s : State) (d : Nat) (lost : List Nat) : State :=
  { s with
    cores := s.cores.map fun (p : Nat × Option Core) => (p.1, p.2.map fun (c : Core) =>
      { c with
        notices := if dieOf p.1 = d then [] else c.notices
        owed := if dieOf p.1 = d then 0 else c.owed
        porter := c.porter.map fun a => if lost.contains a.thread then { a with thread := nobody } else a })
    dies := s.dies.map fun (p : Nat × Option Die) => (p.1, p.2.map fun (x : Die) =>
      { x with migq := x.migq.filter fun n => !lost.contains n })
    msgs := s.msgs.map fun (m : Msg) => match m.body with
      | .arrive c a => if lost.contains a.thread then { m with body := .arrive c { a with thread := nobody } } else m
      | _ => m }

/-- Everything of the lost die is discarded (R182, R220, R248). Which of its bins were carved still tells the lines that the
survivors lost with it from addresses that nothing populated. -/
def State.loseParts (s : State) (d : Nat) : State :=
  let off := fun (line : Nat) => decide (homeDie (line * 128) ≠ d)
  { s with
    cores := s.cores.filter fun p => dieOf p.1 != d
    tiles := s.tiles.filter fun p => p.1 / 32 != d
    posts := s.posts.filter fun p => p.1 / 4096 != d
    ctxs := s.ctxs.filter fun p => p.1 / 4096 != d
    launches := s.launches.filter fun l => (if l.target < 1024 then dieOf l.target else l.target - 0x1000) != d
    regs := s.regs.filter fun p => off p.2
    l2 := s.l2.filter fun p => off p.1
    altHomes := s.altHomes.filter fun h => off h.line
    dir := (s.dir.filter fun p => off p.1).map fun (p : Nat × Dir) =>
      (p.1, ({ p.2 with agents := p.2.agents.filter (· != d) } : Dir).settle)
    dies := mset none s.dies d (some { lost := true, carve := (s.die d).carve }) }

/-- A loss as a surviving die reports it (R248). -/
def State.reportLoss (s : State) (d e : Nat) : State :=
  let s := s.raiseMc e 1 d 0
  let s := s.onDie e fun x =>
    let x := if farDie e .h = d then { x with linkH := { x.linkH with st := 3 } } else x
    if farDie e .v = d then { x with linkV := { x.linkV with st := 3 } } else x
  s.notify e (word (2 ^ 63 + d * 128 + 17))

/-- The announced loss of die `d`. -/
def State.loseDie (s : State) (d : Nat) : State :=
  let survivors := (s.joined d).filter (· != d)
  let all := s.threads.map (·.1)
  let s := s.onDie d fun x => { x with lost := true }
  let guests := all.filter fun n => n < ghostBase && dieOf (originOf n) != d && s.guestLost d n
  let own := all.filter fun n => n < ghostBase && dieOf (originOf n) == d
  let lost := own ++ guests
  let s := s.loseThreads d lost
  let s := guests.foldl (fun s n => s.kill n 17 true) s
  let s := own.foldl (fun s n => s.kill n 17 false) s
  -- Requests of killed contexts: those that carry units go on for nobody; the others end with their context.
  let s := { s with
    msgs := s.msgs.filterMap fun (m : Msg) => match m.body with
      | .alt n c line r => some (if lost.contains n then { m with body := .alt orphan c line r } else m)
      | b => match b.asker with
        | some n => if lost.contains n then none else some m
        | none => match b with
          | .migrate n _ _ => if lost.contains n then none else some m
          | _ => some m
    txns := s.txns.map fun (t : Txn) => match t.done with
      | .reply n _ _ => if lost.contains n then { t with done := .nothing } else t
      | .region n _ _ _ => if lost.contains n then { t with done := match t.done with | .region _ e i o => .region nobody e i o | x => x } else t
      | .census n c h r => if lost.contains n then { t with done := .census orphan c h r } else t
      | _ => t }
  let s := (s.msgs.filter fun m => m.dst.die == some d).foldl (fun s m => s.loseRequest m.id m.body) s
  let s := (s.loseArrivals d).loseImages d
  let here := fun (t : Txn) => (match t.done with | .region _ e _ _ => e == d | _ => homeDie (t.line * 128) == d)
  let s := (s.txns.filter here).foldl (fun s t => s.loseTxn t) s
  let s := { s with txns := s.txns.filter fun t => !here t }
  let s := all.foldl (fun s n => match (s.thr n).wait with
    | .notice c _ => if dieOf c = d then s.complete n 0 else s
    | _ => s.loseStores d n) s
  let s := all.foldl (fun s n => s.settle n) ((s.loseMessages d).loseParts d)
  (survivors.foldl (fun s e => s.reportLoss d e) s).unhold.drained

/-- A link of a surviving die has marked die `d` lost (R248). -/
def State.marked (s : State) (d : Nat) : Bool :=
  ((s.die (farDie d .h)).linkH.st == 3 && !s.cut (farDie d .h) d) || ((s.die (farDie d .v)).linkV.st == 3 && !s.cut (farDie d .v) d)

/-- DIE_LOSS (R248): a die that a link has marked lost is announced and fenced. -/
def execDieLoss (d : Nat) (s : State) : Result := .next (if d < 4 ∧ !s.dead d ∧ s.marked d then s.loseDie d else s)

/-! ### The reeve (R334, R335, R366) -/

/-- The slots of a die that are ready or waiting, guests included; those of gated cores count zero. -/
def State.busySlots (s : State) (d : Nat) : Nat :=
  s.threads.countP fun p => match p.2 with
    | some t => decide (p.1 < 16384) && decide (dieOf t.core = d) && (decide (t.run = .ready) || decide (t.run = .waiting))
        && !decide (t.wait = .transit) && !(s.core t.core).gated
    | none => false

/-- B of a die at a decision: from the epoch that ends, when the die had demand in it and did not relock, else as it
last was, else the fused figure. -/
def State.reeveB (s : State) (d w : Nat) : Option Int :=
  let x := s.die d
  if x.demand ≠ 0 ∧ !(x.steps ≠ 0 && decide (s.reft ≤ x.lastStep + 2000)) then
    some ((w : Int) - (Config.fusedS d : Int) * ((x.fcur : Int) - 20))
  else x.baseB

/-- The estimate of one die at a code: linear with demand, else its measured power. -/
def State.reeveFigure (s : State) (d w code : Nat) : Int :=
  if (s.die d).demand = 0 then w
  else ((s.reeveB d w).getD (Config.fusedB d)) + (Config.fusedS d : Int) * ((code : Int) - 20)

/-- The estimate of a group at codes. -/
def State.reeveEstimate (s : State) (w : Nat → Nat) (codes : List (Nat × Nat)) : Int :=
  (codes.map fun p => s.reeveFigure p.1 (w p.1) p.2).sum

/-- The die that step 2 raises: nonzero demand, below its FMAX, greatest demand, lowest number. -/
def State.reevePick (s : State) (codes : List (Nat × Nat)) : Option Nat :=
  (codes.foldl (fun (b : Option Nat) p =>
    if (s.die p.1).demand = 0 ∨ (s.die p.1).fmax ≤ p.2 then b
    else match b with
      | none => some p.1
      | some q => if (s.die q).demand < (s.die p.1).demand then some p.1 else b) none)

/-- Steps 2 and 3: raises while the estimate stays within the cap. -/
def State.reeveRaise (s : State) (w : Nat → Nat) (cap : Nat) (codes : List (Nat × Nat)) : Nat → List (Nat × Nat)
  | 0 => codes
  | k + 1 => match s.reevePick codes with
    | none => codes
    | some d =>
      let next := codes.map fun p => if p.1 = d then (p.1, p.2 + 1) else p
      if s.reeveEstimate w next ≤ cap then s.reeveRaise w cap next k else codes

/-- Target codes of a group of dies in ascending order. -/
def State.reeveTargets (s : State) (w : Nat → Nat) (g : List Nat) : List (Nat × Nat) :=
  let cap := match g with | d :: _ => Min.min (s.die d).pwrcap 3200 | [] => 0
  s.reeveRaise w cap (g.map fun d => (d, (s.die d).fmin)) 84

/-- The die that steps: the lowest outside its range, else the one furthest from its target, lowest number. -/
def State.reeveStepper (s : State) (targets : List (Nat × Nat)) : Option (Nat × Nat) :=
  match targets.find? fun p => decide ((s.die p.1).fcur < (s.die p.1).fmin) || decide ((s.die p.1).fmax < (s.die p.1).fcur) with
  | some p => if (s.die p.1).fcur = p.2 then none else some p
  | none =>
    let gap := fun (p : Nat × Nat) => Max.max ((s.die p.1).fcur - p.2) (p.2 - (s.die p.1).fcur)
    targets.foldl (fun (b : Option (Nat × Nat)) p =>
      if gap p = 0 then b
      else match b with
        | none => some p
        | some q => if gap q < gap p then some p else b) none

/-- A clock step starts: the die halts for 120 ticks (R336). -/
def State.startRelock (s : State) (d code : Nat) : State :=
  s.onDie d fun x => { x with
    relock := some { finish := s.reft + 120, dcyc := x.dcyc, old := x.fcur, new := code }
    steps := x.steps + 1
    lastStep := s.reft }

/-- The decision of one group. -/
def State.reeveGroup (s : State) (w : Nat → Nat) (g : List Nat) : State :=
  let pick := s.reeveStepper (s.reeveTargets w g)
  let total := (g.map w).sum
  let s := g.foldl (fun s' d => s'.onDie d fun x => { x with baseB := s.reeveB d (w d), pwrnow := total }) s
  match pick with
  | some (d, code) => s.startRelock d code
  | none => s

/-- The groups of dies whose reeves act as one: those joined by trained links, and every other die alone (R334, R350). -/
def State.reeveGroups (s : State) : List (List Nat) :=
  ((List.range 4).filter fun d => !s.dead d && decide ((s.fellows d).headD d = d)).map s.fellows

/-- The decisions of an epoch's end, with the power measured on each die. -/
def State.reeveDecide (s : State) (w : Nat → Nat) : State :=
  s.reeveGroups.foldl (fun s g => s.reeveGroup w g) { s with epochAt := s.reft }

/-- REEVE_EPOCH (R335, R366): once at each multiple of 2,000 ticks, with the power measured on each die. -/
def execReeveEpoch (w0 w1 w2 w3 : Nat) (s : State) : Result :=
  .next (if s.reft = 0 ∨ s.reft % 2000 ≠ 0 ∨ s.epochAt = s.reft then s
    else s.reeveDecide fun d => if d = 0 then w0 else if d = 1 then w1 else if d = 2 then w2 else w3)

/-- DCYC after a relock (R336): codes are in units of 50 MHz, so 1,200 ns are 60 cycles per code. -/
def Relock.after (r : Relock) : Nat := r.dcyc * r.new / r.old + 60 * r.new

/-- CLOCK_RELOCK_END (R336): work resumes at the new clock. -/
def execClockRelockEnd (d : Nat) (s : State) : Result :=
  .next (match (s.die d).relock with
    | none => s
    | some r =>
      if s.reft < r.finish then s
      else
        let s := s.onDie d fun x =>
          { x with relock := none, fcur := r.new, dcyc := r.after + (s.reft - r.finish) * r.new / 2, half := false }
        -- The cores' counts start again at the die's.
        let s := { s with cores := s.cores.map fun (p : Nat × Option Core) =>
          (p.1, if dieOf p.1 = d ∧ p.1 < 1024 then p.2.map fun (x : Core) => { x with base := x.cycle } else p.2) }.unhold.drained
        -- Host events that waited for a ring on the die enter it (R330).
        (List.range 4).foldl (fun s e => s.ringFlush e (s.die e).events.length) s)

/-! ### The REFT tick -/

/-- The message that has crossed a link longest without an answer. -/
def State.linkFront (s : State) (d : Nat) (l : LinkId) : Option Nat :=
  (s.msgs.find? fun m => s.crosses m d l && decide (m.body.lane = 0) && s.deliverable m).map (·.id)

/-- Something has crossed a link in the present tick (R246). -/
def State.linkUsed (s : State) (d : Nat) (l : LinkId) : Bool :=
  s.carried.any fun q => (s.route q.1 q.2).any fun p => p.2 == l && (p.1 == d || p.1 == farDie d l)

/-- One tick of a link's counters: `waited` counts the ticks that one message, or a wake, has gone without an answer, but
not those in which the far die relocks (R248, R337). -/
def State.tickLink (s : State) (d : Nat) (l : LinkId) (x : Link) : Link :=
  let front := s.linkFront d l
  let held := s.halted (farDie d l)
  if x.st = 0 then
    match front with
    | some _ =>
      { x with
        idle := 0, front := front, want := false
        waited := if front ≠ x.front then 0 else if held then x.waited else x.waited + 1 }
    | none => { x with idle := if x.want || s.linkUsed d l then 0 else x.idle + 1, waited := 0, front := none, want := false }
  else if x.st = 1 then { x with slept := x.slept + 1 }
  else if x.st = 2 then { x with waited := if held then x.waited else x.waited + 1 }
  else x

/-- One tick of a die: its core clock counts unless it relocks (R19, R336), its demand is summed (R335), its links age. -/
def State.tickDie (s : State) (d : Nat) : Die :=
  let x := s.die d
  let n := x.fcur + (if x.half then 1 else 0)
  let x := if x.relock.isSome then x else { x with dcyc := x.dcyc + n / 2, half := decide (n % 2 = 1) }
  { x with
    demand := (if s.reft % 2000 = 0 then 0 else x.demand) + s.busySlots d
    linkH := s.tickLink d .h x.linkH
    linkV := s.tickLink d .v x.linkV }

/-- One tick of a core: the cycles of the tick that it has not run pass idle; those it has run beyond the tick count
toward the next (log 3). -/
def State.tickCore (s t : State) (c : Nat) : State :=
  let n := s.tickCycles c
  let x := s.core c
  let t := if x.spent < n then t.passCycles c (n - x.spent) else t
  t.onCore c fun x => { x with base := x.base + n }

/-- A tick passes: dies and cores count it, and REFT (R20). -/
def State.passTick (s : State) : State :=
  let t := (List.range 4).foldl (fun t d => t.onDie d fun _ => s.tickDie d) s
  let t := (s.cores.map (·.1)).foldl (fun t c => s.tickCore t c) t
  { t with reft := s.reft + 1, carried := [] }

end Sys2Proof.Machine
end

