-- ==== Sys2Proof/Machine/Packets.lean ====
section
/-! DEFINITION. Scale-up links, reduction windows, completions of the system region, key sets of the links (R289, R291,
R341 to R345, R353). -/

namespace Sys2Proof.Machine

/-! ### Requests of peer packages (R317, R342) -/

/-- A packet that link `j` takes: its die lives and is not held in reset (R347), and the link is not in the insecure state (R353). -/
def State.linkOpen (s : State) (j : Nat) : Bool :=
  decide (j < 16) && !s.dead (linkDie j) && !(s.die (linkDie j)).held && !(s.die (linkDie j)).insecure.contains (j % 4)

/-- Package memory that the accelerator domain may reach from die `d`. -/
def State.reachable (s : State) (d pa : Nat) : Bool :=
  inPackage pa && s.populated pa && !(s.die (homeDie pa)).held && !s.cut d (homeDie pa) && s.granted .acc pa

/-- Both ends of a packet's bytes are reachable. -/
def State.packetOk (s : State) (j pa size : Nat) : Bool :=
  s.linkOpen j && decide (1 ≤ size) && decide (size ≤ 128) && s.reachable (linkDie j) pa
    && s.reachable (linkDie j) (pa + size - 1)

/-- A packet of link `j` is served, or waits: for its lines, for a bin under way, for a die that relocks or a die link that
sleeps on its way (R229, R246, R250, R336, R337; log 77). -/
def State.packet (s : State) (j pa size : Nat) (go : State → State) : State :=
  if !s.linksOpen (linkDie j) (homeDie pa) then s.meetLinks (linkDie j) (homeDie pa)
  else if s.busy (pa / 128) || s.busy ((pa + size - 1) / 128) || s.binBusy pa || s.binBusy (pa + size - 1) then s
  else go (s.carry (linkDie j) (homeDie pa))

/-- LINK_READ (R342): answered with the bytes, refused, or poisoned by a double-bit error. -/
def execLinkRead (j pa size : Nat) (_src _tag : Nat) (s : State) : Result :=
  .next (if !s.packetOk j pa size then s.answers none
    else s.packet j pa size fun s =>
      let r := s.readMeets (linkDie j) pa size
      if r.1 then r.2.poisons
      else r.2.answers (some (BitVec.ofNat 1024 (natOfBytes (r.2.homeBytes pa size)))))

/-- A write that may span two lines. -/
def State.writeSpan (s : State) (pa size v : Nat) : State :=
  let k := Min.min size (128 - pa % 128)
  let s := s.hwWrite pa k (v % 2 ^ (8 * k))
  if k < size then s.hwWrite (pa + k) (size - k) (v / 2 ^ (8 * k) % 2 ^ (8 * (size - k))) else s

/-- LINK_WRITE (R342): applied as a store; its completion answers 0, or refuses. -/
def execLinkWrite (j pa size : Nat) (value : Line) (_src _tag : Nat) (s : State) : Result :=
  .next (if !s.packetOk j pa size then s.answers none
    else s.packet j pa size fun s => (s.writeSpan pa size value.toNat).answers (some 0))

/-- FN of an atomic packet, by the codes of R39. -/
def packetFn (fn : Nat) : Option AtFn :=
  if fn = 0x00 then some .add else if fn = 0x08 then some .swap else if fn = 0x09 then some .cas
  else if fn = 0x0A then some .fadd else if fn = 0x0B then some .faddBf16 else none

/-- One atomic at a home slice for a requester that no thread waits for: the old value and the state. -/
def State.hwAtomic (s : State) (fn : AtFn) (pa size x cmp : Nat) : Nat × State :=
  let line := pa / 128
  let s := ((s.homeMeet pa).l2Touch line false).closeCounter line
  let old := s.homeRead pa size
  match atomicNew fn size old x cmp with
  | some v => (old, s.applyWrite pa size v none .nothing)
  | none => (old, s)

/-- LINK_ATOMIC (R342): the old value answers, or a refusal; a double-bit error on the read refuses it, with nothing
applied (R291, R340). -/
def execLinkAtomic (j pa fn : Nat) (dw : Bool) (x cmp : Word) (_src _tag : Nat) (s : State) : Result :=
  let size := if dw then 8 else 4
  .next (match packetFn fn with
    | none => s.answers none
    | some f =>
      if !s.packetOk j pa size || decide (pa % size ≠ 0) || (dw && (f == .fadd || f == .faddBf16)) then s.answers none
      else s.packet j pa size fun s =>
        if s.flawed false pa size then (s.raiseMc (homeDie pa) 2 0 pa).answers none
        else
          let r := s.hwAtomic f pa size x.toNat cmp.toNat
          r.2.answers (some (BitVec.ofNat 1024 r.1)))

/-! ### Reduction windows (R343, R344) -/

/-- The registers of a window, the same on every die. -/
def State.winRegs (s : State) (i : Nat) : Word × Word :=
  (s.die (((List.range 4).find? fun d => !s.dead d).getD 0)).win i

abbrev winNc (w : Word × Word) : Nat := w.1.toNat / 2 ^ 54 % 2 ^ 7
abbrev winTarget (w : Word × Word) : Nat := w.2.toNat / 2 ^ 21 % 2 ^ 27 * 2 ^ 21

/-- A word of a valid window. -/
def State.winHas (s : State) (i off : Nat) : Bool :=
  let w := s.winRegs i
  decide (i < 8) && w.1.getLsbD 63 && decide (off % 4 = 0) && decide (off < winSize w)

abbrev winKey (i off : Nat) : Nat := i * 2 ^ 48 + off
def State.winWord (s : State) (i off : Nat) : WinWord := mget {} s.windows (winKey i off)
def State.setWinWord (s : State) (i off : Nat) (x : WinWord) : State := { s with windows := mset {} s.windows (winKey i off) x }

/-- The addition of a window's format: FP32 and paired BF16 under R87, or wrapping. -/
def winFn (fmt : Nat) : AtFn := if fmt = 0 then .fadd else if fmt = 1 then .faddBf16 else .add
def winSum (fmt : Nat) (a b : BitVec 32) : BitVec 32 :=
  if fmt = 0 then BitVec.ofNat 32 (faddWord a.toNat b.toNat)
  else if fmt = 1 then BitVec.ofNat 32 (faddBf16Word a.toNat b.toNat)
  else a + b

/-- The sum of contributions in the switches' merge order, which is some order of them. -/
def State.winMerge (s : State) (fmt : Nat) (l : List (BitVec 32)) : BitVec 32 :=
  let o := Config.mergeOrder s.free l
  match (if o.isPerm l then o else l) with
  | [] => 0
  | x :: xs => xs.foldl (winSum fmt) x

/-- A word of the home package's memory takes a write of the switches. -/
def State.atHome (s : State) (i off : Nat) (f : Nat → State → State) : State :=
  let w := s.winRegs i
  let pa := winTarget w + off
  if winHome w = (s.die (((List.range 4).find? fun d => !s.dead d).getD 0)).pkgid.toNat % 64
      ∧ inPackage pa ∧ s.populated pa ∧ !s.dead (homeDie pa) ∧ s.granted .acc pa
  then f pa s else s

/-- The die that sent a message to the system region. -/
abbrev Msg.sysSrc (m : Msg) : Nat := m.src.die.getD 0

/-- The message of a thread of this package that a packet to a window stands for. -/
def State.winMsg (s : State) (i off : Nat) (v : BitVec 32) (fn : Option AtFn) : Option (Nat × Nat) :=
  s.msgs.findSome? fun (m : Msg) => match m.body with
    | .system n pa 4 false f x _ true =>
      let d := m.sysSrc
      if f = fn ∧ s.windowOf d pa = some i ∧ pa = winBase ((s.die d).win i) + off ∧ x.setWidth 32 = v ∧ s.deliverable m
          ∧ !s.insecurePath d pa
      then some (m.id, n) else none
    | _ => none

/-- A posted operation is confirmed (R289): it is no longer open under either of its identifiers, and what awaited it goes
on. -/
def State.confirm (s : State) (id n : Nat) : State :=
  let s := (s.drop id).onThr n fun t =>
    { t with unconfirmed := t.unconfirmed.filter (· != id + 1), unacked := t.unacked.filter fun u => u.id != id }
  ((s.settle n).settleOn id).unhold

def State.confirmWin (s : State) (i off : Nat) (v : BitVec 32) (fn : Option AtFn) : State :=
  match s.winMsg i off v fn with
  | some (id, n) => s.confirm id n
  | none => s

/-- WINDOW_STORE (R344): a contribution joins its epoch; the NC-th sends the sum home and ends the epoch. -/
def execWindowStore (i off : Nat) (v : BitVec 32) (s : State) : Result :=
  .next (if !s.winHas i off then s
    else
      let w := s.winRegs i
      let s := s.confirmWin i off v none
      let x := s.winWord i off
      let parts := x.parts ++ [v]
      if parts.length < winNc w then s.setWinWord i off { x with parts := parts }
      else
        let sum := s.winMerge (winFmt w) parts
        let s := s.setWinWord i off { x with parts := [] }
        { s with free := s.free + 1 }.atHome i off fun pa s => s.hwWrite pa 4 sum.toNat)

/-- WINDOW_ADD (R344): a posted add is held by the switches. -/
def execWindowAdd (i off : Nat) (v : BitVec 32) (s : State) : Result :=
  .next (if !s.winHas i off then s
    else
      let s := s.confirmWin i off v (some (winFn (winFmt (s.winRegs i))))
      let x := s.winWord i off
      s.setWinWord i off { x with adds := x.adds ++ [v], since := if x.adds.isEmpty then s.reft else x.since })

/-- MERGED_ADD (R344): the adds held for a word are applied at home as one atomic. -/
def execMergedAdd (i off : Nat) (s : State) : Result :=
  let x := s.winWord i off
  .next (if x.adds.isEmpty then s
    else
      let w := s.winRegs i
      let sum := s.winMerge (winFmt w) x.adds
      let s := s.setWinWord i off { x with adds := [], since := 0 }
      { s with free := s.free + 1 }.atHome i off fun pa s => (s.hwAtomic (winFn (winFmt w)) pa 4 sum.toNat 0).2)

/-- RDWIN_WRITE (R343, R344): the host writes a register word, the same on every die. -/
def execRdwinWrite (i k : Nat) (v : Word) (s : State) : Result :=
  .next (if 8 ≤ i ∨ 2 ≤ k then s else s.setWindow (2 * i + k) v)

/-! ### Completions of the system region (R289, R291, R342) -/

/-- A load, or the read of a WAITA, is answered. -/
def State.loadReply (s : State) (n id pa size : Nat) (watch : Bool) (cmp : Word) (stat : ComplStat) (value : Word) : State :=
  let t := s.thr n
  let waits : Bool := match t.wait with
    | .reply i => i == id
    | .watch a _ _ _ _ _ _ => watch && a == pa
    | _ => false
  match t.cont with
  | some k =>
    if !waits then s
    else if stat ≠ .ok then s.raise n .mchk k.va
    else
      let v := word (value.toNat % 2 ^ (8 * size))
      if watch ∧ v = cmp then
        match t.wait with
        | .reply _ => s.park n .sleeping (.watch pa size cmp (k.d.getD 0) false false s.reft)
        | _ => s
      else s.complete n v
  | none => s

/-- An atomic of the system region is answered (R291). -/
def State.atomicReply (s : State) (n id : Nat) (stat : ComplStat) (value : Word) : State :=
  let t := s.thr n
  match t.cont with
  | some k =>
    if t.wait ≠ .reply id then s
    else match stat with
      | .ok => s.complete n value
      | .refused => s.raise n .amoerr k.va
      | .poisoned => s.conclude 0 (.reply n value true)
  | none => s

/-- A completion that answers an access of die `d` to a window: only a refusal does (R344), counted on that die (R345). -/
def winComplete (d i id n pa size : Nat) (load : Bool) (fn : Option AtFn) (posted : Bool) (cmp : Word) (stat : ComplStat)
    (s : State) : State :=
  if load then ((s.drop id).countWin d i 48).loadReply n id pa size posted cmp .refused 0
  else if stat = .ok ∧ size = 4 ∧ !s.insecurePath d pa then s
  else if fn.isSome then (s.countWin d i 16).confirm id n
  else (s.countWin d i 32).confirm id n

/-- A completion for request `id`, when its address is one that `mine` answers for. -/
def sysComplete (mine : Nat → Bool) (id : Nat) (stat : ComplStat) (value : Word) (s : State) : State :=
  match s.due id with
  | some ⟨_, src, _, _, .system n pa size load fn _ cmp posted⟩ =>
    let d := src.die.getD 0
    if !mine pa then s
    else match s.windowOf d pa with
      | some i => winComplete d i id n pa size load fn posted cmp stat s
      | none =>
        let stat := if s.insecurePath d pa then ComplStat.refused else stat
        if load then (s.drop id).loadReply n id pa size posted cmp stat value
        else if posted then s.confirm id n
        else (s.drop id).atomicReply n id stat value
  | _ => s

/-- LINK_COMPLETION (R342): from a peer or a reduction window. -/
def execLinkCompletion (id : Nat) (stat : ComplStat) (value : Word) (s : State) : Result :=
  .next (sysComplete (fun pa => decide (0x400_0000_0000 ≤ pa)) id stat value s)

/-- HOST_PORT_COMPLETION (R289, R291): from host memory. -/
def execHostPortCompletion (id : Nat) (stat : ComplStat) (value : Word) (s : State) : Result :=
  .next (sysComplete (fun pa => decide (pa < 0x400_0000_0000)) id stat value s)

/-- COMPLETION_TIMEOUT (R291): MCHK in the instruction that waits for the completion. -/
def execCompletionTimeout (id : Nat) (s : State) : Result :=
  .next (match s.due id with
    | some ⟨_, _, _, _, .system n pa _ _ _ _ _ _⟩ =>
      let t := s.thr n
      match t.wait, t.cont with
      | .reply i, some k => if i = id then (s.drop id).raise n .mchk k.va else s
      | .watch a _ _ _ _ _ _, some k => if a = pa then (s.drop id).raise n .mchk k.va else s
      | .ops ids, _ =>
        if ids.contains (id + 1) then
          ((s.drop id).onThr n fun t => { t with unconfirmed := t.unconfirmed.filter (· != id + 1) }).raise n .mchk (word pa)
        else s
      | _, _ => if n = nobody then ((s.drop id).settleOn id).unhold else s
    | _ => s)

/-! ### Key sets of the links (R353) -/

/-- Streams of a port in each direction: one link stream and four selective ones of a host port, one of a scale-up link
(R353). -/
def streamsOf (port : Nat) : Nat := if port = 0 then 5 else 1

/-- A stream's key without its set; with it, twice that plus the set. -/
def streamOf (k : Sys2Proof.StreamKey) : Nat := (k.port * 16 + k.stream) * 2 + (if k.rx then 1 else 0)
def keyIndex (k : Sys2Proof.StreamKey) : Nat := streamOf k * 2 + (if k.keySet then 1 else 0)

/-- KEY_SET_CHANGE (R353): with the first flit under the new set the receiver retires the old one. -/
def execKeySetChange (d : Nat) (k : Sys2Proof.StreamKey) (s : State) : Result :=
  .next (if !k.rx || (mget none (s.die d).streamKeys (keyIndex k)).isNone then s
    else s.onDie d fun x => { x with
      streamRx := mset 0 x.streamRx (streamOf k) (if k.keySet then 1 else 0)
      streamKeys := mset none x.streamKeys (streamOf k * 2 + (if k.keySet then 0 else 1)) none })

/-- IDE_MAC_FAILURE (R340, R353): links 0 to 3 of the die, or 4 for its host port, enter the insecure state. -/
def execIdeMacFailure (d j : Nat) (s : State) : Result :=
  .next (if 4 ≤ d ∨ 4 < j then s
    else (s.onDie d fun x => { x with insecure := if x.insecure.contains j then x.insecure else x.insecure ++ [j] }).raiseMc d 3 j 0)

end Sys2Proof.Machine
end

