-- ==== Sys2Proof/Machine/Flags.lean ====
section
/-! DEFINITION. Folkar has no condition codes: this file holds the conditions of SET and of the branches (R125, R129)
and the values of the two-operand majors (R122 to R127). -/

namespace Sys2Proof.Machine

/-- The two-operand majors 0x10 to 0x25 (R123). -/
inductive Alu where
  | add | sub | mul | mulh | mulhn | div | divn | rem | remn | and | or | xor | andn | shl | shr | sha | rol | ror
  | min | max | minn | maxn
  deriving DecidableEq, Repr

/-- Conditions of SET and of the branches (R125, R129). -/
inductive Cond where
  | eq | ne | lt | ge | ltn | gen
  deriving DecidableEq, Repr

def Cond.holds (c : Cond) (x y : BitVec n) : Bool :=
  match c with
  | .eq => x == y
  | .ne => x != y
  | .lt => x.slt y
  | .ge => !x.slt y
  | .ltn => x.ult y
  | .gen => !x.ult y

/-- Arithmetic shift right rounding toward −∞, by the amount modulo the width. -/
abbrev shiftAmount (y : BitVec n) : Nat := y.toNat % n

/-- v mod 2^n of R123 and R124 for a nonzero divisor; division by zero is the instruction's own check. -/
def Alu.val (op : Alu) (x y : BitVec n) : BitVec n :=
  match op with
  | .add => x + y
  | .sub => x - y
  | .mul => x * y
  | .mulh => BitVec.ofInt n (x.toInt * y.toInt / 2 ^ n)
  | .mulhn => BitVec.ofNat n (x.toNat * y.toNat / 2 ^ n)
  | .div => BitVec.ofInt n (x.toInt.tdiv y.toInt)
  | .divn => BitVec.ofNat n (x.toNat / y.toNat)
  | .rem => BitVec.ofInt n (x.toInt.tmod y.toInt)
  | .remn => BitVec.ofNat n (x.toNat % y.toNat)
  | .and => x &&& y
  | .or => x ||| y
  | .xor => x ^^^ y
  | .andn => x &&& ~~~y
  | .shl => x <<< shiftAmount y
  | .shr => x >>> shiftAmount y
  | .sha => x.sshiftRight (shiftAmount y)
  | .rol => x <<< shiftAmount y ||| x >>> (n - shiftAmount y)
  | .ror => x >>> shiftAmount y ||| x <<< (n - shiftAmount y)
  | .min => if y.slt x then y else x
  | .max => if x.slt y then y else x
  | .minn => if y.ult x then y else x
  | .maxn => if x.ult y then y else x

/-- The frame of R122: operands cut to n bits, the result sign-extended from n bits. -/
def Alu.result (op : Alu) (w : Bool) (x y : Word) : Word :=
  if w then sext (op.val (x.setWidth 32) (y.setWidth 32)) else op.val x y

/-- SET's result in the frame of R122. -/
def Cond.result (c : Cond) (w : Bool) (x y : Word) : Word :=
  if (if w then c.holds (x.setWidth 32) (y.setWidth 32) else c.holds x y) then 1 else 0

/-- The divisor's n bits are zero (R124). -/
def divByZero (w : Bool) (y : Word) : Bool := if w then decide (y.setWidth 32 = 0) else decide (y = 0)

/-- Zero bits above the highest one bit, from bit `i − 1` down. -/
def leadingZeros (x : Nat) : Nat → Nat
  | 0 => 0
  | i + 1 => if x.testBit i then 0 else 1 + leadingZeros x i

/-- Zero bits below the lowest one bit, over `k` bits from bit `i`. -/
def trailingZeros (x : Nat) (i : Nat) : Nat → Nat
  | 0 => 0
  | k + 1 => if x.testBit i then 0 else 1 + trailingZeros x (i + 1) k

/-- Number of one bits among the low `k`. -/
def onesOf (x : Nat) : Nat → Nat
  | 0 => 0
  | k + 1 => (if x.testBit k then 1 else 0) + onesOf x k

abbrev natWidth (w : Bool) : Nat := if w then 32 else 64
abbrev low (w : Bool) (x : Word) : Nat := x.toNat % 2 ^ natWidth w

/-- Narrow to the operation's width and sign-extend (the frame of R122). -/
def frame (w : Bool) (v : Word) : Word := if w then sext (v.setWidth 32) else v

/-- EXT and EXTN (R127). -/
def extractField (x : Word) (pos len : Nat) (signed' : Bool) : Word :=
  let f := x.toNat / 2 ^ pos % 2 ^ len
  if signed' && decide (2 ^ (len - 1) ≤ f) then word f - word (2 ^ len) else word f

/-- INS (R127). -/
def insertField (old x : Word) (pos len : Nat) : Word :=
  let m := word ((2 ^ len - 1) * 2 ^ pos)
  (old &&& ~~~m) ||| word (x.toNat % 2 ^ len * 2 ^ pos)

end Sys2Proof.Machine
end

