-- ==== Sys2Proof/Machine/Scalar.lean ====
section
/-! DEFINITION. Scalar instructions: arithmetic, fields, immediates, branches and jumps (chapter 7). -/

namespace Sys2Proof.Machine

/-- Write-back cycles of R110, counted from the issue cycle. -/
def Alu.delay : Alu → Nat
  | .mul | .mulh | .mulhn => 4
  | .div | .divn | .rem | .remn => 7
  | _ => 2

abbrev Alu.divides : Alu → Bool
  | .div | .divn | .rem | .remn => true
  | _ => false

/-- The shared operation of majors 0x10 to 0x25 (R122 to R124). -/
def aluOp (op : Alu) (d a : Reg) (y : Opnd) (w : Bool) (s : State) : State :=
  let n := s.cur
  let x := s.reg n a
  let v := s.opnd n y
  s.check n (failIf (op.divides && divByZero w v) .divz x) (s.write n d (op.result w x v) op.delay y.len)

/-- The shared operation of SET (R125). -/
def setOp (c : Cond) (d a : Reg) (y : Opnd) (w : Bool) (s : State) : State :=
  s.write s.cur d (c.result w (s.reg s.cur a) (s.opnd s.cur y)) 2 y.len

/-- The shared operation of the compare branches (R129). -/
def branchOp (c : Cond) (a : Reg) (y : Cmp) (off : BitVec 20) (s : State) : State :=
  let n := s.cur
  if c.holds (s.reg n a) (s.cmp n y) then s.goto n ((s.thr n).pc + 4 * sext off) else s.finish n y.len

/-- Branch on zero or not zero (R129). -/
def branchZero (z : Bool) (a : Reg) (off : BitVec 20) (s : State) : State :=
  let n := s.cur
  if decide (s.reg n a = 0) = z then s.goto n ((s.thr n).pc + 4 * sext off) else s.finish n 8

/-- Write a destination that completes within the issue pipe at t + 2, then `PC := PC + len`. -/
abbrev put2 (d : Reg) (v : Word) (len : Nat) (s : State) : State := s.write s.cur d v 2 len

/-- JR and CALLR (R130): a misaligned target raises ALIGN and writes no link (R22). -/
def jumpReg (link : Option Reg) (a : Reg) (disp : BitVec 20) (s : State) : State :=
  let n := s.cur
  let t := s.reg n a + sext disp
  s.check n (failIf (decide (t.toNat % 4 ≠ 0)) .align t)
    (match link with
    | some d => (s.setReg n d ((s.thr n).pc + 8) 2).goto n t
    | none => s.goto n t)

/-- Direct jumps (R130). -/
def jumpTo (link : Option Reg) (off : Off) (s : State) : State :=
  let n := s.cur
  let pc := (s.thr n).pc
  let t := pc + 4 * off.val
  match link with
  | some d => (s.setReg n d (pc + word off.len) 2).goto n t
  | none => s.goto n t

/-- ADD (R123). -/
def execAdd (d a : Reg) (y : Opnd) (w : Bool) (s : State) : Result := .next (aluOp .add d a y w s)
/-- SUB (R123). -/
def execSub (d a : Reg) (y : Opnd) (w : Bool) (s : State) : Result := .next (aluOp .sub d a y w s)
/-- MUL (R123). -/
def execMul (d a : Reg) (y : Opnd) (w : Bool) (s : State) : Result := .next (aluOp .mul d a y w s)
/-- MULH (R123). -/
def execMulh (d a : Reg) (y : Opnd) (w : Bool) (s : State) : Result := .next (aluOp .mulh d a y w s)
/-- MULHN (R123). -/
def execMulhn (d a : Reg) (y : Opnd) (w : Bool) (s : State) : Result := .next (aluOp .mulhn d a y w s)
/-- DIV (R124). -/
def execDiv (d a : Reg) (y : Opnd) (w : Bool) (s : State) : Result := .next (aluOp .div d a y w s)
/-- DIVN (R124). -/
def execDivn (d a : Reg) (y : Opnd) (w : Bool) (s : State) : Result := .next (aluOp .divn d a y w s)
/-- REM (R124). -/
def execRem (d a : Reg) (y : Opnd) (w : Bool) (s : State) : Result := .next (aluOp .rem d a y w s)
/-- REMN (R124). -/
def execRemn (d a : Reg) (y : Opnd) (w : Bool) (s : State) : Result := .next (aluOp .remn d a y w s)
/-- AND (R123). -/
def execAnd (d a : Reg) (y : Opnd) (w : Bool) (s : State) : Result := .next (aluOp .and d a y w s)
/-- OR (R123). -/
def execOr (d a : Reg) (y : Opnd) (w : Bool) (s : State) : Result := .next (aluOp .or d a y w s)
/-- XOR (R123). -/
def execXor (d a : Reg) (y : Opnd) (w : Bool) (s : State) : Result := .next (aluOp .xor d a y w s)
/-- ANDN (R123). -/
def execAndn (d a : Reg) (y : Opnd) (w : Bool) (s : State) : Result := .next (aluOp .andn d a y w s)
/-- SHL (R123). -/
def execShl (d a : Reg) (y : Opnd) (w : Bool) (s : State) : Result := .next (aluOp .shl d a y w s)
/-- SHR (R123). -/
def execShr (d a : Reg) (y : Opnd) (w : Bool) (s : State) : Result := .next (aluOp .shr d a y w s)
/-- SHA (R123). -/
def execSha (d a : Reg) (y : Opnd) (w : Bool) (s : State) : Result := .next (aluOp .sha d a y w s)
/-- ROL (R123). -/
def execRol (d a : Reg) (y : Opnd) (w : Bool) (s : State) : Result := .next (aluOp .rol d a y w s)
/-- ROR (R123). -/
def execRor (d a : Reg) (y : Opnd) (w : Bool) (s : State) : Result := .next (aluOp .ror d a y w s)
/-- MIN (R123). -/
def execMin (d a : Reg) (y : Opnd) (w : Bool) (s : State) : Result := .next (aluOp .min d a y w s)
/-- MAX (R123). -/
def execMax (d a : Reg) (y : Opnd) (w : Bool) (s : State) : Result := .next (aluOp .max d a y w s)
/-- MINN (R123). -/
def execMinn (d a : Reg) (y : Opnd) (w : Bool) (s : State) : Result := .next (aluOp .minn d a y w s)
/-- MAXN (R123). -/
def execMaxn (d a : Reg) (y : Opnd) (w : Bool) (s : State) : Result := .next (aluOp .maxn d a y w s)
/-- SET.eq (R125). -/
def execSetEq (d a : Reg) (y : Opnd) (w : Bool) (s : State) : Result := .next (setOp .eq d a y w s)
/-- SET.ne (R125). -/
def execSetNe (d a : Reg) (y : Opnd) (w : Bool) (s : State) : Result := .next (setOp .ne d a y w s)
/-- SET.lt (R125). -/
def execSetLt (d a : Reg) (y : Opnd) (w : Bool) (s : State) : Result := .next (setOp .lt d a y w s)
/-- SET.ge (R125). -/
def execSetGe (d a : Reg) (y : Opnd) (w : Bool) (s : State) : Result := .next (setOp .ge d a y w s)
/-- SET.ltn (R125). -/
def execSetLtn (d a : Reg) (y : Opnd) (w : Bool) (s : State) : Result := .next (setOp .ltn d a y w s)
/-- SET.gen (R125). -/
def execSetGen (d a : Reg) (y : Opnd) (w : Bool) (s : State) : Result := .next (setOp .gen d a y w s)
/-- CLZ (R126). -/
def execClz (d a : Reg) (w : Bool) (s : State) : Result :=
  .next (put2 d (word (leadingZeros (low w (s.reg s.cur a)) (natWidth w))) 8 s)
/-- CTZ (R126). -/
def execCtz (d a : Reg) (w : Bool) (s : State) : Result :=
  .next (put2 d (word (trailingZeros (low w (s.reg s.cur a)) 0 (natWidth w))) 8 s)
/-- POPC (R126). -/
def execPopc (d a : Reg) (w : Bool) (s : State) : Result :=
  .next (put2 d (word (onesOf (low w (s.reg s.cur a)) (natWidth w))) 8 s)
/-- EXT (R127). -/
def execExt (d a : Reg) (pos len1 : BitVec 6) (w : Bool) (s : State) : Result :=
  .next (put2 d (frame w (extractField (s.reg s.cur a) pos.toNat (len1.toNat + 1) true)) 8 s)
/-- EXTN (R127). -/
def execExtn (d a : Reg) (pos len1 : BitVec 6) (w : Bool) (s : State) : Result :=
  .next (put2 d (frame w (extractField (s.reg s.cur a) pos.toNat (len1.toNat + 1) false)) 8 s)
/-- INS (R127): reads D at issue. -/
def execIns (d a : Reg) (pos len1 : BitVec 6) (w : Bool) (s : State) : Result :=
  .next (put2 d (frame w (insertField (s.reg s.cur d) (s.reg s.cur a) pos.toNat (len1.toNat + 1))) 8 s)
/-- LI (R128). -/
def execLi (d : Reg) (x : Imm) (s : State) : Result := .next (put2 d x.val x.len s)
/-- LA (R128). -/
def execLa (d : Reg) (x : Off) (s : State) : Result := .next (put2 d (s.me.pc + x.val) x.len s)
/-- BEQ (R129). -/
def execBeq (a : Reg) (y : Cmp) (off : BitVec 20) (s : State) : Result := .next (branchOp .eq a y off s)
/-- BNE (R129). -/
def execBne (a : Reg) (y : Cmp) (off : BitVec 20) (s : State) : Result := .next (branchOp .ne a y off s)
/-- BLT (R129). -/
def execBlt (a : Reg) (y : Cmp) (off : BitVec 20) (s : State) : Result := .next (branchOp .lt a y off s)
/-- BGE (R129). -/
def execBge (a : Reg) (y : Cmp) (off : BitVec 20) (s : State) : Result := .next (branchOp .ge a y off s)
/-- BLTN (R129). -/
def execBltn (a : Reg) (y : Cmp) (off : BitVec 20) (s : State) : Result := .next (branchOp .ltn a y off s)
/-- BGEN (R129). -/
def execBgen (a : Reg) (y : Cmp) (off : BitVec 20) (s : State) : Result := .next (branchOp .gen a y off s)
/-- BZ (R129). -/
def execBz (a : Reg) (off : BitVec 20) (s : State) : Result := .next (branchZero true a off s)
/-- BNZ (R129). -/
def execBnz (a : Reg) (off : BitVec 20) (s : State) : Result := .next (branchZero false a off s)
/-- J (R130). -/
def execJ (off : Off) (s : State) : Result := .next (jumpTo none off s)
/-- CALL (R130). -/
def execCall (d : Reg) (off : Off) (s : State) : Result := .next (jumpTo (some d) off s)
/-- JR (R130). -/
def execJr (a : Reg) (disp : BitVec 20) (s : State) : Result := .next (jumpReg none a disp s)
/-- CALLR (R130). -/
def execCallr (d a : Reg) (disp : BitVec 20) (s : State) : Result := .next (jumpReg (some d) a disp s)

end Sys2Proof.Machine
end

