-- ==== Sys2Proof/Machine/Steward.lean ====
section
/-! DEFINITION. The steward: ROM commands, boot, measurements, debug, resets and power; SPDM and IDE_KM; register writes
from outside (R6, R346 to R355). -/

namespace Sys2Proof.Machine

/-! ### Byte strings -/

/-- The bytes of a number, the lowest first. -/
def bytesOfNat (v : Nat) : Nat → List Byte
  | 0 => []
  | n + 1 => BitVec.ofNat 8 v :: bytesOfNat (v / 256) n

/-- MEASi := SHA-384(MEASi ‖ value) (R354). -/
def Die.measure (x : Die) (i : Nat) (value : List Byte) : Die :=
  { x with meas := mset 0 x.meas i (Config.sha384 (bytesOfNat (mget 0 x.meas i).toNat 48 ++ value)) }

abbrev digestBytes (v : BitVec 384) : List Byte := bytesOfNat v.toNat 48

/-! ### BOOTSCAR (R349) -/

abbrev scarsOf (w : Word) : Nat := w.toNat % 65536
/-- The scar count of a boot step. -/
abbrev scarOf (w : Word) (step : Nat) : Nat := w.toNat / 4 ^ (step - 1) % 4

def bootscarWord (fail : Bool) (step scars : Nat) : Word :=
  word ((if fail then 2 ^ 24 else 0) + step % 256 * 65536 + scars % 65536)

/-- A boot step fails: its scar count rises, FAIL is set, MCREC records KIND 4, and the boot stops. -/
def State.bootFail (s : State) (d step : Nat) : State :=
  let s := s.onDie d fun x =>
    let scars := scarsOf x.bootscar
    let more := if scarOf x.bootscar step = 3 then scars else scars + 4 ^ (step - 1)
    { x with bootscar := bootscarWord true step more, boot := .failed }
  s.raiseMc d 4 step 0

/-! ### Completions and the command queue (R346) -/

/-- A completion: 16 bytes where the command's domain may write; a host's is followed by MSI-X 2. -/
def State.romDone (s : State) (d : Nat) (dom : Domain) (tag cpl status : Nat) (w1 : Word) : State :=
  let s := s.writePair dom cpl (word (tag % 2 ^ 32 * 2 ^ 32 + status)) w1
  if dom = .host then s.onDie d fun x => { x with msi := x.msi ++ [2] } else s

/-- Commands of the accelerator domain whose code the table does not name are bad arguments. -/
def State.romFlush (s : State) (d : Nat) : Nat → State
  | 0 => s
  | k + 1 => match (s.die d).romq with
    | [] => s
    | c :: rest =>
      if 1 ≤ c.code ∧ c.code ≤ 7 then s
      else ((s.onDie d fun x => { x with romq := rest }).romDone d .acc c.tag (c.args.getD 6 0).toNat 2 0).romFlush d k


/-- Who sent the command that a ROM event serves, in arrival order: the accelerator domain when the oldest command of the
steward's queue is this one, the host when the queue is empty. While a SWITCH waits, commands wait (R351); a die that is
held in reset serves none (R347). -/
def State.romTake (s : State) (d code tag cpl : Nat) : Option (Domain × Nat × List Word × State) :=
  if 4 ≤ d ∨ s.dead d ∨ !(s.die d).up ∨ (s.die d).switch.isSome then none
  else
    let s := s.romFlush d (s.die d).romq.length
    match (s.die d).romq with
    | c :: rest =>
      if c.code = code ∧ c.tag = tag then
        some (c.stew, (c.args.getD 6 0).toNat, c.args, s.onDie d fun x => { x with romq := rest })
      else none
    | [] => if (s.die d).hostShut then none else some (.host, cpl, [], s)

/-- Serve a command that only the host may send. -/
def State.romHost (s : State) (d code tag cpl : Nat) (go : Nat → State → State) : State :=
  match s.romTake d code tag cpl with
  | none => s
  | some (dom, cpl, _, s) => if dom = .host then go cpl s else s.romDone d dom tag cpl 7 0

/-- ROM_STATUS (R346). -/
def execRomStatus (d tag cpl : Nat) (nonce : BitVec 32) (s : State) : Result :=
  .next (match s.romTake d 1 tag cpl with
    | none => s
    | some (dom, cpl, _, s) =>
      let w := word (nonce.toNat * 2 ^ 32) + ((s.die d).bootscar &&& 0x1FF_FFFF)
      (s.onDie d fun x => { x with nonce := nonce }).romDone d dom tag cpl 1 w)

/-! ### Boot (R225, R347, R348, R350) -/

/-- The hash variant for a live count: the largest n that does not exceed it (R225). -/
def variantFor (live : Nat) : Nat := if 64 ≤ live then 0 else if 60 ≤ live then 1 else if 56 ≤ live then 2 else 3

abbrev liveCount (w : Word) : Nat := (List.range 64).countP fun i => w.getLsbD i

/-- Where step 7 places the roll of a group of `k` dies (R348): immediately below the steward's working area of the
group's lowest die. -/
def rollAddr (low k : Nat) : Nat := low * 2 ^ 38 + 0x2F_FC00_0000 - 8 * (k * dieFrames)

/-- The dies joined with die `d` by trained links as its step 7 runs (R348). -/
def State.bootGroup (s : State) (d : Nat) : List Nat := if (s.die d).alone then [d] else s.reaches d

/-- Step 7 on die `d`: its frames hold the entries of R348, and ROLLBASE of every die of the group names the roll. -/
def State.initRoll (s : State) (d : Nat) : State :=
  let g := s.bootGroup d
  let base := rollAddr (g.headD d) g.length
  let s := g.foldl (fun s e => s.onDie e fun x =>
    { x with rollbase := word base, rollAt := base, rollLen := g.length * dieFrames, rollDies := g }) s
  { s with roll := s.roll.filter fun p => homeDie (p.1 * 4096) != d }

/-- Step 3: the live slices, and the hash variant for their count. -/
def State.bootSlices (s : State) (d : Nat) (live : Word) : State :=
  s.onDie d fun x => { x with slicemap := live, slhash := word (variantFor (liveCount live)) }

/-- Step 5: the die joins those whose links are trained, with their package values of the reeves (R334), or boots alone
(R350). A die that joins two groups brings both to the values of the lowest die (DESIGN CHOICE, log 116). -/
def State.bootLinks (s : State) (d : Nat) : State :=
  if 2 ≤ scarOf (s.die d).bootscar 5 then
    ((s.onDie d fun x => { x with alone := true, pwrcap := 800 }).onLink d .h fun x => { x with st := 3 }).onLink d .v
      fun x => { x with st := 3 }
  else
    let s := s.onDie d fun x => { x with alone := false }
    let g := s.reaches d
    match g.find? (· != d) with
    | some e => g.foldl (fun t f => t.onDie f fun x => { x with pwrcap := (s.die e).pwrcap, pwrnow := (s.die e).pwrnow }) s
    | none => s

/-- Steps 3 to 7 as far as they have run before step `k`; `live` is what step 3 found. -/
def State.bootTo (s : State) (d : Nat) (live : Word) (k : Nat) : State :=
  let s := if 3 < k then s.bootSlices d live else s
  let s := if 5 < k then s.bootLinks d else s
  if 7 < k then
    s.initRoll d
  else s

/-- Steps 3 to 7 that succeed: the die waits for LOAD. -/
def State.bootSteps (s : State) (d : Nat) (live : Word) : State :=
  (s.bootTo d live 8).onDie d fun x => { x with bootscar := bootscarWord false 7 (scarsOf x.bootscar), boot := .waitLoad }

/-- ROM_BEGIN (R346): scars merged and measured, steps 3 to 7 run; `fail` names the one that fails, `live` the slices
that pass step 3. Fewer than 48 with the step scarred hold the die in reset. -/
def execRomBegin (d tag cpl : Nat) (scars : BitVec 16) (fail : Option Nat) (live : Word) (s : State) : Result :=
  .next (s.romHost d 2 tag cpl fun cpl s =>
    if (s.die d).boot ≠ .waitBegin then s.romDone d .host tag cpl 0 0
    else
      let merged := Nat.lor (scarsOf (s.die d).bootscar) scars.toNat
      let s := s.onDie d fun x => { (x.measure 4 (bytesOfNat merged 2)) with bootscar := bootscarWord false 2 merged }
      let held := decide (scarOf (word merged) 3 ≠ 0) && decide (liveCount live < 48)
      let off := s.onDie d fun x => { x with boot := .off, bootscar := bootscarWord false 3 merged }
      match fail with
      | some k =>
        if k < 3 ∨ 7 < k then s.romDone d .host tag cpl 2 0
        else if held && decide (3 < k) then off
        else (s.bootTo d live k).bootFail d k
      | none => if held then off else (s.bootSteps d live).romDone d .host tag cpl 1 0)

/-- ROM_LOAD (R346, step 8 of R347): the image is verified, measured and started. -/
def execRomLoad (d tag cpl _image _len : Nat) (digest : BitVec 384) (good : Bool) (s : State) : Result :=
  .next (s.romHost d 3 tag cpl fun cpl s =>
    if (s.die d).boot ≠ .waitLoad then s.romDone d .host tag cpl 0 0
    else if !good then (s.bootFail d 8).romDone d .host tag cpl 6 0
    else
      (s.onDie d fun x => { (x.measure 1 (digestBytes digest)) with
        image := some digest, boot := .serving, bootscar := bootscarWord false 8 (scarsOf x.bootscar) }).romDone d .host tag cpl 1 0)

/-- ROM_SWITCH (R351): a new image is verified; it waits for a moment with no call in service. -/
def execRomSwitch (d tag cpl _image _len : Nat) (digest : BitVec 384) (good : Bool) (s : State) : Result :=
  .next (s.romHost d 4 tag cpl fun cpl s =>
    if (s.die d).boot ≠ .serving then s.romDone d .host tag cpl 0 0
    else if !good then s.romDone d .host tag cpl 6 0
    else s.onDie d fun x => { x with switch := some (digest, s.reft, tag, cpl) })

/-- SWITCH_ACTIVATE (R351): no call is in service, and the new image becomes the active one. -/
def execSwitchActivate (d : Nat) (s : State) : Result :=
  .next (match (s.die d).switch with
    | none => s
    | some (digest, t0, tag, cpl) =>
      if t0 + 20000 ≤ s.reft then s
      else (s.onDie d fun x => { (x.measure 1 (digestBytes digest)) with image := some digest, switch := none }).romDone d .host tag cpl 1 0)

/-- SWITCH_TIMEOUT (R351): no such moment in 20,000 ticks. -/
def execSwitchTimeout (d : Nat) (s : State) : Result :=
  .next (match (s.die d).switch with
    | none => s
    | some (_, t0, tag, cpl) =>
      if s.reft < t0 + 20000 then s
      else (s.onDie d fun x => { x with switch := none }).romDone d .host tag cpl 5 0)

/-! ### Frames (R346) -/

/-- Frames from `first`, `count` of them, as commands to die `d` name them: frames of its roll (R348). A frame of a bin that
is not carved has an entry (R18, R348) but no address (R17): a command that names one has a bad argument (DESIGN CHOICE,
log 83). -/
def State.romFrames (s : State) (d first count : Nat) : Bool :=
  decide (first + count ≤ 2 ^ 28) && (List.range count).all fun i =>
    s.rollFrame ((first + i) * 4096) && (s.rollGroup d).contains (homeDie ((first + i) * 4096))

/-- A frame changes owner and its generation rises (R322). -/
def State.reown (s : State) (frame : Nat) (owner : Domain) : State :=
  (s.setDeed frame { owner := owner, gen := (s.deed frame).gen }).bump frame

/-- The entries of a range of frames, which one die holds for a group of dies, are reached from die `d` (R246, R336, R348). -/
def State.viaRolls (s : State) (d first count : Nat) (go : State → State) : State :=
  if count = 0 then go s else s.viaRoll d first go

/-- ROM_ASSIGN (R346): free frames become owned by the host (1) or the accelerator (2). -/
def execRomAssign (d tag cpl first count owner : Nat) (s : State) : Result :=
  .next (s.romHost d 5 tag cpl fun cpl s =>
    if (s.die d).boot ≠ .serving then s.romDone d .host tag cpl 0 0
    else if (owner ≠ 1 ∧ owner ≠ 2) ∨ !s.romFrames d first count then s.romDone d .host tag cpl 2 0
    else
      let frames := (List.range count).map (first + ·)
      s.viaRolls d first count fun s =>
      if !frames.all fun f => decide ((s.deed f).owner = .free) then s.romDone d .host tag cpl 0 0
      else (frames.foldl (fun s f => s.reown f (if owner = 1 then .host else .acc)) s).romDone d .host tag cpl 1 0)

/-- A frame goes back to free; the copies of its lines go with the grant (R328, R374), and the TLBs drop it (R323). -/
def State.releaseFrame (s : State) (frame : Nat) : State :=
  let e := s.deed frame
  let s := (List.range 32).foldl (fun s i => s.closeCounter (frame * 32 + i)) s
  let s := s.setDeed frame { owner := .free, gen := e.gen }
  ((s.loseBefore frame e).bump frame).shootFrame frame

/-- ROM_RELEASE (R346): frames that the requester owns become free. -/
def execRomRelease (d tag cpl first count : Nat) (dom : Domain) (s : State) : Result :=
  .next (match s.romTake d 6 tag cpl with
    | none => s
    | some (who, cpl, args, t) =>
      -- A command that nothing in the queue stands for comes from the host.
      if who = .host ∧ dom ≠ .host then s
      else
      let s := t
      let first := if who = .host then first else (args.getD 0 0).toNat
      let count := if who = .host then count else (args.getD 1 0).toNat
      if (s.die d).boot ≠ .serving then s.romDone d who tag cpl 0 0
      else if !s.romFrames d first count then s.romDone d who tag cpl 2 0
      else
        let frames := (List.range count).map (first + ·)
        s.viaRolls d first count fun s =>
        if !frames.all fun f => decide ((s.deed f).owner = who) && decide ((s.deed f).state = 0) then s.romDone d who tag cpl 0 0
        else (frames.foldl State.releaseFrame s).romDone d who tag cpl 1 0)

/-! ### Debug (R355) -/

/-- The ports whose key sets a wipe takes: they carry no traffic until their streams have keys again (R355; log 87). -/
def Die.keyedPorts (x : Die) : List Nat :=
  (x.streamKeys.filter fun p => p.2.isSome).map fun p => if p.1 / 64 = 0 then 4 else p.1 / 64 - 1

/-- Every IDE and link key set goes. -/
def Die.dropKeySets (x : Die) : Die :=
  { x with
    streamKeys := [], streamTx := [], streamRx := []
    insecure := x.insecure ++ x.keyedPorts.filter fun j => !x.insecure.contains j }

/-- Key slots 8 to 31, every IDE and link key set and every session go. -/
def Die.wipe (x : Die) : Die :=
  { x.dropKeySets with keys := x.keys.filter fun p => decide (p.1 < 8), spdm := 0, peers := [] }

/-- ROM_UNLOCK (R355): `tokenOk` says that the signature, the device and the lifecycle are right, `nonce` and `digest`
are the token's, `fuseOk` that the fuses allow debug. -/
def execRomUnlock (d tag cpl : Nat) (digest : BitVec 384) (nonce : BitVec 32) (tokenOk fuseOk : Bool) (s : State) : Result :=
  .next (s.romHost d 7 tag cpl fun cpl s =>
    if !tokenOk || nonce != (s.die d).nonce then s.romDone d .host tag cpl 6 0
    else if !fuseOk then s.romDone d .host tag cpl 0 0
    else (s.onDie d fun x => { x.wipe.measure 2 (digestBytes digest) with debugOpen := true }).romDone d .host tag cpl 1 0)

/-- DBGBRK_WRITE (R355): the host sets the breakpoint bits; a cleared bit releases the threads stopped there. An insecure
host port refuses it (R353). -/
def execDbgbrkWrite (d : Nat) (v : BitVec 256) (s : State) : Result :=
  .next (if d < 4 ∧ (s.die d).debugOpen ∧ !(s.die d).hostShut then (s.onDie d fun x => { x with dbgbrk := v }).debugRelease d else s)

/-! ### Power and resets (R6, R109, R169, R267, R347 to R349, R354, R355) -/

/-- The die's boot step 1: MEAS0 and MEAS3 are extended (R354). -/
def State.bootFuses (s : State) (d : Nat) : State :=
  s.onDie d fun x => (x.measure 0 (digestBytes Config.romDigest)).measure 3 (digestBytes (Config.fuseDigest d))

/-- The die's boot steps 1 and 2: the die waits for BEGIN. -/
def State.bootStart (s : State) (d : Nat) : State :=
  (s.bootFuses d).onDie d fun x => { x with boot := .waitBegin, bootscar := bootscarWord false 2 (scarsOf x.bootscar) }

/-- POWER_ON (R347): supply, and boot steps 1 and 2 of every die that is not past them. `fused` is the slice map of the
fuses; `fail`, when it is 16 × die + step, names a die whose step 1 or 2 fails. -/
def execPowerOn (fused : Word) (fail : Option Nat) (s : State) : Result :=
  .next ((List.range 4).foldl (fun s d =>
    if (s.die d).boot ≠ .off then s
    else
      let s := s.onDie d fun x => { x with slicemap := fused }
      match fail with
      | some k =>
        if k / 16 = d ∧ k % 16 = 1 then s.bootFail d 1
        else if k / 16 = d ∧ k % 16 = 2 then (s.bootFuses d).bootFail d 2
        else s.bootStart d
      | none => s.bootStart d) { s with powered := true })

/-- The lines of open counters that word 0 alone survives (R267): words 1 to 15 read zero. -/
def State.dropCounters (s : State) : State :=
  { s with
    mem := s.altHomes.foldl (fun m h => writeN m (h.line * 128 + 8) 120 0) s.mem
    altHomes := [] }

/-- Package memory without the bins, which a reset leaves unpopulated. -/
def hbmOnly (m : List Host.Cell) : List Host.Cell := m.filter fun p => inHbm p.1

/-- COLD_RESET (R6): every register takes its reset value. HBM and the local stores keep their bytes (DEDUCED from R267:
word 0 of a counter holds RESERVE after it), and the dies wait for power-on boot. -/
def State.coldReset (s : State) : State :=
  let s := s.dropCounters
  { State.reset with
    mem := hbmOnly s.mem, loc := s.loc, flaws := s.flaws
    sched := s.sched, prompt := s.prompt, cur := s.cur, nextId := s.nextId, free := s.free }

/-- COLD_RESET (R6). -/
def execColdReset (s : State) : Result := .next s.coldReset

/-- What a warm reset keeps of a core: its commons, its accumulators and its allotment table. -/
def Core.warm (x : Core) : Core := { c := x.c, acc := x.acc, accErr := x.accErr, alt := x.alt.map fun e => { e with frozen := false, asking := false } }

/-- What a warm reset keeps of a die: the fields marked kept, the measurements and the state of debug. A die that is held
in reset stays so (R347). -/
def Die.warm (x : Die) : Die :=
  { slicemap := x.slicemap, rollbase := x.rollbase, rollLateHost := x.rollLateHost
    rollLateAcc := x.rollLateAcc, bootscar := x.bootscar, meas := x.meas, debugOpen := x.debugOpen
    rollAt := x.rollAt, rollLen := x.rollLen, rollDies := x.rollDies, baseB := x.baseB
    boot := if x.up then .waitBegin else x.boot }

/-- An ALT.CLOSE that has not reached its home has left nothing: its entry keeps its count. -/
def State.unleave (s : State) : State :=
  s.msgs.foldl (fun s m => match m.body with
    | .alt n c line (.leave k _) => if n = nobody then s else s.onCore c fun x => x.setAlt line fun e => { e with count := k }
    | _ => s) s

/-- The allotment messages that a warm reset leaves: units on their way, and joins, those inside takes too, for entries
that stay in their tables (R259, R264, R267). -/
def Msg.warm (m : Msg) : Option Msg :=
  match m.body with
  | .alt _ c line (.give k) => some { m with body := .alt nobody c line (.give k) }
  | .alt n _ _ (.leave _ _) => if n = nobody then some m else none
  | .alt _ c line (.join _) | .alt _ c line (.take _ true) => some { m with body := .alt nobody c line (.join true) }
  | _ => none

/-- What a warm reset leaves of the allotment requests in flight and in service, for entries that stand in their tables. -/
def State.warmAlts (s : State) : List Msg :=
  let served := s.txns.filterMap fun t => match t.done with
    | .census th c _ r => some ({ id := t.id, src := .core c, dst := s.homeNode (t.line * 128), body := .alt th c t.line r } : Msg)
    | .again m => some m
    | _ => none
  ((s.msgs ++ served).filterMap Msg.warm).filter fun m => match m.body with
    | .alt _ c line (.join _) => ((s.core c).altEntry line).isSome
    | _ => true

/-- WARM_RESET (R6): reset that keeps commons (R109), accumulators and latches (R169), allotment tables and counts
(R267) and the fields marked kept. The roll's entries take their reset values (R326, R348). -/
def State.warmReset (s : State) : State :=
  let s := s.unleave
  { State.reset with
    cores := s.cores.map fun (p : Nat × Option Core) => (p.1, p.2.map Core.warm)
    tiles := s.tiles.map fun (p : Nat × Option Tile) => (p.1, p.2.map fun (t : Tile) => { w0 := t.w0, w1 := t.w1 })
    dies := s.dies.map fun (p : Nat × Option Die) => (p.1, p.2.map Die.warm)
    mem := hbmOnly s.mem, loc := s.loc
    altHomes := s.altHomes
    msgs := s.warmAlts
    flaws := s.flaws
    reft := s.reft, epochAt := s.epochAt
    sched := s.sched, prompt := s.prompt, cur := s.cur, nextId := s.nextId, free := s.free }

/-- WARM_RESET (R6). -/
def execWarmReset (s : State) : Result := .next s.warmReset

/-- POWER_OFF (R349): the supply is lost, and all state with it. -/
def State.powerOff (s : State) : State :=
  { State.reset with
    powered := false
    sched := s.sched, prompt := s.prompt, cur := s.cur, nextId := s.nextId, free := s.free }

/-- POWER_OFF (R349). -/
def execPowerOff (s : State) : Result := .next s.powerOff

/-! ### SPDM (R352, R354) -/

/-- The progress of a port's exchange: port 0 is the host's, ports 1 to 4 are the die's scale-up links. -/
def Die.progress (x : Die) (port : Nat) : Nat := if port = 0 then x.spdm else mget 0 x.peers (port - 1)
def Die.setProgress (x : Die) (port p : Nat) : Die :=
  if port = 0 then { x with spdm := p } else { x with peers := mset 0 x.peers (port - 1) p }

/-- The steward answers on a port: the host's once the die is out of reset, a scale-up link's once the link is trained
(R347, R352). -/
def State.answersOn (s : State) (d port : Nat) : Bool :=
  !s.dead d && (if port = 0 then (s.die d).up else decide (port ≤ 4) && (s.die d).passed 6)

/-- The responder of a steward moves in an exchange: `e` is 4 × port + die (DESIGN CHOICE, log 98). -/
def State.spdmStep (s : State) (e : Nat) (ok : Nat → Bool) (next : Nat → Nat) : State :=
  let p := (s.die (e % 4)).progress (e / 4)
  if s.answersOn (e % 4) (e / 4) ∧ ok p then s.onDie (e % 4) fun x => x.setProgress (e / 4) (next p) else s

/-- GET_VERSION: the exchange starts anew. -/
def execGetVersion (d : Nat) (s : State) : Result := .next (s.spdmStep d (fun _ => true) (fun _ => 1))
/-- GET_CAPABILITIES, after the version. -/
def execGetCapabilities (d : Nat) (s : State) : Result := .next (s.spdmStep d (fun p => decide (p = 1)) (fun _ => 2))
/-- NEGOTIATE_ALGORITHMS, after the capabilities. -/
def execNegotiateAlgorithms (d : Nat) (s : State) : Result := .next (s.spdmStep d (fun p => decide (p = 2)) (fun _ => 3))
/-- GET_DIGESTS: answered, no state of the package changes. -/
def execGetDigests (d : Nat) (s : State) : Result := .next (s.spdmStep d (fun p => decide (3 ≤ p)) (fun p => p))
/-- GET_CERTIFICATE: answered, no state of the package changes. -/
def execGetCertificate (d : Nat) (s : State) : Result := .next (s.spdmStep d (fun p => decide (3 ≤ p)) (fun p => p))
/-- CHALLENGE: answered, no state of the package changes. -/
def execChallenge (d : Nat) (s : State) : Result := .next (s.spdmStep d (fun p => decide (3 ≤ p)) (fun p => p))
/-- GET_MEASUREMENTS: indices 1 to 8 report MEAS0 to MEAS7 (R354). -/
def execGetMeasurements (d i : Nat) (s : State) : Result :=
  .next (if s.answersOn (d % 4) (d / 4) ∧ 3 ≤ (s.die (d % 4)).progress (d / 4) ∧ 1 ≤ i ∧ i ≤ 8
    then s.answers (some ((mget 0 (s.die (d % 4)).meas (i - 1)).setWidth 1024)) else s)
/-- KEY_EXCHANGE opens a session's handshake. -/
def execKeyExchange (d : Nat) (s : State) : Result := .next (s.spdmStep d (fun p => decide (p = 3)) (fun _ => 4))
/-- FINISH: the session stands. -/
def execFinish (d : Nat) (s : State) : Result := .next (s.spdmStep d (fun p => decide (p = 4)) (fun _ => 5))
/-- KEY_UPDATE inside a session: it stands under new keys. -/
def execKeyUpdate (d : Nat) (s : State) : Result := .next (s.spdmStep d (fun p => decide (p = 5)) (fun _ => 5))
/-- END_SESSION. -/
def execEndSession (d : Nat) (s : State) : Result := .next (s.spdmStep d (fun p => decide (p = 5)) (fun _ => 3))

/-! ### IDE_KM (R352, R353) -/

/-- IDE_KM runs inside the session of the port that it keys, on that port's streams (R352, R353). -/
def State.keyed (s : State) (d : Nat) (k : Sys2Proof.StreamKey) : Bool :=
  decide (d < 4) && decide ((s.die d).progress k.port = 5) && decide (k.port ≤ 4) && decide (k.stream < streamsOf k.port)

/-- The set that a direction of a stream uses now. -/
def Die.activeSet (x : Die) (k : Sys2Proof.StreamKey) : Nat :=
  if k.rx then mget 0 x.streamRx (streamOf k) else mget 0 x.streamTx (streamOf k)

/-- IDE_KM QUERY: answered, no state of the package changes. -/
def execIdeKmQuery (d : Nat) (s : State) : Result := .next (s.spdmStep d (fun p => decide (p = 5)) (fun p => p))

/-- KEY_PROG programs a set that its direction does not use, or one that holds no key yet. -/
def execKeyProg (d : Nat) (k : Sys2Proof.StreamKey) (key : BitVec 256) (s : State) : Result :=
  let x := s.die d
  let used := decide (x.activeSet k = (if k.keySet then 1 else 0)) && (mget none x.streamKeys (keyIndex k)).isSome
  .next (if s.keyed d k && !used then s.onDie d fun x => { x with streamKeys := mset none x.streamKeys (keyIndex k) (some key) } else s)

/-- K_SET_GO switches the transmitter to a programmed set; its link leaves the insecure state. -/
def execKSetGo (d : Nat) (k : Sys2Proof.StreamKey) (s : State) : Result :=
  .next (if s.keyed d k && !k.rx && (mget none (s.die d).streamKeys (keyIndex k)).isSome then
      s.onDie d fun x => { x with
        streamTx := mset 0 x.streamTx (streamOf k) (if k.keySet then 1 else 0)
        insecure := x.insecure.filter (· != (if k.port = 0 then 4 else k.port - 1)) }
    else s)

/-- K_SET_STOP: the set is used no more. -/
def execKSetStop (d : Nat) (k : Sys2Proof.StreamKey) (s : State) : Result :=
  .next (if s.keyed d k then s.onDie d fun x => { x with streamKeys := mset none x.streamKeys (keyIndex k) none } else s)

/-! ### Register writes from outside (R6, R317, R338) -/

/-- REGISTER_WRITE: a store to a device register by a requester of a domain; the bytes of a longer one beyond its first 8
are zero (DESIGN CHOICE, log 101). An insecure host port refuses the host's (R353), a die that is held in reset takes none
(R347), and one that relocks takes it later (R336). -/
def execRegisterWrite (dom : Domain) (d off size : Nat) (v : Word) (s : State) : Result :=
  .next (if 4 ≤ d ∨ s.dead d ∨ (s.die d).held ∨ 0x10_0000_0000 ≤ off ∨ (dom = .host ∧ (s.die d).hostShut) then s
    else if s.halted d then s.meet
    else s.regStore (.outside 8) dom d off size v.toNat)

end Sys2Proof.Machine
end

