-- ==== Sys2Proof/Machine/Seal.lean ====
section
/-! DEFINITION. The SEAL instructions of the steward (R356, R357). -/

namespace Sys2Proof.Machine

/-! ### Memory reads and writes at physical addresses -/

/-- The frames that a range of bytes touches. -/
def framesOf (pa len : Nat) : List Nat := (List.range ((pa + len - 1) / 4096 - pa / 4096 + 1)).map (pa / 4096 + ·)

/-- Where the accesses of a range begin in each frame that it touches. -/
def accessesOf (pa len : Nat) : List Nat := (framesOf pa len).map fun f => Max.max pa (f * 4096)

/-- The trap of an access of `len` bytes at a physical address, or none: a steward context translates bare (R318), and no
byte of the range may be unpopulated, fenced or refused (R17). -/
def State.sealFault (s : State) (n : Nat) (va : Word) (len : Nat) (cause : Cause) : Refuse :=
  let pa := va.toNat
  let d := dieOf (s.thr n).core
  let at' := accessesOf pa len
  if len = 0 then none
  else if 2 ^ 48 < pa + len then some (cause, va)
  else if !at'.all fun p => if inPackage p then s.populated p else inDevice p || (inSystem p && s.systemPopulated d p) then
    some (.deed, va)
  else if at'.any fun p => (inPackage p && s.cut d (homeDie p)) || (inDevice p && s.cut d (deviceDie p))
      || (inSystem p && s.cut d (s.sysDie d p)) then some (.mchk, va)
  else failIf (at'.any fun p => inPackage p && !s.granted .stew p) .deed va

/-- The machine check of a load of `len` bytes: a double-bit error, or a reduction window or an insecure port or link, which
refuse loads (R249, R344, R353). -/
def State.sealFlaw (s : State) (n : Nat) (va : Word) (len : Nat) : Bool :=
  let pa := va.toNat
  if inPackage pa then s.flawed false pa len
  else
    let d := dieOf (s.thr n).core
    (accessesOf pa len).any fun p => inSystem p && ((s.windowOf d p).isSome || s.insecurePath d p)

/-- What such a machine check leaves: the die's record of the error, or the count of the refused load (R340, R345). -/
def State.sealNote (s : State) (n : Nat) (va : Word) (len : Nat) : State :=
  let pa := va.toNat
  if inPackage pa then s.raiseMc (homeDie pa) 2 0 pa
  else (accessesOf pa len).foldl (fun s p =>
    if inSystem p then (s.windowLoad (dieOf (s.thr n).core) p).2 else s) s

/-- One byte outside package memory: a device register's, or a free value of the system region. -/
def State.sealByte (s : State) (pa i : Nat) : Byte :=
  if inPackage (pa + i) then BitVec.ofNat 8 (s.homeRead (pa + i) 1)
  else if inDevice (pa + i) then (s.devRead (deviceDie (pa + i)) (deviceOff (pa + i)) 1).setWidth 8
  else (Config.freeValue (s.free + i)).setWidth 8

/-- Bytes as a SEAL instruction reads them; those of the system region are free values. -/
def State.sealRead (s : State) (n : Nat) (va : Word) (len : Nat) : List Byte × State :=
  let pa := va.toNat
  let d := dieOf (s.thr n).core
  if inPackage pa && inPackage (pa + len - 1) then (s.homeBytes pa len, s.readVia d pa len)
  else if inDevice pa then
    let t := s.crossing d (deviceDie pa)
    ((List.range len).map (s.sealByte pa), if s.sdBusy pa || s.sdBusy (pa + len - 1) then t.meet else t)
  else ((List.range len).map (s.sealByte pa), { s with free := s.free + len })

/-- Bytes as a SEAL instruction writes them. -/
def State.sealWrite (s : State) (n : Nat) (va : Word) (bs : List Byte) : State :=
  let pa := va.toNat
  let d := dieOf (s.thr n).core
  if inPackage pa then (s.crossing d (homeDie pa)).hwBytes pa bs bs.length
  else if inDevice pa then (s.crossing d (deviceDie pa)).devBytes (.core (s.thr n).core) .stew pa bs bs.length
  else s.sysBytes d (.core (s.thr n).core) pa bs bs.length

/-- The alignment and access checks of a list of operands: address, length, cause. -/
def State.sealChecks (s : State) (n : Nat) (align : Bool) : List (Word × Nat × Cause) → Refuse
  | [] => none
  | (va, len, c) :: l =>
    orElse' (failIf (align && decide (va.toNat % 8 ≠ 0)) .align va) (orElse' (s.sealFault n va len c) (s.sealChecks n align l))

/-- The operand whose load meets a machine check, if any: loads are those that report TRANSL. -/
def State.sealBad (s : State) (n : Nat) (ops : List (Word × Nat × Cause)) : Option (Word × Nat × Cause) :=
  ops.find? fun x => x.2.2 == .transl && x.2.1 != 0 && s.sealFlaw n x.1 x.2.1

/-- Why a list of operands is refused: a check of the accesses, or a machine check of a load. -/
def State.sealRefuse (s : State) (n : Nat) (align : Bool) (ops : List (Word × Nat × Cause)) : Refuse :=
  orElse' (s.sealChecks n align ops) ((s.sealBad n ops).map fun x => (.mchk, x.1))

/-- The checks of a SEAL instruction; once the thread's own stores to the bytes it names are performed (R281), the machine
checks of its loads, and its effect. -/
def State.sealing (s : State) (n : Nat) (priv : Refuse) (align : Bool) (ops : List (Word × Nat × Cause)) (go : State) : State :=
  let own := (ops.map fun x => s.overlaps n x.1.toNat x.2.1).flatten
  s.check n (orElse' priv (s.sealChecks n align ops))
    (if !own.isEmpty then s.await n own
    else match s.sealBad n ops with
      | some x => (s.sealNote n x.1 x.2.1).raise n .mchk x.1
      | none => go)

/-! ### Key slots -/

/-- The thread runs the ROM: the die's service image does not run yet. -/
def State.inRom (s : State) (n : Nat) : Bool := decide ((s.die (dieOf (s.thr n).core)).boot ≠ .serving)

/-- A slot that the instruction may name (R356). -/
def State.slotOpen (s : State) (n k : Nat) : Bool := s.inRom n || decide (k = 0) || decide (8 ≤ k)

/-- What a slot holds: slot 0 is the identity key. -/
def State.keyOf (s : State) (n k : Nat) : KeySlot :=
  if !s.slotOpen n k then .empty
  else if k = 0 then .pair Config.identityKey
  else mget .empty (s.die (dieOf (s.thr n).core)).keys k

/-- A slot that the instruction may write; slot 0 is never written (log 32). -/
def State.keyWritable (s : State) (n k : Nat) : Bool := s.slotOpen n k && decide (k ≠ 0)

def State.setKey (s : State) (n k : Nat) (x : KeySlot) : State :=
  s.onDie (dieOf (s.thr n).core) fun d => { d with keys := mset .empty d.keys k x }

abbrev num384 (bs : List Byte) : BitVec 384 := BitVec.ofNat 384 (natOfBytes bs)
abbrev num768 (bs : List Byte) : BitVec 768 := BitVec.ofNat 768 (natOfBytes bs)

/-- D := 1 or 0, and the next instruction. -/
def State.sealDone (s : State) (n : Nat) (d : Reg) (ok : Bool) : State := s.write n d (if ok then 1 else 0) replyDelay 8

/-- D := 1 and the next instruction once every write from identifier `i` on is acknowledged (R356); a store to the system
region is with its acceptance (R289). -/
def State.sealWritten (s : State) (n : Nat) (d : Reg) (i : Nat) : State :=
  let ids := (s.txns.filter fun t => decide (i ≤ t.id)).map (·.id)
  if ids.isEmpty then s.sealDone n d true
  else (s.onThr n fun t => { t with cont := some { d := some d, len := 8, size := 8, sign := false, va := t.pc } }).park n
    .waiting (.acks ids)

/-! ### The instructions -/

/-- SEAL.HASH: B bytes at A are absorbed. -/
def execSealHash (d a b : Reg) (st : BitVec 2) (s : State) : Result :=
  let n := s.cur
  let va := s.reg n a
  let len := (s.reg n b).toNat
  .next (s.sealing n (privCheck s (.sealHash d a b st)) false [(va, len, .transl)]
    (let r := s.sealRead n va len
     (r.2.onDie (dieOf (s.thr n).core) fun x =>
       { x with hashes := mset [] x.hashes st.toNat (mget [] x.hashes st.toNat ++ r.1) }).sealDone n d true))

/-- SEAL.DIGEST: the digest of a state at C; the state starts anew. -/
def execSealDigest (d c : Reg) (st : BitVec 2) (s : State) : Result :=
  let n := s.cur
  let va := s.reg n c
  .next (s.sealing n (privCheck s (.sealDigest d c st)) true [(va, 48, .transs)]
    (let x := s.die (dieOf (s.thr n).core)
     let v := Config.sha384 (mget [] x.hashes st.toNat)
     ((s.sealWrite n va (digestBytes v)).onDie (dieOf (s.thr n).core) fun x =>
       { x with hashes := mset [] x.hashes st.toNat [] }).sealWritten n d s.nextId))

/-- SEAL.SIGN: slot k signs the digest at A; the signature goes to C. -/
def execSealSign (d a c : Reg) (k : BitVec 5) (s : State) : Result :=
  let n := s.cur
  let src := s.reg n a
  let dst := s.reg n c
  .next (s.sealing n (privCheck s (.sealSign d a c k)) true [(src, 48, .transl), (dst, 96, .transs)]
    (match s.keyOf n k.toNat with
     | .pair key =>
       let r := s.sealRead n src 48
       (r.2.sealWrite n dst (bytesOfNat (Config.ecdsaSign key (num384 r.1)).toNat 96)).sealWritten n d r.2.nextId
     | _ => s.sealDone n d false))

/-- SEAL.VERIFY. -/
def execSealVerify (d a b c : Reg) (s : State) : Result :=
  let n := s.cur
  let dig := s.reg n a
  let key := s.reg n b
  let sig := s.reg n c
  .next (s.sealing n (privCheck s (.sealVerify d a b c)) true [(dig, 48, .transl), (key, 96, .transl), (sig, 96, .transl)]
    (let r := s.sealRead n dig 48
     let k := r.2.sealRead n key 96
     let g := k.2.sealRead n sig 96
     g.2.sealDone n d (Config.onCurve (num768 k.1) && Config.ecdsaVerify (num768 g.1) (num384 r.1) (num768 k.1))))

/-- SEAL.ECDH: slot m takes the extract of slot k with the point at A. -/
def execSealEcdh (d a : Reg) (k m : BitVec 5) (s : State) : Result :=
  let n := s.cur
  let src := s.reg n a
  .next (s.sealing n (privCheck s (.sealEcdh d a k m)) true [(src, 96, .transl)]
    (let r := s.sealRead n src 96
     let pt := num768 r.1
     match s.keyOf n k.toNat with
     | .pair key =>
       if Config.onCurve pt && s.keyWritable n m.toNat then
         (r.2.setKey n m.toNat (.secret (Config.ecdhExtract key pt))).sealDone n d true
       else r.2.sealDone n d false
     | _ => r.2.sealDone n d false))

/-- The key that a slot installs: its first 32 bytes. -/
def KeySlot.first : KeySlot → Option (BitVec 256)
  | .empty => none
  | .secret k | .pair k => some (k.setWidth 256)

/-- KEYLOAD by the descriptor's mode (R357), for a slot k that may be named. -/
def State.keyload (s : State) (n : Nat) (d : Reg) (k : Nat) (ds : List Byte) : State :=
  let at' := fun (i : Nat) => natOfBytes ((ds.drop (8 * i)).take 8)
  let mode := at' 0 % 256
  let w1 := at' 1
  if mode = 0 then
    if s.keyWritable n k then (s.setKey n k (.secret (num384 ((ds.drop 8).take 48)))).sealDone n d true else s.sealDone n d false
  else if mode = 1 then
    match s.keyOf n (w1 % 32) with
    | .secret key =>
      if s.keyWritable n k then
        (s.setKey n k (.secret (Config.hkdfExpand key (BitVec.ofNat 320 (natOfBytes ((ds.drop 16).take 40)))))).sealDone n d true
      else s.sealDone n d false
    | _ => s.sealDone n d false
  else if mode = 2 then
    s.check n (s.sealChecks n true [(word w1, 96, .transs)])
      (if s.keyWritable n k then
        let key := Config.entropy s.free
        let s := { s with free := s.free + 1 }
        ((s.setKey n k (.pair key)).sealWrite n (word w1) (bytesOfNat (Config.publicKey key).toNat 96)).sealWritten n d s.nextId
      else s.sealDone n d false)
  else if mode = 3 then
    match (s.keyOf n k).first with
    | some key =>
      let port := w1 / 2 ^ 12 % 16
      let i := ((port * 16 + w1 / 2 ^ 8 % 16) * 2 + w1 / 2 % 2) * 2 + w1 % 2
      if port ≤ 4 ∧ w1 / 2 ^ 8 % 16 < streamsOf port then
        (s.onDie (dieOf (s.thr n).core) fun x => { x with streamKeys := mset none x.streamKeys i (some key) }).sealDone n d true
      else s.sealDone n d false
    | none => s.sealDone n d false
  else s.sealDone n d false

/-- SEAL.KEYLOAD (R357). -/
def execSealKeyload (d a : Reg) (k : BitVec 5) (s : State) : Result :=
  let n := s.cur
  let src := s.reg n a
  .next (s.sealing n (privCheck s (.sealKeyload d a k)) true [(src, 64, .transl)]
    (let r := s.sealRead n src 64
     r.2.keyload n d k.toNat r.1))

/-- SEAL.RAND: 64 bits of the entropy source, a free value at each use. -/
def execSealRand (d : Reg) (s : State) : Result :=
  let n := s.cur
  .next (s.check n (privCheck s (.sealRand d))
    ({ s with free := s.free + 1 }.write n d ((Config.entropy s.free).setWidth 64) replyDelay 8))

/-- SEAL.EXTEND: MEAS0 to MEAS4 only from the ROM. -/
def execSealExtend (d a : Reg) (i : BitVec 3) (s : State) : Result :=
  let n := s.cur
  let src := s.reg n a
  .next (s.sealing n (privCheck s (.sealExtend d a i)) true [(src, 48, .transl)]
    (let r := s.sealRead n src 48
     if i.toNat < 5 && !s.inRom n then r.2.sealDone n d false
     else (r.2.onDie (dieOf (s.thr n).core) fun x => x.measure i.toNat r.1).sealDone n d true))

/-- SEAL.WIPE: the marked slots from 8 on, and with l every IDE and link key set. -/
def execSealWipe (d a : Reg) (l : Bool) (s : State) : Result :=
  let n := s.cur
  let m := s.reg n a
  .next (s.check n (privCheck s (.sealWipe d a l))
    ((s.onDie (dieOf (s.thr n).core) fun x =>
      let y := if l then x.dropKeySets else x
      { y with keys := x.keys.filter fun p => !(decide (8 ≤ p.1) && m.getLsbD p.1) }).sealDone n d true))

end Sys2Proof.Machine
end

