-- ==== Sys2Proof/Machine/Vector.lean ====
section
/-! DEFINITION. Shape slots, the vector sequencer, VREP, VWAIT and the exchange of V.QMAX (chapter 8). -/

namespace Sys2Proof.Machine

/-! ### Slots (R144, R159) -/

abbrev Thread.slotRec (t : Thread) (k : Slot) : Option Shape := mget none t.shapes k.toNat

/-- The trap of a record that V.SETS checks, with TVAL (R159). -/
def setsCheck (r : Shape) (v : Word) : Refuse :=
  match r.check with
  | some c => some (c, v)
  | none => none

def State.setSlot (s : State) (n : Nat) (d : Slot) (r : Shape) : State :=
  s.onThr n fun t => { t with shapes := mset none t.shapes d.toNat (some r) }

/-- The address checks of V.SETS and V.GETS. -/
def slotAddr (r : Word) : Refuse :=
  orElse' (failIf (decide (r.toNat % 32 ≠ 0)) .align r) (failIf (decide (r.toNat > 0x7_FFE0)) .transl r)

/-- V.SETS, BO = 0 (R159). The MCHK of a double-bit error in the record reports the record's address (DESIGN CHOICE, log 119). -/
def execVSets (d : Slot) (a : Reg) (disp : BitVec 20) (s : State) : Result :=
  let n := s.cur
  let r := s.reg n a + sext disp
  let rec' := s.record (originOf n) r.toNat
  let bad := failIf (s.flawed true (locKey (originOf n) r.toNat) 32) .mchk r
  .next (s.check n (orElse' (slotAddr r) (orElse' bad (setsCheck rec' r))) ((s.setSlot n d rec').finish n 8))

/-- A record with its BASE replaced. -/
def Shape.withBase (r : Shape) (b : Word) : Shape := { r with w0 := (r.w0 &&& 0xFFFF_FFFF_FFF8_0000) ||| (b &&& 0x7_FFFF) }

/-- V.SETS, BO = 1 (R159). -/
def execVSetsBase (d : Slot) (b : Reg) (s : State) : Result :=
  let n := s.cur
  let v := s.reg n b
  match s.me.slotRec d with
  | none => .next (s.raise n .ill (w0Of (.vSetsBase d b)))
  | some r =>
    let r := r.withBase v
    .next (s.check n (orElse' (failIf (decide (v.toNat > 0x7_FFFF)) .transl v) (setsCheck r v)) ((s.setSlot n d r).finish n 8))

/-- V.GETS (R159). -/
def execVGets (d : Slot) (a : Reg) (disp : BitVec 20) (s : State) : Result :=
  let n := s.cur
  let r := s.reg n a + sext disp
  let x := match s.me.slotRec d with | some x => x | none => ⟨0, 0, 0, 0⟩
  let c := originOf n
  .next (s.check n (slotAddr r)
    ((((((s.writeLoc c r.toNat 8 x.w0.toNat).writeLoc c (r.toNat + 8) 8 x.w1.toNat).writeLoc c (r.toNat + 16) 8
      x.w2.toNat).writeLoc c (r.toNat + 24) 8 x.w3.toNat)).finish n 8))

/-! ### What a sequencer instruction names -/

/-- A sequencer instruction with its slot fields mapped, position by position; `block` says whether the record that a
destination slot names is of a block type, which leaves B of V.QCVT alone (R150). -/
def mapSlots (fd fa fb fc : Slot → Slot) (block : Slot → Bool) : Instr → Instr
  | .vAdd d a b => .vAdd (fd d) (fa a) (fb b)
  | .vSub d a b => .vSub (fd d) (fa a) (fb b)
  | .vMul d a b => .vMul (fd d) (fa a) (fb b)
  | .vFma d a b c => .vFma (fd d) (fa a) (fb b) (fc c)
  | .vMin d a b => .vMin (fd d) (fa a) (fb b)
  | .vMax d a b => .vMax (fd d) (fa a) (fb b)
  | .vAbs d a => .vAbs (fd d) (fa a)
  | .vNeg d a => .vNeg (fd d) (fa a)
  | .vAnd d a b => .vAnd (fd d) (fa a) (fb b)
  | .vOr d a b => .vOr (fd d) (fa a) (fb b)
  | .vXor d a b => .vXor (fd d) (fa a) (fb b)
  | .vShl d a (.slot b) => .vShl (fd d) (fa a) (.slot (fb b))
  | .vShl d a (.imm x) => .vShl (fd d) (fa a) (.imm x)
  | .vShr d a (.slot b) => .vShr (fd d) (fa a) (.slot (fb b))
  | .vShr d a (.imm x) => .vShr (fd d) (fa a) (.imm x)
  | .vCmpEq d a b => .vCmpEq (fd d) (fa a) (fb b)
  | .vCmpNe d a b => .vCmpNe (fd d) (fa a) (fb b)
  | .vCmpLt d a b => .vCmpLt (fd d) (fa a) (fb b)
  | .vCmpGe d a b => .vCmpGe (fd d) (fa a) (fb b)
  | .vSel d a b c => .vSel (fd d) (fa a) (fb b) (fc c)
  | .vCvt d a rm sat => .vCvt (fd d) (fa a) rm sat
  | .vRsum d a k => .vRsum (fd d) (fa a) k
  | .vRmax d a k => .vRmax (fd d) (fa a) k
  | .vRmin d a k => .vRmin (fd d) (fa a) k
  | .vExp2 d a => .vExp2 (fd d) (fa a)
  | .vRcp d a => .vRcp (fd d) (fa a)
  | .vRsqrt d a => .vRsqrt (fd d) (fa a)
  | .vBcast d x => .vBcast (fd d) x
  | .vQmax d a b t => .vQmax (fd d) (fa a) b t
  | .vQcvt d a b rm sat => .vQcvt (fd d) (fa a) (if block (fd d) then b else fb b) rm sat
  | .vMov d a => .vMov (fd d) (fa a)
  | i => i

/-- A sequencer instruction's slots: the destination, then its sources; `none` for every other instruction (R145). The
block form of V.QCVT names no B. -/
def seqSlots (block : Slot → Bool) : Instr → Option (Slot × List Slot)
  | .vAdd d a b | .vSub d a b | .vMul d a b | .vMin d a b | .vMax d a b | .vAnd d a b | .vOr d a b | .vXor d a b
  | .vCmpEq d a b | .vCmpNe d a b | .vCmpLt d a b | .vCmpGe d a b | .vShl d a (.slot b) | .vShr d a (.slot b) =>
    some (d, [a, b])
  | .vFma d a b c | .vSel d a b c => some (d, [a, b, c])
  | .vAbs d a | .vNeg d a | .vShl d a (.imm _) | .vShr d a (.imm _) | .vCvt d a _ _ | .vRsum d a _ | .vRmax d a _
  | .vRmin d a _ | .vExp2 d a | .vRcp d a | .vRsqrt d a | .vQmax d a _ _ | .vMov d a => some (d, [a])
  | .vQcvt d a b _ _ => some (d, if block d then [a] else [a, b])
  | .vBcast d _ => some (d, [])
  | _ => none

abbrev isSeq (i : Instr) : Bool := (seqSlots (fun _ => false) i).isSome

/-- Whether the record that a slot holds is of a block type. -/
def blockAt (recs : Map (Option Shape)) (k : Slot) : Bool :=
  match mget none recs k.toNat with | some r => isBlock r.ty | none => false

/-- The destination and source records, when every slot named is set. -/
def seqRecs (recs : Map (Option Shape)) (i : Instr) : Option (Shape × List Shape) :=
  match seqSlots (blockAt recs) i with
  | none => none
  | some (d, as) => match mget none recs d.toNat, as.mapM fun k => mget none recs k.toNat with
    | some d, some as => some (d, as)
    | _, _ => none

/-! ### Issue checks (R149, R160 to R166) -/

abbrev allFloat (l : List Shape) : Bool := l.all fun r => isFloat r.ty
abbrev allInt (l : List Shape) : Bool := l.all fun r => isInt r.ty
abbrev oneClass (l : List Shape) : Bool := allFloat l || allInt l

/-- A reduction's extents: 1 along `k`, equal elsewhere (R163). -/
def redExtents (d a : Shape) (k : Nat) : Bool :=
  d.ext k == 1 && (List.range 4).all fun j => j == k || d.ext j == a.ext j

/-- The mask rule of V.QMAX (R165). -/
abbrev maskOk (c : Nat) (x : Word) : Bool := decide (x.toNat < 65536) && x.getLsbD (colOf c)

/-- Shapes and types of one instruction on core `c`, with its register operand. -/
def shapesOk (c : Nat) (i : Instr) (x : Word) (d : Shape) (as : List Shape) : Bool :=
  let fit := as.all fun a => a.fits d
  let plain := !isBlock d.ty
  match i with
  | .vAdd _ _ _ | .vSub _ _ _ | .vMul _ _ _ | .vFma _ _ _ _ | .vMin _ _ _ | .vMax _ _ _ | .vAbs _ _ | .vNeg _ _ =>
    fit && plain && oneClass (d :: as)
  | .vAnd _ _ _ | .vOr _ _ _ | .vXor _ _ _ | .vShl _ _ _ | .vShr _ _ _ => fit && allInt (d :: as)
  | .vCmpEq _ _ _ | .vCmpNe _ _ _ | .vCmpLt _ _ _ | .vCmpGe _ _ _ => fit && isInt d.ty && oneClass as
  | .vSel _ _ _ _ => fit && plain && allInt (as.take 1) && oneClass (d :: as.drop 1)
  | .vCvt _ _ _ _ => fit && plain
  | .vRsum _ _ k | .vRmax _ _ k | .vRmin _ _ k =>
    plain && oneClass (d :: as) && as.all fun a => redExtents d a k.toNat
  | .vExp2 _ _ | .vRcp _ _ | .vRsqrt _ _ => fit && plain && allFloat (d :: as)
  | .vBcast _ _ => plain
  | .vQmax _ _ _ _ => allFloat as && decide (d.ty = 0) && decide (d.w1 = 0x0001_0001_0001_0001) && maskOk c x
  | .vQcvt _ _ b _ _ =>
    allFloat as && (if isBlock d.ty then decide (b = 0) && as.all fun a => a.same d
      else fit && (decide (d.ty = 3) || decide (d.ty = 4)))
  | .vMov _ _ => fit && as.all fun a => a.ty == d.ty && (!isBlock d.ty || a.ext 0 == d.ext 0)
  | _ => false

/-- R149 for one instruction under a thread's records. -/
def seqOk (c : Nat) (recs : Map (Option Shape)) (i : Instr) (x : Word) : Bool :=
  match seqRecs recs i with
  | some (d, as) => shapesOk c i x d as
  | none => false

/-! ### Element values (R80 to R83, R160 to R166) -/

/-- An integer source converted to a type: by sign or zero extension, or truncation (R160). -/
abbrev toTypeInt (t : Nat) (e : Elem) : Int := intOf t (wrapInt t e.int)

/-- A one-result operation on floats or integers of class given by the destination type. -/
def byClass (t : Nat) (es : List Elem) (f : List Num → Num) (g : List Int → Int) : Nat :=
  match floatOf t with
  | some fm => fm.round .rne false (f (es.map (·.num)))
  | none => wrapInt t (g (es.map (toTypeInt t)))

def num2 (f : Num → Num → Num) : List Num → Num
  | [a, b] => f a b
  | _ => .nan
def num1 (f : Num → Num) : List Num → Num
  | [a] => f a
  | _ => .nan
def int2 (f : Int → Int → Int) : List Int → Int
  | [a, b] => f a b
  | _ => 0
def int1 (f : Int → Int) : List Int → Int
  | [a] => f a
  | _ => 0

/-- A comparison of two elements (R161). -/
def cmpElems (c : Cond) : List Elem → Bool
  | [a, b] =>
    if isFloat a.ty then
      let x := a.num
      let y := b.num
      match c with
      | .eq => x.eq y
      | .ne => !x.eq y
      | .lt => x.lt y
      | _ => !x.isNan && !y.isNan && !x.lt y
    else match c with
      | .eq => a.int == b.int
      | .ne => a.int != b.int
      | .lt => decide (a.int < b.int)
      | _ => decide (b.int ≤ a.int)
  | _ => false

/-- The shift amount of V.SHL and V.SHR: an element of B read as natural, or the immediate (R160). -/
def shiftOf : VShift → List Elem → Nat
  | .imm x, _ => x.toNat
  | .slot _, [_, b] => b.code
  | _, _ => 0

/-- The code that an elementwise instruction writes for one element of a destination type. -/
def elemVal (i : Instr) (t : Nat) (es : List Elem) : Nat :=
  match i with
  | .vAdd _ _ _ => byClass t es (num2 .add) (int2 (· + ·))
  | .vSub _ _ _ => byClass t es (num2 fun a b => a.add b.neg) (int2 (· - ·))
  | .vMul _ _ _ => byClass t es (num2 .mul) (int2 (· * ·))
  | .vFma _ _ _ _ => byClass t es (fun l => match l with | [a, b, c] => a.fma b c | _ => .nan)
      (fun l => match l with | [a, b, c] => a * b + c | _ => 0)
  | .vMin _ _ _ => byClass t es (num2 .min) (int2 Min.min)
  | .vMax _ _ _ => byClass t es (num2 .max) (int2 Max.max)
  | .vAbs _ _ => byClass t es (num1 .abs) (int1 fun a => a.natAbs)
  | .vNeg _ _ => byClass t es (num1 .neg) (int1 fun a => -a)
  | .vAnd _ _ _ => match es with | [a, b] => Nat.land (wrapInt t a.int) (wrapInt t b.int) | _ => 0
  | .vOr _ _ _ => match es with | [a, b] => Nat.lor (wrapInt t a.int) (wrapInt t b.int) | _ => 0
  | .vXor _ _ _ => match es with | [a, b] => Nat.xor (wrapInt t a.int) (wrapInt t b.int) | _ => 0
  | .vShl _ _ k => match es with
    | a :: _ => wrapInt t (toTypeInt t a * 2 ^ (shiftOf k es % typeBits t))
    | _ => 0
  | .vShr _ _ k => match es with
    | a :: _ => wrapInt t (toTypeInt t a / 2 ^ (shiftOf k es % typeBits t))
    | _ => 0
  | .vCmpEq _ _ _ => if cmpElems .eq es then 1 else 0
  | .vCmpNe _ _ _ => if cmpElems .ne es then 1 else 0
  | .vCmpLt _ _ _ => if cmpElems .lt es then 1 else 0
  | .vCmpGe _ _ _ => if cmpElems .ge es then 1 else 0
  | .vSel _ _ _ _ => match es with
    | [a, b, c] => byClass t [if a.int ≠ 0 then b else c] (num1 id) (int1 id)
    | _ => 0
  | .vCvt _ _ rm sat => match es with | [a] => convert a.ty t a.code a.tag rm sat | _ => 0
  | .vExp2 _ _ => byClass t es (num1 .exp2) (int1 id)
  | .vRcp _ _ => byClass t es (num1 .rcp) (int1 id)
  | .vRsqrt _ _ => byClass t es (num1 .rsqrt) (int1 id)
  | .vMov _ _ => match es with | [a] => a.code | _ => 0
  | .vQcvt _ _ _ rm sat => match es, floatOf t with
    | [a, b], some f => f.round rm sat (a.num.mul b.num)
    | _, _ => 0
  | _ => 0

/-- One reduction (R163, R83): the first partial sum is the first element in FP32 (DEDUCED, log 30). -/
def reduce (i : Instr) (t : Nat) (es : List Elem) : Nat :=
  match floatOf t with
  | some f => match es with
    | [] => match i with | .vRsum _ _ _ => 0 | _ => f.nan
    | e :: rest => match i with
      | .vRsum _ _ _ =>
        f.round .rne false (fp32.decode
          (rest.foldl (fun p x => fp32.round .rne false ((fp32.decode p).add x.num)) (fp32.round .rne false e.num)))
      | .vRmax _ _ _ => f.round .rne false (rest.foldl (fun p x => p.max x.num) e.num)
      | _ => f.round .rne false (rest.foldl (fun p x => p.min x.num) e.num)
  | none => match es with
    | [] => 0
    | e :: rest => match i with
      | .vRsum _ _ _ => wrapInt t (rest.foldl (fun p x => p + x.int) e.int)
      | .vRmax _ _ _ => wrapInt t (rest.foldl (fun p x => Max.max p x.int) e.int)
      | _ => wrapInt t (rest.foldl (fun p x => Min.min p x.int) e.int)

/-- The index with dimension `k` replaced. -/
def Index.at (i : Index) (k j : Nat) : Index :=
  if k = 0 then { i with i0 := j } else if k = 1 then { i with i1 := j } else if k = 2 then { i with i2 := j } else { i with i3 := j }

/-- The reduction dimension of an instruction. -/
def redDim : Instr → Option (BitVec 2)
  | .vRsum _ _ k | .vRmax _ _ k | .vRmin _ _ k => some k
  | _ => none

/-- The elements of the group that begins at linear index `l` of D: up to 64 bytes of the widest operand, of one row
(R147). -/
def groupLen (d : Shape) (as : List Shape) (l : Nat) : Nat :=
  Min.min (512 / as.foldl (fun m a => Max.max m (typeBits a.ty)) (typeBits d.ty)) (d.ext 0 - l % d.ext 0)

/-- A source element that a group reads: the source's place among the sources, its record, and the element's index. -/
abbrev SrcElem := Nat × Shape × Index

/-- What element `l` of D is computed from. -/
def elemReads (i : Instr) (d : Shape) (as : List Shape) (l : Nat) : List SrcElem :=
  match redDim i, as with
  | some r, [a] => (List.range (a.ext r.toNat)).map fun m => (0, a, (d.index l).at r.toNat m)
  | _, as => as.zipIdx.map fun p => (p.2, p.1, p.1.bcast (d.index l))

/-- What the group of `k` elements from `l0` on reads for the next group, which ends the block: the rest of each block of a
source, which is read as one unit with its tag, and the first half of a block to be quantised, which is written as one
(R74; DESIGN CHOICE, log 85). -/
def groupAhead (i : Instr) (d : Shape) (as : List Shape) (l0 k : Nat) : List SrcElem :=
  if d.ext 0 % 32 ≠ 0 ∨ (l0 + k) % 32 = 0 then []
  else match i, as with
    | .vQcvt _ _ _ _ _, [_] => (List.range k).flatMap fun j => elemReads i d as (l0 + j)
    | _, _ => ((List.range (32 - (l0 + k) % 32)).flatMap fun j => elemReads i d as (l0 + k + j)).filter fun p => isBlock p.2.1.ty

/-- Whether an earlier group of the block has read an element. -/
def held? (held : List HeldElem) (p : Nat) (r : Shape) (i : Index) : Option HeldElem :=
  held.find? fun h => decide (h.pos = p ∧ h.idx = r.linear (r.bcast i))

/-- A source element of a group: as an earlier group of the block has read it, or as it stands. -/
def State.sourceOf (s : State) (c : Nat) (held : List HeldElem) (p : Nat) (r : Shape) (i : Index) : Elem :=
  match held? held p r i with
  | some h => { ty := r.ty, code := h.code, tag := h.tag }
  | none => s.source c r i

/-- An element kept for the next group. -/
def State.holdElem (s : State) (c : Nat) (x : SrcElem) : HeldElem :=
  let e := s.source c x.2.1 x.2.2
  { pos := x.1, idx := x.2.1.linear (x.2.1.bcast x.2.2), code := e.code, tag := e.tag }

/-- Whether reading an element, or its tag, reads the 8-byte word of a local offset. -/
def Shape.reads (r : Shape) (off : Nat) (i : Index) : Bool :=
  decide (r.byteOf i / 8 = off / 8) || (isBlock r.ty && decide (r.tagOf i / 8 = off / 8))

/-- Whether the group of `k` elements from `l0` on reads the word of a local offset. -/
def groupReads (i : Instr) (d : Shape) (as : List Shape) (held : List HeldElem) (l0 k off : Nat) : Bool :=
  match i, as with
  | .vQmax _ _ _ _, [a] => (List.range a.size).any fun l => a.reads off (a.index l)
  | _, as => ((List.range k).flatMap (fun j => elemReads i d as (l0 + j)) ++ groupAhead i d as l0 k).any fun x =>
      (held? held x.1 x.2.1 x.2.2).isNone && x.2.1.reads off x.2.2

/-- Quantise block `l` of the destination (R166, R79). -/
def quantBlock (c : Nat) (rm : Rm) (sat : Bool) (d a : Shape) (held : List HeldElem) (l : Nat) (s : State) : State :=
  let nb := d.ext 0 / 32
  let row := l / nb
  let at' := fun (k : Nat) => d.index (row * d.ext 0 + l % nb * 32 + k)
  let q := quantise d.ty ((List.range 32).map fun k => (s.sourceOf c held 0 a (at' k)).num) rm sat
  let s := (q.1.zipIdx).foldl (fun s p => s.setElem c d (at' p.2) p.1) s
  s.setTag c d (at' 0) q.2

/-- A tag as a block of a TYPE is written with it: the 8-bit formats' bits [15:8] are zero (R73). -/
abbrev writtenTag (ty : Nat) (tag : BitVec 16) : BitVec 16 := if ty = 5 ∨ ty = 6 then tag &&& 0xFF else tag

/-- The effect of one group of a sequencer instruction but V.QMAX on core `c`: `k` elements of D from linear index `l0` on
(R146, R147), or the blocks that end among them. V.MOV moves each tag as its format has it: bits [15:8] of an mx8 tag
are written as zero (R73). -/
def seqApply (c : Nat) (i : Instr) (x : Word) (d : Shape) (as : List Shape) (held : List HeldElem) (l0 k : Nat) (s : State) : State :=
  match i, as with
  | .vBcast _ _, _ =>
    eachIndex (fun l s => s.setElem c d (d.index l) (x.toNat % 2 ^ typeBits d.ty)) k l0 s
  | .vQcvt _ _ _ rm sat, [a] => eachIndex (quantBlock c rm sat d a held) ((l0 + k) / 32 - l0 / 32) (l0 / 32) s
  | .vMov _ _, [a] =>
    eachIndex (fun l s =>
      let j := d.index l
      let e := s.sourceOf c held 0 a j
      let s := s.setElem c d j e.code
      if isBlock d.ty then s.setTag c d j (writtenTag d.ty e.tag) else s) k l0 s
  | i, as =>
    match redDim i, as with
    | some r, [a] => eachIndex (fun l s =>
        let j := d.index l
        let es := (List.range (a.ext r.toNat)).map fun m => s.sourceOf c held 0 a (j.at r.toNat m)
        s.setElem c d j (reduce i d.ty es)) k l0 s
    | _, as => eachIndex (fun l s =>
        let j := d.index l
        s.setElem c d j (elemVal i d.ty (as.zipIdx.map fun p => s.sourceOf c held p.2 p.1 j))) k l0 s

/-! ### V.QMAX (R165) -/

/-- m of R165 as an FP32 code. -/
def qmaxOf (c : Nat) (a : Shape) (s : State) : BitVec 32 :=
  let xs := (List.range a.size).map fun l => (s.source c a (a.index l)).num
  if xs.any Num.isNan then 0x7FC0_0000
  else BitVec.ofNat 32 (fp32.round .rne false (xs.foldl (fun p x => if p.lt x.abs then x.abs else p) (.fin false 0 0)))

/-- The columns of a mask other than a core's own. -/
def otherCols (c : Nat) (x : Word) : List Nat := (List.range 16).filter fun k => x.getLsbD k && k != colOf c

abbrev exchKey (col tag : Nat) : Nat := col * 16 + tag

/-- The maximum of FP32 codes, NaN if any is. -/
def maxCodes (l : List (BitVec 32)) : BitVec 32 :=
  if l.any fun v => (fp32.decode v.toNat).isNan then 0x7FC0_0000
  else l.foldl (fun p v => if (fp32.decode p.toNat).lt (fp32.decode v.toNat) then v else p) 0

/-! ### Entries -/

/-- The instruction that an entry runs in its present iteration (R150). -/
def SeqEntry.now (e : SeqEntry) : Instr :=
  let f := fun (p : Nat) (k : Slot) => k + BitVec.ofNat 4 (e.iter * (e.stag.getD p 0).toNat)
  if e.stag.isEmpty then e.op else mapSlots (f 0) (f 1) (f 2) (f 3) (blockAt e.recs) e.op

def Core.setEntry (c : Core) (id : Nat) (f : SeqEntry → SeqEntry) : Core :=
  { c with seq := c.seq.map fun e => if e.id = id then f e else e }

/-- An iteration is over: the next one, or the entry completes. -/
def State.advance (s : State) (c : Nat) (e : SeqEntry) : State :=
  if e.iter + 1 < e.count then
    s.onCore c fun x => x.setEntry e.id fun e => { e with iter := e.iter + 1, done := 0, held := [], send := [], amax := none }
  else s.onCore c fun x => { x with seq := x.seq.filter fun y => y.id != e.id }

/-- The entry of thread `n` whose iteration is next: the head entry's group, in the order iteration, then entry. -/
def nextEntry (es : List SeqEntry) (n : Nat) : Option SeqEntry :=
  match es.filter fun e => e.thread = n with
  | [] => none
  | h :: t =>
    let g := h :: t.filter fun e => e.group = h.group
    let m := g.foldl (fun m e => Min.min m e.iter) h.iter
    g.find? fun e => e.iter = m

/-- One group of thread `n`'s work on core `c` (R147), or none where it must wait for a neighbour. -/
def seqStep (c n : Nat) (s : State) : Option State :=
  match nextEntry (s.core c).seq n with
  | none => none
  | some e =>
    match seqRecs e.recs e.now with
    | none => some (s.advance c e)
    | some (d, as) =>
      match e.now, as with
      | .vQmax _ _ _ tag, [a] =>
        match e.amax with
        | none =>
          let v := qmaxOf c a s
          let cols := otherCols c e.x
          let s := s.onCore c fun x => x.setEntry e.id fun e => { e with amax := some v, send := cols }
          some (cols.foldl (fun s k =>
            s.send (.core c) (.core (c - colOf c + k)) (.qmax (c - colOf c + k) (colOf c) tag.toNat e.id v)) s)
        | some v =>
          let cols := otherCols c e.x
          let got := cols.filterMap fun k => mget none (s.core c).exch (exchKey k tag.toNat)
          if !e.send.isEmpty || decide (got.length < cols.length) then none
          else
            let s := s.onCore c fun x =>
              { x with exch := cols.foldl (fun m k => mset none m (exchKey k tag.toNat) none) x.exch }
            some ((s.setElem c d (d.index 0) (maxCodes (v :: got)).toNat).advance c e)
      | i, as =>
        let k := groupLen d as e.done
        if d.size ≤ e.done + k ∨ k = 0 then some ((seqApply c i e.x d as e.held e.done (d.size - e.done) s).advance c e)
        else
          let t := seqApply c i e.x d as e.held e.done k s
          let ahead := (groupAhead i d as e.done k).map (t.holdElem c)
          some (t.onCore c fun x => x.setEntry e.id fun e => { e with done := e.done + k, held := ahead })

/-- The slots in the order of the sequencer's search: from the one after the slot served last (R147). -/
def seqOrder (c : Nat) (s : State) : List Nat := (List.range 16).map fun j => ((s.core c).seqTurn + 1 + j) % 16

/-- The next turn of core `c`'s sequencer: the first thread in that order whose head entry can proceed, and the state after
its group (R147). -/
def seqPick (c : Nat) (s : State) : Option (Nat × State) :=
  (seqOrder c s).findSome? fun k =>
    (seqStep c (16 * c + k) s).map fun t => (16 * c + k, t.onCore c fun x => { x with seqTurn := k })

/-- Double-bit errors at local offsets: MCHK in the thread for each; the entry that read them and the thread's later ones are
discarded, the groups before stay (R148). -/
def State.seqFail (s : State) (c : Nat) (e : SeqEntry) (offs : List Nat) : State :=
  let later := ((s.core c).seq.dropWhile fun x => x.id != e.id).map (·.id)
  let s := s.onCore c fun x => { x with seq := x.seq.filter fun y => !(decide (y.thread = e.thread) && later.contains y.id) }
  s.onThr e.thread fun t => { t with mchk := t.mchk ++ offs.map word }

/-- Whether an entry's next group reads the word of a local offset. -/
def SeqEntry.reads (e : SeqEntry) (off : Nat) : Bool :=
  match seqRecs e.recs e.now with
  | some (d, as) => e.amax.isNone && groupReads e.now d as e.held e.done (groupLen d as e.done) off
  | none => false

/-- The local offsets of the double-bit errors that an entry's next group reads: the one that the event names for its entry,
and the flawed words of the core's store (R132, R148; log 19). -/
def State.seqErrs (s : State) (c id : Nat) (err : Option Nat) (e : SeqEntry) : List Nat :=
  let named := err.toList.filter fun o => decide (e.id = id) && e.reads o
  named ++ (s.flaws.filterMap fun p => if p.1 && decide (p.2 / 0x1_0000 = c) then some (p.2 % 0x1_0000 * 8) else none).filter
    fun o => e.reads o && !named.any fun x => decide (x / 8 = o / 8)

/-- Run the sequencer of core `c`, group by group, until an entry is complete, or nothing can proceed. An entry whose next
group reads the word of an error is discarded. -/
def seqRun (c id : Nat) (err : Option Nat) : Nat → State → State
  | 0, s => s
  | k + 1, s =>
    if (s.core c).seq.all fun e => e.id != id then s
    else match seqPick c s with
      | none => s
      | some (n, t) => match nextEntry (s.core c).seq n with
        | some e =>
          let bad := s.seqErrs c id err e
          seqRun c id err k (if bad.isEmpty then t else s.seqFail c e bad)
        | none => seqRun c id err k t

/-- Turns that suffice for every entry of a core. -/
def seqFuel (es : List SeqEntry) : Nat :=
  es.foldl (fun a e => a + e.count * (e.recs.foldl (fun m p => match p.2 with | some r => Max.max m r.size | none => m) 0 + 2)) 0

/-- The core that holds a sequencer entry. -/
def State.seqOwner (s : State) (id : Nat) : Option (Nat × SeqEntry) :=
  s.cores.findSome? fun p => ((s.core p.1).seq.find? fun e => e.id = id).map fun e => (p.1, e)

/-- SEQ_ENTRY_COMPLETE (R146 to R148): the sequencer takes its turns until the entry is complete; `err` is the local offset
of a double-bit error that the entry reads. A halted die's sequencers stand (R336). -/
def execSeqEntryComplete (id : Nat) (err : Option Nat) (s : State) : Result :=
  match s.seqOwner id with
  | none => .next s
  | some (c, _) =>
    if c < 1024 && s.halted (dieOf c) then .next s
    else .next ((seqRun c id err (seqFuel (s.core c).seq) s).settleCore c)

/-- QMAX_DELIVERY (R165): a delivery waits while its buffer entry is full. -/
def qmaxServe (id : Nat) (s : State) : State :=
  match s.due id with
  | some ⟨_, .core src, _, _, .qmax c col tag e v⟩ =>
    if (mget none (s.core c).exch (exchKey col tag)).isSome then s
    else
      let s := (s.drop id).onCore c fun x => { x with exch := mset none x.exch (exchKey col tag) (some v) }
      s.onCore src fun x => x.setEntry e fun y => { y with send := y.send.filter (· != colOf c) }
  | _ => s

/-- QMAX_DELIVERY (R165). -/
def execQmaxDelivery (id : Nat) (s : State) : Result := .next (qmaxServe id s)

/-- QUEUE_ENTRY_FREED (R96). -/
def execQueueEntryFreed (c : Nat) (q : QueueKind) (s : State) : Result := .next (s.reserveEntry c q)

/-! ### Issue -/

/-- The register operand of a sequencer instruction, read at issue. -/
def seqOperand (s : State) (n : Nat) : Instr → Word
  | .vBcast _ (.reg a) => s.reg n a
  | .vBcast _ (.i32 x) => sext x
  | .vQmax _ _ b _ => s.reg n b
  | _ => 0

def seqLen : Instr → Nat
  | .vBcast _ (.i32 _) => 12
  | _ => 8

/-- Append an entry. -/
def State.enqueue (s : State) (n : Nat) (i : Instr) (group : Nat) (stag : List (BitVec 4)) (count : Nat) : State :=
  let id := s.nextId
  let e : SeqEntry := { id := id, thread := n, op := i, recs := (s.thr n).shapes, x := seqOperand s n i, group := group, stag := stag, count := count }
  { s with nextId := id + 1 }.onCore (originOf n) fun x => { x with seq := x.seq ++ [e] }

/-- The shared operation of the sequencer instructions (R145, R149). -/
def seqOp (i : Instr) (s : State) : State :=
  let n := s.cur
  if seqOk (originOf n) s.me.shapes i (seqOperand s n i) then
    s.taking n .seq 1 fun s => (s.enqueue n i s.nextId [] 1).finish n (seqLen i)
  else s.raise n .ill (w0Of i)

/-- V.ADD (R160). -/
def execVAdd (d a b : Slot) (s : State) : Result := .next (seqOp (.vAdd d a b) s)
/-- V.SUB (R160). -/
def execVSub (d a b : Slot) (s : State) : Result := .next (seqOp (.vSub d a b) s)
/-- V.MUL (R160). -/
def execVMul (d a b : Slot) (s : State) : Result := .next (seqOp (.vMul d a b) s)
/-- V.FMA (R160). -/
def execVFma (d a b c : Slot) (s : State) : Result := .next (seqOp (.vFma d a b c) s)
/-- V.MIN (R160, R81). -/
def execVMin (d a b : Slot) (s : State) : Result := .next (seqOp (.vMin d a b) s)
/-- V.MAX (R160, R81). -/
def execVMax (d a b : Slot) (s : State) : Result := .next (seqOp (.vMax d a b) s)
/-- V.ABS (R160, R81). -/
def execVAbs (d a : Slot) (s : State) : Result := .next (seqOp (.vAbs d a) s)
/-- V.NEG (R160, R81). -/
def execVNeg (d a : Slot) (s : State) : Result := .next (seqOp (.vNeg d a) s)
/-- V.AND (R160). -/
def execVAnd (d a b : Slot) (s : State) : Result := .next (seqOp (.vAnd d a b) s)
/-- V.OR (R160). -/
def execVOr (d a b : Slot) (s : State) : Result := .next (seqOp (.vOr d a b) s)
/-- V.XOR (R160). -/
def execVXor (d a b : Slot) (s : State) : Result := .next (seqOp (.vXor d a b) s)
/-- V.SHL (R160). -/
def execVShl (d a : Slot) (k : VShift) (s : State) : Result := .next (seqOp (.vShl d a k) s)
/-- V.SHR (R160). -/
def execVShr (d a : Slot) (k : VShift) (s : State) : Result := .next (seqOp (.vShr d a k) s)
/-- V.CMP.EQ (R161). -/
def execVCmpEq (d a b : Slot) (s : State) : Result := .next (seqOp (.vCmpEq d a b) s)
/-- V.CMP.NE (R161). -/
def execVCmpNe (d a b : Slot) (s : State) : Result := .next (seqOp (.vCmpNe d a b) s)
/-- V.CMP.LT (R161). -/
def execVCmpLt (d a b : Slot) (s : State) : Result := .next (seqOp (.vCmpLt d a b) s)
/-- V.CMP.GE (R161). -/
def execVCmpGe (d a b : Slot) (s : State) : Result := .next (seqOp (.vCmpGe d a b) s)
/-- V.SEL (R161). -/
def execVSel (d a b c : Slot) (s : State) : Result := .next (seqOp (.vSel d a b c) s)
/-- V.CVT (R162). -/
def execVCvt (d a : Slot) (rm : Rm) (sat : Bool) (s : State) : Result := .next (seqOp (.vCvt d a rm sat) s)
/-- V.RSUM (R163). -/
def execVRsum (d a : Slot) (dim : BitVec 2) (s : State) : Result := .next (seqOp (.vRsum d a dim) s)
/-- V.RMAX (R163). -/
def execVRmax (d a : Slot) (dim : BitVec 2) (s : State) : Result := .next (seqOp (.vRmax d a dim) s)
/-- V.RMIN (R163). -/
def execVRmin (d a : Slot) (dim : BitVec 2) (s : State) : Result := .next (seqOp (.vRmin d a dim) s)
/-- V.EXP2 (R160, R82). -/
def execVExp2 (d a : Slot) (s : State) : Result := .next (seqOp (.vExp2 d a) s)
/-- V.RCP (R160, R82). -/
def execVRcp (d a : Slot) (s : State) : Result := .next (seqOp (.vRcp d a) s)
/-- V.RSQRT (R160, R82). -/
def execVRsqrt (d a : Slot) (s : State) : Result := .next (seqOp (.vRsqrt d a) s)
/-- V.BCAST (R164). -/
def execVBcast (d : Slot) (x : RegOrW2) (s : State) : Result := .next (seqOp (.vBcast d x) s)
/-- V.QMAX (R165). -/
def execVQmax (d a : Slot) (b : Reg) (tag : BitVec 4) (s : State) : Result := .next (seqOp (.vQmax d a b tag) s)
/-- V.QCVT (R166). -/
def execVQcvt (d a b : Slot) (rm : Rm) (sat : Bool) (s : State) : Result := .next (seqOp (.vQcvt d a b rm sat) s)
/-- V.MOV (R160). -/
def execVMov (d a : Slot) (s : State) : Result := .next (seqOp (.vMov d a) s)

/-! ### VREP and VWAIT (R150 to R152, R167, R168) -/

/-- A VREP's body: its instructions with their first words, and the address after the last. -/
inductive BodyScan where
  | ok (is : List (Instr × BitVec 32)) (after : Word)
  | bad (c : Cause) (v : Word)
  deriving DecidableEq, Repr

/-- Read the next `k` instruction words that are not PAD; `fuel` bounds the words read, PAD included. Where several words
fail, the first in program order is reported, and before every R149 check (DESIGN CHOICE, log 84). -/
def State.scanBody (s : State) (n : Nat) (w0 : Word) : Nat → Nat → Word → BodyScan × State
  | _, 0, pc => (.ok [] pc, s)
  | 0, _, _ => (.bad .ill w0, s)
  | fuel + 1, k + 1, pc =>
    let r := s.fetch n pc
    match r.1 with
    | .fault c v =>
      (.bad (fetchCause c) (match c with | .straddle => v | _ => v &&& 0xFFFF_FFFF_FFFF_FFE0), r.2)
    | .bad _ => (.bad .ill w0, r.2)
    | .ok i len w =>
      if i = .pad then State.scanBody r.2 n w0 fuel (k + 1) (pc + 4)
      else if !isSeq i then (.bad .ill w0, r.2)
      else
        let q := State.scanBody r.2 n w0 fuel k (pc + word len)
        match q.1 with
        | .ok is p => (.ok ((i, w) :: is) p, q.2)
        | b => (b, q.2)

/-- The first of the n × k instructions that fails R149: staggers repeat after 16 iterations. -/
def bodyCheck (s : State) (n count : Nat) (stag : List (BitVec 4)) (is : List (Instr × BitVec 32)) : Refuse :=
  (List.range (Min.min count 16)).findSome? fun it => is.findSome? fun p =>
    let e : SeqEntry := { id := 0, thread := n, op := p.1, recs := s.me.shapes, group := 0, stag := stag, iter := it }
    if seqOk (originOf n) s.me.shapes e.now (seqOperand s n p.1) then none else some (.ill, zext p.2)

/-- VREP (R167). -/
def execVrep (x : RegOrW2) (k1 sd sa sb sc : BitVec 4) (s : State) : Result :=
  let n := s.cur
  let i : Instr := .vrep x k1 sd sa sb sc
  let count := match x with | .reg a => (s.reg n a).toNat % 2 ^ 32 | .i32 v => v.toNat
  let len := match x with | .reg _ => 8 | .i32 _ => 12
  let k := k1.toNat + 1
  let stag := [sd, sa, sb, sc]
  let r := s.scanBody n (w0Of i) (2 ^ 62) k (s.me.pc + len)
  let s := r.2
  match r.1 with
  | .bad c v => .next (s.raise n c v)
  | .ok is after =>
    if count = 0 then .next (s.goto n after)
    else match bodyCheck s n count stag is with
      | some (c, v) => .next (s.raise n c v)
      | none => .next (s.taking n .seq k fun s =>
          let g := s.nextId
          (is.foldl (fun s p => s.enqueue n p.1 g stag count) s).goto n after)

/-- VWAIT (R168). -/
def execVwait (s : State) : Result :=
  let n := s.cur
  let ids := ((s.core (originOf n)).seq.filter fun e => e.thread = n).map (·.id)
  .next (if ids.isEmpty then s.finish n 8 else s.park n .sleeping (.engine ids none))

end Sys2Proof.Machine
end

