-- ==== Sys2Proof/Machine/Dispatch.lean ====
section
/-! DEFINITION. The meaning of each instruction and event: one arm per constructor of Instr. -/

namespace Sys2Proof.Machine

def exec (i : Instr) (s : State) : Host.Outcome State Fault Refusal :=
  match i with
  | .pad => Sys2Proof.Machine.execPad s
  | .nop => Sys2Proof.Machine.execNop s
  | .brk imm => Sys2Proof.Machine.execBrk imm s
  | .trap imm => Sys2Proof.Machine.execTrap imm s
  | .rtt => Sys2Proof.Machine.execRtt s
  | .srr d num => Sys2Proof.Machine.execSrr d num s
  | .srw a num => Sys2Proof.Machine.execSrw a num s
  | .ctxSave a disp g => Sys2Proof.Machine.execCtxSave a disp g s
  | .ctxLoad a disp g => Sys2Proof.Machine.execCtxLoad a disp g s
  | .rdcyc d => Sys2Proof.Machine.execRdcyc d s
  | .rdref d => Sys2Proof.Machine.execRdref d s
  | .tmrSet d a => Sys2Proof.Machine.execTmrSet d a s
  | .deedOffer d a => Sys2Proof.Machine.execDeedOffer d a s
  | .deedAccept d a => Sys2Proof.Machine.execDeedAccept d a s
  | .deedLend d a k => Sys2Proof.Machine.execDeedLend d a k s
  | .deedRecall d a => Sys2Proof.Machine.execDeedRecall d a s
  | .deedReturn d a => Sys2Proof.Machine.execDeedReturn d a s
  | .deedQuery d a => Sys2Proof.Machine.execDeedQuery d a s
  | .sealHash d a b st => Sys2Proof.Machine.execSealHash d a b st s
  | .sealDigest d c st => Sys2Proof.Machine.execSealDigest d c st s
  | .sealSign d a c k => Sys2Proof.Machine.execSealSign d a c k s
  | .sealVerify d a b c => Sys2Proof.Machine.execSealVerify d a b c s
  | .sealEcdh d a k m => Sys2Proof.Machine.execSealEcdh d a k m s
  | .sealKeyload d a k => Sys2Proof.Machine.execSealKeyload d a k s
  | .sealRand d => Sys2Proof.Machine.execSealRand d s
  | .sealExtend d a k => Sys2Proof.Machine.execSealExtend d a k s
  | .sealWipe d a l => Sys2Proof.Machine.execSealWipe d a l s
  | .add d a y w => Sys2Proof.Machine.execAdd d a y w s
  | .sub d a y w => Sys2Proof.Machine.execSub d a y w s
  | .mul d a y w => Sys2Proof.Machine.execMul d a y w s
  | .mulh d a y w => Sys2Proof.Machine.execMulh d a y w s
  | .mulhn d a y w => Sys2Proof.Machine.execMulhn d a y w s
  | .div d a y w => Sys2Proof.Machine.execDiv d a y w s
  | .divn d a y w => Sys2Proof.Machine.execDivn d a y w s
  | .rem d a y w => Sys2Proof.Machine.execRem d a y w s
  | .remn d a y w => Sys2Proof.Machine.execRemn d a y w s
  | .and d a y w => Sys2Proof.Machine.execAnd d a y w s
  | .or d a y w => Sys2Proof.Machine.execOr d a y w s
  | .xor d a y w => Sys2Proof.Machine.execXor d a y w s
  | .andn d a y w => Sys2Proof.Machine.execAndn d a y w s
  | .shl d a y w => Sys2Proof.Machine.execShl d a y w s
  | .shr d a y w => Sys2Proof.Machine.execShr d a y w s
  | .sha d a y w => Sys2Proof.Machine.execSha d a y w s
  | .rol d a y w => Sys2Proof.Machine.execRol d a y w s
  | .ror d a y w => Sys2Proof.Machine.execRor d a y w s
  | .min d a y w => Sys2Proof.Machine.execMin d a y w s
  | .max d a y w => Sys2Proof.Machine.execMax d a y w s
  | .minn d a y w => Sys2Proof.Machine.execMinn d a y w s
  | .maxn d a y w => Sys2Proof.Machine.execMaxn d a y w s
  | .setEq d a y w => Sys2Proof.Machine.execSetEq d a y w s
  | .setNe d a y w => Sys2Proof.Machine.execSetNe d a y w s
  | .setLt d a y w => Sys2Proof.Machine.execSetLt d a y w s
  | .setGe d a y w => Sys2Proof.Machine.execSetGe d a y w s
  | .setLtn d a y w => Sys2Proof.Machine.execSetLtn d a y w s
  | .setGen d a y w => Sys2Proof.Machine.execSetGen d a y w s
  | .clz d a w => Sys2Proof.Machine.execClz d a w s
  | .ctz d a w => Sys2Proof.Machine.execCtz d a w s
  | .popc d a w => Sys2Proof.Machine.execPopc d a w s
  | .ext d a pos len1 w => Sys2Proof.Machine.execExt d a pos len1 w s
  | .extn d a pos len1 w => Sys2Proof.Machine.execExtn d a pos len1 w s
  | .ins d a pos len1 w => Sys2Proof.Machine.execIns d a pos len1 w s
  | .li d x => Sys2Proof.Machine.execLi d x s
  | .la d x => Sys2Proof.Machine.execLa d x s
  | .beq a y off => Sys2Proof.Machine.execBeq a y off s
  | .bne a y off => Sys2Proof.Machine.execBne a y off s
  | .blt a y off => Sys2Proof.Machine.execBlt a y off s
  | .bge a y off => Sys2Proof.Machine.execBge a y off s
  | .bltn a y off => Sys2Proof.Machine.execBltn a y off s
  | .bgen a y off => Sys2Proof.Machine.execBgen a y off s
  | .bz a off => Sys2Proof.Machine.execBz a off s
  | .bnz a off => Sys2Proof.Machine.execBnz a off s
  | .j off => Sys2Proof.Machine.execJ off s
  | .call d off => Sys2Proof.Machine.execCall d off s
  | .jr a disp => Sys2Proof.Machine.execJr a disp s
  | .callr d a disp => Sys2Proof.Machine.execCallr d a disp s
  | .ld d a f sz z ord => Sys2Proof.Machine.execLd d a f sz z ord s
  | .st a f c sz ord => Sys2Proof.Machine.execSt a f c sz ord s
  | .push a f c d sz => Sys2Proof.Machine.execPush a f c d sz s
  | .pushl a f d => Sys2Proof.Machine.execPushl a f d s
  | .ldl d a f sz z => Sys2Proof.Machine.execLdl d a f sz z s
  | .stl a f c sz => Sys2Proof.Machine.execStl a f c sz s
  | .ldx d a b disp sz z => Sys2Proof.Machine.execLdx d a b disp sz z s
  | .stx a b c disp sz => Sys2Proof.Machine.execStx a b c disp sz s
  | .amoxAdd d a b c ord dw => Sys2Proof.Machine.execAmoxAdd d a b c ord dw s
  | .amoxAnd d a b c ord dw => Sys2Proof.Machine.execAmoxAnd d a b c ord dw s
  | .amoxOr d a b c ord dw => Sys2Proof.Machine.execAmoxOr d a b c ord dw s
  | .amoxXor d a b c ord dw => Sys2Proof.Machine.execAmoxXor d a b c ord dw s
  | .amoxMin d a b c ord dw => Sys2Proof.Machine.execAmoxMin d a b c ord dw s
  | .amoxMax d a b c ord dw => Sys2Proof.Machine.execAmoxMax d a b c ord dw s
  | .amoxMinn d a b c ord dw => Sys2Proof.Machine.execAmoxMinn d a b c ord dw s
  | .amoxMaxn d a b c ord dw => Sys2Proof.Machine.execAmoxMaxn d a b c ord dw s
  | .amoxSwap d a b c ord dw => Sys2Proof.Machine.execAmoxSwap d a b c ord dw s
  | .amoxCas d a b c cmp ord dw => Sys2Proof.Machine.execAmoxCas d a b c cmp ord dw s
  | .amoxFadd d a b c ord => Sys2Proof.Machine.execAmoxFadd d a b c ord s
  | .amoxFaddBf16 d a b c ord => Sys2Proof.Machine.execAmoxFaddBf16 d a b c ord s
  | .amoAdd d a c ord dw => Sys2Proof.Machine.execAmoAdd d a c ord dw s
  | .amoAnd d a c ord dw => Sys2Proof.Machine.execAmoAnd d a c ord dw s
  | .amoOr d a c ord dw => Sys2Proof.Machine.execAmoOr d a c ord dw s
  | .amoXor d a c ord dw => Sys2Proof.Machine.execAmoXor d a c ord dw s
  | .amoMin d a c ord dw => Sys2Proof.Machine.execAmoMin d a c ord dw s
  | .amoMax d a c ord dw => Sys2Proof.Machine.execAmoMax d a c ord dw s
  | .amoMinn d a c ord dw => Sys2Proof.Machine.execAmoMinn d a c ord dw s
  | .amoMaxn d a c ord dw => Sys2Proof.Machine.execAmoMaxn d a c ord dw s
  | .amoSwap d a c ord dw => Sys2Proof.Machine.execAmoSwap d a c ord dw s
  | .amoCas d a c cmp ord dw => Sys2Proof.Machine.execAmoCas d a c cmp ord dw s
  | .amoFadd d a c ord => Sys2Proof.Machine.execAmoFadd d a c ord s
  | .amoFaddBf16 d a c ord => Sys2Proof.Machine.execAmoFaddBf16 d a c ord s
  | .lr d a acq dw => Sys2Proof.Machine.execLr d a acq dw s
  | .sc d a c rel dw => Sys2Proof.Machine.execSc d a c rel dw s
  | .waitrs d => Sys2Proof.Machine.execWaitrs d s
  | .fence scope pred succ => Sys2Proof.Machine.execFence scope pred succ s
  | .waita d a y w => Sys2Proof.Machine.execWaita d a y w s
  | .clPref a disp x => Sys2Proof.Machine.execClPref a disp x s
  | .clFlush a disp => Sys2Proof.Machine.execClFlush a disp s
  | .clInv a disp k => Sys2Proof.Machine.execClInv a disp k s
  | .clZero a disp => Sys2Proof.Machine.execClZero a disp s
  | .rgnDefine d a b => Sys2Proof.Machine.execRgnDefine d a b s
  | .rgnToSw d a b => Sys2Proof.Machine.execRgnToSw d a b s
  | .rgnFlush d a b => Sys2Proof.Machine.execRgnFlush d a b s
  | .rgnToCoherent d a b => Sys2Proof.Machine.execRgnToCoherent d a b s
  | .altOpen a => Sys2Proof.Machine.execAltOpen a s
  | .altTake d a n => Sys2Proof.Machine.execAltTake d a n s
  | .altGive d a n => Sys2Proof.Machine.execAltGive d a n s
  | .altRead d a => Sys2Proof.Machine.execAltRead d a s
  | .altClose d a => Sys2Proof.Machine.execAltClose d a s
  | .taskPush d a b => Sys2Proof.Machine.execTaskPush d a b s
  | .sheaf d a b => Sys2Proof.Machine.execSheaf d a b s
  | .join a => Sys2Proof.Machine.execJoin a s
  | .trig => Sys2Proof.Machine.execTrig s
  | .retire => Sys2Proof.Machine.execRetire s
  | .yield => Sys2Proof.Machine.execYield s
  | .spawn d a b c wait => Sys2Proof.Machine.execSpawn d a b c wait s
  | .send d a b => Sys2Proof.Machine.execSend d a b s
  | .bind d a b => Sys2Proof.Machine.execBind d a b s
  | .unbind d a => Sys2Proof.Machine.execUnbind d a s
  | .wake d a b => Sys2Proof.Machine.execWake d a b s
  | .sleep d => Sys2Proof.Machine.execSleep d s
  | .cpG2l x => Sys2Proof.Machine.execCpG2l x s
  | .cpL2g x => Sys2Proof.Machine.execCpL2g x s
  | .cpL2l x => Sys2Proof.Machine.execCpL2l x s
  | .cpG2g x => Sys2Proof.Machine.execCpG2g x s
  | .cpWait d => Sys2Proof.Machine.execCpWait d s
  | .vSets d a disp => Sys2Proof.Machine.execVSets d a disp s
  | .vSetsBase d b => Sys2Proof.Machine.execVSetsBase d b s
  | .vGets d a disp => Sys2Proof.Machine.execVGets d a disp s
  | .vAdd d a b => Sys2Proof.Machine.execVAdd d a b s
  | .vSub d a b => Sys2Proof.Machine.execVSub d a b s
  | .vMul d a b => Sys2Proof.Machine.execVMul d a b s
  | .vFma d a b c => Sys2Proof.Machine.execVFma d a b c s
  | .vMin d a b => Sys2Proof.Machine.execVMin d a b s
  | .vMax d a b => Sys2Proof.Machine.execVMax d a b s
  | .vAbs d a => Sys2Proof.Machine.execVAbs d a s
  | .vNeg d a => Sys2Proof.Machine.execVNeg d a s
  | .vAnd d a b => Sys2Proof.Machine.execVAnd d a b s
  | .vOr d a b => Sys2Proof.Machine.execVOr d a b s
  | .vXor d a b => Sys2Proof.Machine.execVXor d a b s
  | .vShl d a x => Sys2Proof.Machine.execVShl d a x s
  | .vShr d a x => Sys2Proof.Machine.execVShr d a x s
  | .vCmpEq d a b => Sys2Proof.Machine.execVCmpEq d a b s
  | .vCmpNe d a b => Sys2Proof.Machine.execVCmpNe d a b s
  | .vCmpLt d a b => Sys2Proof.Machine.execVCmpLt d a b s
  | .vCmpGe d a b => Sys2Proof.Machine.execVCmpGe d a b s
  | .vSel d a b c => Sys2Proof.Machine.execVSel d a b c s
  | .vCvt d a rm sat => Sys2Proof.Machine.execVCvt d a rm sat s
  | .vRsum d a dim => Sys2Proof.Machine.execVRsum d a dim s
  | .vRmax d a dim => Sys2Proof.Machine.execVRmax d a dim s
  | .vRmin d a dim => Sys2Proof.Machine.execVRmin d a dim s
  | .vExp2 d a => Sys2Proof.Machine.execVExp2 d a s
  | .vRcp d a => Sys2Proof.Machine.execVRcp d a s
  | .vRsqrt d a => Sys2Proof.Machine.execVRsqrt d a s
  | .vBcast d x => Sys2Proof.Machine.execVBcast d x s
  | .vQmax d a b tag => Sys2Proof.Machine.execVQmax d a b tag s
  | .vQcvt d a b rm sat => Sys2Proof.Machine.execVQcvt d a b rm sat s
  | .vrep n k1 sd sa sb sc => Sys2Proof.Machine.execVrep n k1 sd sa sb sc s
  | .vwait => Sys2Proof.Machine.execVwait s
  | .vMov d a => Sys2Proof.Machine.execVMov d a s
  | .mmLoadw d a => Sys2Proof.Machine.execMmLoadw d a s
  | .mmGather d a => Sys2Proof.Machine.execMmGather d a s
  | .mmRun d a b fmt => Sys2Proof.Machine.execMmRun d a b fmt s
  | .mmAccz d => Sys2Proof.Machine.execMmAccz d s
  | .mmDrain d a dest => Sys2Proof.Machine.execMmDrain d a dest s
  | .mmWait d => Sys2Proof.Machine.execMmWait d s
  | .mmClaim d l => Sys2Proof.Machine.execMmClaim d l s
  | .mmRelease d l => Sys2Proof.Machine.execMmRelease d l s
  | .mmSetWeight d a => Sys2Proof.Machine.execMmSetWeight d a s
  | .mmStat d => Sys2Proof.Machine.execMmStat d s
  | .threadReady n => Sys2Proof.Machine.execThreadReady n s
  | .asyncTrapTake n => Sys2Proof.Machine.execAsyncTrapTake n s
  | .timer n => Sys2Proof.Machine.execTimer n s
  | .coreGate c => Sys2Proof.Machine.execCoreGate c s
  | .coreUngate c => Sys2Proof.Machine.execCoreUngate c s
  | .queueEntryFreed c q => Sys2Proof.Machine.execQueueEntryFreed c q s
  | .porterExecute c err late => Sys2Proof.Machine.execPorterExecute c err late s
  | .seqEntryComplete id err => Sys2Proof.Machine.execSeqEntryComplete id err s
  | .qmaxDelivery id => Sys2Proof.Machine.execQmaxDelivery id s
  | .millRunGrant t => Sys2Proof.Machine.execMillRunGrant t s
  | .millRunComplete id => Sys2Proof.Machine.execMillRunComplete id s
  | .millLoadwExec id err => Sys2Proof.Machine.execMillLoadwExec id err s
  | .millGatherExec id err => Sys2Proof.Machine.execMillGatherExec id err s
  | .millAcczExec id => Sys2Proof.Machine.execMillAcczExec id s
  | .millDrainExec id err => Sys2Proof.Machine.execMillDrainExec id err s
  | .millDrainWake id => Sys2Proof.Machine.execMillDrainWake id s
  | .storeAck id => Sys2Proof.Machine.execStoreAck id s
  | .homeStore id => Sys2Proof.Machine.execHomeStore id s
  | .homeFill id evict err => Sys2Proof.Machine.execHomeFill id evict err s
  | .homeAtomic id err late => Sys2Proof.Machine.execHomeAtomic id err late s
  | .homePush id => Sys2Proof.Machine.execHomePush id s
  | .l1Update id => Sys2Proof.Machine.execL1Update id s
  | .l1PushOffer id => Sys2Proof.Machine.execL1PushOffer id s
  | .l1Invalidation id => Sys2Proof.Machine.execL1Invalidation id s
  | .l1DiscoveryProbe id => Sys2Proof.Machine.execL1DiscoveryProbe id s
  | .agentRead agent pa => Sys2Proof.Machine.execAgentRead agent pa s
  | .agentWrite agent pa size value => Sys2Proof.Machine.execAgentWrite agent pa size value s
  | .agentInvalidation id => Sys2Proof.Machine.execAgentInvalidation id s
  | .waitaWake n => Sys2Proof.Machine.execWaitaWake n s
  | .waitaReread n => Sys2Proof.Machine.execWaitaReread n s
  | .migrationDepart n => Sys2Proof.Machine.execMigrationDepart n s
  | .migrationPlace id => Sys2Proof.Machine.execMigrationPlace id s
  | .slotAllot c k => Sys2Proof.Machine.execSlotAllot c k s
  | .spawnArrival id => Sys2Proof.Machine.execSpawnArrival id s
  | .slotFreeNotice c => Sys2Proof.Machine.execSlotFreeNotice c s
  | .recordStage c => Sys2Proof.Machine.execRecordStage c s
  | .dieQueueRequest c => Sys2Proof.Machine.execDieQueueRequest c s
  | .footprintFillDone c id => Sys2Proof.Machine.execFootprintFillDone c id s
  | .footprintFillFault c id => Sys2Proof.Machine.execFootprintFillFault c id s
  | .dispatch c k => Sys2Proof.Machine.execDispatch c k s
  | .overflowReturn c => Sys2Proof.Machine.execOverflowReturn c s
  | .sheafExpand id => Sys2Proof.Machine.execSheafExpand id s
  | .postboxArrival id => Sys2Proof.Machine.execPostboxArrival id s
  | .doorbellStore box value => Sys2Proof.Machine.execDoorbellStore box value s
  | .copyExecute id err => Sys2Proof.Machine.execCopyExecute id err s
  | .reservationHit id => Sys2Proof.Machine.execReservationHit id s
  | .wakeDeliver id => Sys2Proof.Machine.execWakeDeliver id s
  | .dirWakeArrival id => Sys2Proof.Machine.execDirWakeArrival id s
  | .dirHitArrival id => Sys2Proof.Machine.execDirHitArrival id s
  | .dirDeedlateArrival id => Sys2Proof.Machine.execDirDeedlateArrival id s
  | .dirAbsentRequest id => Sys2Proof.Machine.execDirAbsentRequest id s
  | .dirRestoreRequest id => Sys2Proof.Machine.execDirRestoreRequest id s
  | .cdcmdAlloc c num => Sys2Proof.Machine.execCdcmdAlloc c num s
  | .cdcmdRelease c num => Sys2Proof.Machine.execCdcmdRelease c num s
  | .cdcmdQuery c num => Sys2Proof.Machine.execCdcmdQuery c num s
  | .deedlateReport id => Sys2Proof.Machine.execDeedlateReport id s
  | .altHomeTake id => Sys2Proof.Machine.execAltHomeTake id s
  | .altHomeJoin id => Sys2Proof.Machine.execAltHomeJoin id s
  | .altHomeReturn id => Sys2Proof.Machine.execAltHomeReturn id s
  | .altHomeRead id => Sys2Proof.Machine.execAltHomeRead id s
  | .altHomeLeave id => Sys2Proof.Machine.execAltHomeLeave id s
  | .rollOffer id => Sys2Proof.Machine.execRollOffer id s
  | .rollAccept id => Sys2Proof.Machine.execRollAccept id s
  | .rollLend id => Sys2Proof.Machine.execRollLend id s
  | .rollRecall id => Sys2Proof.Machine.execRollRecall id s
  | .rollReturn id => Sys2Proof.Machine.execRollReturn id s
  | .rollQuery id => Sys2Proof.Machine.execRollQuery id s
  | .deedExpiry frame => Sys2Proof.Machine.execDeedExpiry frame s
  | .dpcmdOffer die tag frame cpl => Sys2Proof.Machine.execDpcmdOffer die tag frame cpl s
  | .dpcmdAccept die tag frame cpl => Sys2Proof.Machine.execDpcmdAccept die tag frame cpl s
  | .dpcmdLend die tag frame cpl k => Sys2Proof.Machine.execDpcmdLend die tag frame cpl k s
  | .dpcmdRecall die tag frame cpl => Sys2Proof.Machine.execDpcmdRecall die tag frame cpl s
  | .dpcmdReturn die tag frame cpl => Sys2Proof.Machine.execDpcmdReturn die tag frame cpl s
  | .dpcmdQuery die tag frame cpl => Sys2Proof.Machine.execDpcmdQuery die tag frame cpl s
  | .dpevtailWrite die tail => Sys2Proof.Machine.execDpevtailWrite die tail s
  | .sdcmdAll die => Sys2Proof.Machine.execSdcmdAll die s
  | .sdcmdAsid die asid => Sys2Proof.Machine.execSdcmdAsid die asid s
  | .sdcmdPageAsid die asid vpn => Sys2Proof.Machine.execSdcmdPageAsid die asid vpn s
  | .sdcmdPage die vpn => Sys2Proof.Machine.execSdcmdPage die vpn s
  | .sdcmdPasid die pasid => Sys2Proof.Machine.execSdcmdPasid die pasid s
  | .sdcmdRead die => Sys2Proof.Machine.execSdcmdRead die s
  | .shootdownComplete die => Sys2Proof.Machine.execShootdownComplete die s
  | .granbinCarve die bin => Sys2Proof.Machine.execGranbinCarve die bin s
  | .granbinUncarve die bin => Sys2Proof.Machine.execGranbinUncarve die bin s
  | .granbinBusyClear die => Sys2Proof.Machine.execGranbinBusyClear die s
  | .linkctlWrite die value => Sys2Proof.Machine.execLinkctlWrite die value s
  | .linkSleep die l => Sys2Proof.Machine.execLinkSleep die l s
  | .linkWake die l => Sys2Proof.Machine.execLinkWake die l s
  | .linkCheckWake die l => Sys2Proof.Machine.execLinkCheckWake die l s
  | .linkTimeout die l => Sys2Proof.Machine.execLinkTimeout die l s
  | .dieLoss die => Sys2Proof.Machine.execDieLoss die s
  | .reeveEpoch w0 w1 w2 w3 => Sys2Proof.Machine.execReeveEpoch w0 w1 w2 w3 s
  | .clockRelockEnd die => Sys2Proof.Machine.execClockRelockEnd die s
  | .relockFlit die l => Sys2Proof.Machine.execRelockFlit die l s
  | .linkRead link pa size src tag => Sys2Proof.Machine.execLinkRead link pa size src tag s
  | .linkWrite link pa size value src tag => Sys2Proof.Machine.execLinkWrite link pa size value src tag s
  | .linkAtomic link pa fn dw x cmp src tag => Sys2Proof.Machine.execLinkAtomic link pa fn dw x cmp src tag s
  | .windowStore win off value => Sys2Proof.Machine.execWindowStore win off value s
  | .windowAdd win off value => Sys2Proof.Machine.execWindowAdd win off value s
  | .mergedAdd win off => Sys2Proof.Machine.execMergedAdd win off s
  | .linkCompletion id stat value => Sys2Proof.Machine.execLinkCompletion id stat value s
  | .keySetChange die k => Sys2Proof.Machine.execKeySetChange die k s
  | .ideMacFailure die link => Sys2Proof.Machine.execIdeMacFailure die link s
  | .rdwinWrite win word value => Sys2Proof.Machine.execRdwinWrite win word value s
  | .romStatus die tag cpl nonce => Sys2Proof.Machine.execRomStatus die tag cpl nonce s
  | .romBegin die tag cpl scars fail live => Sys2Proof.Machine.execRomBegin die tag cpl scars fail live s
  | .romLoad die tag cpl image len digest good => Sys2Proof.Machine.execRomLoad die tag cpl image len digest good s
  | .romSwitch die tag cpl image len digest good => Sys2Proof.Machine.execRomSwitch die tag cpl image len digest good s
  | .switchActivate die => Sys2Proof.Machine.execSwitchActivate die s
  | .switchTimeout die => Sys2Proof.Machine.execSwitchTimeout die s
  | .romAssign die tag cpl first count owner => Sys2Proof.Machine.execRomAssign die tag cpl first count owner s
  | .romRelease die tag cpl first count dom => Sys2Proof.Machine.execRomRelease die tag cpl first count dom s
  | .romUnlock die tag cpl digest nonce tokenOk fuseOk => Sys2Proof.Machine.execRomUnlock die tag cpl digest nonce tokenOk fuseOk s
  | .dbgbrkWrite die value => Sys2Proof.Machine.execDbgbrkWrite die value s
  | .powerOn fused fail => Sys2Proof.Machine.execPowerOn fused fail s
  | .coldReset => Sys2Proof.Machine.execColdReset s
  | .warmReset => Sys2Proof.Machine.execWarmReset s
  | .getVersion die => Sys2Proof.Machine.execGetVersion die s
  | .getCapabilities die => Sys2Proof.Machine.execGetCapabilities die s
  | .negotiateAlgorithms die => Sys2Proof.Machine.execNegotiateAlgorithms die s
  | .getDigests die => Sys2Proof.Machine.execGetDigests die s
  | .getCertificate die => Sys2Proof.Machine.execGetCertificate die s
  | .challenge die => Sys2Proof.Machine.execChallenge die s
  | .getMeasurements die index => Sys2Proof.Machine.execGetMeasurements die index s
  | .keyExchange die => Sys2Proof.Machine.execKeyExchange die s
  | .finish die => Sys2Proof.Machine.execFinish die s
  | .keyUpdate die => Sys2Proof.Machine.execKeyUpdate die s
  | .endSession die => Sys2Proof.Machine.execEndSession die s
  | .ideKmQuery die => Sys2Proof.Machine.execIdeKmQuery die s
  | .keyProg die k key => Sys2Proof.Machine.execKeyProg die k key s
  | .kSetGo die k => Sys2Proof.Machine.execKSetGo die k s
  | .kSetStop die k => Sys2Proof.Machine.execKSetStop die k s
  | .registerWrite dom die off size value => Sys2Proof.Machine.execRegisterWrite dom die off size value s
  | .unassignedEncoding w0 => Sys2Proof.Machine.execUnassignedEncoding w0 s
  | .fetchFault c tval => Sys2Proof.Machine.execFetchFault c tval s
  | .completionTimeout id => Sys2Proof.Machine.execCompletionTimeout id s
  | .hostPortCompletion id stat value => Sys2Proof.Machine.execHostPortCompletion id stat value s
  | .regionRequest id => Sys2Proof.Machine.execRegionRequest id s
  | .regionChangeDone die index => Sys2Proof.Machine.execRegionChangeDone die index s
  | .genShootdownDone id => Sys2Proof.Machine.execGenShootdownDone id s
  | .altCensusProbe id => Sys2Proof.Machine.execAltCensusProbe id s
  | .watchEndNotice id => Sys2Proof.Machine.execWatchEndNotice id s
  | .powerOff => Sys2Proof.Machine.execPowerOff s

end Sys2Proof.Machine
end

