-- ==== Sys2Proof/Machine/Tick.lean ====
section
/-! DEFINITION. The REFT tick: what its end and the beginning of the next bring about (R20, R100, R329, R344, R365, R366). -/

namespace Sys2Proof.Machine

/-- What a tick forces: an event's meaning, unless what it met holds it, or it has none. -/
def State.force (s : State) (r : State → Result) : State :=
  match r { s with met := false } with
  | .next t => if t.met then s.keepWants t else t
  | _ => s

/-- The threads whose re-read of an untracked line is due in the present tick (R365). -/
def State.rereads (s : State) : List Nat :=
  s.threads.filterMap fun p => match p.2 with
    | some t => match t.wait with
      | .watch _ _ _ _ _ false since => if since + 16 ≤ s.reft then some p.1 else none
      | _ => none
    | none => none

/-- The window words whose adds the switches have held for 64 ticks (R344). -/
def State.mergesDue (s : State) : List Nat :=
  s.windows.filterMap fun p => if !p.2.adds.isEmpty && decide (p.2.since + 64 ≤ s.reft) then some p.1 else none

/-- The instant that ends a tick: the re-reads and the merged adds of the tick that have not been made are (R344, R365), and
the grants that an OFFER or a RETURN of the tick removed end (R328, R374). -/
def State.endTick (s : State) : State :=
  let s := s.rereads.foldl (fun s n => s.force (execWaitaReread n)) s
  let s := s.mergesDue.foldl (fun s k => s.force (execMergedAdd (k / 2 ^ 48) (k % 2 ^ 48))) s
  s.losing.foldl (fun s p => s.loseCopies p.1 p.2) { s with losing := [] }

/-- The next mover brings the decision of an epoch with the power that it measured. -/
def State.reeveNext (s : State) : Bool :=
  match s.sched with
  | .event (.reeveEpoch _ _ _ _) :: _ => true
  | _ => false

/-- The instant that begins a tick: the loans whose deadline it is expire (R329), events that waited for a line of a ring
enter it (R330, R374), and at a multiple of 2,000 the reeves decide (R366), with a measured power that the spec leaves to
the part, unless the next mover brings it (log 105). -/
def State.beginTick (s : State) : State :=
  let s := (s.roll.filterMap fun p => match p.2 with
    | some e => if e.state = 3 ∧ e.due ≤ s.reft then some p.1 else none
    | none => none).foldl (fun s f => s.expire f) s
  let s := (List.range 4).foldl (fun s d => s.ringFlush d (s.die d).events.length) s
  if s.reft % 2000 = 0 ∧ !s.reeveNext then s.reeveDecide fun d => Config.power d s.reft else s

/-- REFT counts one tick (R20). -/
def State.tick (s : State) : State := { s.endTick.passTick.beginTick with met := false }

end Sys2Proof.Machine
end

