-- ==== Sys2Proof/Machine/Issue.lean ====
section
/-! DEFINITION. Who moves: the issue rotation of a core and one issue of a thread (R34, R91 to R94), events and ticks as
movers, and the order that stands where `sched` names nobody (log 3). -/

namespace Sys2Proof.Machine

/-! ### One issue of a thread (R34, R92, R244) -/

/-- An issue: the context and its re-issue distance of 8 core cycles. -/
def State.beginIssue (s : State) (n c k : Nat) : State :=
  let s := (s.onCore c fun x => { x with last := k }).onThr n fun t => { t with readyAt := (s.core c).cycle + 8 }
  { s with cur := n }

/-- Steps 6 and 7 of R34 for a decoded instruction: privilege, a system register's too, and the commons mask; home for what
only the origin core executes; then the instruction's own meaning. -/
def runDecoded (n : Nat) (i : Instr) (s : State) : Result :=
  match orElse' (privCheck s i) (sysPriv s i) with
  | some (c, v) => .next (s.raise n c v)
  | none =>
    if needsOrigin i && (s.thr n).away then .next (s.depart n (dieOf (originOf n)) none (s.thr n).pc)
    else exec i s

/-- What a fetch found is executed. -/
def runFetched (n : Nat) (f : Fetched) (s : State) : Result :=
  match f with
  | .ok i _ _ => runDecoded n i s
  | .bad w => execUnassignedEncoding w s
  | .fault c v => execFetchFault c v s

/-- What the fetch and the execution of an issue answer, unless something that they met holds the thread: then it issues
again later, with the operands of this issue (R110; log 77). -/
def State.orHold (s : State) (n : Nat) (r : Result) : Result :=
  match r with
  | .next t => if t.met then .next ((s.keepWants t).hold n .hold) else .next t
  | r => r

/-- The thread of slot `k` of core `c` issues. Where the fetch itself must wait, no operand has been read yet. -/
def issueThread (c k n : Nat) (s : State) : Result :=
  let s := (s.cycleCore c).beginIssue n c k
  let r := s.fetch n (s.thr n).pc
  if r.2.met then .next ((s.keepWants r.2).park n .waiting .hold) else s.orHold n (runFetched n r.1 r.2)

/-- A thread of the core that an asynchronous trap is due in while no context is eligible. -/
def State.asyncAt (s : State) (c : Nat) : Option Nat :=
  (List.range 16).findSome? fun k => match s.occupant c k with
    | some n => if s.timerDue n || (s.asyncDue n).isSome then some n else none
    | none => none

/-- The turn of a thread: what is due at its boundary, the PADs before its next instruction, or that instruction. -/
def turnThread (c k n : Nat) (s : State) : Result :=
  if s.timerDue n then execTimer n s
  else if s.atPad n then execPad { s with cur := n }
  else if (s.asyncDue n).isSome then execAsyncTrapTake n s
  else issueThread c k n s

/-- One core cycle of core `c`, 1024 to 1027 for the stewards'. A die that is lost or relocks does not move (R248, R336);
the steward runs on through a relock. A core that has run the cycles of the present tick waits for the next (R19, R20). A
gated core opens in the sixth cycle that something stirs it (R99). -/
def coreMove (c : Nat) (s : State) : Result :=
  if s.resting c then .next s
  else if (s.core c).gated then execCoreUngate c (s.cycleCore c)
  else match s.pick c with
    | some 16 => execPorterExecute c false false s
    | some k => match s.occupant c k with
      | some n => turnThread c k n s
      | none => .next (s.cycleCore c)
    | none => match s.asyncAt c with
      | some n => if s.timerDue n then execTimer n s else execAsyncTrapTake n s
      | none => .next (s.cycleCore c)

/-! ### Movers -/

/-- Constructors that are events: no encoding of their own, and not the faults of fetch and decode. -/
def isEvent (i : Instr) : Bool :=
  match i with
  | .pad | .unassignedEncoding _ | .fetchFault _ _ => false
  | i => (encodeFields i).isNone

/-- A core of a running die. -/
def State.working (s : State) (c : Nat) : Bool :=
  !s.dead (dieOf c) && (decide (1024 ≤ c) || (s.die (dieOf c)).relock.isNone)

/-- The core of a running die that has a ready thread, or a porter arrival, and cycles of the present tick left (R91, R93):
the one that has run the fewest, ties to the lowest. -/
def State.nextCore (s : State) : Option Nat :=
  let cands := s.threads.filterMap (fun p => match p.2 with
      | some t => if t.run = .ready then some t.core else none
      | none => none)
    ++ s.cores.filterMap fun p => match p.2 with
      | some x => if x.porter.isEmpty then none else some p.1
      | none => none
  (cands.filter fun c => s.working c && decide ((s.core c).spent < s.tickCycles c)).foldl (fun (b : Option Nat) c => match b with
    | none => some c
    | some q =>
      if (s.core c).spent < (s.core q).spent ∨ ((s.core c).spent = (s.core q).spent ∧ c < q) then some c else b) none

/-- Time passes: a core that still has cycles of the tick for a context runs one of them, else REFT counts a tick. -/
def passTime (s : State) : Result :=
  match s.nextCore with
  | some c => s.tried (coreMove c s)
  | none => .next s.tick

/-- One move. -/
def move (m : Mover) (s : State) : Result :=
  match m with
  | .core c => s.tried (coreMove c s)
  | .event i => if isEvent i then s.tried (exec i s) else .next s
  | .tick => passTime s

/-! ### Where `sched` names nobody -/

/-- The events that the machine itself brings about, with no soft error in them: what `sched` would have to name
otherwise (log 3). -/
inductive Call where
  | homeStore (id : Nat)
  | homePush (id : Nat)
  | homeFill (id : Nat)
  | homeAtomic (id : Nat)
  | altHomeTake (id : Nat)
  | altHomeJoin (id : Nat)
  | altHomeReturn (id : Nat)
  | altHomeRead (id : Nat)
  | altHomeLeave (id : Nat)
  | altCensusProbe (id : Nat)
  | l1Update (id : Nat)
  | l1PushOffer (id : Nat)
  | l1Invalidation (id : Nat)
  | l1DiscoveryProbe (id : Nat)
  | agentInvalidation (id : Nat)
  | storeAck (id : Nat)
  | watchEndNotice (id : Nat)
  | dirHitArrival (id : Nat)
  | reservationHit (id : Nat)
  | porterExecute (c : Nat)
  | dirWakeArrival (id : Nat)
  | wakeDeliver (id : Nat)
  | dirDeedlateArrival (id : Nat)
  | deedlateReport (id : Nat)
  | dirAbsentRequest (id : Nat)
  | dirRestoreRequest (id : Nat)
  | spawnArrival (id : Nat)
  | postboxArrival (id : Nat)
  | sheafExpand (id : Nat)
  | rollOffer (id : Nat)
  | rollAccept (id : Nat)
  | rollLend (id : Nat)
  | rollRecall (id : Nat)
  | rollReturn (id : Nat)
  | rollQuery (id : Nat)
  | regionRequest (id : Nat)
  | migrationPlace (id : Nat)
  | genShootdownDone (id : Nat)
  | cdcmdAlloc (c num : Nat)
  | cdcmdRelease (c num : Nat)
  | cdcmdQuery (c num : Nat)
  | qmaxDelivery (id : Nat)
  | timer (n : Nat)
  | asyncTrapTake (n : Nat)
  | waitaWake (n : Nat)
  | waitaReread (n : Nat)
  | migrationDepart (n : Nat)
  | slotFreeNotice (c : Nat)
  | queueEntryFreed (c : Nat) (q : QueueKind)
  | seqEntryComplete (id : Nat)
  | millRunGrant (t : Nat)
  | millRunComplete (id : Nat)
  | millLoadwExec (id : Nat)
  | millGatherExec (id : Nat)
  | millAcczExec (id : Nat)
  | millDrainExec (id : Nat)
  | millDrainWake (id : Nat)
  | copyExecute (id : Nat)
  | footprintFillDone (c id : Nat)
  | footprintFillFault (c id : Nat)
  | recordStage (c : Nat)
  | dispatch (c k : Nat)
  | overflowReturn (c : Nat)
  | coreUngate (c : Nat)
  | coreGate (c : Nat)
  | clockRelockEnd (die : Nat)
  | granbinBusyClear (die : Nat)
  | shootdownComplete (die : Nat)
  | switchActivate (die : Nat)
  | switchTimeout (die : Nat)
  | linkSleep (die : Nat) (l : LinkId)
  | linkWake (die : Nat) (l : LinkId)
  | linkCheckWake (die : Nat) (l : LinkId)
  | slotAllot (c k : Nat)
  | dieQueueRequest (c : Nat)
  | regionChangeDone (die index : Nat)
  | deedExpiry (frame : Nat)
  | mergedAdd (win off : Nat)
  deriving DecidableEq, Repr

/-- A call is the meaning of its event. -/
def Call.run (x : Call) (s : State) : Result :=
  match x with
  | .homeStore id => execHomeStore id s
  | .homePush id => execHomePush id s
  | .homeFill id => execHomeFill id none false s
  | .homeAtomic id => execHomeAtomic id false false s
  | .altHomeTake id => execAltHomeTake id s
  | .altHomeJoin id => execAltHomeJoin id s
  | .altHomeReturn id => execAltHomeReturn id s
  | .altHomeRead id => execAltHomeRead id s
  | .altHomeLeave id => execAltHomeLeave id s
  | .altCensusProbe id => execAltCensusProbe id s
  | .l1Update id => execL1Update id s
  | .l1PushOffer id => execL1PushOffer id s
  | .l1Invalidation id => execL1Invalidation id s
  | .l1DiscoveryProbe id => execL1DiscoveryProbe id s
  | .agentInvalidation id => execAgentInvalidation id s
  | .storeAck id => execStoreAck id s
  | .watchEndNotice id => execWatchEndNotice id s
  | .dirHitArrival id => execDirHitArrival id s
  | .reservationHit id => execReservationHit id s
  | .porterExecute c => execPorterExecute c false false s
  | .dirWakeArrival id => execDirWakeArrival id s
  | .wakeDeliver id => execWakeDeliver id s
  | .dirDeedlateArrival id => execDirDeedlateArrival id s
  | .deedlateReport id => execDeedlateReport id s
  | .dirAbsentRequest id => execDirAbsentRequest id s
  | .dirRestoreRequest id => execDirRestoreRequest id s
  | .spawnArrival id => execSpawnArrival id s
  | .postboxArrival id => execPostboxArrival id s
  | .sheafExpand id => execSheafExpand id s
  | .rollOffer id => execRollOffer id s
  | .rollAccept id => execRollAccept id s
  | .rollLend id => execRollLend id s
  | .rollRecall id => execRollRecall id s
  | .rollReturn id => execRollReturn id s
  | .rollQuery id => execRollQuery id s
  | .regionRequest id => execRegionRequest id s
  | .migrationPlace id => execMigrationPlace id s
  | .genShootdownDone id => execGenShootdownDone id s
  | .cdcmdAlloc c num => execCdcmdAlloc c num s
  | .cdcmdRelease c num => execCdcmdRelease c num s
  | .cdcmdQuery c num => execCdcmdQuery c num s
  | .qmaxDelivery id => execQmaxDelivery id s
  | .timer n => execTimer n s
  | .asyncTrapTake n => execAsyncTrapTake n s
  | .waitaWake n => execWaitaWake n s
  | .waitaReread n => execWaitaReread n s
  | .migrationDepart n => execMigrationDepart n s
  | .slotFreeNotice c => execSlotFreeNotice c s
  | .queueEntryFreed c q => execQueueEntryFreed c q s
  | .seqEntryComplete id => execSeqEntryComplete id none s
  | .millRunGrant t => execMillRunGrant t s
  | .millRunComplete id => execMillRunComplete id s
  | .millLoadwExec id => execMillLoadwExec id none s
  | .millGatherExec id => execMillGatherExec id none s
  | .millAcczExec id => execMillAcczExec id s
  | .millDrainExec id => execMillDrainExec id none s
  | .millDrainWake id => execMillDrainWake id s
  | .copyExecute id => execCopyExecute id none s
  | .footprintFillDone c id => execFootprintFillDone c id s
  | .footprintFillFault c id => execFootprintFillFault c id s
  | .recordStage c => execRecordStage c s
  | .dispatch c k => execDispatch c k s
  | .overflowReturn c => execOverflowReturn c s
  | .coreUngate c => execCoreUngate c s
  | .coreGate c => execCoreGate c s
  | .clockRelockEnd die => execClockRelockEnd die s
  | .granbinBusyClear die => execGranbinBusyClear die s
  | .shootdownComplete die => execShootdownComplete die s
  | .switchActivate die => execSwitchActivate die s
  | .switchTimeout die => execSwitchTimeout die s
  | .linkSleep die l => execLinkSleep die l s
  | .linkWake die l => execLinkWake die l s
  | .linkCheckWake die l => execLinkCheckWake die l s
  | .slotAllot c k => execSlotAllot c k s
  | .dieQueueRequest c => execDieQueueRequest c s
  | .regionChangeDone die index => execRegionChangeDone die index s
  | .deedExpiry frame => execDeedExpiry frame s
  | .mergedAdd win off => execMergedAdd win off s

/-- The event that serves a message. -/
def eventOf (m : Msg) : Option Call :=
  match m.body, m.dst with
  | .store _ _ _ _, _ => some (.homeStore m.id)
  | .push _ _ _ _ _, _ => some (.homePush m.id)
  | .wback _ _ _ _, _ => some (.homeStore m.id)
  | .read _ _ _ _, _ => some (.homeFill m.id)
  | .atomic _ _ _, _ => some (.homeAtomic m.id)
  | .alt _ _ _ (.take _ _), _ => some (.altHomeTake m.id)
  | .alt _ _ _ (.join _), _ => some (.altHomeJoin m.id)
  | .alt _ _ _ (.give _), _ => some (.altHomeReturn m.id)
  | .alt _ _ _ .read, _ => some (.altHomeRead m.id)
  | .alt _ _ _ (.leave _ _), _ => some (.altHomeLeave m.id)
  | .alt _ _ _ (.left _), _ => some (.altHomeLeave m.id)
  | .census _ _, _ => some (.altCensusProbe m.id)
  | .update _ _ _ _ _, _ => some (.l1Update m.id)
  | .offer _ _ _, _ => some (.l1PushOffer m.id)
  | .inval _ _ _, _ => some (.l1Invalidation m.id)
  | .probe _ _ _, _ => some (.l1DiscoveryProbe m.id)
  | .agentInval _ _ _, _ => some (.agentInvalidation m.id)
  | .ack _ _, _ => some (.storeAck m.id)
  | .watchEnd _ _, _ => some (.watchEndNotice m.id)
  | .hit _ _ _ _, .dir _ => some (.dirHitArrival m.id)
  | .hit _ _ _ _, _ => some (.reservationHit m.id)
  | .arrive c _, _ => some (.porterExecute c)
  | .wake _ _ _ _, _ => some (.dirWakeArrival m.id)
  | .wakeTo _ _ _, _ => some (.wakeDeliver m.id)
  | .late _ _ _, .dir _ => some (.dirDeedlateArrival m.id)
  | .late _ _ _, _ => some (.deedlateReport m.id)
  | .lateTo _ _ _, _ => some (.deedlateReport m.id)
  | .absent _ _, _ => some (.dirAbsentRequest m.id)
  | .restore _ _ _, _ => some (.dirRestoreRequest m.id)
  | .spawn _ _ _ _ _, _ => some (.spawnArrival m.id)
  | .post _ _ _, _ => some (.postboxArrival m.id)
  | .sheaf l, _ => some (.sheafExpand l)
  | .roll _ .offer _ _, _ => some (.rollOffer m.id)
  | .roll _ .accept _ _, _ => some (.rollAccept m.id)
  | .roll _ (.lend _) _ _, _ => some (.rollLend m.id)
  | .roll _ .recall _ _, _ => some (.rollRecall m.id)
  | .roll _ .return _ _, _ => some (.rollReturn m.id)
  | .roll _ .query _ _, _ => some (.rollQuery m.id)
  | .region _ _ _ _ _, _ => some (.regionRequest m.id)
  | .migrate _ _ _, _ => some (.migrationPlace m.id)
  | .system _ _ _ _ _ _ _ _, _ => none
  | .genShoot _ _, _ => some (.genShootdownDone m.id)
  | .cmd c num 0, _ => some (.cdcmdAlloc c num)
  | .cmd c num 1, _ => some (.cdcmdRelease c num)
  | .cmd c num _, _ => some (.cdcmdQuery c num)
  | .qmax _ _ _ _ _, _ => some (.qmaxDelivery m.id)

/-- What the state of a thread may call for. -/
def threadEvents (p : Nat × Option Thread) : List Call :=
  match p.2 with
  | none => []
  | some t =>
    (if t.tmr = 0 then [] else [.timer p.1])
      ++ (if t.run = .ready then [] else [.asyncTrapTake p.1])
      ++ (match t.wait with
        | .woken => [.waitaWake p.1]
        | .watch _ _ _ _ _ false _ => [.waitaReread p.1]
        | .leaving _ _ => [.migrationDepart p.1]
        | _ => [])

/-- What the queues of a core may call for. -/
def coreEvents (p : Nat × Option Core) : List Call :=
  match p.2 with
  | none => []
  | some x =>
    (if x.owed = 0 then [] else [.slotFreeNotice p.1])
      ++ (if x.porter.isEmpty then [] else [.porterExecute p.1])
      ++ (x.stall.map fun q => .queueEntryFreed p.1 q.1)
      ++ (x.seq.map fun e => .seqEntryComplete e.id)
      ++ (x.mill.map fun y => match y.op, y.ph with
        | .loadw _ _, _ => .millLoadwExec y.id
        | .gather _ _, _ => .millGatherExec y.id
        | .run _ _ _ _, .queued => .millRunGrant (tileOf p.1)
        | .run _ _ _ _, _ => .millRunComplete y.id
        | .accz _, _ => .millAcczExec y.id
        | .drain _ _ _ _ _, .waking | .drain _ _ _ _ _, .arrived _ => .millDrainWake y.id
        | .drain _ _ _ _ _, _ => .millDrainExec y.id)
      ++ (x.copy.map fun y => .copyExecute y.id)
      ++ (x.staging.map fun g => .footprintFillDone p.1 g.entry.id)
      ++ (x.staging.map fun g => .footprintFillFault p.1 g.entry.id)
      ++ (if x.taskq.isEmpty then [] else .recordStage p.1 :: (List.range 16).map fun k => .dispatch p.1 k)
      ++ (if x.overq.isEmpty then [] else [.overflowReturn p.1])
      ++ (if x.gated then [.coreUngate p.1] else if 16 ≤ x.idle then [.coreGate p.1] else [])

/-- What the units of a die may call for. -/
def dieEvents (p : Nat × Option Die) : List Call :=
  match p.2 with
  | none => []
  | some x =>
    (if x.relock.isSome then [.clockRelockEnd p.1] else [])
      ++ (if x.carveBusy = 0 then [] else [.granbinBusyClear p.1])
      ++ (if x.sdq.isEmpty then [] else [.shootdownComplete p.1])
      ++ (if x.switch.isSome then [.switchActivate p.1, .switchTimeout p.1] else [])
      ++ (if x.linkH.st = 0 ∧ 400 ≤ x.linkH.idle then [.linkSleep p.1 .h] else [])
      ++ (if x.linkV.st = 0 ∧ 400 ≤ x.linkV.idle then [.linkSleep p.1 .v] else [])
      ++ (if x.linkH.st = 1 then [.linkWake p.1 .h, .linkCheckWake p.1 .h] else if x.linkH.st = 2 then [.linkWake p.1 .h] else [])
      ++ (if x.linkV.st = 1 then [.linkWake p.1 .v, .linkCheckWake p.1 .v] else if x.linkV.st = 2 then [.linkWake p.1 .v] else [])
      ++ (if x.migq.isEmpty then [] else ((List.range 4096).map fun j => .slotAllot (256 * p.1 + j / 16) (j % 16)))
      ++ (if x.dieq.isEmpty then [] else (List.range 256).map fun j => .dieQueueRequest (256 * p.1 + j))

/-- Every event that the state may call for, the messages in the order they were sent. -/
def State.calls (s : State) : List Call :=
  (s.threads.map threadEvents).flatten
    ++ (s.msgs.filter s.deliverable).filterMap eventOf
    ++ (s.cores.map coreEvents).flatten
    ++ (s.dies.map dieEvents).flatten
    ++ (s.launches.map fun l => .sheafExpand l.id)
    ++ (s.txns.filterMap fun t => match t.done with | .region _ d i _ => some (.regionChangeDone d i) | _ => none)
    ++ (s.roll.filterMap fun p => match p.2 with
      | some e => if e.state = 3 ∧ e.due ≤ s.reft then some (.deedExpiry p.1) else none
      | none => none)
    ++ (s.windows.filterMap fun p => if p.2.adds.isEmpty then none else some (.mergedAdd (p.1 / 2 ^ 48) (p.1 % 2 ^ 48)))

/-- What a call does. -/
def Call.done (x : Call) (s : State) : Result := s.tried (x.run s)

/-- Whether a call changes the state. -/
def changes (x : Call) (s : State) : Bool :=
  match x.done s with
  | .next t => decide (t ≠ s)
  | _ => true

/-- The move where `sched` is empty: the first call that changes the state, else time passes. -/
def autoMove (s : State) : Result :=
  match s.calls.find? fun x => changes x s with
  | some x => x.done s
  | none => passTime s

/-- A step begins: what it meets is not known yet, and its messages are numbered from here. -/
def State.begin (s : State) : State := { s with met := false, stepAt := s.nextId }

/-- The move of the next mover: the head of `sched`, which the move uses up. -/
def nextMove (s : State) : Result :=
  match s.sched with
  | m :: rest => move m { s.begin with sched := rest }
  | [] => autoMove s.begin

/-! ### Placing one instruction -/

/-- Where `withFetchWord` places an instruction: frame 16 of die 0. -/
abbrev fetchBase : Nat := 0x1_0000

/-- Thread 0 stands at `fetchBase`, ready, in kernel mode and untranslated. -/
def Thread.atFetchBase (t : Thread) : Thread :=
  { t with run := .ready, core := 0, slot := 0, away := false, pc := word fetchBase, priv := .kernel, atp := 0, lvl := 0
           timPend := none, tmr := 0, late := [], mchk := [], readyAt := 0, wait := .none, cont := none, snap := none }

/-- The 16 bytes of an instruction stand at `fetchBase`, in a frame of the accelerator, and core 0 moves next. -/
def State.placeCode (s : State) (w : Nat) : State :=
  let s := { s with powered := true, mem := writeN s.mem fetchBase 16 w, sched := [.core 0] }
  let s := s.setDeed (fetchBase / 4096) { owner := .acc }
  let s := s.onDie 0 fun x => { x with lost := false, relock := none }
  let s := s.onCore 0 fun x => { x with gated := false, last := 16, base := x.cycle, icache := mset none x.icache (fetchBase / 128) none }
  s.onThr 0 Thread.atFetchBase

end Sys2Proof.Machine
end

