-- ==== Sys2Proof/Machine/Step.lean ====
section
/-! DEFINITION. One step of the package, and the placement of one instruction for the next step. -/

namespace Sys2Proof.Machine

/-- One step: without supply only POWER_ON moves (R349); else the next mover moves. -/
def step (s : State) : Host.Outcome State Fault Refusal :=
  if s.powered then nextMove s
  else match s.sched with
    | .event (.powerOn fused fail) :: rest => exec (.powerOn fused fail) { s with sched := rest }
    | _ => .fault .noSupply

/-- `s` with the instruction whose first `nbits` bits are `w` where the next step fetches it. -/
def State.withFetchWord (s : State) (nbits w : Nat) : State := s.placeCode (w % 2 ^ nbits)

end Sys2Proof.Machine
end

