-- ==== Sys2Proof/Safety.lean ====
section
/-! DEFINITION. What counts as a safe run, the invariant that every step keeps, and the words that the statements are
written in: what an instruction changes, and that it changes nothing else. -/

namespace Sys2Proof.Machine

/-! ### Safe states -/

/-- No context is above trap level 2: the trap that would enter level 3 kills (R117, R300, R303). -/
def legalLevels (l : Map (Option Thread)) : Bool :=
  l.all fun p => match p.2 with | some t => decide (t.lvl ≤ 2) | none => true

/-- Both memories are in canonical form, and every trap level is legal. -/
def State.Inv (s : State) : Prop := Memory.wf s = true ∧ legalLevels s.threads = true

/-- A run is safe while the package has its supply and keeps the invariant: no step of it stops. -/
def State.Safe (s : State) : Prop := s.powered = true ∧ s.Inv

/-! ### Completing -/

/-- An instruction answers a next state of which `p` holds. -/
def Completes (i : Instr) (s : State) (p : State → Prop) : Prop := ∃ t, exec i s = .next t ∧ p t

/-- Memory, local stores, dies, tiles, the roll, the directory and everything else but threads and cores stand; so do
the other threads, and the cores but for thread `n`'s origin core. -/
def OnlyThread (s t : State) (n : Nat) : Prop :=
  t = { s with threads := t.threads, cores := t.cores } ∧ (∀ m, m ≠ n → t.thr m = s.thr m)
    ∧ ∀ c, c ≠ originOf n → t.core c = s.core c

/-- Nothing but thread `n`'s context differs. -/
def OnlyContext (s t : State) (n : Nat) : Prop :=
  t = { s with threads := t.threads } ∧ ∀ m, m ≠ n → t.thr m = s.thr m

/-- Thread `n` is ready at `pc`, awaits nothing, and its context is otherwise as it was but for its private bank. -/
def WentOn (s t : State) (n : Nat) (pc : Word) : Prop :=
  t.thr n = { s.thr n with g := (t.thr n).g, pc := pc, run := .ready, wait := .none, cont := none, snap := none }

/-- A destination holds `v`: a private register now, a commons register from `delay` cycles on (R28, R110). -/
def Holds (s t : State) (n : Nat) (d : Reg) (v : Word) (delay : Nat) : Prop :=
  if isCommons d then
    (t.thr n).g = (s.thr n).g ∧ t.core (originOf n) =
      { s.core (originOf n) with cpend := (s.core (originOf n)).cpend ++
          [{ reg := d.toNat - 16, due := (s.core (originOf n)).cycle + delay, thread := n, value := v }] }
  else
    t.core (originOf n) = s.core (originOf n)
      ∧ ∀ r, mget 0 (t.thr n).g r = if r = d.toNat then v else mget 0 (s.thr n).g r

/-- The thread has written `v` to `d` and gone on at `pc`; nothing else has changed. -/
def Wrote (s t : State) (n : Nat) (d : Reg) (v : Word) (delay : Nat) (pc : Word) : Prop :=
  OnlyThread s t n ∧ WentOn s t n pc ∧ Holds s t n d v delay

/-- The thread has gone on at `pc`; nothing else has changed. -/
def Moved (s t : State) (n : Nat) (pc : Word) : Prop :=
  OnlyContext s t n
    ∧ t.thr n = { s.thr n with pc := pc, run := .ready, wait := .none, cont := none, snap := none }

/-- The address after an instruction of `len` bytes. -/
abbrev State.after (s : State) (len : Nat) : Word := s.me.pc + word len

/-! ### A fabric at rest -/

/-- Requests are served in the step that issues them, and nothing is under way that a request could wait for: no message,
transaction, registration, open counter or directory entry, and no line of the L2; every die runs, and every link is awake. -/
def State.Calm (s : State) : Prop :=
  s.prompt = true ∧ s.msgs = [] ∧ s.txns = [] ∧ s.regs = [] ∧ s.altHomes = [] ∧ s.dir = [] ∧ s.l2 = []
    ∧ ∀ d, (s.die d).lost = false ∧ (s.die d).alone = false ∧ (s.die d).relock = none
      ∧ (s.die d).linkH.st = 0 ∧ (s.die d).linkV.st = 0

/-- The state but for one more identifier in use. -/
abbrev State.tagged (s : State) : State := { s with nextId := s.nextId + 1 }

/-- `t` differs from `s` in memory by the `size` bytes at `pa` alone, which hold `v` (R4). -/
def StoredAt (s t : State) (pa size v : Nat) : Prop :=
  readN t.mem pa size = v % 256 ^ size ∧ ∀ a, (a < pa ∨ pa + size ≤ a) → readByte t.mem a = readByte s.mem a

/-- The same for a core's local store. -/
def StoredLocally (s t : State) (c off size v : Nat) : Prop :=
  t.readLoc c off size = v % 256 ^ size
    ∧ ∀ a, (a < locKey c off ∨ locKey c off + size ≤ a) → readByte t.loc a = readByte s.loc a

/-! ### FP32 values (R68, R75 to R77) -/

/-- The value of a finite FP32 code in units of 2^-149, the subnormal quantum (R68). -/
def fp32Value (z : Nat) : Int :=
  let e := z / 2 ^ 23 % 256
  let v : Nat := if e = 0 then z % 2 ^ 23 else (2 ^ 23 + z % 2 ^ 23) * 2 ^ (e - 1)
  if z / 2 ^ 31 % 2 = 1 then -(v : Int) else v

/-- A code of 32 bits that is neither infinity nor NaN (R68). -/
abbrev fp32Finite (z : Nat) : Prop := z < 2 ^ 32 ∧ z / 2 ^ 23 % 256 ≠ 255

/-- A code that is a NaN (R68). -/
abbrev fp32Nan (z : Nat) : Prop := z < 2 ^ 32 ∧ z / 2 ^ 23 % 256 = 255 ∧ z % 2 ^ 23 ≠ 0

/-- `z` is n / d units of 2^-149, not zero, rounded to nearest even: no finite code lies nearer, and where a code of another
value lies as near, `z` is the even one; from half a unit above the largest finite value on it is the infinity of the sign
(R75, R76). -/
def RoundsTo (z : Nat) (n : Int) (d : Nat) : Prop :=
  if (2 ^ 25 - 1) * 2 ^ 252 * d ≤ n.natAbs then z = if n < 0 then 0xFF80_0000 else 0x7F80_0000
  else fp32Finite z ∧ (n < 0 ↔ 2 ^ 31 ≤ z) ∧ ∀ w, fp32Finite w →
    (fp32Value z * d - n).natAbs ≤ (fp32Value w * d - n).natAbs
      ∧ ((fp32Value z * d - n).natAbs = (fp32Value w * d - n).natAbs → fp32Value w = fp32Value z ∨ z % 2 = 0)

/-- `z` is n / d rounded, or for an exact zero the zero of a sign (R77). -/
def FpIs (z : Nat) (n : Int) (d : Nat) (neg : Bool) : Prop :=
  (n ≠ 0 → RoundsTo z n d) ∧ (n = 0 → z = if neg then 2 ^ 31 else 0)

/-- A finite code lies at or below another: by value, −0 below +0 (R81). -/
def CodeLe (x y : Nat) : Prop :=
  fp32Value x < fp32Value y ∨ (fp32Value x = fp32Value y ∧ (2 ^ 31 ≤ y → 2 ^ 31 ≤ x))

/-- V / U rounded to an integer by mode (R75). -/
def roundedInt (rm : Rm) (V U : Int) : Int :=
  match rm with
  | .rtz => V.tdiv U
  | .rdn => V / U
  | .rup => -((-V) / U)
  | .rne => if 2 * (V % U) < U ∨ (2 * (V % U) = U ∧ V / U % 2 = 0) then V / U else V / U + 1

/-- The element of a row of BF16 as an FP32 code of the same value (R68): its 16 bits above 16 zeros. -/
def bfCode (bytes : List Byte) (k : Nat) : Nat := ((bytes.getD (2 * k) 0).toNat + 256 * (bytes.getD (2 * k + 1) 0).toNat) * 2 ^ 16

/-- One group of R84 on an accumulator's code: the exact sum `n` of 32 products, in units of 2^-298, is added and rounded once;
a subnormal result is flushed to zero. -/
def GroupOf (old new : Nat) (n : Int) : Prop :=
  let N := fp32Value old * ((2 ^ 149 : Nat) : Int) + n
  ∃ q, (N ≠ 0 → RoundsTo q N (2 ^ 149)) ∧ (N = 0 → q % 2 ^ 31 = 0) ∧ new = if q / 2 ^ 23 % 256 = 0 then q / 2 ^ 31 * 2 ^ 31 else q

/-! ### The frame of R122 -/

/-- The signed reading of the low n bits. -/
def signedOf (w : Bool) (x : Word) : Int := if w then (x.setWidth 32).toInt else x.toInt

/-- The natural reading of the low n bits. -/
def naturalOf (w : Bool) (x : Word) : Nat := if w then x.toNat % 2 ^ 32 else x.toNat

/-- A value mod 2^n, sign-extended from n bits. -/
def narrow (w : Bool) (v : Int) : Word := if w then sext (BitVec.ofInt 32 v) else BitVec.ofInt 64 v

end Sys2Proof.Machine
end

