-- ==== Sys2Proof/Certificates/Slice0/Obligations.lean ====
section
/-! DEFINITION. The statements for the provers. -/

open Sys2Proof Sys2Proof.Machine

/-! ### Encoding and decoding -/

/-- Decoding the bytes of a well-formed instruction's own words gives the instruction back, with every operand at every
value that the encoding admits (R21 to R33, R158, R160, R216, R293, R298). -/
def Obligations.EncodingRoundTrip : Prop :=
  ∀ i : Instr, i.wf = true → decode ((encode i).flatMap bytesOfWord) = .ok i

/-- Words that the spec writes out decode to the instructions that it writes beside them.
A word that the maps assign nothing is no instruction: bits [1:0] zero and not the PAD word, an unassigned major,
or a function number where there is no minor map (R21, R35, R36, R37). -/
def Obligations.DecodingFollowsTables : Prop :=
  (decodeList [0x00021045, 0x00300001] = .ok (.sub 4 4 (.i20 1) true)
  ∧ decodeList [0x01131459, 0x00000000] = .ok (.divn 5 6 (.reg 17) false)
  ∧ decodeList [0x00018899, 0x01200064] = .ok (.setLtn 2 3 (.i20 100) false)
  ∧ decodeList [0x00041CA9, 0x0000010C] = .ok (.ext 7 8 12 4 false)
  ∧ decodeList [0x000080D2, 0x00000008, 0x000003E8] = .ok (.bltn 1 (.i32 1000) 8)
  ∧ decodeList [0x00003CE5, 0x000FFFF0] = .ok (.call 15 (.s20 0xFFFF0))
  ∧ decodeList [0x00208C35, 0x00000000] = .ok (.sealHash 3 1 2 0)
  ∧ decodeList [0x00048019, 0x00000012] = .ok (.srw 9 0x012))
  ∧ ((∀ w0 w1 w2 w3 : BitVec 32, w0.extractLsb' 0 2 = 0 → w0 ≠ 0x0FAD0000 → decodeWords w0 w1 w2 w3 = .error .notPad)
  ∧ (∀ f : Fields,
      (let m := f.maj.toNat
       m = 0x00 ∨ m = 0x0E ∨ m = 0x0F ∨ m = 0x2F ∨ (0x3C ≤ m ∧ m ≤ 0x3F) ∨ m = 0x4F ∨ (0x5A ≤ m ∧ m ≤ 0x5F)
         ∨ (0x6C ≤ m ∧ m ≤ 0x6F) ∨ (0x75 ≤ m ∧ m ≤ 0x7F) ∨ m = 0x9E ∨ m = 0x9F ∨ 0xA8 ≤ m) →
      ∃ e, decodeFields f = .error e)
  ∧ (∀ f : Fields, f.fn ≠ 0 → f.maj.toNat ∉ [0x0C, 0x0D, 0x48, 0x49] → ∃ e, decodeFields f = .error e))

/-! ### Fetching and stepping -/

/-- A fetch reads its instruction from the home slice's bytes: where the address translates to granted package memory
and the core's instruction cache holds no copy of the line, nor the roll the line itself, and no word of it has a double-bit error,
an instruction that lies within its fetch block is decoded from the bytes that memory holds at the address (R23, R34). -/
def Obligations.FetchReadsMemory : Prop :=
  ∀ (s : State) (n : Nat) (pc : Word) (pa : Nat) (kind : Kind) (s' : State) (i : Instr) (len : Nat),
    pc.toNat % 4 = 0 → s.translate n pc .fetch = (.ok pa kind, s') → pa < 2 ^ 40 → pa % 32 = pc.toNat % 32 →
    s'.cut (dieOf (s'.thr n).core) (homeDie pa) = false → s'.granted (s'.domainOf n) pa = true →
    mget none (s'.core (s'.thr n).core).icache (pa / 128) = none →
    s'.entryFrame (pa / 128 * 128) = none → s'.entryFrame (pa / 128 * 128 + 127) = none →
    s'.flawed false (pa / 128 * 128) 128 = false →
    len = lenBytes (wordOfBytes (readBytes s'.mem pa 4)) → 4 < len → pa % 32 + len ≤ 32 →
    decode (readBytes s'.mem pa len) = .ok i →
    (s.fetch n pc).1 = .ok i len (wordOfBytes (readBytes s'.mem pa 4))

/-- A step of a powered package whose next mover is a core that has picked a thread runs the instruction that the fetch
decodes: after the core cycle and the start of the issue, `exec` of it at the state that the fetch leaves, once the
privilege and commons-mask checks pass and the thread is where the instruction may run (R34, R91, R92, R244). Where the
instruction has met a busy line, a closed link or a bin under way, it has no effect and the thread issues it again later (the
model's choice, log entry 77). A core rests while its die is lost or, but for the steward's, relocks, and once it has run its cycles
of the tick (R19, R20, R248, R336). Where `sched` names nobody and no event changes the state, the next mover is the core that the
model picks, for as many cycles as the tick has (the model's choice, log entry 3). -/
def Obligations.StepRunsDecoded : Prop :=
  (∀ (s s0 : State) (rest : List Mover) (c k n : Nat) (i : Instr) (len : Nat) (w0 : BitVec 32) (s1 s2 t : State),
    s.powered = true → s.sched = .core c :: rest → s0 = { s.begin with sched := rest } →
    s0.resting c = false → (s0.core c).gated = false →
    s0.pick c = some k → k < 16 → s0.occupant c k = some n →
    s0.timerDue n = false → s0.atPad n = false → s0.asyncDue n = none →
    s1 = (s0.cycleCore c).beginIssue n c k → s1.fetch n (s1.thr n).pc = (.ok i len w0, s2) → s2.met = false →
    privCheck s2 i = none → sysPriv s2 i = none → (needsOrigin i && (s2.thr n).away) = false → exec i s2 = .next t →
    step s = .next (if t.met then (s1.keepWants t).hold n .hold else t))
  ∧ (∀ (s : State) (c : Nat), s.powered = true → s.sched = [] → (∀ x ∈ s.begin.calls, changes x s.begin = false) →
    s.begin.nextCore = some c → step s = step { s with sched := [.core c] })

/-- While the package has its supply no step stops: every instruction and event has an effect, or changes nothing.
Without supply nothing moves but POWER_ON (R349); the stop has a name of its own. -/
def Obligations.StopsOnlyWithoutSupply : Prop :=
  (∀ s : State, s.powered = true → ∃ t, step s = .next t)
  ∧ (∀ s : State, s.powered = false → (∀ fused fail rest, s.sched ≠ .event (.powerOn fused fail) :: rest) →
    step s = .fault .noSupply)

/-! ### The invariant -/

/-- Every step keeps both memories in canonical form and every trap level at 2 or below (R4, R300, R303). -/
def Obligations.StepKeepsInv : Prop :=
  ∀ s t : State, s.Inv → step s = .next t → t.Inv

/-- The invariant holds right after reset. -/
def Obligations.ResetInv : Prop := State.reset.Inv

/-- The values that the spec gives for reset: every slot free, system registers 0, commons and accumulators 0, queues empty;
the clock codes 32, 40 and 20, the power cap 3,200, every other register of a die that has a value there 0; no frame grants the host
or the accelerator; no allotment counter is open (R6, R89, R109, R115 to R121, R139, R169, R181, R199, R238, R334, R348, R354). -/
def Obligations.ResetLeaves : Prop :=
  (∀ n, n < 16384 →
    let t := State.reset.thr n
    t.run = .free ∧ t.lvl = 0 ∧ t.priv = .user ∧ t.pv1 = .user ∧ t.pv2 = .user ∧ t.timPend = none
    ∧ (∀ k ∈ [0x001, 0x002, 0x003, 0x004, 0x005, 0x006, 0x007, 0x008, 0x009, 0x00A, 0x00B, 0x010, 0x011, 0x012, 0x020, 0x021, 0x032],
        State.reset.sysRead n k = 0)
    ∧ t.unacked = [] ∧ ∀ k, mget none t.shapes k = none)
  ∧ (∀ c,
    let x := State.reset.core c
    (∀ k, mget 0 x.c k = 0) ∧ (∀ k, mget 0 x.acc k = 0) ∧ x.plotRsv = 0 ∧ x.plotPin = 0 ∧ x.portDone = 0 ∧ x.seq = [] ∧ x.mill = []
    ∧ x.copy = [] ∧ x.taskq = [] ∧ x.alt = [] ∧ x.gated = false ∧ State.reset.slotstat c = 0)
  ∧ (∀ t o, State.reset.millReg t o = 0)
  ∧ (∀ d,
    let x := State.reset.die d
    x.fcur = 32 ∧ x.fmax = 40 ∧ x.fmin = 20 ∧ x.pwrcap = 3200
    ∧ (∀ o ∈ [0x3_0000, 0x3_0008, 0x3_0010, 0x3_0018, 0x3_0020, 0x3_0028, 0x3_0040, 0x3_0048, 0x3_0050, 0x5_0040, 0x5_0048, 0x5_0050,
        0x5_0058, 0x5_0060, 0x5_0068, 0x6_0008, 0x6_0010, 0x6_0018, 0x7_0000, 0x9_0040, 0xA_0000, 0xB_0000], State.reset.devReg d o = 0)
    ∧ (∀ i, mget 0 x.regions i = 0) ∧ (∀ i, mget 0 x.meas i = 0) ∧ (∀ i, mget 0 x.rdwin i = 0) ∧ x.insecure = [] ∧ x.debugOpen = false)
  ∧ (∀ pa, State.reset.granted .host pa = false ∧ State.reset.granted .acc pa = false)
  ∧ State.reset.altHomes = [] ∧ ∀ p, mget none State.reset.posts p = none

/-! ### Scalar instructions -/

/-- The values of R123 and R124: operands cut to n bits, the exact value, taken mod 2^n and sign-extended from n bits
(R122); `s` is the shift amount mod n. -/
def Obligations.AluValues : Prop :=
  ∀ (w : Bool) (x y : Word),
    let xs := signedOf w x
    let ys := signedOf w y
    let xn := naturalOf w x
    let yn := naturalOf w y
    let n := natWidth w
    let s := yn % n
    Alu.add.result w x y = narrow w (xs + ys) ∧ Alu.sub.result w x y = narrow w (xs - ys)
    ∧ Alu.mul.result w x y = narrow w (xs * ys)
    ∧ Alu.mulh.result w x y = narrow w (xs * ys / 2 ^ n) ∧ Alu.mulhn.result w x y = narrow w ((xn * yn / 2 ^ n : Nat) : Int)
    ∧ (yn ≠ 0 →
        Alu.divn.result w x y = narrow w ((xn / yn : Nat) : Int) ∧ Alu.remn.result w x y = narrow w ((xn % yn : Nat) : Int)
        ∧ let q : Int := if (xs < 0) ≠ (ys < 0) then -((xs.natAbs / ys.natAbs : Nat) : Int) else ((xs.natAbs / ys.natAbs : Nat) : Int)
          Alu.div.result w x y = narrow w q ∧ Alu.rem.result w x y = narrow w (xs - ys * q))
    ∧ Alu.and.result w x y = narrow w ((Nat.land xn yn : Nat) : Int) ∧ Alu.or.result w x y = narrow w ((Nat.lor xn yn : Nat) : Int)
    ∧ Alu.xor.result w x y = narrow w ((Nat.xor xn yn : Nat) : Int)
    ∧ Alu.andn.result w x y = narrow w ((Nat.land xn (Nat.xor (2 ^ n - 1) yn) : Nat) : Int)
    ∧ Alu.shl.result w x y = narrow w ((xn * 2 ^ s : Nat) : Int) ∧ Alu.shr.result w x y = narrow w ((xn / 2 ^ s : Nat) : Int)
    ∧ Alu.sha.result w x y = narrow w (if 0 ≤ xs then xs / 2 ^ s else -((-xs - 1) / 2 ^ s) - 1)
    ∧ Alu.rol.result w x y = narrow w ((xn * 2 ^ s + xn / 2 ^ (n - s) : Nat) : Int)
    ∧ Alu.ror.result w x y = narrow w (if s = 0 then (xn : Int) else ((xn * 2 ^ ((n - s) % n) + xn / 2 ^ s : Nat) : Int))
    ∧ Alu.min.result w x y = narrow w (if xs ≤ ys then xs else ys) ∧ Alu.max.result w x y = narrow w (if ys ≤ xs then xs else ys)
    ∧ Alu.minn.result w x y = narrow w ((if xn ≤ yn then xn else yn : Nat) : Int)
    ∧ Alu.maxn.result w x y = narrow w ((if yn ≤ xn then xn else yn : Nat) : Int)

/-- The constructors of the two-operand majors, with the operation that each computes and its write-back cycle. -/
abbrev Sys2Proof.Machine.aluTable : List ((Reg → Reg → Opnd → Bool → Instr) × Alu × Nat) :=
  [(.add, .add, 2), (.sub, .sub, 2), (.mul, .mul, 4), (.mulh, .mulh, 4), (.mulhn, .mulhn, 4), (.and, .and, 2), (.or, .or, 2),
   (.xor, .xor, 2), (.andn, .andn, 2), (.shl, .shl, 2), (.shr, .shr, 2), (.sha, .sha, 2), (.rol, .rol, 2), (.ror, .ror, 2),
   (.min, .min, 2), (.max, .max, 2), (.minn, .minn, 2), (.maxn, .maxn, 2)]

/-- ADD, SUB, MUL, MULH, MULHN, AND, OR, XOR, ANDN, SHL, SHR, SHA, ROL, ROR, MIN, MAX, MINN and MAXN write their result,
with any operand form and in either bank, and go on after their own length; nothing else changes (R110, R122). -/
def Obligations.AluCompletes : Prop :=
  ∀ e ∈ aluTable, ∀ (s : State) (d a : Reg) (y : Opnd) (w : Bool),
    Completes (e.1 d a y w) s fun t =>
      Wrote s t s.cur d (e.2.1.result w (s.reg s.cur a) (s.opnd s.cur y)) e.2.2 (s.after y.len)

/-- The divide majors. -/
abbrev Sys2Proof.Machine.divTable : List ((Reg → Reg → Opnd → Bool → Instr) × Alu) :=
  [(.div, .div), (.divn, .divn), (.rem, .rem), (.remn, .remn)]

/-- DIV, DIVN, REM and REMN by a divisor whose n bits are not all zero write their result in write-back cycle t + 7 and go
on; nothing else changes (R110, R122, R124).
A divide by a divisor whose n bits are zero raises DIVZ with the full register A in TVAL (R124). -/
def Obligations.DividesComplete : Prop :=
  (∀ e ∈ divTable, ∀ (s : State) (d a : Reg) (y : Opnd) (w : Bool), naturalOf w (s.opnd s.cur y) ≠ 0 →
    Completes (e.1 d a y w) s fun t =>
      Wrote s t s.cur d (e.2.result w (s.reg s.cur a) (s.opnd s.cur y)) 7 (s.after y.len))
  ∧ (∀ e ∈ divTable, ∀ (s : State) (d a : Reg) (y : Opnd) (w : Bool), naturalOf w (s.opnd s.cur y) = 0 →
    exec (e.1 d a y w) s = .next (s.raise s.cur .divz (s.reg s.cur a)))

/-- SET writes 1 where its condition holds of the operands cut to n bits and 0 elsewhere, and goes on (R31, R122,
R125). -/
def Obligations.SetCompletes : Prop :=
  ∀ (s : State) (d a : Reg) (y : Opnd) (w : Bool),
    let v := s.reg s.cur a
    let u := s.opnd s.cur y
    let writes := fun (i : Instr) (p : Bool) =>
      Completes i s fun t => Wrote s t s.cur d (if p then 1 else 0) 2 (s.after y.len)
    writes (.setEq d a y w) (decide (signedOf w v = signedOf w u)) ∧ writes (.setNe d a y w) (decide (signedOf w v ≠ signedOf w u))
    ∧ writes (.setLt d a y w) (decide (signedOf w v < signedOf w u))
    ∧ writes (.setGe d a y w) (decide (signedOf w v ≥ signedOf w u))
    ∧ writes (.setLtn d a y w) (decide (naturalOf w v < naturalOf w u))
    ∧ writes (.setGen d a y w) (decide (naturalOf w v ≥ naturalOf w u))

/-- LI writes its operand, sign-extended; LA writes its own address plus its operand, with no access (R128).
What CLZ, CTZ and POPC write: bits above the highest one bit, bits below the lowest one bit, one bits; n for 0.
EXT writes the signed field, EXTN the natural field, INS the destination with the field replaced by the low bits of
A; each result is framed to n bits, and the thread goes on (R127). -/
def Obligations.ImmediatesAndBitsComplete : Prop :=
  (∀ (s : State) (d : Reg),
    (∀ x : BitVec 20, Completes (.li d (.i20 x)) s fun t => Wrote s t s.cur d (x.signExtend 64) 2 (s.after 8))
    ∧ (∀ x : BitVec 32, Completes (.li d (.i32 x)) s fun t => Wrote s t s.cur d (x.signExtend 64) 2 (s.after 12))
    ∧ (∀ x : BitVec 64, Completes (.li d (.i64 x)) s fun t => Wrote s t s.cur d x 2 (s.after 16))
    ∧ (∀ x : BitVec 20, Completes (.la d (.s20 x)) s fun t => Wrote s t s.cur d (s.me.pc + x.signExtend 64) 2 (s.after 8))
    ∧ (∀ x : BitVec 32, Completes (.la d (.s32 x)) s fun t => Wrote s t s.cur d (s.me.pc + x.signExtend 64) 2 (s.after 12)))
  ∧ ((∀ (s : State) (d a : Reg) (w : Bool),
    let x := naturalOf w (s.reg s.cur a)
    let n := natWidth w
    ∃ z l p : Nat, z ≤ n ∧ l ≤ n ∧ p ≤ n
    ∧ (Completes (.clz d a w) s fun t => Wrote s t s.cur d (word z) 2 (s.after 8))
    ∧ (Completes (.ctz d a w) s fun t => Wrote s t s.cur d (word l) 2 (s.after 8))
    ∧ (Completes (.popc d a w) s fun t => Wrote s t s.cur d (word p) 2 (s.after 8))
    ∧ (x = 0 → z = n ∧ l = n ∧ p = 0)
    ∧ (x ≠ 0 → x.testBit (n - 1 - z) = true ∧ x < 2 ^ (n - z) ∧ x.testBit l = true ∧ x % 2 ^ l = 0)
    ∧ p = ((List.range n).filter fun i => x.testBit i).length)
  ∧ (∀ (s : State) (d a : Reg) (pos len1 : BitVec 6) (w : Bool), fieldOk pos len1 w = true →
    let x := (s.reg s.cur a).toNat
    let old := naturalOf w (s.reg s.cur d)
    let p := pos.toNat
    let len := len1.toNat + 1
    let f := x / 2 ^ p % 2 ^ len
    (Completes (.ext d a pos len1 w) s fun t =>
      Wrote s t s.cur d (narrow w (if f < 2 ^ (len - 1) then (f : Int) else (f : Int) - 2 ^ len)) 2 (s.after 8))
    ∧ (Completes (.extn d a pos len1 w) s fun t => Wrote s t s.cur d (narrow w (f : Int)) 2 (s.after 8))
    ∧ (Completes (.ins d a pos len1 w) s fun t =>
      Wrote s t s.cur d (narrow w ((old : Int) - ((old / 2 ^ p % 2 ^ len * 2 ^ p : Nat) : Int) + ((x % 2 ^ len * 2 ^ p : Nat) : Int)))
        2 (s.after 8))))

/-- The conditional branches compare all 64 bits and go to PC + 4 × offset where their condition holds, else on; they
change nothing else (R33, R129). -/
def Obligations.BranchesComplete : Prop :=
  ∀ (s : State) (a : Reg) (y : Cmp) (off : BitVec 20),
    let x := s.reg s.cur a
    let u := s.cmp s.cur y
    let goes := fun (i : Instr) (taken : Bool) (len : Nat) =>
      Completes i s fun t => Moved s t s.cur (if taken then s.me.pc + 4 * off.signExtend 64 else s.after len)
    goes (.beq a y off) (decide (x = u)) y.len ∧ goes (.bne a y off) (decide (x ≠ u)) y.len
    ∧ goes (.blt a y off) (decide (x.toInt < u.toInt)) y.len ∧ goes (.bge a y off) (decide (u.toInt ≤ x.toInt)) y.len
    ∧ goes (.bltn a y off) (decide (x.toNat < u.toNat)) y.len ∧ goes (.bgen a y off) (decide (u.toNat ≤ x.toNat)) y.len
    ∧ goes (.bz a off) (decide (x = 0)) 8 ∧ goes (.bnz a off) (decide (x ≠ 0)) 8

/-- J and CALL go to PC + 4 × offset; JR and CALLR to A + displacement where that is a multiple of 4, read before the
link is written; CALL and CALLR write the address after themselves (R130).
A jump to an address that is not a multiple of 4 raises ALIGN with that address in TVAL and writes no link (R22,
R130). -/
def Obligations.JumpsComplete : Prop :=
  (∀ (s : State) (d a : Reg) (off : Off) (disp : BitVec 20), (s.reg s.cur a + disp.signExtend 64).toNat % 4 = 0 →
    (Completes (.j off) s fun t => Moved s t s.cur (s.me.pc + 4 * off.val))
    ∧ (Completes (.call d off) s fun t => Wrote s t s.cur d (s.after off.len) 2 (s.me.pc + 4 * off.val))
    ∧ (Completes (.jr a disp) s fun t => Moved s t s.cur (s.reg s.cur a + disp.signExtend 64))
    ∧ (Completes (.callr d a disp) s fun t => Wrote s t s.cur d (s.after 8) 2 (s.reg s.cur a + disp.signExtend 64)))
  ∧ (∀ (s : State) (d a : Reg) (disp : BitVec 20),
    let t := s.reg s.cur a + disp.signExtend 64
    t.toNat % 4 ≠ 0 →
      exec (.jr a disp) s = .next (s.raise s.cur .align t) ∧ exec (.callr d a disp) s = .next (s.raise s.cur .align t))

/-! ### Control instructions and system registers -/

/-- PAD and NOP change nothing but PC, by 4 and by 8; RDCYC writes DCYC of the thread's die: its count at the tick and the core
cycles since, a steward core's scaled to the die's clock (the model's choice, log entry 3: the rules fix DCYC at ticks); RDREF
the reference tick, the same on every die (the model's choice, log entry 82); TMR.SET in kernel or steward mode sets TMR and
writes what it held (R24, R25, R105, R106). -/
def Obligations.ControlCompletes : Prop :=
  ∀ (s : State) (d a : Reg),
    (Completes .pad s fun t => Moved s t s.cur (s.after 4)) ∧ (Completes .nop s fun t => Moved s t s.cur (s.after 8))
    ∧ (s.me.core < 1024 → Completes (.rdcyc d) s fun t =>
        let x := s.core s.me.core
        Wrote s t s.cur d (word ((s.die (dieOf s.me.core)).dcyc + (x.cycle - x.base - 1))) 2 (s.after 8))
    ∧ (Completes (.rdcyc d) s fun t => Wrote s t s.cur d (word (s.dcycAt s.me.core)) 2 (s.after 8))
    ∧ (Completes (.rdref d) s fun t => Wrote s t s.cur d (word s.reft) 2 (s.after 8))
    ∧ (s.me.priv ≠ .user → Completes (.tmrSet d a) s fun t =>
        Wrote (s.onThr s.cur fun x => { x with tmr := s.reg s.cur a }) t s.cur d s.me.tmr 2 (s.after 8))

/-- The value that each system register reads as (R115, R117 to R121). -/
def Sys2Proof.Machine.sysValue (s : State) (k : Nat) : Word :=
  let t := s.me
  if k = 0x000 then
    word (t.lvl + 4 * t.priv.code + 16 * t.pv1.code + 64 * t.pv2.code + (if t.timPend.isSome then 2 ^ 8 else 0)
      + (if t.away then 2 ^ 9 else 0) + 2 ^ 20 * (s.cur % 16) + 2 ^ 32 * (s.cur / 16 % 1024))
  else if k = 0x001 then t.cause1 else if k = 0x002 then t.ret1 else if k = 0x003 then t.val1 else if k = 0x004 then t.scratch1
  else if k = 0x005 then t.cause2 else if k = 0x006 then t.ret2 else if k = 0x007 then t.val2 else if k = 0x008 then t.scratch2
  else if k = 0x009 then t.tdeleg else if k = 0x00A then t.kvec else if k = 0x00B then t.uvec else if k = 0x010 then t.tmr
  else if k = 0x011 then t.wid else if k = 0x012 then t.ctxnum else if k = 0x020 then t.atp else if k = 0x021 then t.pasid
  else if k = 0x030 then word (t.core % 1024 + 2 ^ 12 * t.slot) else if k = 0x031 then s.slotstat t.core
  else if k = 0x032 then (s.core (s.cur / 16)).commask else (s.die (dieOf t.core)).slhash

/-- The numbers of R115's table. -/
abbrev Sys2Proof.Machine.sysNumbers : List Nat :=
  [0x000, 0x001, 0x002, 0x003, 0x004, 0x005, 0x006, 0x007, 0x008, 0x009, 0x00A, 0x00B, 0x010, 0x011, 0x012, 0x020, 0x021, 0x030,
   0x031, 0x032, 0x080]

/-- The writable fields of the registers that SRW writes in a thread's context (R116 to R121). -/
abbrev Sys2Proof.Machine.sysFields : List (Nat × (Thread → Word → Thread)) :=
  [(0x000, fun t v => { t with pv1 := pvField t.pv1 (v.toNat / 16 % 4), pv2 := pvField t.pv2 (v.toNat / 64 % 4) }),
   (0x001, fun t v => { t with cause1 := v &&& 0xE000_0000_0000_00FF }), (0x002, fun t v => { t with ret1 := v &&& ~~~3 }),
   (0x003, fun t v => { t with val1 := v }), (0x004, fun t v => { t with scratch1 := v }),
   (0x005, fun t v => { t with cause2 := v &&& 0xE000_0000_0000_00FF }), (0x006, fun t v => { t with ret2 := v &&& ~~~3 }),
   (0x007, fun t v => { t with val2 := v }), (0x008, fun t v => { t with scratch2 := v }),
   (0x009, fun t v => { t with tdeleg := v &&& 0x641A }), (0x00A, fun t v => { t with kvec := v &&& ~~~3 }),
   (0x00B, fun t v => { t with uvec := v &&& ~~~3 }), (0x011, fun t v => { t with wid := v }),
   (0x012, fun t v => { t with ctxnum := v &&& 0xBFFF }),
   (0x020, fun t v => if v.toNat / 2 ^ 60 = 0 ∨ v.toNat / 2 ^ 60 = 10 then { t with atp := v } else t),
   (0x021, fun t v => { t with pasid := v &&& 0xFFFFF })]

/-- SRR of a register of the table writes its value: in kernel or steward mode any, in user mode TSTAT, UVEC, WID, CTXNUM,
COREID and COMMASK, and the registers of a trap level that was entered by delegation (R115, R116).
SRW in kernel or steward mode writes the register's writable fields, leaves its others, and goes on; COMMASK is the
origin core's, SLHASH the die's and the steward's to write, and both take the value once the write-back cycle t + 2 is past
(R112, R115 to R121, R314).
SRR and SRW of a number outside the table raise ILL, and so does an SRW of TMR, COREID or SLOTSTAT; in user mode a
register of the kernel's raises PRIV (R115, R116). -/
def Obligations.SystemRegistersComplete : Prop :=
  (∀ (s : State) (d : Reg) (num : BitVec 12), num.toNat ∈ sysNumbers →
    (s.me.priv ≠ .user ∨ num.toNat ∈ [0x000, 0x00B, 0x011, 0x012, 0x030, 0x032]
      ∨ (0x001 ≤ num.toNat ∧ num.toNat ≤ 0x004 ∧ 1 ≤ s.me.lvl ∧ s.me.cause1.getLsbD 61 = true)
      ∨ (0x005 ≤ num.toNat ∧ num.toNat ≤ 0x008 ∧ 2 ≤ s.me.lvl ∧ s.me.cause2.getLsbD 61 = true)) →
    Completes (.srr d num) s fun t => Wrote s t s.cur d (sysValue s num.toNat) 2 (s.after 8))
  ∧ (∀ (s : State) (a : Reg) (num : BitVec 12), s.me.priv ≠ .user →
    let v := s.reg s.cur a
    (∀ e ∈ sysFields, num.toNat = e.1 → Completes (.srw a num) s fun t =>
      OnlyContext s t s.cur ∧ t.thr s.cur =
        { e.2 s.me v with pc := s.after 8, run := .ready, wait := .none, cont := none, snap := none })
    ∧ (num.toNat = 0x032 → Completes (.srw a num) s fun t =>
        Moved (s.onCore (originOf s.cur) fun c => { c with cmPend := c.cmPend ++ [(c.cycle + 2, v &&& 0xFFFF)] }) t s.cur (s.after 8))
    ∧ (num.toNat = 0x080 → s.me.priv = .steward → Completes (.srw a num) s fun t =>
        Moved (s.onDie (dieOf s.me.core) fun x => { x with slPend := x.slPend ++ [(s.me.core, (s.core s.me.core).cycle + 2, v &&& 3)] })
          t s.cur (s.after 8)))
  ∧ (∀ (s : State) (c w : Nat) (v : Word), (s.core c).cmPend = [(w, v)] → (s.die (dieOf c)).slPend = [(c, w, v)] →
    ((s.core c).cycle < w → ((s.cycleCore c).core c).commask = (s.core c).commask
      ∧ ((s.cycleCore c).die (dieOf c)).slhash = (s.die (dieOf c)).slhash)
    ∧ (w ≤ (s.core c).cycle → ((s.cycleCore c).core c).commask = v ∧ ((s.cycleCore c).die (dieOf c)).slhash = v))
  ∧ (∀ (s : State) (r : Reg) (num : BitVec 12),
    (num.toNat ∉ sysNumbers →
      exec (.srr r num) s = .next (s.raise s.cur .ill (w0Of (.srr r num)))
      ∧ exec (.srw r num) s = .next (s.raise s.cur .ill (w0Of (.srw r num))))
    ∧ (num.toNat ∈ [0x010, 0x030, 0x031] → exec (.srw r num) s = .next (s.raise s.cur .ill (w0Of (.srw r num))))
    ∧ (s.me.priv = .user → num.toNat ∈ [0x009, 0x00A, 0x010, 0x020, 0x021, 0x031, 0x080] →
        exec (.srr r num) s = .next (s.raise s.cur .priv (w0Of (.srr r num))))
    ∧ (s.me.priv = .user → num.toNat ∈ [0x000, 0x009, 0x00A, 0x00B, 0x011, 0x012, 0x020, 0x021, 0x032, 0x080] →
        exec (.srw r num) s = .next (s.raise s.cur .priv (w0Of (.srw r num)))))

/-! ### Traps -/

/-- Taking a trap at level 0 or 1: the level's TCAUSE, TRET (whose bits [1:0] read as zero), TVAL and PV are written, the level rises by one, the
reservation set empties, and the thread goes on at UVEC in its mode where it was in user mode and the cause is delegable
and delegated, else at KVEC in kernel mode, a steward staying steward. Nothing else of its context changes, no memory
does, and other threads change at most in what they wait for (R300).
A trap at level 2 enters no handler: it kills the context, whose slot is free afterwards (R300, R303). -/
def Obligations.TrapEntry : Prop :=
  (∀ (s : State) (n : Nat) (cause : Cause) (tval tret : Word) (async applied : Bool), (s.thr n).lvl < 2 →
    let x := s.thr n
    let t := s.trap n cause tval tret async applied
    let dlg := decide (x.priv = .user) && decide (cause ∈ [Cause.ill, .align, .divz, .timer, .straddle, .soft])
      && x.tdeleg.getLsbD cause.code
    let saved := if x.lvl = 0
      then { x with cause1 := causeWord applied async dlg cause.code, ret1 := tret &&& ~~~3, val1 := tval, pv1 := x.priv, lvl := 1 }
      else { x with cause2 := causeWord applied async dlg cause.code, ret2 := tret &&& ~~~3, val2 := tval, pv2 := x.priv, lvl := 2 }
    t.thr n =
      { saved with
        priv := if dlg then x.priv else if x.priv = .user then .kernel else x.priv
        pc := if dlg then x.uvec else x.kvec
        resv := [], hit := 0, wait := .none, cont := none, snap := none, run := .ready }
    ∧ t.mem = s.mem ∧ t.loc = s.loc ∧ t.dies = s.dies ∧ t.roll = s.roll ∧ t.regs = s.regs.filter (fun p => p.1 != n)
    ∧ ∀ m, m ≠ n → t.thr m = { s.thr m with run := (t.thr m).run, wait := (t.thr m).wait })
  ∧ (∀ (s : State) (n : Nat) (cause : Cause) (tval tret : Word) (async applied : Bool), (s.thr n).lvl = 2 → n < ghostBase →
    ((s.trap n cause tval tret async applied).thr n).run = .free
    ∧ (s.trap n cause tval tret async applied).mem = s.mem)

/-- TRAP and BRK raise SOFT with their operand, a BRK's with bit 63 set, and return to the first address after themselves
that holds no PAD word: 4k bytes past the instruction after them where k PADs stand, none of them passed where none stands
(R24, R312), where the fetches that show it need not wait (the model's choice, log entry 77). A BRK on a core whose debug
breakpoint stands stops the thread before it (R355). An unassigned encoding raises ILL with W0; a fetch that fails raises its
cause at PC (R34, R35). Each trap is the entry of TrapEntry. -/
def Obligations.SoftwareTrapsEnter : Prop :=
  ∀ (s : State) (imm : BitVec 20) (w0 : BitVec 32) (v : Word), s.me.lvl < 2 →
    let at' := fun (k : Nat) => s.after 8 + BitVec.ofNat 64 (4 * k)
    let isPad (k : Nat) : Prop := ∃ len w, (s.fetch s.cur (at' k)).1 = .ok .pad len w
    (∃ k, (∀ j, j < k → isPad j) ∧ (k < 2 ^ 62 → ¬ isPad k)
      ∧ ((∀ j, j ≤ k → (s.fetch s.cur (at' j)).2.met = false) →
        exec (.trap imm) s = .next (s.trap s.cur .soft (imm.setWidth 64) (at' k) false false)
        ∧ (s.broken s.me.core = false →
          exec (.brk imm) s = .next (s.trap s.cur .soft (2 ^ 63 + imm.setWidth 64) (at' k) false false))))
    ∧ (s.broken s.me.core = true → Completes (.brk imm) s fun t =>
      OnlyContext s t s.cur ∧ t.thr s.cur = { s.me with run := .sleeping, wait := .debug })
    ∧ exec (.unassignedEncoding w0) s = .next (s.trap s.cur .ill (w0.setWidth 64) s.me.pc false false)
    ∧ ∀ e ∈ [(FetchCause.transf, Cause.transf), (.deed, .deed), (.straddle, .straddle), (.align, .align), (.mchk, .mchk)],
        exec (.fetchFault e.1 v) s = .next (s.trap s.cur e.2 v s.me.pc false false)

/-- RTT at level 1 or 2, in kernel mode or where the level was entered by delegation, and to no higher privilege: PRIV and
PC come back from the level's PV and TRET, the level falls by one, the reservation set empties, and what the thread kept of
its first issue is gone; nothing else changes (R313).
RTT at level 0 raises ILL; in user mode at a level not entered by delegation, and to a higher privilege, PRIV (R313); where it
would set PC to an address that is no multiple of 4, ALIGN with that address (R22). -/
def Obligations.RttReturns : Prop :=
  (∀ s : State,
    let x := s.me
    (x.lvl = 1 → (x.priv = .user → x.cause1.getLsbD 61 = true) → x.pv1.code ≤ x.priv.code →
      (x.ret1.toNat % 4 = 0 → Completes .rtt s fun t => OnlyContext { s with regs := t.regs } t s.cur
        ∧ t.thr s.cur = { x with priv := x.pv1, lvl := 0, pc := x.ret1, resv := [], hit := 0, snap := none })
      ∧ (x.ret1.toNat % 4 ≠ 0 → exec .rtt s = .next (s.raise s.cur .align x.ret1)))
    ∧ (x.lvl = 2 → (x.priv = .user → x.cause2.getLsbD 61 = true) → x.pv2.code ≤ x.priv.code →
      (x.ret2.toNat % 4 = 0 → Completes .rtt s fun t => OnlyContext { s with regs := t.regs } t s.cur
        ∧ t.thr s.cur = { x with priv := x.pv2, lvl := 1, pc := x.ret2, resv := [], hit := 0, snap := none })
      ∧ (x.ret2.toNat % 4 ≠ 0 → exec .rtt s = .next (s.raise s.cur .align x.ret2))))
  ∧ (∀ s : State,
    let x := s.me
    (x.lvl = 0 → exec .rtt s = .next (s.raise s.cur .ill (w0Of .rtt)))
    ∧ (x.lvl = 1 → (x.priv = .user ∧ x.cause1.getLsbD 61 = false ∨ x.priv.code < x.pv1.code) →
        exec .rtt s = .next (s.raise s.cur .priv (w0Of .rtt)))
    ∧ (x.lvl = 2 → (x.priv = .user ∧ x.cause2.getLsbD 61 = false ∨ x.priv.code < x.pv2.code) →
        exec .rtt s = .next (s.raise s.cur .priv (w0Of .rtt))))

/-- An instruction below its privilege has no effect but PRIV with W0: the SEAL instructions below steward mode; TMR.SET,
DEED, RGN.SET, BIND, UNBIND and the weight setting of MM.CFG in user mode (R34). An SRR or SRW of a kernel's register in user mode
does the same, wherever its thread runs, before it would take the thread home (R34, R116, R244, R314). -/
def Obligations.PrivilegeChecked : Prop :=
  (∀ (s : State) (n : Nat) (i : Instr), s.cur = n → (s.thr n).priv.code < (needsPriv i).code →
    runDecoded n i s = .next (s.raise n .priv (w0Of i)))
  ∧ (∀ (s : State) (n : Nat) (r : Reg) (num : BitVec 12), s.cur = n → (s.thr n).priv = .user →
    (num.toNat ∈ [0x009, 0x00A, 0x010, 0x020, 0x021, 0x031, 0x080] →
      runDecoded n (.srr r num) s = .next (s.raise n .priv (w0Of (.srr r num))))
    ∧ (num.toNat ∈ [0x000, 0x009, 0x00A, 0x00B, 0x011, 0x012, 0x020, 0x021, 0x032, 0x080] →
      runDecoded n (.srw r num) s = .next (s.raise n .priv (w0Of (.srw r num)))))
  ∧ (∀ (d a b c : Reg) (st : BitVec 2) (k m : BitVec 5) (e : BitVec 3) (l : Bool), ∀ i ∈ [Instr.sealHash d a b st,
      .sealDigest d c st, .sealSign d a c k, .sealVerify d a b c, .sealEcdh d a k m, .sealKeyload d a k, .sealRand d,
      .sealExtend d a e, .sealWipe d a l], needsPriv i = .steward)
  ∧ (∀ (d a b : Reg) (k : BitVec 3), ∀ i ∈ [Instr.tmrSet d a, .deedOffer d a, .deedAccept d a, .deedLend d a k, .deedRecall d a,
      .deedReturn d a, .deedQuery d a, .rgnDefine d a b, .rgnToSw d a b, .rgnFlush d a b, .rgnToCoherent d a b, .bind d a b,
      .unbind d a, .mmSetWeight d a], needsPriv i = .kernel)

/-! ### Memory -/

/-- A destination that is private holds `v`, and the thread has gone on at `pc`. -/
def Sys2Proof.Machine.Answered (t : State) (n : Nat) (d : Reg) (v : Word) (pc : Word) : Prop :=
  (t.thr n).pc = pc ∧ (t.thr n).run = .ready ∧ (isCommons d = false → mget 0 (t.thr n).g d.toNat = v)

/-- Without a page table translating changes nothing. With one it touches TLBs alone, but for what a walk's reads of its
tables do: each takes a free value where the table lies outside the package, crosses or wants awake the links on its way, meets
what keeps its line (the model's choice, log entry 77), finds a dropped directory entry, and is counted or reported where it is
refused or meets an error (R230, R246, R318, R319, R321, R340, R345). -/
def Obligations.TranslationTouchesTlbs : Prop :=
  ∀ (s : State) (cr : Creds) (c : Nat) (va : Word) (acc : Acc),
    let t := (s.translateAs cr c va acc).2
    ((cr.priv = .steward ∨ cr.atp.toNat / 2 ^ 60 = 0) → t = s)
    ∧ t = { s with
        cores := t.cores, dies := t.dies, free := t.free, met := t.met, carried := t.carried, dir := t.dir, txns := t.txns
        msgs := t.msgs, nextId := t.nextId }
    ∧ (∀ k, t.core k = { s.core k with tlb := (t.core k).tlb })
    ∧ (∀ m ∈ s.msgs, m ∈ t.msgs)
    ∧ ∀ d, t.die d = { s.die d with
        tlb := (t.die d).tlb, mcrec := (t.die d).mcrec, msi := (t.die d).msi, winerr := (t.die d).winerr
        linkH := { (s.die d).linkH with want := (t.die d).linkH.want }
        linkV := { (s.die d).linkV with want := (t.die d).linkV.want } }

/-- A load, store, atomic or wait whose address is no multiple of its size raises ALIGN with the address, before any
access, a local store's and another core's too (R100, R132, R157, R158, R251, R252, R253, R292, R295, R296). -/
def Obligations.MisalignedAccessTraps : Prop :=
  ∀ (s : State) (d a b c e : Reg) (f : AForm) (disp : BitVec 20) (sz : Size) (z dw q : Bool) (ord : LdOrd) (o : StOrd) (x : AtOrd)
    (y : WaitCmp),
    ((s.addr s.cur a f).toNat % sz.bytes ≠ 0 → ∀ i ∈ [Instr.ld d a f sz z ord, .st a f c sz o, .push a f c d sz, .ldl d a f sz z,
        .stl a f c sz],
      exec i s = .next (s.raise s.cur .align (s.addr s.cur a f)))
    ∧ ((s.reg s.cur a).toNat % (if dw then 8 else 4) ≠ 0 → ∀ i ∈ [Instr.amoAdd d a c x dw, .amoAnd d a c x dw, .amoOr d a c x dw,
        .amoXor d a c x dw, .amoMin d a c x dw, .amoMax d a c x dw, .amoMinn d a c x dw, .amoMaxn d a c x dw, .amoSwap d a c x dw,
        .amoCas d a c e x dw, .lr d a q dw, .sc d a c q dw, .waita d a y !dw, .amoxAdd d a b c x dw, .amoxAnd d a b c x dw,
        .amoxOr d a b c x dw, .amoxXor d a b c x dw, .amoxMin d a b c x dw, .amoxMax d a b c x dw, .amoxMinn d a b c x dw,
        .amoxMaxn d a b c x dw, .amoxSwap d a b c x dw, .amoxCas d a b c e x dw],
      exec i s = .next (s.raise s.cur .align (s.reg s.cur a)))
    ∧ ((s.reg s.cur a).toNat % 4 ≠ 0 → ∀ i ∈ [Instr.amoFadd d a c x, .amoFaddBf16 d a c x, .amoxFadd d a b c x, .amoxFaddBf16 d a b c x],
      exec i s = .next (s.raise s.cur .align (s.reg s.cur a)))
    ∧ ((s.reg s.cur a + disp.signExtend 64).toNat % sz.bytes ≠ 0 → ∀ i ∈ [Instr.ldx d a b disp sz z, .stx a b c disp sz],
      exec i s = .next (s.raise s.cur .align (s.reg s.cur a + disp.signExtend 64)))

/-- A plain load of a cacheable or software-managed line that the core's L1 holds reads the copy's bytes, extended to 64 bits,
in write-back cycle t + 5; a D copy becomes V. One whose bytes the thread's own unacknowledged store overlaps waits for that
store instead (R110, R223, R228, R239, R251).
On a fabric at rest (log entry 4) an LD.acq or LD.strm, a load of streaming memory and a plain load that is served at the home reads
the home slice's bytes, little-endian, and fills no cache; a plain load of a line that the L1 lacks reads them and leaves the line
there, a software-managed one in C, a cacheable one in V with the core as its sharer; the
roll must grant the read (R4, R228, R229, R239, R251, R328). A load of a device register reads its bytes; one of the system region
waits for its completion from outside, a reduction window's too, which the target refuses then (R17, R289, R344). A home slice reads the bytes that memory holds, but for an entry of the roll
where the roll lies (R326). -/
def Obligations.LoadsComplete : Prop :=
  (∀ (s s1 : State) (d a : Reg) (f : AForm) (sz : Size) (z : Bool) (pa : Nat) (kind : Kind) (l : L1Line),
    (s.addr s.cur a f).toNat % sz.bytes = 0 →
    s.locate s.cur (commonsRef (.ld d a f sz z .plain)) (s.addr s.cur a f) .load = (.here pa kind false, s1) →
    (kind = .cacheable ∨ kind = .software) → s1.l1 (s1.thr s.cur).core (pa / 128) = some l →
    (s1.overlaps s.cur pa sz.bytes = [] → Completes (.ld d a f sz z .plain) s fun t =>
      Wrote ((s1.setL1 (s1.thr s.cur).core (pa / 128)
          (some { l with st := if l.st = .d then .v else l.st, stamp := (s1.core (s1.thr s.cur).core).l1clock })).onCore
          (s1.thr s.cur).core fun x => { x with l1clock := x.l1clock + 1 })
        t s.cur d (extend sz.bytes (!z) (lineGet l.data (pa % 128) sz.bytes)) 5 ((s1.thr s.cur).pc + word f.len))
    ∧ (s1.overlaps s.cur pa sz.bytes ≠ [] → Completes (.ld d a f sz z .plain) s fun t =>
      OnlyContext s1 t s.cur ∧ (t.thr s.cur).run = .waiting ∧ (t.thr s.cur).wait = .ops (s1.overlaps s.cur pa sz.bytes)
        ∧ (t.thr s.cur).pc = (s1.thr s.cur).pc ∧ (t.thr s.cur).g = (s1.thr s.cur).g))
  ∧ (∀ (s s1 : State) (d a : Reg) (f : AForm) (sz : Size) (z : Bool) (ord : LdOrd) (pa : Nat) (kind : Kind) (far : Bool),
    let n := s.cur
    let c := (s1.thr n).core
    let v := extend sz.bytes (!z) (word (s1.homeRead pa sz.bytes))
    let pc := (s1.thr n).pc + word f.len
    (s.addr n a f).toNat % sz.bytes = 0 →
    s.locate n (commonsRef (.ld d a f sz z ord)) (s.addr n a f) .load = (.here pa kind far, s1) →
    (s1.Calm → (kind = .cacheable ∧ (ord ≠ .plain ∨ far = true) ∨ kind = .streaming) → s1.granted (s1.domainOf n) pa = true →
      s1.flawed false pa sz.bytes = false → Completes (.ld d a f sz z ord) s fun t =>
        Wrote { s1.tagged with l2 := t.l2, carried := t.carried } t n d v replyDelay pc)
    ∧ (s1.Calm → kind = .software → ord = .plain → far = false → s1.granted (s1.domainOf n) pa = true →
      s1.flawed false (pa / 128 * 128) 128 = false → (s1.core c).l1 = [] → s1.regionSt (pa / 128 * 128) = 0 →
      Completes (.ld d a f sz z ord) s fun t =>
        t.mem = s1.mem ∧ Answered t n d v pc
        ∧ t.l1 c (pa / 128) = some { st := .c, data := s1.homeLine (pa / 128), stamp := (s1.core c).l1clock })
    ∧ (s1.Calm → kind = .cacheable → ord = .plain → far = false → s1.granted (s1.domainOf n) pa = true →
      s1.flawed false (pa / 128 * 128) 128 = false → (s1.core c).l1 = [] → s1.regionSt (pa / 128 * 128) = 0 →
      Completes (.ld d a f sz z ord) s fun t =>
        t.mem = s1.mem ∧ Answered t n d v pc ∧ (t.dirOf (pa / 128)).form = .p [c]
        ∧ t.l1 c (pa / 128) = some { st := .v, data := s1.homeLine (pa / 128), stamp := (s1.core c).l1clock })
    ∧ (kind = .device → s1.heldBack n = [] → s1.sdBusy pa = false → Completes (.ld d a f sz z ord) s fun t =>
        Wrote s1 t n d (extend sz.bytes (!z) (s1.devRead (deviceDie pa) (deviceOff pa) sz.bytes)) replyDelay pc)
    ∧ (kind = .system → Completes (.ld d a f sz z ord) s fun t =>
        (∃ m, t.msgs = s1.msgs ++ [m] ∧ m.dst = s1.sysNode n pa ∧ m.body = .system n pa sz.bytes true none 0 0 false
          ∧ (t.thr n).wait = .reply m.id)
        ∧ (t.thr n).run = .waiting ∧ (t.thr n).pc = (s1.thr n).pc ∧ t.mem = s1.mem))
  ∧ (∀ (s : State) (pa size f : Nat),
    (s.entryFrame pa = none → s.entryFrame (pa + size - 1) = none → s.homeRead pa size = readN s.mem pa size)
    ∧ ((∀ i, i < 8 → s.entryFrame (pa + i) = some f) → pa % 8 = 0 → s.homeRead pa 8 = (s.deed f).word.toNat))

/-- A window operation that is sent leaves memory as it is: the message is in flight to the line's home, behind what a
FENCE recorded and any write-back of the line that is still held at the core, and the thread goes on with one more unacknowledged
store (R96, R252, R283, R298). -/
def Sys2Proof.Machine.SentStore (s t : State) (n pa size len : Nat) (b : Body) (strm : Bool) : Prop :=
  t = { s.tagged with threads := t.threads
                      msgs := s.msgs ++ [{ id := s.nextId, src := .core (s.thr n).core, dst := s.homeNode pa
                                           after := s.heldBack n ++ s.heldBacks (s.thr n).core (pa / 128), body := b }] }
  ∧ (∀ m, m ≠ n → t.thr m = s.thr m)
  ∧ t.thr n = { s.thr n with pc := (s.thr n).pc + word len, run := .ready, wait := .none, cont := none, snap := none
                             unacked := (s.thr n).unacked ++
                               [{ id := s.nextId, pa := pa, size := size, ctx := (s.thr n).ctx, dom := (s.thr n).domain, strm := strm }] }

/-- ST, CL.ZERO, PUSH and PUSHL to cacheable or streaming memory send their bytes to the line's home and go on, where the
thread's window of 8 has room and no die relocks; an ST.rel has no earlier store of its own to await (R96, R252, R253, R254, R279,
R337). A PUSH or PUSHL carries the cores that its set names, a mask in memory being read first (R234). To
software-managed memory a plain ST changes its core's copy of the line, which becomes M, and no memory, a CL.ZERO makes such a copy
of zeros, but for an open counter's line, which it stores to, and a PUSH or PUSHL goes to the
home (R239, R253, R254, R256); an ST or a PUSH to a device register is the write of that register, to the system region a store
that its port or link accepts at once, CL.ZERO's of 128 bytes too; a CL.ZERO of device registers raises TRANSS, and a PUSHL
to either changes nothing (R17, R252, R253, R254, R289).
The set of a PUSH: tile form names the cores of its tiles in its lanes; pointer form those of the mask that memory holds where it
points, once no store of the thread to the mask is under way (R234, R281). -/
def Obligations.StoresSend : Prop :=
  (∀ (s s0 s1 : State) (a c d : Reg) (f : AForm) (disp : Off) (sz : Size) (o : StOrd) (pa : Nat) (kind : Kind) (far : Bool)
      (mask : BitVec 256),
    s1.windowFull s.cur = false → (∀ d, s1.halted d = false) →
    let n := s.cur
    let v : Line := BitVec.ofNat 1024 ((s.reg n c).toNat % 2 ^ (8 * sz.bytes))
    let into := fun (i : Instr) (k : Kind) (far : Bool) => (s.addr n a f).toNat % sz.bytes = 0 ∧
      s.locate n (commonsRef i) (s.addr n a f) .store = (.here pa k far, s1)
    let named := fun (i : Instr) (k : Kind) => s.pushMask n (s.reg n d) = (.mask mask, s0) ∧
      s0.locate n (commonsRef i) (s.addr n a f) .store = (.here pa k far, s1)
    let aligned := (s.addr n a f).toNat % sz.bytes = 0
    let line := pa / 128
    let core := (s1.thr n).core
    let set' := coreSet (dieOf core) (s.reg n d) mask
    let dirt : BitVec 128 := BitVec.ofNat 128 ((2 ^ sz.bytes - 1) * 2 ^ (pa % 128))
    (into (.st a f c sz .plain) .software false →
      (∀ l, s1.l1 core (pa / 128) = some l → Completes (.st a f c sz .plain) s fun t =>
        Moved (s1.setL1 core (pa / 128)
            (some { l with st := .m, data := lineSet l.data (pa % 128) sz.bytes v.toNat, dirty := l.dirty ||| dirt }))
          t n ((s1.thr n).pc + word f.len))
      ∧ (s1.Calm → (s1.core core).l1 = [] → s1.regionSt (pa / 128 * 128) = 0 → s1.granted (s1.domainOf n) pa = true →
        s1.flawed false (pa / 128 * 128) 128 = false → Completes (.st a f c sz .plain) s fun t =>
          t.mem = s1.mem ∧ (t.thr n).pc = (s1.thr n).pc + word f.len ∧ (t.thr n).run = .ready
          ∧ t.l1 core (pa / 128) = some {
              st := .m, data := lineSet (s1.homeLine (pa / 128)) (pa % 128) sz.bytes v.toNat, dirty := dirt
              stamp := (s1.core core).l1clock }))
    ∧ (into (.st a f c sz o) .software far → (o ≠ .plain ∨ far = true) → (o = .rel → (s1.thr n).unacked = []) →
      Completes (.st a f c sz o) s fun t =>
        SentStore (s1.cleanM core (pa / 128)) t n pa sz.bytes f.len (.store n pa sz.bytes v) (decide (o = .strm)))
    ∧ ((aligned → named (.push a f c d sz) .software → Completes (.push a f c d sz) s fun t =>
        SentStore (s1.cleanM core line) t n pa sz.bytes f.len (.push n pa (some (sz.bytes, v)) set' false) false)
      ∧ (named (.pushl a f d) .software → Completes (.pushl a f d) s fun t =>
        SentStore (s1.cleanM core line) t n pa 128 f.len (.push n pa none set' false) false))
    ∧ (∀ i ∈ [Instr.st a f c sz o, .push a f c d sz], (o = .rel → (s1.thr n).unacked = []) →
      let goes := fun (k : Kind) => if i = .push a f c d sz then aligned ∧ named i k else into i k far
      (goes .device → s1.heldBack n = [] → Completes i s fun t =>
        Moved (s1.devWrite (.core core) (s1.domainOf n) (deviceDie pa) (deviceOff pa) sz.bytes (v.setWidth 64)) t n
          ((s1.thr n).pc + word f.len))
      ∧ (goes .system → s1.heldBack n = [] → Completes i s fun t =>
        (∃ m, t.msgs = s1.msgs ++ [m] ∧ m.dst = s1.sysNode n pa ∧ m.body = .system n pa sz.bytes false none (v.setWidth 64) 0 true
          ∧ (t.thr n).unconfirmed = (s1.thr n).unconfirmed ++ [m.id + 1])
        ∧ (t.thr n).unacked = (s1.thr n).unacked ∧ (t.thr n).pc = (s1.thr n).pc + word f.len ∧ t.mem = s1.mem))
    ∧ ((kind = .device ∨ kind = .system) → named (.pushl a f d) kind →
      Completes (.pushl a f d) s fun t => Moved s1 t n ((s1.thr n).pc + word f.len))
    ∧ (s.locate n (commonsRef (.clZero a disp)) (clAddr a disp s) .store = (.here pa kind far, s1) →
      ((kind = .cacheable ∨ kind = .streaming) → Completes (.clZero a disp) s fun t =>
        SentStore s1 t n (line * 128) 128 disp.len (.store n (line * 128) 128 0) false)
      ∧ (kind = .software → far = true → Completes (.clZero a disp) s fun t =>
        SentStore (s1.cleanM core line) t n (line * 128) 128 disp.len (.store n (line * 128) 128 0) false)
      ∧ (kind = .software → far = false → s1.counterOpen line = true → Completes (.clZero a disp) s fun t =>
        SentStore s1 t n (line * 128) 128 disp.len (.store n (line * 128) 128 0) false)
      ∧ (kind = .software → far = false → s1.counterOpen line = false → (s1.core core).l1 = [] → s1.regionSt (line * 128) = 0 →
        Completes (.clZero a disp) s fun t =>
          t.mem = s1.mem ∧ (t.thr n).pc = (s1.thr n).pc + word disp.len ∧ (t.thr n).run = .ready
          ∧ t.l1 core line = some { st := .m, data := 0, dirty := ~~~0, stamp := (s1.core core).l1clock })
      ∧ (kind = .system → s1.heldBack n = [] → Completes (.clZero a disp) s fun t =>
        (∃ m, t.msgs = s1.msgs ++ [m] ∧ m.dst = s1.sysNode n (line * 128) ∧ m.body = .system n (line * 128) 128 false none 0 0 true
          ∧ (t.thr n).unconfirmed = (s1.thr n).unconfirmed ++ [m.id + 1])
        ∧ (t.thr n).unacked = (s1.thr n).unacked ∧ (t.thr n).pc = (s1.thr n).pc + word disp.len ∧ t.mem = s1.mem)
      ∧ (kind = .device → exec (.clZero a disp) s = .next (s1.raise n .transs (clAddr a disp s))))
    ∧ ((kind = .cacheable ∨ kind = .streaming) →
    (into (.st a f c sz o) kind far → (o = .rel → (s1.thr n).unacked = []) →
      Completes (.st a f c sz o) s fun t => SentStore s1 t n pa sz.bytes f.len (.store n pa sz.bytes v) (decide (o = .strm)))
    ∧ (aligned → named (.push a f c d sz) kind → Completes (.push a f c d sz) s fun t =>
        SentStore s1 t n pa sz.bytes f.len (.push n pa (some (sz.bytes, v)) set' (kind == .cacheable)) false)
    ∧ (named (.pushl a f d) kind → Completes (.pushl a f d) s fun t =>
        SentStore s1 t n pa 128 f.len (.push n pa none set' (kind == .cacheable)) false)))
  ∧ (∀ (s s0 : State) (n pa : Nat) (v : Word) (kind : Kind),
    (v.getLsbD 63 = true → s.pushMask n v = (.mask 0, s))
    ∧ (v.getLsbD 63 = false → v.toNat % 32 ≠ 0 → s.pushMask n v = (.refuse .align v, s))
    ∧ (v.getLsbD 63 = false → v.toNat % 32 = 0 → s.translate n v .load = (.ok pa kind, s0) →
      (kind = .cacheable ∨ kind = .streaming ∨ kind = .software) → s.cut (dieOf (s.thr n).core) (homeDie pa) = false →
      (s.overlaps n pa 32 ≠ [] → s.pushMask n v = (.own (s.overlaps n pa 32), s0))
      ∧ (s.overlaps n pa 32 = [] → s.granted (s.domainOf n) pa = true → s0.flawed false pa 32 = false →
        (s.pushMask n v).1 = .mask (BitVec.ofNat 256 (s.homeRead pa 32)))))
  ∧ (∀ (d c : Nat) (v : Word) (mask : BitVec 256), c ∈ coreSet d v mask ↔ c / 256 = d
    ∧ (if v.getLsbD 63 = true then v.getLsbD (tileOf c % 32) = true ∧ v.getLsbD (40 + laneOf c) = true else mask.getLsbD (c % 256) = true))

/-- A line is in the L2, or its set there has room (R227). -/
abbrev Sys2Proof.Machine.State.hasL2Room (s : State) (line : Nat) : Prop :=
  (mget none s.l2 line).isSome = true ∨ (s.l2Others line).length < 16

/-- HOME_STORE and HOME_PUSH of a store that can be delivered, to a line that is granted to the domain in which it issued, with
a directory entry at hand and no open counter: memory takes the bytes at the address and no other byte, and the message has
gone (R229, R252, R253, R317, R328).
HOME_FILL of a read without a fill and STORE_ACK, whose messages can be delivered: the reply writes the destination
with the home's bytes and lets the thread go on; the acknowledgement takes the store out of its thread's window, and
memory stands (R228, R229, R252). -/
def Obligations.HomesServe : Prop :=
  (∀ (s : State) (id n pa size : Nat) (src dst : Node) (after : List Nat) (v : Line) (cores : List Nat) (reach : Bool) (b : Body),
    (b = .store n pa size v ∨ b = .push n pa (some (size, v)) cores reach) → s.due id = some ⟨id, src, dst, after, b⟩ →
    (s.dirOf (pa / 128)).form ≠ .x → s.granted (s.storeDom n id) pa = true → s.counterOpen (pa / 128) = false → id < s.nextId →
    (b = .store n pa size v → Completes (.homeStore id) s fun t =>
        StoredAt s t pa size v.toNat ∧ t.loc = s.loc ∧ t.threads = s.threads ∧ t.msg id = none)
    ∧ (b = .push n pa (some (size, v)) cores reach → s.flawed false (pa / 128 * 128) 128 = false → Completes (.homePush id) s fun t =>
        StoredAt s t pa size v.toNat ∧ t.loc = s.loc ∧ t.threads = s.threads ∧ t.msg id = none))
  ∧ (∀ (s : State) (id n pa size op : Nat) (src dst : Node) (after : List Nat) (k : Cont) (d : Reg),
    (s.due id = some ⟨id, src, dst, after, .read n pa size .acquire⟩ → (s.thr n).cont = some k → k.d = some d →
      (s.dirOf (pa / 128)).form ≠ .x → s.granted (s.domainOf n) pa = true → s.flawed false pa size = false → s.hasL2Room (pa / 128) →
      Completes (.homeFill id none false) s fun t =>
        Wrote { s.drop id with l2 := t.l2 } t n d (extend k.size k.sign (word (s.homeRead pa size))) replyDelay
          ((s.thr n).pc + word k.len))
    ∧ (s.due id = some ⟨id, src, dst, after, .ack n op⟩ → Completes (.storeAck id) s fun t =>
      (∀ u ∈ (t.thr n).unacked, u.id ≠ op) ∧ t.mem = s.mem ∧ t.loc = s.loc ∧ t.msg id = none))

/-- The shared shape of an atomic that is served: memory holds the new value at the address, where there is one, and the
destination the old one, sign-extended (R293). -/
def Sys2Proof.Machine.Swapped (s t : State) (n pa size : Nat) (new : Option Nat) (d : Reg) : Prop :=
  (match new with | some v => StoredAt s t pa size v | none => t.mem = s.mem)
  ∧ ∃ u, u = { s with mem := t.mem, nextId := t.nextId, l2 := t.l2, carried := t.carried } ∧
    Wrote u t n d (extend size true (word (s.homeRead pa size))) replyDelay ((s.thr n).pc + 8)

/-- The AMO instructions with the operation of each. -/
abbrev Sys2Proof.Machine.amoTable (d a c : Reg) (o : AtOrd) (dw : Bool) : List (Instr × AtFn) :=
  [(.amoAdd d a c o dw, .add), (.amoAnd d a c o dw, .and), (.amoOr d a c o dw, .or), (.amoXor d a c o dw, .xor),
   (.amoMin d a c o dw, .min), (.amoMax d a c o dw, .max), (.amoMinn d a c o dw, .minn), (.amoMaxn d a c o dw, .maxn),
   (.amoSwap d a c o dw, .swap)]

/-- On a fabric at rest (log entry 4) an AMO to granted memory of the package, its line not M in the issuing core's L1, is served
in its own step: memory holds what R293 computes from the old value and register C, at no other byte, and D the old value;
AMO.CAS writes only where the old value equals its comparand; AMO.FADD and AMO.FADD.BF16 are always of 4 bytes (R292, R293).
To a device register an AMO raises TRANSS; to the system region outside a window AMO.ADD, AMO.SWAP and AMO.CAS wait for their
completion from outside and the others raise TRANSS; into a window the operation of its format is a posted add that answers 0
(R17, R289, R292, R344).
What the integer operations of an atomic compute from the old value and the operand, both cut to the size (R293). What
AMO.FADD computes: the sum of two finite FP32 values rounded once to nearest even, and the canonical NaN where either is a NaN
(R87). -/
def Obligations.AtomicsComplete : Prop :=
  (∀ (s s1 : State) (d a c m : Reg) (o : AtOrd) (dw : Bool) (pa : Nat) (kind : Kind) (far : Bool),
    let n := s.cur
    let size := if dw then 8 else 4
    let va := s.reg n a
    let all := (amoTable d a c o dw).map (·, size) ++ [((.amoCas d a c m o dw, .cas), size), ((.amoFadd d a c o, .fadd), 4),
      ((.amoFaddBf16 d a c o, .faddBf16), 4)]
    let y := fun (e : (Instr × AtFn) × Nat) => if e.1.2 = .cas then s.reg n m else 0
    (s1.thr n).unacked = [] →
    (∀ e ∈ all, va.toNat % e.2 = 0 → s.translate n va .store = (.ok pa kind, s1) → s1.met = false →
      (kind = .device → exec e.1.1 s = .next (s1.raise n .transs va))
      ∧ (kind = .system → s.windowFmt n pa = none → ¬ e.1.2 ∈ [.add, .swap, .cas] → exec e.1.1 s = .next (s1.raise n .transs va))
      ∧ (∀ w, kind = .system → s.windowFmt n pa = some w → windowTakes w e.1.2 e.2 = false →
        exec e.1.1 s = .next (s1.raise n .transs va)))
    ∧ (∀ e ∈ all, va.toNat % e.2 = 0 → s.locate n (commonsRef e.1.1) va .store = (.here pa .system far, s1) →
      (s.windowFmt n pa = none → e.1.2 ∈ [.add, .swap, .cas] → Completes e.1.1 s fun t =>
        (∃ k, t.msgs = s1.msgs ++ [k] ∧ k.dst = s1.sysNode n pa
          ∧ k.body = .system n pa e.2 false (some e.1.2) (s.reg n c) (y e) false ∧ (t.thr n).wait = .reply k.id)
        ∧ (t.thr n).run = .waiting ∧ (t.thr n).pc = (s1.thr n).pc ∧ t.mem = s1.mem)
      ∧ (∀ w, s.windowFmt n pa = some w → windowTakes w e.1.2 e.2 = true → s1.windowFull n = false → s1.heldBack n = [] →
        (∀ g, s1.halted g = false) → Completes e.1.1 s fun t =>
          (∃ k, t.msgs = s1.msgs ++ [k] ∧ k.body = .system n pa 4 false (some e.1.2) (s.reg n c) 0 true)
          ∧ Answered t n d 0 ((s1.thr n).pc + 8) ∧ t.mem = s1.mem))
    ∧ ((kind = .cacheable ∨ kind = .streaming ∨ kind = .software) → s1.Calm → s1.granted (s1.domainOf n) pa = true →
    (∀ l, s1.l1 (s1.thr n).core (pa / 128) = some l → l.st ≠ .m) → s1.flawed false pa 4 = false → s1.flawed false pa size = false →
    (∀ i ∈ (s1.thr n).gate, ¬ i ∈ s1.openOps n) →
    (va.toNat % size = 0 →
      (∀ e ∈ amoTable d a c o dw, s.locate n (commonsRef e.1) va .store = (.here pa kind far, s1) → Completes e.1 s fun t =>
        Swapped s1 t n pa size (atomicNew e.2 size (s1.homeRead pa size) (s.reg n c).toNat 0) d)
      ∧ (s.locate n (commonsRef (.amoCas d a c m o dw)) va .store = (.here pa kind far, s1) →
        Completes (.amoCas d a c m o dw) s fun t =>
          Swapped s1 t n pa size (if s1.homeRead pa size = (s.reg n m).toNat % 2 ^ (8 * size)
            then some ((s.reg n c).toNat % 2 ^ (8 * size)) else none) d))
    ∧ (va.toNat % 4 = 0 → ∀ e ∈ [(Instr.amoFadd d a c o, AtFn.fadd), (.amoFaddBf16 d a c o, .faddBf16)],
        s.locate n (commonsRef e.1) va .store = (.here pa kind far, s1) → Completes e.1 s fun t =>
          Swapped s1 t n pa 4 (atomicNew e.2 4 (s1.homeRead pa 4) (s.reg n c).toNat 0) d)))
  ∧ (∀ (dw : Bool) (old x cmp : Nat),
    let size := if dw then 8 else 4
    let n := 8 * size
    let o := old % 2 ^ n
    let y := x % 2 ^ n
    let neg := fun (v : Nat) => if v < 2 ^ (n - 1) then (v : Int) else (v : Int) - 2 ^ n
    atomicNew .add size old x cmp = some ((o + y) % 2 ^ n) ∧ atomicNew .swap size old x cmp = some y
    ∧ atomicNew .and size old x cmp = some (o &&& y) ∧ atomicNew .or size old x cmp = some (o ||| y)
    ∧ atomicNew .xor size old x cmp = some (o ^^^ y)
    ∧ atomicNew .min size old x cmp = some (if neg o ≤ neg y then o else y)
    ∧ atomicNew .max size old x cmp = some (if neg y ≤ neg o then o else y)
    ∧ atomicNew .minn size old x cmp = some (if o ≤ y then o else y) ∧ atomicNew .maxn size old x cmp = some (if y ≤ o then o else y)
    ∧ atomicNew .cas size old x cmp = if o = cmp % 2 ^ n then some y else none)
  ∧ (∀ (old x cmp : Nat), ∃ z, atomicNew .fadd 4 old x cmp = some z
    ∧ (fp32Finite (old % 2 ^ 32) → fp32Finite (x % 2 ^ 32) →
      FpIs z (fp32Value (old % 2 ^ 32) + fp32Value (x % 2 ^ 32)) 1 (decide (2 ^ 31 ≤ old % 2 ^ 32) && decide (2 ^ 31 ≤ x % 2 ^ 32)))
    ∧ (fp32Nan (old % 2 ^ 32) ∨ fp32Nan (x % 2 ^ 32) → z = 0x7FC0_0000))

/-- HOME_ATOMIC of an atomic that can be delivered, to a granted line that nobody shares, watches for or counts on: memory
takes the new value and the issuer's destination the old one (R229, R293). -/
def Obligations.HomeAtomicPerforms : Prop :=
  ∀ (s : State) (id n pa size : Nat) (src dst : Node) (after : List Nat) (fn : AtFn) (x cmp : Word) (k : Cont) (d : Reg),
    s.due id = some ⟨id, src, dst, after, .atomic n pa (.atomic fn size x cmp)⟩ →
    (s.thr n).cont = some k → k.d = some d → s.dirOf (pa / 128) = {} → (∀ p ∈ s.regs, p.2 ≠ pa / 128) →
    s.granted (s.domainOf n) pa = true → s.flawed false pa size = false → s.counterOpen (pa / 128) = false →
    s.hasL2Room (pa / 128) → Completes (.homeAtomic id false false) s fun t =>
      (match atomicNew fn size (s.homeRead pa size) x.toNat cmp.toNat with
        | some v => StoredAt s t pa size v
        | none => t.mem = s.mem)
      ∧ Wrote { s.drop id with mem := t.mem, l2 := t.l2 } t n d (extend k.size k.sign (word (s.homeRead pa size))) replyDelay
          ((s.thr n).pc + word k.len)

/-- LR reads its word and reserves the line; SC to a line outside the thread's set writes nothing and answers 0, and one to
a line that its slice has registered for the thread writes the word and answers 1; WAITRS takes a HIT that has come, and
answers 0 for an empty set (R294 to R297). An LR of a device register or of the system region raises TRANSL, and an SC TRANSS (R295,
R296). -/
def Obligations.ReservationsComplete : Prop :=
  ∀ (s s1 : State) (d a c : Reg) (q dw : Bool) (pa : Nat) (kind : Kind) (far : Bool),
    let n := s.cur
    let size := if dw then 8 else 4
    let va := s.reg n a
    ((kind = .device ∨ kind = .system) → va.toNat % size = 0 → s1.met = false →
      (s.translate n va .load = (.ok pa kind, s1) → exec (.lr d a q dw) s = .next (s1.raise n .transl va))
      ∧ (s.translate n va .store = (.ok pa kind, s1) → exec (.sc d a c q dw) s = .next (s1.raise n .transs va)))
    ∧ ((kind = .cacheable ∨ kind = .streaming) → s1.granted (s1.domainOf n) pa = true → va.toNat % size = 0 → (s1.thr n).unacked = [] →
    (s1.Calm → s1.flawed false pa size = false → s.locate n (commonsRef (.lr d a q dw)) va .load = (.here pa kind far, s1) →
      Completes (.lr d a q dw) s fun t => Wrote { s1.tagged with
          regs := [(n, pa / 128)], l2 := t.l2, carried := t.carried, threads := (s1.onThr n fun x => { x with resv := addResv x.resv (pa / 128) }).threads }
        t n d (extend size true (word (s1.homeRead pa size))) replyDelay ((s1.thr n).pc + 8))
    ∧ (s.locate n (commonsRef (.sc d a c q dw)) va .store = (.here pa kind far, s1) → ¬ pa / 128 ∈ (s1.thr n).resv →
      Completes (.sc d a c q dw) s fun t => Wrote (s1.clearResv n) t n d 0 replyDelay ((s1.thr n).pc + 8))
    ∧ (s.locate n (commonsRef (.sc d a c q dw)) va .store = (.here pa kind far, s1) → pa / 128 ∈ (s1.thr n).resv →
      { s1 with regs := [] }.Calm → s1.regs = [(n, pa / 128)] → (∀ i ∈ (s1.thr n).gate, ¬ i ∈ s1.openOps n) →
      Completes (.sc d a c q dw) s fun t =>
        StoredAt s1 t pa size (s.reg n c).toNat ∧ (t.thr n).resv = [] ∧ t.regs = [] ∧ (t.thr n).pc = (s1.thr n).pc + 8
        ∧ (isCommons d = false → t.reg n d = 1) ∧ ∀ m, m ≠ n → t.thr m = s1.thr m))
    ∧ (s.me.hit ≠ 0 → Completes (.waitrs d) s fun t =>
        Wrote (s.onThr n fun x => { x with hit := 0 }) t n d (word s.me.hit) replyDelay (s.after 8))
    ∧ (s.me.hit = 0 → s.me.resv = [] → Completes (.waitrs d) s fun t => Wrote s t n d 0 replyDelay (s.after 8))

/-- LDL and STL access the origin core's local store within its 512 KiB: the load writes the bytes in cycle t + 5, the
store changes its bytes and no others; a load of a word with a double-bit error raises MCHK with the address (R132, R156).
An access beyond the local store raises TRANSL for a load and TRANSS for a store, with the address (R132, R156). -/
def Obligations.LocalAccessCompletes : Prop :=
  (∀ (s : State) (d a c : Reg) (f : AForm) (sz : Size) (z : Bool),
    let n := s.cur
    let x := (s.addr n a f).toNat
    x % sz.bytes = 0 → x ≤ 0x7FFFF →
    (s.flawed true (locKey (originOf n) x) sz.bytes = false → Completes (.ldl d a f sz z) s fun t =>
      Wrote s t n d (extend sz.bytes (!z) (word (s.readLoc (originOf n) x sz.bytes))) 5 (s.after f.len))
    ∧ (s.flawed true (locKey (originOf n) x) sz.bytes = true →
      exec (.ldl d a f sz z) s = .next (s.raise n .mchk (s.addr n a f)))
    ∧ (Completes (.stl a f c sz) s fun t =>
      StoredLocally s t (originOf n) x sz.bytes (s.reg n c).toNat ∧ Moved { s with loc := t.loc } t n (s.after f.len)))
  ∧ (∀ (s : State) (d a c : Reg) (f : AForm) (sz : Size) (z : Bool),
    (s.addr s.cur a f).toNat % sz.bytes = 0 → 0x7FFFF < (s.addr s.cur a f).toNat →
    exec (.ldl d a f sz z) s = .next (s.raise s.cur .transl (s.addr s.cur a f))
    ∧ exec (.stl a f c sz) s = .next (s.raise s.cur .transs (s.addr s.cur a f)))

/-- The porter of core `c` has served one arrival: its queue is empty again, its count one higher, its next turn 8 core
cycles on (R91, R94). -/
abbrev Sys2Proof.Machine.State.served (s : State) (c : Nat) : State :=
  s.tagged.onCore c fun x => { x with porter := [], portDone := x.portDone + 1, portAt := x.cycle + 8, last := 16 }

/-- The AMOX instructions with the operation of each. -/
abbrev Sys2Proof.Machine.amoxTable (d a b c : Reg) (o : AtOrd) (dw : Bool) : List (Instr × AtFn) :=
  [(.amoxAdd d a b c o dw, .add), (.amoxAnd d a b c o dw, .and), (.amoxOr d a b c o dw, .or), (.amoxXor d a b c o dw, .xor),
   (.amoxMin d a b c o dw, .min), (.amoxMax d a b c o dw, .max), (.amoxMinn d a b c o dw, .minn), (.amoxMaxn d a b c o dw, .maxn),
   (.amoxSwap d a b c o dw, .swap)]

/-- The thread waits, and the porter of core `j` holds its arrival alone. -/
def Sys2Proof.Machine.AtPorter (s t : State) (n j off : Nat) (op : PortOp) : Prop :=
  (t.core j).porter = [{ thread := n, off := off, op := op }] ∧ (t.thr n).run = .waiting ∧ (t.thr n).pc = (s.thr n).pc
    ∧ t.loc = s.loc ∧ t.mem = s.mem

/-- On a fabric at rest (log entry 4), LDX, STX and AMOX to a core of a die that is not lost, whose porter is idle, and to an aligned
offset of its local store, send their arrival to that porter and wait; the porter's issue of it completes them: LDX reads the
bytes, STX changes them and no others, AMOX leaves what R293 computes and writes the old value (R94, R153, R157, R158).
PORTER_EXECUTE of a queued store, in a core cycle in which the rotation gives the porter the issue: the local store takes its
bytes and no others, the issuer goes on, and the queue is shorter by it (R91, R94, R157). -/
def Obligations.RemoteLocalCompletes : Prop :=
  (∀ (s : State) (d a b c m : Reg) (disp : BitVec 20) (sz : Size) (z dw : Bool) (o : AtOrd) (j : Nat),
    let n := s.cur
    let size := if dw then 8 else 4
    let x := (s.reg n a + disp.signExtend 64).toNat
    let y := (s.reg n a).toNat
    s.Calm → (s.reg n b).toNat = j → j ≤ 1023 → (s.core j).porter = [] → (s.thr n).unacked = [] →
    (x % sz.bytes = 0 → x ≤ 0x7FFFF →
      (s.flawed true (locKey j x) sz.bytes = false → Completes (.ldx d a b disp sz z) s fun t => AtPorter s t n j x (.load sz.bytes) ∧
        Wrote { s.served j with carried := t.carried } (portStep j false false t) n d
          (extend sz.bytes (!z) (word (s.readLoc j x sz.bytes))) replyDelay (s.after 8))
      ∧ (Completes (.stx a b c disp sz) s fun t => AtPorter s t n j x (.store sz.bytes (s.reg n c)) ∧
        let u := portStep j false false t
        StoredLocally s u j x sz.bytes (s.reg n c).toNat ∧ Moved { s.served j with loc := u.loc, carried := t.carried } u n (s.after 8)))
    ∧ (y % size = 0 → y ≤ 0x7FFFF → s.flawed true (locKey j y) size = false → ∀ e ∈ amoxTable d a b c o dw, Completes e.1 s fun t =>
        AtPorter s t n j y (.atomic e.2 size (s.reg n c) 0) ∧
        let u := portStep j false false t
        (∀ v, atomicNew e.2 size (s.readLoc j y size) (s.reg n c).toNat 0 = some v → StoredLocally s u j y size v)
        ∧ Wrote { s.served j with loc := u.loc, carried := t.carried } u n d (extend size true (word (s.readLoc j y size))) replyDelay (s.after 8))
    ∧ (y % size = 0 → y ≤ 0x7FFFF → s.flawed true (locKey j y) size = false → Completes (.amoxCas d a b c m o dw) s fun t =>
        AtPorter s t n j y (.atomic .cas size (s.reg n c) (s.reg n m)) ∧
        let u := portStep j false false t
        (if s.readLoc j y size = (s.reg n m).toNat % 2 ^ (8 * size) then StoredLocally s u j y size (s.reg n c).toNat else u.loc = s.loc)
        ∧ Wrote { s.served j with loc := u.loc, carried := t.carried } u n d (extend size true (word (s.readLoc j y size))) replyDelay (s.after 8))
    ∧ (y % 4 = 0 → y ≤ 0x7FFFF → s.flawed true (locKey j y) 4 = false → ∀ e ∈ [(Instr.amoxFadd d a b c o, AtFn.fadd), (.amoxFaddBf16 d a b c o, .faddBf16)],
        Completes e.1 s fun t => AtPorter s t n j y (.atomic e.2 4 (s.reg n c) 0) ∧
          let u := portStep j false false t
          (∀ v, atomicNew e.2 4 (s.readLoc j y 4) (s.reg n c).toNat 0 = some v → StoredLocally s u j y 4 v)
          ∧ Wrote { s.served j with loc := u.loc, carried := t.carried } u n d (extend 4 true (word (s.readLoc j y 4))) replyDelay (s.after 8)))
  ∧ (∀ (s : State) (c n off size : Nat) (v : Word) (rest : List Arrival) (k : Cont), s.msgs = [] →
    s.resting c = false → (s.core c).gated = false → s.pick c = some 16 →
    (s.core c).porter = { thread := n, off := off, op := .store size v } :: rest → (s.thr n).cont = some k → k.d = none →
    Completes (.porterExecute c false false) s fun t =>
      StoredLocally s t c off size v.toNat ∧ t.mem = s.mem ∧ (t.core c).porter = rest ∧ (t.core c).portDone = (s.core c).portDone + 1
      ∧ t.thr n = { s.thr n with pc := (s.thr n).pc + word k.len, run := .ready, wait := .none, cont := none, snap := none })

/-- Line operations on a line of the thread's die: CL.PREF of a cacheable line asks its home for it and goes on; on a fabric at
rest (log entry 4) the line is in the core's empty L1, or with S in the slice's L2 alone; where the core holds the line, and on a line of
another die, it does nothing. CL.FLUSH of a cacheable line goes on where no store of the thread to the line is unacknowledged, else
waits for those; of a software-managed line it takes a C copy out of the L1, and sends the modified bytes of an M copy home, where memory
takes those and no others, and waits for the acknowledgement; where a write-back of the line is under way already it waits for that
one (R239). CL.INV takes the line out of the core's L1 and, with I, out
of its instruction cache (R254). -/
def Obligations.LineOpsComplete : Prop :=
  ∀ (s s1 : State) (a : Reg) (disp : Off) (g : Bool) (pa : Nat) (l : L1Line),
    let n := s.cur
    let c := (s1.thr n).core
    let line := pa / 128
    let pc := (s1.thr n).pc + word disp.len
    (s.translate n (clAddr a disp s) .load = (.ok pa .cacheable, s1) →
      ((homeDie pa ≠ dieOf c ∨ g = false ∧ s1.l1 c line ≠ none) → Completes (.clPref a disp g) s fun t => Moved s1 t n pc)
      ∧ (homeDie pa = dieOf c → s1.prompt = false → (g = true ∨ s1.l1 c line = none) → Completes (.clPref a disp g) s fun t =>
        ∃ m, m.dst = s1.homeNode pa ∧ m.body = .read n pa 8 (if g then .prefL2 else .pref)
          ∧ Moved { s1.tagged with msgs := s1.msgs ++ [m] } t n pc)
      ∧ (homeDie pa = dieOf c → s1.Calm → s1.granted (s1.domainOf n) pa = true → s1.binBusy (line * 128) = false →
        s1.flawed false (line * 128) 128 = false → s1.flawed false pa 8 = false →
        ((s1.core c).l1 = [] → (s1.die (homeDie pa)).regions = [] → Completes (.clPref a disp false) s fun t =>
          t.mem = s1.mem ∧ (t.l1 c line).map (·.data) = some (s1.homeLine line) ∧ (t.thr n).pc = pc)
        ∧ (Completes (.clPref a disp true) s fun t =>
          mget none t.l2 line = some false ∧ Moved { s1.tagged with l2 := t.l2, carried := t.carried } t n pc)))
    ∧ (s.translate n (clAddr a disp s) .flush = (.ok pa .cacheable, s1) → s1.granted (s1.domainOf n) pa = true →
      homeDie pa = dieOf c →
      (s1.overlaps n (line * 128) 128 = [] → Completes (.clFlush a disp) s fun t => Moved s1 t n pc)
      ∧ (s1.overlaps n (line * 128) 128 ≠ [] → Completes (.clFlush a disp) s fun t =>
        OnlyContext s1 t n ∧ (t.thr n).run = .waiting ∧ (t.thr n).wait = .ops (s1.overlaps n (line * 128) 128)
          ∧ (t.thr n).pc = (s1.thr n).pc))
    ∧ (s.translate n (clAddr a disp s) .flush = (.ok pa .software, s1) → s1.granted (s1.domainOf n) pa = true →
      homeDie pa = dieOf c → s1.l1 c line = none →
      (s1.backsOf c line = [] → Completes (.clFlush a disp) s fun t => Moved s1 t n pc)
      ∧ (s1.backsOf c line ≠ [] → Completes (.clFlush a disp) s fun t =>
        OnlyContext s1 t n ∧ (t.thr n).run = .waiting ∧ (t.thr n).wait = .ops (s1.backsOf c line) ∧ (t.thr n).pc = (s1.thr n).pc))
    ∧ (s.translate n (clAddr a disp s) .flush = (.ok pa .software, s1) → s1.granted (s1.domainOf n) pa = true →
      homeDie pa = dieOf c → s1.l1 c line = some l →
      (l.st ≠ .m → s1.backsOf c line = [] → Completes (.clFlush a disp) s fun t => Moved (s1.setL1 c line none) t n pc)
      ∧ (l.st ≠ .m → s1.backsOf c line ≠ [] → Completes (.clFlush a disp) s fun t =>
        OnlyContext (s1.setL1 c line none) t n ∧ (t.thr n).run = .waiting ∧ (t.thr n).wait = .ops (s1.backsOf c line)
          ∧ (t.thr n).pc = (s1.thr n).pc)
      ∧ (l.st = .m → s1.Calm → s1.granted .acc (line * 128) = true → s1.binBusy (line * 128) = false → (s1.thr n).unacked = [] →
        (∀ i ∈ (s1.thr n).gate, ¬ i ∈ s1.openOps n) → Completes (.clFlush a disp) s fun t =>
          t.l1 c line = some { l with st := .c, dirty := 0 } ∧ (t.thr n).run = .waiting ∧ (t.thr n).pc = (s1.thr n).pc
          ∧ (∃ id, (t.thr n).wait = .ops [id] ∧ ∃ m ∈ t.msgs, m.body = .ack n id)
          ∧ (∀ i, i < 128 → readByte t.mem (line * 128 + i) =
              if l.dirty.getLsbD i then l.data.extractLsb' (8 * i) 8 else readByte s1.mem (line * 128 + i))
          ∧ ∀ x, (x < line * 128 ∨ line * 128 + 128 ≤ x) → readByte t.mem x = readByte s1.mem x))
    ∧ (s.translate n (clAddr a disp s) .flush = (.ok pa .cacheable, s1) → s1.granted (s1.domainOf n) pa = true →
      homeDie pa = dieOf c → s1.watchers c (pa / 128) (pa / 128 * 128) 128 = [] →
      Completes (.clInv a disp g) s fun t => t.mem = s1.mem ∧ t.l1 c (pa / 128) = none
        ∧ (g = true → mget none (t.core c).icache (pa / 128) = none)
        ∧ t.thr n = { s1.thr n with pc := (s1.thr n).pc + word disp.len, run := .ready, wait := .none, cont := none, snap := none })

/-- A FENCE with something open among its recorded operations that only later stores must follow holds those stores and
goes on; one with nothing open goes on; one with something open that other operations must follow waits where it stands for what it
recorded, and issues again; none touches memory (R275, R277, R298).
On a fabric at rest (log entry 4) WAITA whose word differs from its comparand writes the word and goes on, and one whose word equals
it sleeps where it stands (R100). A cacheable line of the thread's own die is then tracked: its core's L1 holds it with the slot's
watch mark, and the directory has its W bit; a streaming line, and one of another die, are not (R100, R227, R228). -/
def Obligations.FenceAndWaitComplete : Prop :=
  (∀ (s : State) (scope : Scope) (pred succ : BitVec 6), pred ≠ 0 → succ ≠ 0 →
    (fenceRecord s s.cur scope pred = [] → succ &&& 0b011101 ≠ 0 →
      Completes (.fence scope pred succ) s fun t => Moved s t s.cur (s.after 8))
    ∧ (fenceRecord s s.cur scope pred ≠ [] → succ &&& 0b011101 ≠ 0 → Completes (.fence scope pred succ) s fun t =>
      OnlyContext s t s.cur ∧ t.thr s.cur =
        { s.me with run := .waiting, wait := .ops (fenceRecord s s.cur scope pred), snap := (t.thr s.cur).snap })
    ∧ (succ &&& 0b011101 = 0 → Completes (.fence scope pred succ) s fun t =>
      (∀ i ∈ fenceRecord s s.cur scope pred, i ∈ (t.thr s.cur).gate) ∧ t.mem = s.mem ∧ t.msgs = s.msgs ∧ (t.thr s.cur).pc = s.after 8))
  ∧ (∀ (s s1 : State) (d a : Reg) (y : WaitCmp) (w : Bool) (pa : Nat) (kind : Kind) (far : Bool),
    let n := s.cur
    let size := if w then 4 else 8
    let c := match y with | .reg b => s.reg n b | .i20 x => x.signExtend 64
    let cmp := if w then (c.setWidth 32).setWidth 64 else c
    let core := (s1.thr n).core
    let line := pa / 128
    (s.reg n a).toNat % size = 0 → s.locate n (commonsRef (.waita d a y w)) (s.reg n a) .load = (.here pa kind far, s1) →
    (kind = .streaming ∨ kind = .cacheable) → s1.Calm → s1.granted (s1.domainOf n) pa = true → s1.flawed false pa size = false →
    (word (s1.homeRead pa size) ≠ cmp → Completes (.waita d a y w) s fun t =>
      Wrote { s1.tagged with l2 := t.l2, carried := t.carried } t n d (extend size false (word (s1.homeRead pa size))) replyDelay
        ((s1.thr n).pc + 8))
    ∧ (word (s1.homeRead pa size) = cmp → (kind = .streaming ∨ far = true) → Completes (.waita d a y w) s fun t =>
      (t.thr n).run = .sleeping ∧ (t.thr n).wait = .watch pa size cmp d false false s1.reft ∧ (t.thr n).pc = (s1.thr n).pc
        ∧ t.mem = s1.mem)
    ∧ (word (s1.homeRead pa size) = cmp → kind = .cacheable → far = false → Completes (.waita d a y w) s fun t =>
      ((s1.core core).l1 = [] → s1.regionSt (line * 128) = 0 →
        (t.thr n).run = .sleeping ∧ (t.thr n).wait = .watch pa size cmp d true true s1.reft ∧ (t.thr n).pc = (s1.thr n).pc
        ∧ t.mem = s1.mem ∧ (t.dirOf line).form = .p [core] ∧ (t.dirOf line).w = true
        ∧ t.l1 core line = some { st := .v, data := s1.homeLine line, stamp := (s1.core core).l1clock, watch := [(s1.thr n).slot] })
      ∧ (∀ l, s1.l1 core line = some l → (l.st = .v ∨ l.st = .d) →
        (t.thr n).run = .sleeping ∧ (t.thr n).wait = .watch pa size cmp d true true s1.reft ∧ (t.thr n).pc = (s1.thr n).pc
        ∧ t.mem = s1.mem ∧ (t.dirOf line).w = true ∧ t.l1 core line = some { l with watch := l.watch ++ [(s1.thr n).slot] })))

/-- Coherence messages at an L1, and an agent's: an update changes the copy that is held, an accepted offer leaves a copy
of the home's bytes and is counted in PUSHIN, a refused one leaves the copies and is counted in PUSHREF; one that comes after its
domain has lost the grant, or in a region that switches or has switched, places and counts nothing (the model's choice, log entry
102); an invalidation takes the copy away; none of them changes memory. A
probe changes nothing where no transaction awaits it, and a watch's end clears the entry's W alone (R227 to R230, R235, R236).
Where its transaction awaits it, a probe's reply adds its core to those found where the core holds the line in V or D; the last one
rebuilds the entry from those found and lets the request go on. An agent's answer counts likewise, and the last one lets the
store that invalidated its copy be acknowledged (R229, R230, R231). -/
def Obligations.CoherenceMessagesApply : Prop :=
  (∀ (s : State) (id c line pa size txn n agent : Nat) (src dst : Node) (after : List Nat) (v : Line) (l : L1Line),
    s.txns = [] →
    (s.due id = some ⟨id, src, dst, after, .update c pa size v txn⟩ → s.l1 c (pa / 128) = some l → l.st = .v → l.watch = [] →
      Completes (.l1Update id) s fun t => t.l1 c (pa / 128) = some { l with data := lineSet l.data (pa % 128) size v.toNat } ∧ t.mem = s.mem)
    ∧ (s.due id = some ⟨id, src, dst, after, .offer c line txn⟩ →
      (s.granted .acc (line * 128) = true → s.mayHold line .d = true →
        (s.l1 c line = some l → (l.st = .v ∨ l.st = .d) → Completes (.l1PushOffer id) s fun t =>
          t.l1 c line = some { l with data := s.homeLine line } ∧ t.mem = s.mem ∧ (t.core c).pushIn = (s.core c).pushIn + 1)
        ∧ ((s.core c).l1 = [] → Completes (.l1PushOffer id) s fun t =>
          t.l1 c line = some { st := .d, data := s.homeLine line, stamp := (s.core c).l1clock } ∧ t.mem = s.mem
            ∧ (t.core c).pushIn = (s.core c).pushIn + 1)
        ∧ ((s.l1 c line = some l ∧ (l.st = .m ∨ l.st = .c) ∨ s.l1 c line = none ∧ 64 ≤ (s.core c).dCount) →
          Completes (.l1PushOffer id) s fun t =>
            (t.core c).l1 = (s.core c).l1 ∧ t.mem = s.mem ∧ (t.core c).pushRef = (s.core c).pushRef + 1))
      ∧ ((s.granted .acc (line * 128) = false ∨ s.mayHold line .d = false) → Completes (.l1PushOffer id) s fun t => t = s.drop id))
    ∧ (s.due id = some ⟨id, src, dst, after, .inval c line txn⟩ → s.l1 c line = some l → l.watch = [] →
      Completes (.l1Invalidation id) s fun t => t.l1 c line = none ∧ t.mem = s.mem)
    ∧ (s.due id = some ⟨id, src, dst, after, .probe c line txn⟩ →
      Completes (.l1DiscoveryProbe id) s fun t => t = s.drop id)
    ∧ (s.due id = some ⟨id, src, dst, after, .watchEnd n line⟩ → s.cores = [] →
      Completes (.watchEndNotice id) s fun t => t = (s.drop id).setDir line { s.dirOf line with w := false })
    ∧ (s.due id = some ⟨id, src, dst, after, .agentInval agent line txn⟩ →
      Completes (.agentInvalidation id) s fun t => t = s.drop id))
  ∧ (∀ (s : State) (id c line txn n op agent : Nat) (src dst : Node) (after : List Nat) (x : Txn) (m : Msg),
    s.txns.find? (fun y => decide (y.id = txn)) = some x →
    let held : Bool := match s.l1 c line with | some l => decide (l.st = .v ∨ l.st = .d) | none => false
    let found := x.found ++ (if held then [c] else [])
    (s.due id = some ⟨id, src, dst, after, .probe c line txn⟩ →
      (2 ≤ x.left → Completes (.l1DiscoveryProbe id) s fun t =>
        t = { s.drop id with txns := s.txns.map fun y =>
          if y.id = txn then { y with left := y.left - 1, found := y.found ++ (if held then [c] else []) } else y })
      ∧ (x.left ≤ 1 → x.done = .again m → s.dir.length < 16 → Completes (.l1DiscoveryProbe id) s fun t =>
        t.txns = s.txns.filter (fun y => y.id != txn) ∧ m ∈ t.msgs ∧ t.mem = s.mem
        ∧ (t.dirOf line).form =
          (({ s.dirOf line with form := found.foldl DirForm.addSharer (.p []) } : Dir).settle).form))
    ∧ (s.due id = some ⟨id, src, dst, after, .agentInval agent line txn⟩ →
      (2 ≤ x.left → Completes (.agentInvalidation id) s fun t =>
        t = { s.drop id with txns := s.txns.map fun y => if y.id = txn then { y with left := y.left - 1 } else y })
      ∧ (x.left ≤ 1 → x.done = .ack n op → Completes (.agentInvalidation id) s fun t =>
        t.txns = s.txns.filter (fun y => y.id != txn) ∧ (∃ k ∈ t.msgs, k.body = .ack n op ∧ k.dst = .core (s.thr n).core)
          ∧ t.mem = s.mem)))

/-- An agent's read answers the home's line and records the agent; its write changes the bytes and no others; its atomic, which
the model names in the write's size (log entry 89), writes what R293 computes and answers the old bytes; where the
roll does not grant the host, a read answers nothing and a write is discarded and counted; a read that meets a double-bit error is
poisoned, and an atomic too, with nothing applied (the model's choice, log entry 103) (R229, R231, R328, R340). -/
def Obligations.AgentsServed : Prop :=
  ∀ (s : State) (agent pa size : Nat) (v : Line), s.agentReady agent pa = true →
    (s.granted .host pa = true →
      (s.flawed false (pa / 128 * 128) 128 = false → Completes (.agentRead agent pa) s fun t =>
        t.answer = some (s.homeLine (pa / 128)) ∧ agent ∈ (t.dirOf (pa / 128)).agents ∧ t.mem = s.mem)
      ∧ (s.flawed false (pa / 128 * 128) 128 = true → Completes (.agentRead agent pa) s fun t =>
        t.answer = none ∧ t.poison = true ∧ t.mem = s.mem))
    ∧ (s.granted .host pa = false → Completes (.agentRead agent pa) s fun t => t = { s with answer := none, poison := false })
    ∧ (s.granted .host pa = true → pa % 128 + size ≤ 128 → s.counterOpen (pa / 128) = false →
      Completes (.agentWrite agent pa size v) s fun t => StoredAt s t pa size v.toNat)
    ∧ (∀ i f, agentFns[i]? = some f → s.granted .host pa = true → pa % 128 + size ≤ 128 → s.counterOpen (pa / 128) = false →
      (s.flawed false pa size = true → Completes (.agentWrite agent pa (256 * (i + 1) + size) v) s fun t =>
        t.answer = none ∧ t.poison = true ∧ t.mem = s.mem)
      ∧ (s.flawed false pa size = false → Completes (.agentWrite agent pa (256 * (i + 1) + size) v) s fun t =>
        t.answer = some (BitVec.ofNat 1024 (s.homeRead pa size))
        ∧ match atomicNew f size (s.homeRead pa size) (v.toNat % 2 ^ 64) (v.toNat / 2 ^ 64 % 2 ^ 64) with
          | some x => StoredAt s t pa size x
          | none => t.mem = s.mem))
    ∧ (s.granted .host pa = false → pa % 128 + size ≤ 128 → Completes (.agentWrite agent pa size v) s fun t =>
      (t.die (homeDie pa)).hostlate = (s.die (homeDie pa)).hostlate + 1
        ∧ ((s.die (homeDie pa)).ringFull = true → t.mem = s.mem))

/-! ### Boundaries, waits and migration -/

/-- What changes at a boundary: a rested thread becomes eligible, one whose awaited operations are done becomes ready, a timer
that is due is held with its value and cleared, a pending trap is taken with TRET the next instruction that is no PAD (R24),
and a core idle for 16 core cycles is gated until something stirs it
(R92, R99, R107, R301, R302).
Of the traps that wait for a boundary MCHK is taken first, then DEEDLATE, then TIMER, and at a trap level MCHK alone;
a sleeping thread takes them (R301, R302, R305). The model's choices: a TIMER takes the place of one still held (log entry 81);
nothing is taken between an instruction's Await and its re-issue (log entry 16); how idle cycles count toward gating (log entry
61); the entry of a handler is a boundary (log entry 94). -/
def Obligations.BoundaryEventsApply : Prop :=
  (∀ (s : State) (n c : Nat),
    ((s.thr n).run = .ready → (s.thr n).wait = .none → (∀ u ∈ (s.thr n).unacked, inPackage u.pa = true) → s.rested n = true →
      (s.thr n).readyAt ≠ 0 → Completes (.threadReady n) s fun t => OnlyContext s t n ∧ t.thr n = { s.thr n with readyAt := 0 })
    ∧ (∀ ids, (s.thr n).wait = .ops ids → (∀ i ∈ ids, ¬ i ∈ s.openOps n ∧ s.backOut i = false) → (∀ u ∈ (s.thr n).unacked, inPackage u.pa = true) →
      s.rested n = false → Completes (.threadReady n) s fun t =>
        OnlyContext s t n ∧ t.thr n = { s.thr n with run := .ready, wait := .none })
    ∧ ((s.thr n).run ≠ .free → s.stopped n = false → (s.thr n).tmr ≠ 0 → (s.thr n).tmr.toNat ≤ s.reft → Completes (.timer n) s fun t =>
      OnlyContext s t n ∧ t.thr n = { s.thr n with timPend := some (s.thr n).tmr, tmr := 0 })
    ∧ (∀ k, s.asyncDue n = some k → Completes (.asyncTrapTake n) s fun t =>
      let x := (s.thr n).takePending k
      t = (s.setThr n x.2).trap n k x.1 (s.thr n).pc true false
        ∧ ((s.thr n).run = .ready → ∀ len w, (s.fetch n (s.thr n).pc).1 ≠ .ok .pad len w))
    ∧ (∀ k, s.asyncDue n = some k → (s.thr n).lvl = 0 → Completes (.asyncTrapTake n) s fun t =>
      (t.thr n).lvl = 1 ∧ (t.thr n).val1 = ((s.thr n).takePending k).1 ∧ (t.thr n).run = .ready)
    ∧ ((s.core c).gated = false → 16 ≤ (s.core c).idle → s.quiet c = true → Completes (.coreGate c) s fun t =>
      t = s.onCore c fun x => { x with gated := true, idle := 0 })
    ∧ ((s.core c).gated = true → 6 ≤ (s.core c).idle → s.stirs c = true → Completes (.coreUngate c) s fun t =>
      t = s.onCore c fun x => { x with gated := false, idle := 0 }))
  ∧ (∀ t : Thread,
    (t.mchk ≠ [] → t.pending = some .mchk) ∧ (t.mchk = [] → t.lvl ≠ 0 → t.pending = none)
    ∧ (t.mchk = [] → t.lvl = 0 → t.late ≠ [] → t.pending = some .deedlate)
    ∧ (t.mchk = [] → t.lvl = 0 → t.late = [] → (t.pending = some .timer ↔ t.timPend.isSome = true))
    ∧ (t.snap ≠ none → t.run = .ready → t.wait = .none → t.atBoundary = false) ∧ (t.run = .sleeping → t.atBoundary = true))

/-- A woken WAITA issues again; a re-read at a tick s + 16k whose word has changed writes it, its thread issuing from the next tick
on (the model's choice, log entry 104); a hit empties the reservation set and is held, or is taken by a sleeping WAITRS (R100,
R294, R297, R308, R365, R369). -/
def Obligations.WaitEventsApply : Prop :=
  ∀ (s : State) (n id pos txn pa size since : Nat) (src : Node) (c : Nat) (after : List Nat) (ctx : Option Nat) (d : Reg) (k : Cont)
    (cmp : Word) (track : Bool),
    ((s.thr n).wait = .woken → Completes (.waitaWake n) s fun t =>
      OnlyContext s t n ∧ t.thr n = { s.thr n with run := .ready, wait := .none })
    ∧ ((s.thr n).wait = .watch pa size cmp d track false since → (s.thr n).cont = some k → k.d = some d → since + 16 ≤ s.reft →
      s.stopped n = false → pa < 2 ^ 40 → s.cut (dieOf (s.thr n).core) (homeDie pa) = false → s.busy (pa / 128) = false →
      s.binBusy pa = false → s.linksOpen (dieOf (s.thr n).core) (homeDie pa) = true → (s.dirOf (pa / 128)).form ≠ .x →
      s.hasL2Room (pa / 128) → s.granted (s.domainOf n) pa = true → pa % 128 + size ≤ 128 → s.flawed false pa size = false →
      word (s.homeRead pa size) ≠ cmp → Completes (.waitaReread n) s fun t =>
        ∃ u, Wrote { s with l2 := t.l2, carried := t.carried } u n d (extend k.size k.sign (word (s.homeRead pa size))) replyDelay
            ((s.thr n).pc + word k.len)
          ∧ t = u.onThr n fun x => { x with readyAt := (s.core (s.thr n).core).base + s.tickCycles (s.thr n).core + 1 })
    ∧ (s.due id = some ⟨id, src, .core c, after, .hit n pos ctx txn⟩ → s.txns = [] → (s.thr n).resv ≠ [] →
      (ctx = none ∨ (s.thr n).ctx = ctx) → (s.thr n).core = c →
      ((s.thr n).wait = .none → Completes (.reservationHit id) s fun t =>
        t.thr n = { s.thr n with resv := [], hit := pos } ∧ t.mem = s.mem ∧ ∀ m, m ≠ n → t.thr m = s.thr m)
      ∧ ((s.thr n).wait = .resv d → Completes (.reservationHit id) s fun t =>
        Wrote (((s.drop id).clearResv n).onThr n fun x => { x with hit := 0 }) t n d (word pos) replyDelay ((s.thr n).pc + 8)))

/-- A departure sends the context to the die and leaves its origin slot reserved; a placement at home gives the thread its
own slot, ready (R98, R242, R243). -/
def Obligations.MigrationMoves : Prop :=
  ∀ (s : State) (n d id : Nat) (src dst : Node) (after : List Nat) (line : Option Nat),
    ((s.thr n).wait = .leaving d line → (s.thr n).unacked = [] → s.cut (dieOf (s.thr n).core) d = false → s.canDepart n d = true →
      s.timerDue n = false → s.asyncDue n = none → s.stopped n = false →
      (s.core (s.thr n).core).notices = [] → Completes (.migrationDepart n) s fun t =>
        t.thr n = { s.thr n with resv := [], hit := 0, away := true, run := .waiting, wait := .transit, cont := none, snap := none }
        ∧ (∃ m ∈ t.msgs, m.dst = .unit d ∧ m.body = .migrate n d line) ∧ t.mem = s.mem ∧ ∀ m, m ≠ n → t.thr m = s.thr m)
    ∧ (s.due id = some ⟨id, src, dst, after, .migrate n d line⟩ → d = dieOf (originOf n) → Completes (.migrationPlace id) s fun t =>
        t.thr n = { s.thr n with core := originOf n, slot := n % 16, away := false, run := .ready, wait := .none, readyAt := 0 }
        ∧ t.mem = s.mem ∧ ∀ m, m ≠ n → t.thr m = s.thr m)

/-! ### Regions (R238 to R240, R255) -/

/-- On a fabric at rest (log entry 4) with no line in any L1, RGN.SET in kernel mode answers 1 and leaves the entry that R255 gives where
it may: OP 0 the new entry, OP 1 software-managed, OP 2 flushed, OP 3 coherent again; else, each OP, and for an index above 255,
it answers 0 and changes nothing.
REGION_REQUEST of an OP 0 that may be answered leaves the entry and answers 1, one of a change that may start sets ST to 2;
REGION_CHANGE_DONE, with no line in any L1, leaves the entry of the change's end and answers 1; while agents hold lines of the range
OP 1 asks each of them again, and OP 2 awaits the range's write-backs (R255). -/
def Obligations.RegionsComplete : Prop :=
  (∀ (s : State) (d a b : Reg),
    let n := s.cur
    let x := (s.reg n a).toNat
    let e := mget 0 (s.die (x / 64)).regions (x % 64)
    s.me.priv ≠ .user → s.Calm → x ≤ 255 → (∀ c, (s.core c).l1 = []) →
    (∀ w, rgnDefineTo s.tagged (x / 64) e (s.reg n b) = some w → Completes (.rgnDefine d a b) s fun t =>
        mget 0 (t.die (x / 64)).regions (x % 64) = w ∧ Answered t n d 1 (s.after 8) ∧ t.mem = s.mem)
    ∧ (rgnDefineTo s.tagged (x / 64) e (s.reg n b) = none → Completes (.rgnDefine d a b) s fun t =>
        Wrote { s.tagged with carried := t.carried } t n d 0 replyDelay (s.after 8))
    ∧ (rgnStarts 1 e = true → Completes (.rgnToSw d a b) s fun t =>
        mget 0 (t.die (x / 64)).regions (x % 64) = rgnWith e true 0 ∧ Answered t n d 1 (s.after 8) ∧ t.mem = s.mem)
    ∧ (rgnStarts 2 e = true → Completes (.rgnFlush d a b) s fun t =>
        mget 0 (t.die (x / 64)).regions (x % 64) = rgnWith e true 1 ∧ Answered t n d 1 (s.after 8) ∧ t.mem = s.mem)
    ∧ (rgnStarts 3 e = true → Completes (.rgnToCoherent d a b) s fun t =>
        mget 0 (t.die (x / 64)).regions (x % 64) = rgnWith e false 0 ∧ Answered t n d 1 (s.after 8) ∧ t.mem = s.mem)
    ∧ (∀ p ∈ [(Instr.rgnToSw d a b, 1), (.rgnFlush d a b, 2), (.rgnToCoherent d a b, 3)], rgnStarts p.2 e = false →
        Completes p.1 s fun t => Wrote { s.tagged with carried := t.carried } t n d 0 replyDelay (s.after 8)))
  ∧ (∀ (s : State) (d a b : Reg), s.me.priv ≠ .user → 255 < (s.reg s.cur a).toNat →
    ∀ i ∈ [Instr.rgnDefine d a b, .rgnToSw d a b, .rgnFlush d a b, .rgnToCoherent d a b],
      Completes i s fun t => Wrote s t s.cur d 0 replyDelay (s.after 8))
  ∧ (∀ (s : State) (id n i d op : Nat) (src dst : Node) (after : List Nat) (v w e : Word) (k : Cont) (r : Reg) (x : Txn),
    (s.thr n).cont = some k → k.d = some r → k.size = 8 →
    (s.due id = some ⟨id, src, dst, after, .region n 0 i v d⟩ → s.regionBusy d = false →
      rgnDefineTo (s.drop id) d (mget 0 (s.die d).regions i) v = some w → Completes (.regionRequest id) s fun t =>
        mget 0 (t.die d).regions i = w ∧ Answered t n r 1 ((s.thr n).pc + word k.len))
    ∧ (s.due id = some ⟨id, src, dst, after, .region n op i v d⟩ → s.regionBusy d = false → op ∈ [1, 2, 3] →
      mget 0 (s.die d).regions i = e → rgnStarts op e = true → s.prompt = false → Completes (.regionRequest id) s fun t =>
        mget 0 (t.die d).regions i = rgnWith e (rgnSw e) 2 ∧ t.regionBusy d = true ∧ t.mem = s.mem ∧ t.threads = s.threads)
    ∧ (s.txns = [x] → x.left ≤ 1 → s.halted d = false → x.line = rgnKey d i → op ∈ [1, 2, 3] → x.done = .region n d i op →
      mget 0 (s.die d).regions i = e →
      ((∀ c, (s.core c).l1 = []) → (op = 1 → s.rgnAgents e = []) → (op = 2 → s.rgnBacks e = false) →
        Completes (.regionChangeDone d i) s fun t =>
          mget 0 (t.die d).regions i = rgnWith e (decide (op ≠ 3)) (if op = 2 then 1 else 0)
            ∧ Answered t n r 1 ((s.thr n).pc + word k.len) ∧ t.mem = s.mem)
      ∧ (op = 1 → s.rgnAgents e ≠ [] → Completes (.regionChangeDone d i) s fun t =>
        t.txns = [{ x with left := (s.rgnAgents e).length + 1 }] ∧ mget 0 (t.die d).regions i = e ∧ t.mem = s.mem ∧ t.threads = s.threads)
      ∧ (op = 2 → s.rgnBacks e = true → Completes (.regionChangeDone d i) s fun t => t = s)))

/-! ### The Deed Roll -/

/-- The transactions of R327 for a kernel domain `me`, on a frame whose deadline is not past: what each answers, and the
entry that it leaves, EXP clear after each that succeeds, with the generation one higher after an OFFER or RETURN, whose grant
stands to the end of the tick (R322, R328). That a RETURN leaves DCLASS 0 is the model's choice (log entry 99). -/
def Obligations.RollTransactions : Prop :=
  ∀ (s : State) (frame k : Nat) (me : Domain),
    let e := s.deed frame
    let e' := fun op => (s.rollApply op frame me).2.2.deed frame
    let st := fun op => (s.rollApply op frame me).1
    (me = .host ∨ me = .acc) → ¬ (e.state = 3 ∧ e.due ≤ s.reft) →
    ((e.state = 0 → e.owner = me →
        st .offer = 1 ∧ e' .offer = { e with exp := false, state := 1, cpart := counterpart me, gen := e.gen + 1 }
        ∧ (s.rollApply .offer frame me).2.2.granted me (frame * 4096) = true
        ∧ st (.lend k) = 1 ∧ e' (.lend k) = { e with exp := false, state := 2, cpart := counterpart me, dclass := k })
      ∧ (e.state = 1 → e.cpart = me → st .accept = 1 ∧ e' .accept = { e with exp := false, state := 0, owner := me, cpart := .free })
      ∧ (e.state = 1 → e.owner = me → st .recall = 1 ∧ e' .recall = { e with exp := false, state := 0, cpart := .free })
      ∧ (e.state = 2 → e.owner = me → st .recall = 1
        ∧ e' .recall = { e with exp := false, state := 3, due := s.reft + 1600 * 2 ^ e.dclass })
      ∧ ((e.state = 2 ∨ e.state = 3) → e.cpart = me →
        st .return = 1 ∧ e' .return = { e with exp := false, state := 0, cpart := .free, dclass := 0, due := 0, gen := e.gen + 1 }
        ∧ (s.rollApply .return frame me).2.2.granted me (frame * 4096) = true))
    ∧ (e.state = 0 → e.exp = true → e.cpart = me → st .return = 3 ∧ e' .return = e)
    ∧ (e.owner = me ∨ e.cpart = me → st .query = e.word ∧ e' .query = e)
    ∧ (e.owner ≠ me → e.cpart ≠ me → (∀ op ∈ [RollOp.offer, .accept, .lend k, .recall, .return], st op = 0 ∧ e' op = e)
      ∧ st .query = e.word &&& 0xC000_0000_0000_0000)

/-- The DEED instructions and their transactions' operations. -/
abbrev Sys2Proof.Machine.deedTable (d a : Reg) (k : BitVec 3) : List (Instr × RollOp) :=
  [(.deedOffer d a, .offer), (.deedAccept d a, .accept), (.deedLend d a k, .lend k.toNat), (.deedRecall d a, .recall),
   (.deedReturn d a, .return), (.deedQuery d a, .query)]

/-- On a fabric at rest (log entry 4) a DEED instruction in kernel mode, and DEED.QUERY in steward mode, of an aligned address of
a frame is the roll transaction of its domain: the roll is as the transaction leaves it and D holds its answer. In steward mode
another DEED instruction answers 0; a frame of a lost die answers 4 and an address of no frame 2; one that is no multiple of
4096 raises ALIGN (R332). -/
def Obligations.DeedInstructionsComplete : Prop :=
  ∀ (s : State) (d a : Reg) (k : BitVec 3), s.me.priv ≠ .user →
    let n := s.cur
    let f := s.reg n a
    let me : Domain := if s.me.priv = .steward then .stew else .acc
    ∀ e ∈ deedTable d a k,
      (f.toNat % 4096 = 0 → s.rollFrame f.toNat = true → (s.thr n).unacked = [] →
        (s.Calm → (s.me.priv = .steward → e.2 = .query) → Completes e.1 s fun t =>
          t.roll = (s.tagged.rollApply e.2 (f.toNat / 4096) me).2.2.roll
          ∧ Answered t n d (s.tagged.rollApply e.2 (f.toNat / 4096) me).1 (s.after 8))
        ∧ (s.cut (dieOf s.me.core) (homeDie f.toNat) = false → s.me.priv = .steward → e.2 ≠ .query → Completes e.1 s fun t =>
          Wrote s t n d 0 replyDelay (s.after 8))
        ∧ (s.cut (dieOf s.me.core) (homeDie f.toNat) = true → Completes e.1 s fun t => Wrote s t n d 4 replyDelay (s.after 8)))
      ∧ (f.toNat % 4096 = 0 → s.rollFrame f.toNat = false → Completes e.1 s fun t => Wrote s t n d 2 replyDelay (s.after 8))
      ∧ (f.toNat % 4096 ≠ 0 → exec e.1 s = .next (s.raise n .align f))

/-- The roll events and the host's commands are the same transactions: those of a thread answer it, those of the deed port
are the host's (R327, R331). -/
def Obligations.RollEventsApply : Prop :=
  ∀ (s : State) (id n frame die tag cpl k : Nat) (src dst : Node) (after : List Nat) (me : Domain) (c : Cont) (r : Reg),
    (∀ e ∈ [(Instr.rollOffer id, RollOp.offer), (.rollAccept id, .accept), (.rollLend id, .lend k), (.rollRecall id, .recall),
        (.rollReturn id, .return), (.rollQuery id, .query)],
      s.due id = some ⟨id, src, dst, after, .roll n e.2 frame me⟩ → s.prompt = true → (s.thr n).cont = some c → c.d = some r →
      c.size = 8 → Completes e.1 s fun t =>
        t.roll = ((s.drop id).rollApply e.2 frame me).2.2.roll
        ∧ Answered t n r ((s.drop id).rollApply e.2 frame me).1 ((s.thr n).pc + word c.len))
    ∧ (∀ e ∈ [(Instr.dpcmdOffer die tag frame cpl, RollOp.offer), (.dpcmdAccept die tag frame cpl, .accept),
        (.dpcmdLend die tag frame cpl k, .lend (k % 8)), (.dpcmdRecall die tag frame cpl, .recall),
        (.dpcmdReturn die tag frame cpl, .return), (.dpcmdQuery die tag frame cpl, .query)],
      s.rollFrame (frame * 4096) = true → s.cut die (homeDie (frame * 4096)) = false →
      s.linksOpen die (homeDie (s.entryAddr frame)) = true → Completes e.1 s fun t =>
        t.roll = (s.rollApply e.2 frame .host).2.2.roll)

/-- At its deadline a recalled frame is its owner's again, marked expired, with a new generation; DPEVTAIL takes the host's
tail; a finished shootdown leaves no TLB entry of any core or die that covers the frame (R323, R329, R330).
A store to SDCMD queues its command; the oldest command drops the TLB entries that it names, and completes, counted, once the accesses
before it, and those before its entries went, are performed; a load of SDCMD from outside is answered once none waits (R324). -/
def Obligations.RollUpkeepApplies : Prop :=
  (∀ (s : State) (frame die tail id : Nat) (src dst : Node) (after : List Nat),
    ((s.deed frame).state = 3 → (s.deed frame).due ≤ s.reft → Completes (.deedExpiry frame) s fun t =>
      t.deed frame = { s.deed frame with state := 0, exp := true, dclass := 0, due := 0, gen := (s.deed frame).gen + 1 })
    ∧ (Completes (.dpevtailWrite die tail) s fun t => (t.die die).dptail = tail % 2 ^ 32 ∧ t.roll = s.roll ∧ t.loc = s.loc
        ∧ ((s.die die).events = [] → t = s.onDie die fun x => { x with dptail := tail % 2 ^ 32 }))
    ∧ (s.due id = some ⟨id, src, dst, after, .genShoot frame none⟩ → Completes (.genShootdownDone id) s fun t =>
      (∀ c, ∀ e ∈ (t.core c).tlb, e.covers frame = false) ∧ (∀ d, ∀ e ∈ (t.die d).tlb, e.covers frame = false)
        ∧ t.mem = s.mem ∧ t.threads = s.threads))
  ∧ (∀ (s : State) (die asid vpn pasid : Nat) (v : Word × Nat) (rest : List (Word × Nat)),
    (∀ e ∈ [(Instr.sdcmdAll die, (0 : Nat)), (.sdcmdAsid die asid, 2 ^ 61 + asid % 2 ^ 16 * 2 ^ 45),
        (.sdcmdPageAsid die asid vpn, 2 * 2 ^ 61 + asid % 2 ^ 16 * 2 ^ 45 + vpn % 2 ^ 45), (.sdcmdPage die vpn, 3 * 2 ^ 61 + vpn % 2 ^ 45),
        (.sdcmdPasid die pasid, 4 * 2 ^ 61 + pasid % 2 ^ 20)],
      Completes e.1 s fun t => t = s.onDie die fun x => { x with sdq := x.sdq ++ [(word e.2, s.nextId)] })
    ∧ ((s.die die).sdq = v :: rest → Completes (.shootdownComplete die) s fun t =>
        (∀ e ∈ (t.die die).tlb, sdNames v.1 e = false) ∧ (∀ c, dieOf c = die → ∀ e ∈ (t.core c).tlb, sdNames v.1 e = false) ∧ t.mem = s.mem
        ∧ (s.accessesDone die v.2 = true → s.accessesDone die s.nextId = true →
          (t.die die).sdq.map (·.1) = rest.map (·.1) ∧ (t.die die).sdDone = (s.die die).sdDone + 1)
        ∧ (s.accessesDone die v.2 = false → v.2 ≤ s.nextId →
          (t.die die).sdq.map (·.1) = (s.die die).sdq.map (·.1) ∧ (t.die die).sdDone = (s.die die).sdDone ∧ t.threads = s.threads))
    ∧ ((s.die die).sdq = [] → Completes (.sdcmdRead die) s fun t =>
        t = { s with answer := some (BitVec.ofNat 1024 ((s.die die).sdDone % 2 ^ 32)), poison := false }))

/-! ### Allotment counters -/

/-- The units that a home grants a take of `k` from `R` units: for a core with a table its share, at least what it asked for
and at most 4096 more (R261, R381). -/
abbrev Sys2Proof.Machine.grantOf (s : State) (c line k R : Nat) : Nat :=
  Min.min (Min.min R (Max.max k (R / (s.hcount line - (if (s.hmask line).testBit (c % 256) then 1 else 0) + 1)))) (k + 4096)

/-- With its core's entry free, ALT.TAKE of units that it holds and ALT.GIVE change the entry alone and answer in write-back
cycle t + 5: 1 for the take, the excess over 4096, which goes home, for the give; with the entry frozen, or while its own request is under
way, each waits in its core's queue, with its PC and the entry as they were; ALT.OPEN goes on, and ALT.CLOSE of a core
without an entry answers 0, where no request is about to make one. On a fabric at rest (log entry 4): ALT.OPEN opens a closed counter with its total standing and makes the
core's entry, ALT.READ answers the total, ALT.TAKE of more than the entry holds is granted by the home and answers 2, ALT.CLOSE
returns the entry's units and answers them. A core of another die uses no table: its requests are answered by the home, an
ALT.CLOSE with 0 (R257, R259, R261, R262, R265, R269 to R273, R381). -/
def Obligations.AltInstructionsComplete : Prop :=
  ∀ (s s1 : State) (d a : Reg) (m : AltN) (pa : Nat) (far : Bool) (e : AltEntry),
    let n := s.cur
    let c := (s1.thr n).core
    let line := pa / 128
    let k := (s.altN n m).toNat
    let on := s1.thr n
    let found := fun i => s.locate n (commonsRef i) (s.reg n a) .store = (.here pa .cacheable far, s1)
    let calm := ({ s1 with altHomes := [] } : State).Calm ∧ s1.granted (s1.domainOf n) (line * 128) = true
      ∧ s1.flawed false (line * 128) 128 = false
    (s.reg n a).toNat % 128 = 0 → on.unacked = [] → (s1.core c).altq = [] →
    (found (.altTake d a m) → k = 0 → Completes (.altTake d a m) s fun t => Wrote s1 t n d 1 5 (on.pc + word m.len))
    ∧ (usesTable c line = true →
      (found (.altClose d a) → (s1.core c).altEntry line = none → s1.altAny (Body.altTakes c line) = false →
        Completes (.altClose d a) s fun t => Wrote s1 t n d 0 replyDelay (on.pc + 8))
      ∧ (found (.altOpen a) → (s1.core c).altEntry line = some e → e.asking = false → Completes (.altOpen a) s fun t =>
        Moved s1 t n (on.pc + 8))
      ∧ ((s1.core c).altEntry line = some e → (e.frozen = true ∨ e.asking = true) →
        ∀ i ∈ [Instr.altTake d a m, .altGive d a m], found i → (i = .altTake d a m → 0 < k) → Completes i s fun t =>
          t = { s1 with threads := t.threads, cores := t.cores } ∧ (∀ m, m ≠ n → t.thr m = s1.thr m) ∧ (∀ j, j ≠ c → t.core j = s1.core j)
          ∧ t.core c = { s1.core c with altq := [(line, n)] } ∧ (t.thr n).run = .waiting ∧ (t.thr n).wait = .allot line true ∧ (t.thr n).pc = on.pc)
      ∧ ((s1.core c).altEntry line = some e → e.frozen = false → e.asking = false →
        (found (.altTake d a m) → 0 < k → k ≤ e.count → Completes (.altTake d a m) s fun t =>
          Wrote (s1.onCore c fun x => x.setAlt line fun e => { e with count := e.count - k }) t n d 1 5 (on.pc + word m.len))
        ∧ (found (.altGive d a m) → e.count + k ≤ 4096 → Completes (.altGive d a m) s fun t =>
          Wrote (s1.onCore c fun x => x.setAlt line fun y => { y with count := e.count + k }) t n d 0 5 (on.pc + word m.len))
        ∧ (found (.altGive d a m) → 4096 < e.count + k → Completes (.altGive d a m) s fun t =>
          Wrote ((s1.onCore c fun x => x.setAlt line fun y => { y with count := 4096 }).altPost c line (.give (e.count + k - 4096)))
            t n d (word (e.count + k - 4096)) 5 (on.pc + word m.len))
        ∧ (calm → s1.counterOpen line = true →
          (found (.altTake d a m) → e.count < k → k ≤ s1.reserve line + e.count → Completes (.altTake d a m) s fun t =>
            let g := grantOf s1 c line k (s1.reserve line + e.count)
            t.reserve line = s1.reserve line + e.count - g ∧ (∃ y, (t.core c).altEntry line = some y ∧ y.count = g - k)
            ∧ Answered t n d 2 (on.pc + word m.len))
          ∧ (found (.altClose d a) → s1.reserve line + e.count < 2 ^ 64 → Completes (.altClose d a) s fun t =>
            t.reserve line = s1.reserve line + e.count ∧ (t.core c).altEntry line = none
            ∧ (t.hmask line).testBit (c % 256) = false ∧ Answered t n d (word e.count) (on.pc + 8)))))
    ∧ (calm → s1.altHomes = [] →
      (found (.altOpen a) → (s1.core c).alt = [] → Completes (.altOpen a) s fun t =>
        t.counterOpen line = true ∧ (usesTable c line = true → ∃ e, (t.core c).altEntry line = some e ∧ e.count = 0)
        ∧ t.reserve line = s1.reserve line ∧ (t.thr n).pc = on.pc + 8 ∧ (t.thr n).run = .ready)
      ∧ (found (.altRead d a) → Completes (.altRead d a) s fun t =>
        t.counterOpen line = true ∧ Answered t n d (word (s1.reserve line)) (on.pc + 8)))
    ∧ (calm → s1.counterOpen line = true → usesTable c line = false →
      (found (.altTake d a m) → 0 < k → k ≤ s1.reserve line → Completes (.altTake d a m) s fun t =>
        t.reserve line = s1.reserve line - k ∧ Answered t n d 2 (on.pc + word m.len))
      ∧ (found (.altGive d a m) → s1.reserve line + k < 2 ^ 64 → Completes (.altGive d a m) s fun t =>
        t.reserve line = s1.reserve line + k ∧ Answered t n d (word k) (on.pc + word m.len))
      ∧ (found (.altClose d a) → Completes (.altClose d a) s fun t =>
        t.reserve line = s1.reserve line ∧ Answered t n d 0 (on.pc + 8)))

/-- At the home of an open counter: a take without a table grants from RESERVE and answers 2, or 0 where neither RESERVE nor a
holder has the units; a return adds to it and answers the units, a leave adds, ends the holding and answers its D, a read without
holders answers it, a join sets its core's HMASK bit, and the last census reply answers the request that took it with the
holders' counts added (R258, R259, R261, R264, R271 to R273, R381). What a leave and a give find whose counter closed while they
were in flight is the model's choice (log entries 34 and 55). -/
def Obligations.AltHomesServe : Prop :=
  ∀ (s : State) (id n c line k m tid h : Nat) (src dst : Node) (after : List Nat) (q : Cont) (r : Reg),
    let at' := fun x => s.due id = some ⟨id, src, dst, after, .alt n c line x⟩
    let S := s.heldBy line (s.otherHolders line none)
    (s.thr n).cont = some q → q.d = some r → q.size = 8 → n ≠ nobody → s.granted (s.domainOf n) (line * 128) = true →
    s.counterOpen line = true → s.flawed false (line * 128) 128 = false →
    (at' (.take k false) → k ≤ s.reserve line → Completes (.altHomeTake id) s fun t =>
      t.reserve line = s.reserve line - k ∧ Answered t n r 2 ((s.thr n).pc + word q.len))
    ∧ (at' (.take k false) → s.reserve line < k → s.otherHolders line none = [] → Completes (.altHomeTake id) s fun t =>
      t.mem = s.mem ∧ Answered t n r 0 ((s.thr n).pc + word q.len))
    ∧ (at' (.give k) → s.reserve line + k < 2 ^ 64 → Completes (.altHomeReturn id) s fun t =>
      t.reserve line = s.reserve line + k ∧ Answered t n r (word k) ((s.thr n).pc + word q.len))
    ∧ (at' (.leave k m) → s.reserve line + k < 2 ^ 64 → Completes (.altHomeLeave id) s fun t =>
      t.reserve line = s.reserve line + k ∧ (t.hmask line).testBit (c % 256) = false
        ∧ Answered t n r (word m) ((s.thr n).pc + word q.len))
    ∧ (at' (.left m) → Completes (.altHomeLeave id) s fun t =>
      t.mem = s.mem ∧ Answered t n r (word m) ((s.thr n).pc + word q.len))
    ∧ (at' .read → s.otherHolders line none = [] → Completes (.altHomeRead id) s fun t =>
      t.reserve line = s.reserve line ∧ Answered t n r (word (s.reserve line)) ((s.thr n).pc + word q.len))
    ∧ (at' (.join true) → usesTable c line = true → ((s.core c).altEntry line).isSome = true → Completes (.altHomeJoin id) s fun t =>
      (t.hmask line).testBit (c % 256) = true ∧ t.reserve line = s.reserve line ∧ Answered t n r 0 ((s.thr n).pc + word q.len))
    ∧ (s.due id = some ⟨id, src, dst, after, .census line c⟩ → (∀ x ∈ s.msgs, x.returns line c = false) →
      s.txns = [{ id := tid, line := line, left := 1, done := .census n c h .read }] → s.reserve line + S < 2 ^ 64 →
      Completes (.altCensusProbe id) s fun t =>
        t.reserve line = s.reserve line + S ∧ t.txns = [] ∧ t.heldBy line (s.otherHolders line none) = 0
          ∧ Answered t n r (word (s.reserve line + S)) ((s.thr n).pc + word q.len))

/-! ### Tasks (R192 to R214) -/

/-- The entry at the tail of a queue that a record has been pushed to: its record and its credentials (R192, R193). -/
def Sys2Proof.Machine.Pushed (old new : List QEntry) (va : Word) (pa : Nat) (cr : Creds) (prio : Nat) : Prop :=
  ∃ e, new = old ++ [e] ∧ e.recVa = va ∧ e.recPa = pa ∧ e.creds = cr ∧ e.prio = prio ∧ e.form = .plain

/-- On a fabric at rest (log entry 4), TASK.PUSH of a readable record with Q = 0 to a core that has room sets Q in its line, queues it
with the credentials of R192 and answers 1, and waits where the core's ring is full; to a die it queues it there; a record with
Q = 1 answers 2, a number that is no target 3. SHEAF of a valid header accepts the launch and answers 1, of an invalid one 2. JOIN lowers a record's count, and the last JOIN queues the
record on its home die. TRIG marks its group and counts it; without a launch it goes on (R206 to R209, R201, R203). -/
def Obligations.TaskLaunchesComplete : Prop :=
  ∀ (s s1 s2 : State) (d a b : Reg) (pa tpa c : Nat) (kind : Kind) (ws h : List Word),
    let n := s.cur
    let r := s.reg n a
    let y := (s.reg n b).toNat
    (s.thr n).unacked = [] → r.toNat % 128 = 0 →
    ((1024 ≤ y ∧ y ≤ 0xFFF ∨ 0x1003 < y) → ∀ i ∈ [Instr.taskPush d a b, .sheaf d a b], Completes i s fun t => Wrote s t n d 3 replyDelay (s.after 8))
    ∧ (y = c → c < 1024 → s.readRec n r = (.ok (pa, ws), s1) → s1.Calm → recPlots ws ≤ 256 → recPlots ws ≤ (s1.core c).unreserved →
      (recQ ws = true → Completes (.taskPush d a b) s fun t => Wrote s1 t n d 2 replyDelay ((s1.thr n).pc + 8))
      ∧ (recQ ws = false → inPackage pa = true → s1.populated pa = true → s1.granted .acc pa = true →
        (s1.core c).taskq.length < 32 → (s1.core c).overq = [] → Completes (.taskPush d a b) s fun t =>
          Pushed (s1.core c).taskq (t.core c).taskq r pa (pushCreds (s1.thr n) ws) ((wordAt ws 3).toNat / 2 ^ 54 % 4)
          ∧ StoredAt s1 t (pa + 24) 8 (word (readN s1.mem (pa + 24) 8) ||| 0x8000_0000_0000_0000).toNat
          ∧ Answered t n d 1 ((s1.thr n).pc + 8))
      ∧ (recQ ws = false → s1.ringFullFor (.core c) (recPrio ws) = true → exec (.taskPush d a b) s = .next (s1.hold n .hold)))
    ∧ (y = 0x1000 + c → c < 4 → s.readRec n r = (.ok (pa, ws), s1) → s1.Calm → recPlots ws ≤ 256 → recQ ws = false →
      s1.ringFullFor (.die c) (recPrio ws) = false → Completes (.taskPush d a b) s fun t =>
        Pushed (s1.die c).dieq (t.die c).dieq r pa (pushCreds (s1.thr n) ws) ((wordAt ws 3).toNat / 2 ^ 54 % 4)
        ∧ Answered t n d 1 ((s1.thr n).pc + 8))
    ∧ (y = c → c < 1024 → s.readRec n r = (.ok (pa, h), s1) →
      (sheafOk h = false → Completes (.sheaf d a b) s fun t => Wrote s1 t n d 2 replyDelay ((s1.thr n).pc + 8))
      ∧ (sheafOk h = true → s1.readRec n (wordAt h 0) = (.ok (tpa, ws), s2) → recPlots ws ≤ 256 → recPlots ws ≤ (s2.core c).unreserved →
        s2.Calm → Completes (.sheaf d a b) s fun t =>
          (∃ l, t.launches = s2.launches ++ [l] ∧ l.hdrVa = r ∧ l.hdrPa = pa ∧ l.tmplPa = tpa ∧ l.target = c ∧ l.next = 0 ∧ l.live = 0)
          ∧ Wrote { s2 with launches := t.launches, nextId := s2.nextId + 1 } t n d 1 replyDelay ((s2.thr n).pc + 8)))
    ∧ (s.translate n r .store = (.ok pa kind, s1) → kind ≠ .device → kind ≠ .system → s1.Calm → s1.granted (s1.domainOf n) pa = true →
      s1.flawed false pa 128 = false →
      let j := (wordAt (s1.words pa) 3).toNat % 2 ^ 32
      (j = 0 → Completes (.join a) s fun t => Moved { s1 with carried := t.carried, met := t.met } t n ((s1.thr n).pc + 8))
      ∧ (2 ≤ j → Completes (.join a) s fun t =>
        readN t.mem (pa + 24) 8 % 2 ^ 32 = j - 1 ∧ (∀ x, (x < pa + 24 ∨ pa + 32 ≤ x) → readByte t.mem x = readByte s1.mem x)
        ∧ Moved { s1 with mem := t.mem, l2 := t.l2, carried := t.carried, met := t.met } t n ((s1.thr n).pc + 8))
      ∧ (j = 1 → Completes (.join a) s fun t =>
        (∃ e, (t.die (homeDie pa)).dieq = (s1.die (homeDie pa)).dieq ++ [e] ∧ e.recVa = r ∧ e.recPa = pa)
        ∧ (t.thr n).pc = (s1.thr n).pc + 8 ∧ (t.thr n).run = .ready))
    ∧ (s.launchOf s.me = none → Completes .trig s fun t => Moved s t n (s.after 8))
    ∧ (∀ l i, s.launchOf s.me = some (l, i) →
      let h := s.words l.hdrPa
      s.groupPa l h (i / shGroup h) = (some pa, s1) → s1.Calm →
      inPackage (l.hdrPa + 96) = true → s1.granted l.creds.domain (l.hdrPa + 96) = true →
      let v := readN s1.mem pa 8
      let m := writeN s1.mem pa 8 (v + 2 ^ 63)
      let k := (readN m (l.hdrPa + 96) 8 + 1) % 2 ^ 64
      (v.testBit 63 = true → Completes .trig s fun t => Moved s1 t n ((s1.thr n).pc + 8))
      ∧ (v.testBit 63 = false → k ≠ shGroups h → Completes .trig s fun t =>
        t.mem = writeN m (l.hdrPa + 96) 8 k
          ∧ Moved { s1 with mem := t.mem, l2 := t.l2, carried := t.carried, met := t.met } t n ((s1.thr n).pc + 8)))

/-- RETIRE with nothing outstanding frees the slot and unpins the record's plots; YIELD queues the record again with its
code word at the next instruction, its plots kept; SPAWN starts the lowest free slot with the spawner's credentials; SEND
delivers its payload; BIND and UNBIND change the binding; WAKE adds to a latch or a log, and SLEEP takes a valid latch or
sleeps (R104, R197, R210 to R214, R101 to R103). The model's choices: a SEND to an unbound postbox answers 1 and is counted in
POSTDROP (log entry 31), the order of BIND's checks (log entry 40), and the UNBIND clause, which completes with no condition on
the reach of the postbox's die (log entry 111). -/
def Obligations.TaskContextsComplete : Prop :=
  ∀ (s s1 : State) (d a b c : Reg) (w : Bool) (pa j m : Nat) (ws : List Word) (x : Post) (y : Work),
    let n := s.cur
    let e := originOf n
    (s.thr n).unacked = [] →
    (s.unfinished n = [] → s.launchOf s.me = none → Completes .retire s fun t =>
      (t.thr n).run = .free ∧ t.mem = s.mem ∧ t.loc = s.loc
      ∧ ∀ v, s.me.work = some v → (t.core e).plotPin = (s.core e).plotPin &&& ~~~v.plots)
    ∧ (s.me.lvl = 0 → s.me.work = none → Completes .yield s fun t => Moved s t n (s.after 8))
    ∧ (s.me.lvl = 0 → s.me.work = some y → y.form ≠ .plain → s.unfinished n = [] → (s.core e).taskq.length < 32 → (s.core e).overq = [] →
      Completes .yield s fun t => (t.thr n).run = .free ∧ t.loc = s.loc
        ∧ ∃ q, (t.core e).taskq = (s.core e).taskq ++ [q] ∧ q.recVa = y.recVa ∧ q.words = yieldWords y (s.after 8)
          ∧ q.kept = some (y.plots, y.offs) ∧ q.prio = y.prio)
    ∧ (s.me.lvl = 0 → s.me.work = some y → y.form = .plain → s.unfinished n = [] → (s.core e).taskq.length < 32 → (s.core e).overq = [] →
      s.Calm → inPackage y.recPa = true → s.granted s.me.domain y.recPa = true → Completes .yield s fun t =>
        (t.thr n).run = .free ∧ t.loc = s.loc ∧ readN t.mem y.recPa 8 = (s.after 8).toNat
        ∧ (∀ i, (i < y.recPa ∨ y.recPa + 8 ≤ i) → (i < y.recPa + 24 ∨ y.recPa + 32 ≤ i) → readByte t.mem i = readByte s.mem i)
        ∧ ∃ q, (t.core e).taskq = (s.core e).taskq ++ [q] ∧ q.recVa = y.recVa ∧ q.recPa = y.recPa ∧ q.creds = s.me.creds
          ∧ q.kept = some (y.plots, y.offs) ∧ q.prio = y.prio)
    ∧ (s.me.lvl ≠ 0 → exec .yield s = .next (s.raise n .ill (w0Of .yield)))
    ∧ (s.Calm → s.me.run = .ready → s.me.wait = .none → (s.reg n a).toNat % 4 = 0 → (s.reg n b).toNat = j → j ≤ 1023 →
      (s.die (dieOf j)).migq = [] →
      (s.freeSlot j = some m → Completes (.spawn d a b c w) s fun t =>
        (let u := t.thr (16 * j + m)
         u.run = .ready ∧ u.core = j ∧ u.slot = m ∧ u.pc = s.reg n a ∧ mget 0 u.g 0 = s.reg n c ∧ mget 0 u.g 1 = word n
          ∧ (∀ r, 2 ≤ r → mget 0 u.g r = 0) ∧ u.priv = s.me.priv ∧ u.atp = s.me.atp ∧ u.pasid = s.me.pasid ∧ u.wid = s.me.wid
          ∧ u.kvec = (s.die (dieOf j)).dkvec ∧ u.lvl = 0)
        ∧ Answered t n d 1 (s.after 8) ∧ t.mem = s.mem ∧ ∀ k, k ≠ n → k ≠ 16 * j + m → t.thr k = s.thr k)
      ∧ (s.freeSlot j = none → w = false → Completes (.spawn d a b c w) s fun t =>
        Wrote { s.tagged with carried := t.carried } t n d 0 replyDelay (s.after 8))
      ∧ (s.freeSlot j = none → w = true → (s.core j).notices.length < 16 → Completes (.spawn d a b c w) s fun t =>
          (t.core j).notices = (s.core j).notices ++ [n] ∧ (t.thr n).run = .sleeping ∧ (t.thr n).pc = s.me.pc ∧ t.mem = s.mem))
    ∧ (16383 < (s.reg n a).toNat → ∀ i ∈ [Instr.send d a b, .wake d a b], Completes i s fun t => Wrote s t n d 0 replyDelay (s.after 8))
    ∧ (s.Calm → (s.reg n a).toNat = m → m ≤ 16383 → m % 4096 ≠ 4095 →
      (mget none s.posts m = none → (∀ k, ∀ z ∈ (s.core k).mill, z.ph ≠ .arrived s.nextId) → Completes (.send d a b) s fun t =>
        Wrote ({ s.tagged with carried := t.carried }.onDie (m / 4096) fun x => { x with postdrop := x.postdrop + 1 }) t n d 1 replyDelay
          (s.after 8))
      ∧ (mget none s.posts m = some x → s.me.priv ≠ .user → inPackage x.recPa = true → s.granted x.creds.domain x.recPa = true →
        (s.die (m / 4096)).freeLine = some j → Completes (.send d a b) s fun t =>
          Answered t n d 1 (s.after 8)
          ∧ ∃ q, (t.die (m / 4096)).dieq = (s.die (m / 4096)).dieq ++ [q] ∧ q.recVa = x.recVa ∧ q.creds = x.creds
            ∧ q.payload = s.reg n b))
    ∧ (s.me.priv ≠ .user → (s.reg n a).toNat = m → m ≤ 16383 → m % 4096 = 4095 → (s.reg n b).toNat % 128 = 0 →
      ∀ i ∈ [Instr.unbind d a, .bind d a b], Completes i s fun t => Wrote s t n d 0 replyDelay (s.after 8))
    ∧ (s.me.priv ≠ .user → (s.reg n a).toNat = m → m ≤ 16383 → m % 4096 ≠ 4095 →
      (Completes (.unbind d a) s fun t =>
        Wrote { s with posts := mset none s.posts m none } t n d
          (match mget none s.posts m with | some q => q.recVa | none => 0) replyDelay (s.after 8))
      ∧ ((s.reg n b).toNat % 128 = 0 → s.cut (dieOf s.me.core) (m / 4096) = false →
        (mget none s.posts m ≠ none → Completes (.bind d a b) s fun t => Wrote s t n d 0 replyDelay (s.after 8))
        ∧ (mget none s.posts m = none → s.readRec n (s.reg n b) = (.ok (pa, ws), s1) → Completes (.bind d a b) s fun t =>
          mget none t.posts m = some { recVa := s.reg n b, recPa := pa, creds := pushCreds (s1.thr n) ws }
          ∧ Wrote { s1 with posts := t.posts } t n d 1 replyDelay ((s1.thr n).pc + 8))))
    ∧ (s.Calm → (s.reg n a).toNat = m → m ≤ 16383 → (s.me.priv = .user → s.me.pasid = (s.ctx m).pasid) →
      ((s.ctx m).st = .free → Completes (.wake d a b) s fun t =>
        Wrote { s.tagged with carried := t.carried } t n d 0 replyDelay (s.after 8))
      ∧ ((s.ctx m).st = .resident → (s.ctx m).thread = j → j ≠ n → (s.thr j).wait ≠ .transit → (s.thr j).ctx = some m →
        (s.thr j).core = (s.ctx m).core →
        Completes (.wake d a b) s fun t =>
          (t.thr j).latchV = true ∧ (t.thr j).latchVal = (s.thr j).latchVal ||| s.reg n b
          ∧ ((s.thr j).wait = .latch → (t.thr j).run = .ready ∧ (t.thr j).wait = .none)
          ∧ Answered t n d 1 (s.after 8) ∧ t.mem = s.mem)
      ∧ ((s.ctx m).st = .absent → (s.ctx m).log.length < (s.ctx m).cap → Completes (.wake d a b) s fun t =>
          (t.ctx m).log = (s.ctx m).log ++ [(1, s.reg n b)] ∧ Answered t n d 2 (s.after 8)))
    ∧ (s.me.latchV = true → Completes (.sleep d) s fun t =>
      Wrote (s.onThr n fun t => { t with latchV := false, latchVal := 0 }) t n d s.me.latchVal replyDelay (s.after 8))
    ∧ (s.me.latchV = false → Completes (.sleep d) s fun t =>
      OnlyContext s t n ∧ t.thr n = { s.me with run := .sleeping, wait := .latch })

/-- The events of the queue engine: staging pins a record's plots and starts its fill, a filled record may start, a fault
gives it up, a free slot starts the next record with the registers of R197, the die queue feeds a core, a launch expands
its next record, an arrival at a postbox makes an instance of its bound record on the die queue, or is dropped and counted where
none is bound, and a slot-free notice answers its spawner (R193 to R197, R202, R204, R205, R211, R212). -/
def Obligations.TaskEventsApply : Prop :=
  ∀ (s s1 : State) (id n c k m p : Nat) (src dst : Node) (after rest : List Nat) (code arg v : Word) (w : Bool) (q : Cont) (d : Reg)
    (e : QEntry) (es : List QEntry) (pl : BitVec 256) (offs : List Word) (g : Stage) (l : Launch) (b : Post),
    (s.due id = some ⟨id, src, dst, after, .spawn n c code arg w⟩ → (s.thr n).cont = some q → q.d = some d → q.size = 8 →
      (s.die (dieOf c)).migq = [] → s.freeSlot c = some k → n ≠ 16 * c + k → Completes (.spawnArrival id) s fun t =>
        (t.thr (16 * c + k)).run = .ready ∧ (t.thr (16 * c + k)).pc = code ∧ mget 0 (t.thr (16 * c + k)).g 0 = arg
        ∧ (t.thr (16 * c + k)).priv = (s.thr n).priv ∧ Answered t n d 1 ((s.thr n).pc + word q.len))
    ∧ ((s.core c).owed = m + 1 → (s.core c).notices = n :: rest → (s.thr n).cont = some q → q.d = some d → q.size = 8 →
      Completes (.slotFreeNotice c) s fun t =>
        (t.core c).owed = m ∧ (t.core c).notices = rest ∧ Answered t n d 3 ((s.thr n).pc + word q.len))
    ∧ ((s.core c).taskq = [e] → e.prio ≤ 3 → e.kept = none → (s.core c).staging = [] → recPlots (s.entryWords e) ≠ 0 →
      (s.core c).hopeless (s.entryWords e) = false → (s.core c).place (s.entryWords e) = some (pl, offs) →
      Completes (.recordStage c) s fun t =>
        t = s.onCore c fun x => { x with plotPin := x.plotPin ||| pl, staging := [{ entry := e, plots := pl, offs := offs, filled := false }] })
    ∧ (s.mayAsk c = true → (s.die (dieOf c)).dieq = [e] → e.prio ≤ 3 → (s.die (dieOf c)).asks = [] → recPlots (s.entryWords e) = 0 →
      (s.core c).place (s.entryWords e) = some (pl, offs) → (s.core c).taskq.length < 32 → (s.core c).overq = [] →
      Completes (.dieQueueRequest c) s fun t =>
        (t.die (dieOf c)).dieq = [] ∧ (t.core c).taskq = (s.core c).taskq ++ [e] ∧ t.mem = s.mem)
    ∧ (s.fillOf c id = some (g, none, s1) → Completes (.footprintFillDone c id) s fun t =>
      t = s1.onCore c fun x => { x with staging := (s1.core c).staging.map fun g => if g.entry.id = id then { g with filled := true } else g })
    ∧ (s.fillOf c id = some (g, some .transl, s1) → Completes (.footprintFillFault c id) s fun t =>
      (∀ x ∈ (t.core c).taskq, x.id ≠ g.entry.id) ∧ (∀ x ∈ (t.core c).staging, x.entry.id ≠ g.entry.id)
      ∧ (t.core c).plotPin = (s1.core c).plotPin &&& ~~~g.plots)
    ∧ (k < 16 → s.dead (dieOf c) = false → s.slotFree c k = true → (s.core c).taskq = [e] → e.prio ≤ 3 → e.kept = none →
      recPlots (s.entryWords e) = 0 → (s.core c).staging = [] → ∀ i ∈ [Instr.dispatch c k, .slotAllot c k], (s.die (dieOf c)).migq = [] → c < 1024 →
      Completes i s fun t =>
        let u := t.thr (16 * c + k)
        let ws := s.entryWords e
        (t.core c).taskq = [] ∧ u.run = .ready ∧ u.pc = wordAt ws 0 ∧ mget 0 u.g 0 = e.recVa ∧ (∀ j, 1 ≤ j → j ≤ 6 → mget 0 u.g j = 0)
        ∧ mget 0 u.g 7 = wordAt ws 1 ∧ mget 0 u.g 8 = e.payload ∧ mget 0 u.g 12 = wordAt ws 4 &&& 0xFFFF_FFFF_FFFF_FF80
        ∧ u.wid = wordAt ws 2 ∧ u.priv = e.creds.priv ∧ u.atp = e.creds.atp ∧ u.pasid = e.creds.pasid ∧ u.lvl = 0
        ∧ u.kvec = (s.die (dieOf c)).dkvec ∧ u.shapes = [])
    ∧ (k < 16 → c < 1024 → s.dead (dieOf c) = false → s.slotFree c k = true → (s.die (dieOf c)).migq = n :: rest →
      Completes (.slotAllot c k) s fun t => (t.die (dieOf c)).migq = rest ∧ t.mem = s.mem
        ∧ t.thr n = { s.thr n with core := c, slot := k, away := !(decide (c = originOf n) && decide (k = n % 16)), run := .ready, wait := .none, readyAt := 0 })
    ∧ ((s.core c).overq = e :: es → (s.core c).taskq.length < 32 →
      (s.core c).overq.countP (fun x => x.prio = e.prio) ≤ (s.die (dieOf c)).cqCap → Completes (.overflowReturn c) s fun t =>
      (t.core c).overq = es.filter (fun x => x.id != e.id) ∧ (t.core c).taskq = (s.core c).taskq ++ [e] ∧ t.mem = s.mem)
    ∧ (s.launches = [l] → l.id = id → l.target = c → c < 1024 → s.dead (dieOf c) = false → l.next < shCount (s.words l.hdrPa) → l.live < 8 →
      (s.core c).taskq.length < 32 → (s.core c).overq = [] → (s.die (dieOf c)).freeLine = some k → Completes (.sheafExpand id) s fun t =>
        (∃ x, (t.core c).taskq = (s.core c).taskq ++ [x] ∧ x.recVa = l.tmplVa
          ∧ x.words = expandWords l.hdrVa (s.words l.hdrPa) (s.words l.tmplPa) l.next)
        ∧ t.launches = [{ l with next := l.next + 1, live := l.live + 1 }] ∧ k ∈ (t.die (dieOf c)).pool)
    ∧ (s.due id = some ⟨id, src, dst, after, .post none p v⟩ → s.dead (p / 4096) = false → p % 4096 ≠ 4095 → mget none s.posts p = none →
      (∀ x ∈ s.msgs, x.src ≠ .box p) → Completes (.postboxArrival id) s fun t =>
        t = { (s.drop id).onDie (p / 4096) fun x => { x with postdrop := x.postdrop + 1 } with cores := t.cores }
        ∧ ∀ k, t.core k = { s.core k with errNowake := (t.core k).errNowake })
    ∧ (s.dead (p / 4096) = false → p % 4096 ≠ 4095 → mget none s.posts p = some b → inPackage b.recPa = true →
      s.dead (homeDie b.recPa) = false → s.granted b.creds.domain b.recPa = true → (s.die (p / 4096)).freeLine = some k →
      (∀ x ∈ s.msgs, x.src ≠ .box p) →
      let queued := fun (t : State) => ∃ x, (t.die (p / 4096)).dieq = (s.die (p / 4096)).dieq ++ [x] ∧ x.recVa = b.recVa
        ∧ x.creds = b.creds ∧ x.payload = v
      (s.due id = some ⟨id, src, dst, after, .post none p v⟩ → Completes (.postboxArrival id) s queued)
      ∧ (s.due id = some ⟨id, src, dst, after, .post (some n) p v⟩ → (s.thr n).priv ≠ .user → (s.thr n).cont = some q → q.d = some d →
        q.size = 8 → Completes (.postboxArrival id) s fun t => queued t ∧ Answered t n d 1 ((s.thr n).pc + word q.len)))
    ∧ (p < 16384 → s.dead (p / 4096) = false → p % 4096 ≠ 4095 → Completes (.doorbellStore p v) s fun t =>
      t = { s with nextId := s.nextId + 1
                   msgs := s.msgs ++ [{ id := s.nextId, src := .outside 9, dst := .box p, body := .post none p v }] })
    ∧ (s.due id = some ⟨id, src, .core c, after, .wakeTo m n v⟩ → (s.thr n).wait ≠ .transit → (s.thr n).ctx = some m →
      (s.thr n).core = c → Completes (.wakeDeliver id) s fun t => (t.thr n).latchV = true ∧ (t.thr n).latchVal = (s.thr n).latchVal ||| v ∧ t.mem = s.mem
        ∧ ∀ k, k ≠ n → t.thr k = s.thr k)

/-! ### Context images and the directory (R306 to R311, R315, R316) -/

/-- CTX.SAVE of a context without a number leaves its 1,024-byte image in the local store or, on a fabric at rest (log entry 4), in
memory, with the private registers in words 0 to 15 and the next instruction's address in word 81, and no byte elsewhere; the
latch and the held DEEDLATE traps are given up. CTX.LOAD of a well-formed image restores the registers, and the K words above
user mode (R311, R315, R316). -/
def Obligations.ContextsComplete : Prop :=
  ∀ (s s1 : State) (a : Reg) (disp : BitVec 20) (pa : Nat) (kind : Kind),
    let n := s.cur
    let c := originOf n
    let y := s.reg n a + disp.signExtend 64
    let x := y.toNat
    let saved := fun (v : Thread) => { v with
      latchV := false, latchVal := 0, late := [], lateTaken := 0, lateMore := 0, ctxnum := v.ctxnum &&& 0x3FFF, resv := [], hit := 0
      pc := v.pc + 8, run := .ready, wait := .none, cont := none, snap := none }
    let loaded := fun (s t : State) (img : List Word) =>
      (∀ i, i < 16 → mget 0 (t.thr n).g i = wordAt img i) ∧ (∀ i, i < 16 → mget none (t.thr n).shapes i = imgSlot img i)
      ∧ (t.thr n).latchV = (wordAt img 80).getLsbD 16 ∧ (t.thr n).latchVal = wordAt img 99 ∧ (t.thr n).resv = []
      ∧ (imgK img = true → (s.thr n).priv ≠ .user → (t.thr n).wid = wordAt img 95 ∧ (t.thr n).tmr = wordAt img 94
          ∧ (t.thr n).atp = wordAt img 97 ∧ (t.thr n).pasid = wordAt img 98 &&& 0xFFFFF ∧ (t.thr n).ret1 = wordAt img 84 &&& ~~~3)
      ∧ ((imgK img = false ∨ (s.thr n).priv = .user) →
          (t.thr n).wid = (s.thr n).wid ∧ (t.thr n).priv = (s.thr n).priv ∧ (t.thr n).atp = (s.thr n).atp)
      ∧ (t.thr n).pc = (s.thr n).pc + 8 ∧ t.mem = s.mem ∧ t.loc = s.loc ∧ ∀ m, m ≠ n → t.thr m = s.thr m
    let fits := fun (img : List Word) => imgOk img = true ∧ imgPriv s.me.priv img = true ∧ (imgCtx img).getLsbD 15 = false
    x % 1024 = 0 →
    (x ≤ 0x7_FC00 →
      (s.me.ctxnum.getLsbD 15 = false → s.begun s.nextId = [] → Completes (.ctxSave a disp false) s fun t =>
        readBytes t.loc (locKey c x) 1024 = wordBytes s.me.image ∧ (∀ i, i < 16 → t.readLoc c (x + 8 * i) 8 = (mget 0 s.me.g i).toNat)
        ∧ t.readLoc c (x + 8 * 81) 8 = (s.after 8).toNat ∧ (∀ k, (k < locKey c x ∨ locKey c x + 1024 ≤ k) → readByte t.loc k = readByte s.loc k)
        ∧ t.mem = s.mem ∧ (∀ m, m ≠ n → t.thr m = s.thr m) ∧ t.thr n = saved s.me)
      ∧ (let img := bytesWords (readBytes s.loc (locKey c x) 1024)
         s.flawed true (locKey c x) 1024 = false → fits img → Completes (.ctxLoad a disp false) s fun t => loaded s t img))
    ∧ (kind ≠ .device → kind ≠ .system → s1.Calm → pa < 2 ^ 40 → s1.granted (s1.domainOf n) pa = true → s.me.unacked = [] →
      (s1.thr n).unacked = [] →
      (s.translate n y .store = (.ok pa kind, s1) → s.me.ctxnum.getLsbD 15 = false → Completes (.ctxSave a disp true) s fun t =>
        readBytes t.mem pa 1024 = wordBytes s1.me.image ∧ (∀ k, (k < pa ∨ pa + 1024 ≤ k) → readByte t.mem k = readByte s1.mem k)
        ∧ t.loc = s1.loc ∧ (∀ m, m ≠ n → t.thr m = s1.thr m) ∧ t.thr n = saved (s1.thr n))
      ∧ (let img := bytesWords (s1.homeBytes pa 1024)
         s.translate n y .load = (.ok pa kind, s1) → s1.flawed false pa 1024 = false → fits img →
          Completes (.ctxLoad a disp true) s fun t => loaded s1 t img))

/-- The context directory: its commands allocate, release and report an entry; a wake, a hit or a DEEDLATE for an absent
entry is logged; a save makes its entry absent, a load makes it resident and empties its log; a report reaches its thread
(R306 to R310, R315, R316, R328). The deedlateReport clauses are the model's reading of log entry 80: a report is held whenever
fewer than 16 are held, even while a count runs, and one more than that leaves the mark that there were more. -/
def Obligations.DirectoryEventsApply : Prop :=
  ∀ (s : State) (id n c d num pos txn : Nat) (src : Node) (dst : Node) (after : List Nat) (v : Word) (q : Cont) (r : Reg) (m : Msg)
    (check : Option Word) (ctx : Option Nat) (img : List Word),
    let x := s.ctx num
    (s.msgs = [m] → s.deliverable m = true → s.cut (dieOf c) (num / 4096) = false →
      (m.body = .cmd c num 0 → x.st = .free → Completes (.cdcmdAlloc c num) s fun t =>
        t.ctx num = { st := .absent, base := (s.core c).cdlog.toNat / 64 * 64, size := (s.core c).cdlog.toNat % 16
                      pasid := (s.core c).cdpasid }
        ∧ (t.core c).cdres.getLsbD 63 = true ∧ (t.core c).cdres.getLsbD 62 = true ∧ (t.core c).cdres.toNat / 2 ^ 60 % 4 = 1)
      ∧ (m.body = .cmd c num 1 → x.st = .absent → Completes (.cdcmdRelease c num) s fun t =>
        t.ctx num = {} ∧ (t.core c).cdres.getLsbD 63 = true ∧ (t.core c).cdres.getLsbD 62 = true ∧ (t.core c).cdres.toNat / 2 ^ 60 % 4 = 0)
      ∧ (m.body = .cmd c num 2 → Completes (.cdcmdQuery c num) s fun t =>
        (∀ k, t.ctx k = s.ctx k) ∧ (t.core c).cdres.getLsbD 63 = true ∧ (t.core c).cdres.getLsbD 62 = true
        ∧ (t.core c).cdres.toNat / 2 ^ 60 % 4 = ctxCode x.st))
    ∧ (x.st = .absent → x.log.length < x.cap →
      (s.due id = some ⟨id, src, dst, after, .wake n num v check⟩ → (∀ p, check = some p → p = x.pasid) →
        (s.thr n).cont = some q → q.d = some r → q.size = 8 → Completes (.dirWakeArrival id) s fun t =>
          (t.ctx num).log = x.log ++ [(1, v)] ∧ Answered t n r 2 ((s.thr n).pc + word q.len))
      ∧ (s.due id = some ⟨id, src, .dir d, after, .hit n pos (some num) txn⟩ → s.txns = [] → Completes (.dirHitArrival id) s fun t =>
          (t.ctx num).log = x.log ++ [(2, word pos)] ∧ t.loc = s.loc)
      ∧ (s.due id = some ⟨id, src, .dir d, after, .late n (some num) v⟩ → Completes (.dirDeedlateArrival id) s fun t =>
          (t.ctx num).log = x.log ++ [(3, v)] ∧ t.loc = s.loc))
    ∧ (s.due id = some ⟨id, src, .dir d, after, .absent n num⟩ → s.dirQuiet d n = true → x.st = .resident → x.thread = n →
      (s.thr n).cont = some q → q.sign = false → s.begun s.nextId = [] → Completes (.dirAbsentRequest id) s fun t =>
        (t.ctx num).st = .absent ∧ (t.thr n).pc = (s.thr n).pc + 8 ∧ (t.thr n).ctxnum.getLsbD 15 = false
        ∧ readBytes t.loc (locKey (originOf n) q.va.toNat) 1024 = wordBytes (s.thr n).image ∧ t.mem = s.mem)
    ∧ (s.due id = some ⟨id, src, .dir d, after, .restore n num img⟩ → x.st = .absent → (s.thr n).priv ≠ .user → (s.thr n).cont = some q →
      Completes (.dirRestoreRequest id) s fun t =>
        (t.ctx num).st = .resident ∧ (t.ctx num).log = [] ∧ (t.ctx num).thread = 16 * originOf n + n % 16
        ∧ (∀ i, i < 16 → mget 0 (t.thr n).g i = wordAt img i) ∧ (t.thr n).pc = (s.thr n).pc + 8 ∧ t.mem = s.mem)
    ∧ (s.due id = some ⟨id, src, .core c, after, .late n ctx v⟩ → n < ghostBase → (s.thr n).core = c → (s.thr n).wait ≠ .transit →
      (s.thr n).run ≠ .free →
      ((s.thr n).late.length < 16 → Completes (.deedlateReport id) s fun t =>
        OnlyContext (s.drop id) t n ∧ t.thr n = { s.thr n with late := (s.thr n).late ++ [v] })
      ∧ (16 ≤ (s.thr n).late.length → Completes (.deedlateReport id) s fun t =>
        OnlyContext (s.drop id) t n
        ∧ t.thr n = { s.thr n with lateMore := (s.thr n).lateMore + 1, lateTaken := (t.thr n).lateTaken }))

/-! ### Copies (R215 to R219) -/

/-- The copy instructions with their directions. -/
abbrev Sys2Proof.Machine.copyTable (x : CpArgs) : List (Instr × CopyDir) :=
  [(.cpG2l x, .g2l), (.cpL2g x, .l2g), (.cpL2l x, .l2l), (.cpG2g x, .g2g)]

/-- A copy instruction that passes the checks of R216, where its channel has room, queues a command with its operands read
at issue and goes on after 16 bytes; CP.WAIT with none of the thread's commands open writes the recorded cause and clears
it, else it sleeps until they are complete and then does. A command that is ready performs its payload, then its flag, and
leaves the queue once its writes are performed; a plain local copy leaves the source's bytes at the destination and no others;
one that faults records its cause. An entry that frees is reserved for the oldest stalled thread (R96, R215 to R219). That payload
and flag are phases of one event is the model's choice (log entry 17). -/
def Obligations.CopiesComplete : Prop :=
  ∀ (s s1 : State) (d : Reg) (x : CpArgs) (id c m : Nat) (ids : List Nat) (y : CopyCmd) (q : QueueKind) (f : Cause) (v : Word),
    let n := s.cur
    let e := originOf n
    let alone := s1.copyCore id = some (c, y) ∧ s1.dead (dieOf c) = false ∧ s1.halted (dieOf c) = false ∧ s1.begun s.nextId = []
      ∧ s1.homeWrites y.pend = [] ∧ ∀ k, k ≠ c → ∀ z ∈ (s1.core k).copy, z.id ≠ id
    let gone := fun (t : State) => ∀ z ∈ (t.core c).copy, z.id ≠ id
    (∀ i ∈ copyTable x, cpCheck s i.1 i.2 x = none → (s.core e).copy.length < 4 → (s.core e).stall = [] → (s.core e).held = [] →
      Completes i.1 s fun t =>
        t.core e = { s.core e with copy := (s.core e).copy ++
          [{ id := s.nextId, thread := n, dir := i.2, args := x, src := s.reg n x.a, dst := s.reg n x.b, len := (s.reg n x.c).toNat
             flag := s.reg n x.d, creds := { atp := s.me.atp, pasid := s.me.pasid, priv := s.me.priv }
             after := s.me.unacked.map (·.id) }] }
        ∧ Moved { s with nextId := s.nextId + 2, cores := t.cores } t n (s.after 16) ∧ ∀ k, k ≠ e → t.core k = s.core k)
    ∧ ((∀ y ∈ (s.core e).copy, y.thread ≠ n) → Completes (.cpWait d) s fun t =>
      Wrote (s.onThr n fun t => { t with copyFault := 0 }) t n d (word s.me.copyFault) replyDelay (s.after 8))
    ∧ ((∃ y ∈ (s.core e).copy, y.thread = n) → Completes (.cpWait d) s fun t =>
      OnlyContext s t n ∧ (t.thr n).run = .sleeping ∧ (t.thr n).pc = s.me.pc)
    ∧ ((s.thr m).wait = .engine ids (some d) → (s.thr m).unacked = [] → (s.thr m).readyAt = 0 →
      (∀ i ∈ ids, (∀ z ∈ (s.core (originOf m)).seq, z.id ≠ i) ∧ (∀ z ∈ (s.core (originOf m)).mill, z.id ≠ i)
        ∧ ∀ z ∈ (s.core (originOf m)).copy, z.id ≠ i) → Completes (.threadReady m) s fun t =>
      Wrote (s.onThr m fun t => { t with copyFault := 0 }) t m d (word (s.thr m).copyFault) replyDelay ((s.thr m).pc + 8))
    ∧ (s.copyCore id = some (c, y) → s.copyReady c y = true →
      (y.ph = .queued → y.dir = .l2l → y.args.conv = false → y.args.flag = false → s.begun s.nextId = [] →
        let a := locKey c y.src.toNat
        let k := y.dst.toNat / 2 ^ 32 * 0x8_0000 + y.dst.toNat % 2 ^ 32
        (k ≤ a ∨ a + y.len ≤ k) → s.flawed true a y.len = false → Completes (.copyExecute id none) s fun t =>
          readBytes t.loc k y.len = readBytes s.loc a y.len ∧ (∀ b, (b < k ∨ k + y.len ≤ b) → readByte t.loc b = readByte s.loc b)
          ∧ t.mem = s.mem ∧ gone t)
      ∧ (y.ph = .queued → y.args.flag = false → y.payload c none s = (none, s1) → alone → Completes (.copyExecute id none) s fun t =>
        t.mem = s1.mem ∧ t.loc = s1.loc ∧ gone t)
      ∧ (y.ph = .payload → y.args.flag = true → y.writeFlag c s = (none, s1) → alone → Completes (.copyExecute id none) s fun t =>
        t.mem = s1.mem ∧ t.loc = s1.loc ∧ gone t)
      ∧ (y.ph = .queued → y.payload c none s = (some (f, v), s1) → f ≠ .mchk → alone → (s1.thr y.thread).wait = .none →
        (s1.thr y.thread).copyFault = 0 → Completes (.copyExecute id none) s fun t =>
          t.mem = s1.mem ∧ t.loc = s1.loc ∧ gone t ∧ (t.thr y.thread).copyFault = Cause.code f))
    ∧ ((s.core c).stall = [(q, m)] → (s.core c).held = [] → (s.core c).queueLen q < Machine.QueueKind.cap q → (s.thr m).wait = .full q 1 →
      Completes (.queueEntryFreed c q) s fun t =>
        (t.core c).held = [(q, m)] ∧ (t.core c).stall = [] ∧ t.thr m = { s.thr m with run := .ready, wait := .none } ∧ t.mem = s.mem)

/-! ### Shapes and the sequencer (R144 to R168) -/

/-- The instructions that the sequencer runs. -/
abbrev Sys2Proof.Machine.seqTable (d a b c : Slot) (k : VShift) (rm : Rm) (sat : Bool) (dim : BitVec 2) (x : RegOrW2) (r : Reg)
    (tag : BitVec 4) : List Instr :=
  [.vAdd d a b, .vSub d a b, .vMul d a b, .vFma d a b c, .vMin d a b, .vMax d a b, .vAbs d a, .vNeg d a, .vAnd d a b, .vOr d a b,
   .vXor d a b, .vShl d a k, .vShr d a k, .vCmpEq d a b, .vCmpNe d a b, .vCmpLt d a b, .vCmpGe d a b, .vSel d a b c, .vCvt d a rm sat,
   .vRsum d a dim, .vRmax d a dim, .vRmin d a dim, .vExp2 d a, .vRcp d a, .vRsqrt d a, .vBcast d x, .vQmax d a r tag,
   .vQcvt d a b rm sat, .vMov d a]

/-- V.SETS loads a valid record, or replaces BASE in a slot's; V.GETS stores the slot's 32 bytes, zeros where it is unset; a
sequencer instruction whose records keep R149, with room in the queue, appends its entry with the thread's records as they
stand and goes on; VREP appends its body's entries with its count, or skips them for a count of 0; VWAIT goes on where
nothing of the thread is queued, else sleeps (R144, R145, R149, R159 to R168). -/
def Obligations.VectorInstructionsComplete : Prop :=
  ∀ (s s1 : State) (d a b c : Slot) (r : Reg) (disp : BitVec 20) (k : VShift) (rm : Rm) (sat : Bool) (dim : BitVec 2) (x : RegOrW2)
    (tag k1 sd sa sb sc : BitVec 4) (is : List (Instr × BitVec 32)) (next : Word) (old : Shape),
    let n := s.cur
    let e := originOf n
    let y := s.reg n r + disp.signExtend 64
    let moves := fun (t : State) (len : Nat) (sh : Map (Option Shape)) => OnlyContext s t n ∧ t.thr n = { s.me with
      shapes := sh, pc := s.after len, run := .ready, wait := .none, cont := none, snap := none }
    (y.toNat % 32 = 0 → y.toNat ≤ 0x7_FFE0 →
      ((s.record e y.toNat).check = none → s.flawed true (locKey e y.toNat) 32 = false → Completes (.vSets d r disp) s fun t =>
        moves t 8 (mset none s.me.shapes d.toNat (some (s.record e y.toNat))))
      ∧ Completes (.vGets d r disp) s fun t =>
        t.record e y.toNat = (mget none s.me.shapes d.toNat).getD ⟨0, 0, 0, 0⟩
        ∧ (∀ i, (i < locKey e y.toNat ∨ locKey e y.toNat + 32 ≤ i) → readByte t.loc i = readByte s.loc i)
        ∧ Moved { s with loc := t.loc } t n (s.after 8))
    ∧ (mget none s.me.shapes d.toNat = some old → (s.reg n r).toNat ≤ 0x7_FFFF →
      (let new : Shape := { old with w0 := (old.w0 &&& 0xFFFF_FFFF_FFF8_0000) ||| s.reg n r }
       new.check = none → Completes (.vSetsBase d r) s fun t => moves t 8 (mset none s.me.shapes d.toNat (some new))))
    ∧ (∀ i ∈ seqTable d a b c k rm sat dim x r tag, seqOk e s.me.shapes i (seqOperand s n i) = true → (s.core e).seq.length < 16 →
      (s.core e).stall = [] → (s.core e).held = [] → Completes i s fun t =>
        (∃ q, (t.core e).seq = (s.core e).seq ++ [q] ∧ q.thread = n ∧ q.op = i ∧ q.recs = s.me.shapes ∧ q.x = seqOperand s n i ∧ q.count = 1
          ∧ q.iter = 0)
        ∧ Moved { s.tagged with cores := t.cores } t n (s.after (seqLen i)) ∧ ∀ j, j ≠ e → t.core j = s.core j)
    ∧ (let i : Instr := .vrep x k1 sd sa sb sc
       let count := match x with | .reg a => (s.reg n a).toNat % 2 ^ 32 | .i32 v => v.toNat
       let len := match x with | .reg _ => 8 | .i32 _ => 12
       s.scanBody n (w0Of i) (2 ^ 62) (k1.toNat + 1) (s.me.pc + len) = (.ok is next, s1) →
       (count = 0 → Completes i s fun t => Moved s1 t n next)
       ∧ (count ≠ 0 → bodyCheck s1 n count [sd, sa, sb, sc] is = none → (s1.core e).seq.length + (k1.toNat + 1) ≤ 16 →
         (s1.core e).stall = [] → (s1.core e).held = [] → Completes i s fun t =>
           ∃ es, (t.core e).seq = (s1.core e).seq ++ es ∧ es.map (·.op) = is.map (·.1)
             ∧ (∀ q ∈ es, q.thread = n ∧ q.count = count ∧ q.stag = [sd, sa, sb, sc] ∧ q.group = s1.nextId)
             ∧ (t.thr n).pc = next ∧ t.mem = s1.mem ∧ t.loc = s1.loc))
    ∧ ((∀ q ∈ (s.core e).seq, q.thread ≠ n) → Completes .vwait s fun t => Moved s t n (s.after 8))
    ∧ ((∃ q ∈ (s.core e).seq, q.thread = n) → Completes .vwait s fun t =>
      OnlyContext s t n ∧ (t.thr n).run = .sleeping ∧ (t.thr n).pc = s.me.pc)

/-- A record of one row of `n` words at an offset. -/
def Sys2Proof.Machine.Words (r : Shape) (ty off n : Nat) : Prop :=
  r.w0 = word (off + ty * 2 ^ 32) ∧ r.w1 = word (n + 0x1_0001_0001_0000) ∧ off % 4 = 0 ∧ off + 4 * n ≤ 0x8_0000 ∧ 1 ≤ n ∧ n ≤ 16

/-- Word `i` of a row. -/
abbrev Sys2Proof.Machine.State.rowWord (s : State) (c off i : Nat) : Nat := s.readLoc c (off + 4 * i) 4

/-- The elementwise instructions of signed 32-bit elements, and what each computes mod 2^32 (R160, R161). -/
abbrev Sys2Proof.Machine.intTable (d a b g : Slot) (h : BitVec 6) : List (Instr × (BitVec 32 → BitVec 32 → BitVec 32 → BitVec 32)) :=
  [(.vAdd d a b, fun x y _ => x + y), (.vSub d a b, fun x y _ => x - y), (.vMul d a b, fun x y _ => x * y),
   (.vFma d a b g, fun x y z => x * y + z), (.vMin d a b, fun x y _ => if x.toInt ≤ y.toInt then x else y),
   (.vMax d a b, fun x y _ => if y.toInt ≤ x.toInt then x else y), (.vAbs d a, fun x _ _ => if x.toInt < 0 then -x else x),
   (.vNeg d a, fun x _ _ => -x), (.vAnd d a b, fun x y _ => x &&& y), (.vOr d a b, fun x y _ => x ||| y),
   (.vXor d a b, fun x y _ => x ^^^ y), (.vShl d a (.imm h), fun x _ _ => x <<< (h.toNat % 32)),
   (.vShl d a (.slot b), fun x y _ => x <<< (y.toNat % 32)), (.vShr d a (.imm h), fun x _ _ => x.sshiftRight (h.toNat % 32)),
   (.vShr d a (.slot b), fun x y _ => x.sshiftRight (y.toNat % 32)), (.vCmpEq d a b, fun x y _ => if x = y then 1 else 0),
   (.vCmpNe d a b, fun x y _ => if x = y then 0 else 1), (.vCmpLt d a b, fun x y _ => if x.toInt < y.toInt then 1 else 0),
   (.vCmpGe d a b, fun x y _ => if y.toInt ≤ x.toInt then 1 else 0), (.vSel d a b g, fun x y z => if x = 0 then z else y),
   (.vMov d a, fun x _ _ => x)]

/-- The elementwise instructions of FP32 elements with the number of their sources, and what the result `q` of finite sources
is, in the units of `FpIs`. 1 ÷ √x is no rational: of V.RSQRT it is said that the exact root lies on `q`'s side of the midpoint of
`q` and every other code w, which, squared, reads 2^449 ≤ (q + w)² x or the reverse. V.EXP2 is said of whole numbers (R80 to R82,
R160). -/
abbrev Sys2Proof.Machine.fpTable (d a b g : Slot) : List (Instr × Nat × (Nat → Nat → Nat → Nat → Prop)) :=
  let v := fp32Value
  let m := fun (x : Nat) => decide (2 ^ 31 ≤ x)
  let u : Int := ((2 ^ 149 : Nat) : Int)
  [(.vAdd d a b, 2, fun x y _ q => FpIs q (v x + v y) 1 (m x && m y)),
   (.vSub d a b, 2, fun x y _ q => FpIs q (v x - v y) 1 (m x && !m y)),
   (.vMul d a b, 2, fun x y _ q => FpIs q (v x * v y) (2 ^ 149) (m x != m y)),
   (.vFma d a b g, 3, fun x y z q => FpIs q (v x * v y + v z * u) (2 ^ 149) ((m x != m y) && m z)),
   (.vAbs d a, 1, fun x _ _ q => FpIs q (v x).natAbs 1 false), (.vNeg d a, 1, fun x _ _ q => FpIs q (-v x) 1 (!m x)),
   (.vRcp d a, 1, fun x _ _ q =>
     if v x = 0 then q = if m x then 0xFF80_0000 else 0x7F80_0000
     else RoundsTo q (if m x then -((2 ^ 298 : Nat) : Int) else ((2 ^ 298 : Nat) : Int)) (v x).natAbs),
   (.vRsqrt d a, 1, fun x _ _ q =>
     (v x = 0 → q = if m x then 0xFF80_0000 else 0x7F80_0000) ∧ (v x < 0 → q = 0x7FC0_0000)
     ∧ (0 < v x → fp32Finite q ∧ q < 2 ^ 31 ∧ ∀ w, fp32Finite w →
       (v q < v w → ((2 ^ 449 : Nat) : Int) ≤ (v q + v w) * (v q + v w) * v x)
       ∧ (0 ≤ v w → v w < v q → (v q + v w) * (v q + v w) * v x ≤ ((2 ^ 449 : Nat) : Int)))),
   (.vExp2 d a, 1, fun x _ _ q => ∀ i : Int, v x = i * u →
     (128 ≤ i → q = 0x7F80_0000) ∧ (i < -149 → q = 0)
     ∧ (-149 ≤ i → i < 128 → fp32Finite q ∧ q < 2 ^ 31 ∧ v q = ((2 ^ (i + 149).toNat : Nat) : Int)))]

/-- V.MIN and V.MAX of FP32 elements: −0 lies below +0, and of one NaN the other operand is the result (R81). -/
def Sys2Proof.Machine.FpPick (x y q : Nat) (least : Bool) : Prop :=
  let v := fp32Value
  let m := fun (x : Nat) => decide (2 ^ 31 ≤ x)
  (fp32Finite x → fp32Finite y → FpIs q (if (if least then v x ≤ v y else v y ≤ v x) then v x else v y) 1
    (if least then m x || m y else m x && m y))
  ∧ (fp32Nan x → fp32Finite y → FpIs q (v y) 1 (m y)) ∧ (fp32Finite x → fp32Nan y → FpIs q (v x) 1 (m x))
  ∧ (fp32Nan x → fp32Nan y → q = 0x7FC0_0000)

/-- The entry at the head of a core's queue, where no word of a local store has a double-bit error, runs and leaves the queue, whole in
one event (the model's choice, log entry 17).
Over records of one row of 1 to 16 words, each source at the destination's own offset or apart from its bytes: every integer
instruction writes its result mod 2^32 for each signed 32-bit element, a reduction along the row the sum, maximum or minimum,
V.BCAST the operand's low bits; on FP32 elements V.ADD to V.NEG, V.RCP, V.RSQRT and, of whole numbers, V.EXP2 write the exact
result of finite sources rounded once to nearest even, and the canonical NaN where a source is a NaN; V.MIN and V.MAX go by R81;
V.RSUM of a finite row rounds after each addition, in ascending order from the first element (the model's reading, log entry 30),
V.RMAX and V.RMIN give its greatest and its least element; a compare of finite FP32 values writes 1 or 0; V.CVT writes the FP32
code nearest to an integer, and of an FP32 value the integer that its mode rounds to, saturated, and 0 of a NaN. No other byte
changes. A delivered maximum stands in its buffer entry (R78, R80 to R83, R146, R160 to R165). -/
def Obligations.SequencerEntriesApply : Prop :=
  ∀ (s : State) (id c dst col tag ent n : Nat) (after : List Nat) (e : SeqEntry) (d a b g : Slot) (h : BitVec 6) (k : RegOrW2)
    (sat : Bool) (r ra rb rg : Shape) (o oa ob og : Nat) (v : BitVec 32),
    (s.seqOwner id = some (c, e) → (s.core c).seq = [e] → e.id = id → e.thread / 16 = c → s.halted (dieOf c) = false →
      e.stag = [] → e.iter = 0 → e.done = 0 → e.count = 1 → e.held = [] → (∀ p ∈ s.flaws, p.1 = false) →
      mget none e.recs d.toNat = some r → mget none e.recs a.toNat = some ra → mget none e.recs b.toNat = some rb →
      mget none e.recs g.toNat = some rg →
      let x := fun i => s.rowWord c oa i
      let y := fun i => s.rowWord c ob i
      let z := fun i => s.rowWord c og i
      let wrote := fun (t : State) (k : Nat) (p : Nat → Nat → Prop) =>
        (∀ i, i < k → p i (t.rowWord c o i)) ∧ (∀ j, (j < locKey c o ∨ locKey c o + 4 * k ≤ j) → readByte t.loc j = readByte s.loc j)
        ∧ (t.core c).seq = [] ∧ t.mem = s.mem
      let apart := ∀ f ∈ [oa, ob, og], f = o ∨ f + 4 * n ≤ o ∨ o + 4 * n ≤ f
      (Words r 0xC o n → apart →
        (Words ra 0xC oa n → Words rb 0xC ob n → Words rg 0xC og n → ∀ f ∈ intTable d a b g h, e.op = f.1 →
          Completes (.seqEntryComplete id none) s fun t => wrote t n fun i q =>
            q = (f.2 (BitVec.ofNat 32 (x i)) (BitVec.ofNat 32 (y i)) (BitVec.ofNat 32 (z i))).toNat)
        ∧ (Words ra 0 oa n → Words rb 0 ob n → (∀ i, i < n → fp32Finite (x i) ∧ fp32Finite (y i)) →
          ∀ f ∈ [(Instr.vCmpEq d a b, fun (p q : Int) => decide (p = q)), (.vCmpNe d a b, fun p q => decide (p ≠ q)),
            (.vCmpLt d a b, fun p q => decide (p < q)), (.vCmpGe d a b, fun p q => decide (q ≤ p))], e.op = f.1 →
          Completes (.seqEntryComplete id none) s fun t => wrote t n fun i q =>
            q = if f.2 (fp32Value (x i)) (fp32Value (y i)) then 1 else 0)
        ∧ (Words ra 0 oa n → ∀ rm, e.op = .vCvt d a rm sat → Completes (.seqEntryComplete id none) s fun t => wrote t n fun i q =>
          (fp32Finite (x i) → q = (BitVec.ofInt 32
            (max (-(2 ^ 31)) (min (2 ^ 31 - 1) (roundedInt rm (fp32Value (x i)) ((2 ^ 149 : Nat) : Int))))).toNat)
          ∧ (fp32Nan (x i) → q = 0))
        ∧ (e.op = .vBcast d k → Completes (.seqEntryComplete id none) s fun t => wrote t n fun _ q => q = e.x.toNat % 2 ^ 32))
      ∧ (Words r 0xC o 1 → Words ra 0xC oa n →
        let l := (List.range n).map fun i => (BitVec.ofNat 32 (x i)).toInt
        (e.op = .vRsum d a 0 → Completes (.seqEntryComplete id none) s fun t => wrote t 1 fun _ q => q = (BitVec.ofInt 32 l.sum).toNat)
        ∧ ∀ p i, i < n → p = (BitVec.ofNat 32 (x i)).toInt →
          ((∀ w ∈ l, w ≤ p) → e.op = .vRmax d a 0 → Completes (.seqEntryComplete id none) s fun t => wrote t 1 fun _ q => q = x i)
          ∧ ((∀ w ∈ l, p ≤ w) → e.op = .vRmin d a 0 → Completes (.seqEntryComplete id none) s fun t => wrote t 1 fun _ q => q = x i))
      ∧ (Words r 0 o 1 → Words ra 0 oa n → (∀ i, i < n → fp32Finite (x i)) →
        (e.op = .vRsum d a 0 → Completes (.seqEntryComplete id none) s fun t => wrote t 1 fun _ q =>
          ∃ p : Nat → Nat, p 0 = x 0 ∧ q = p (n - 1) ∧ ∀ i, i + 1 < n → fp32Finite (p i) →
            FpIs (p (i + 1)) (fp32Value (p i) + fp32Value (x (i + 1))) 1 (decide (2 ^ 31 ≤ p i) && decide (2 ^ 31 ≤ x (i + 1))))
        ∧ (e.op = .vRmax d a 0 → Completes (.seqEntryComplete id none) s fun t => wrote t 1 fun _ q =>
          ∃ i, i < n ∧ q = x i ∧ ∀ j, j < n → CodeLe (x j) (x i))
        ∧ (e.op = .vRmin d a 0 → Completes (.seqEntryComplete id none) s fun t => wrote t 1 fun _ q =>
          ∃ i, i < n ∧ q = x i ∧ ∀ j, j < n → CodeLe (x i) (x j)))
      ∧ (Words r 0 o n → apart →
        (Words ra 0 oa n → Words rb 0 ob n → Words rg 0 og n → ∀ f ∈ fpTable d a b g, e.op = f.1 →
          Completes (.seqEntryComplete id none) s fun t => wrote t n fun i q =>
            ((∀ w ∈ [x i, y i, z i].take f.2.1, fp32Finite w) → f.2.2 (x i) (y i) (z i) q)
            ∧ ((∃ w ∈ [x i, y i, z i].take f.2.1, fp32Nan w) → q = 0x7FC0_0000))
        ∧ (Words ra 0 oa n → Words rb 0 ob n → ∀ f ∈ [(Instr.vMin d a b, true), (.vMax d a b, false)], e.op = f.1 →
          Completes (.seqEntryComplete id none) s fun t => wrote t n fun i q => FpPick (x i) (y i) q f.2)
        ∧ (Words ra 0xC oa n → e.op = .vCvt d a .rne sat → Completes (.seqEntryComplete id none) s fun t => wrote t n fun i q =>
          FpIs q ((BitVec.ofNat 32 (x i)).toInt * ((2 ^ 149 : Nat) : Int)) 1 false)))
    ∧ (s.due id = some ⟨id, .core dst, .core c, after, .qmax c col tag ent v⟩ → mget none (s.core c).exch (col * 16 + tag) = none →
      Completes (.qmaxDelivery id) s fun t =>
        mget none (t.core c).exch (col * 16 + tag) = some v ∧ t.mem = s.mem ∧ t.loc = s.loc ∧ t.threads = s.threads)

/-! ### The Mill (R169 to R190) -/

/-- A Mill instruction's command stands at the tail of its core's queue, the tile's latches are as in `m`, and the thread
has gone on; nothing else has changed (R171). -/
def Sys2Proof.Machine.MillQueued (s t : State) (n : Nat) (op : MillOp) (m : Tile) : Prop :=
  t.core (originOf n) = { s.core (originOf n) with mill := (s.core (originOf n)).mill ++ [{ id := s.nextId, thread := n, op := op }] }
  ∧ t.tile (tileOf (originOf n)) = m ∧ (∀ k, k ≠ originOf n → t.core k = s.core k)
  ∧ Moved { s.tagged with cores := t.cores, tiles := t.tiles } t n (s.after 8)

/-- With room in the queue MM.LOADW by the latch's claimant announces its format, and MM.GATHER, MM.RUN, MM.ACCZ and
MM.DRAIN queue their commands; MM.WAIT goes on where no command of its kind is queued; MM.CFG claims a free latch, releases
its own, and sets the lane's weight from 1 to 8; MM.STAT reads and clears the errors (R171, R176, R183 to R190). The
layout of MM.STAT's word (`millStat`) is the model's choice (log entry 108). -/
def Obligations.MillInstructionsComplete : Prop :=
  ∀ (s : State) (d a : Unit2) (x y : Slot) (r ix : Shape) (fmt : MmFmt) (b c g : Reg) (ann : Nat),
    let n := s.cur
    let e := originOf n
    let m := s.tile (tileOf e)
    let lane := laneOf e
    ((s.core e).mill.length < 8 → (s.core e).stall = [] → (s.core e).held = [] →
      (Completes (.mmAccz d) s fun t => MillQueued s t n (.accz d.toNat) m)
      ∧ (mget none s.me.shapes x.toNat = some r →
      ((m.latch d.toNat).claim = some lane → millType r.ty = true → millShape r = true → r.ext 1 = 256 → Completes (.mmLoadw d x) s fun t =>
        MillQueued s t n (.loadw d.toNat r) (m.onLatch d.toNat fun l => { l with ann := some r.ty }))
      ∧ (mget none s.me.shapes y.toNat = some ix → gatherOk r ix = true → Completes (.mmGather x y) s fun t =>
        MillQueued s t n (.gather r ix) m)
      ∧ (fmtTakes fmt r.ty = true → millShape r = true → millRows r = true → (m.latch a.toNat).ann = some ann →
        comboRate ann fmt ≠ none → Completes (.mmRun d a x fmt) s fun t => MillQueued s t n (.run d.toNat a.toNat fmt r) m)
      ∧ (drainType r.ty = true → millShape r = true → millRows r = true → n < 16384 →
        (s.cut (dieOf s.me.core) (dieOf e) = false → Completes (.mmDrain d x .own) s fun t =>
          MillQueued s t n (.drain d.toNat r 0 e 0) m)
        ∧ ((s.reg n c).toNat ≤ 1023 → s.cut (dieOf s.me.core) (dieOf (s.reg n c).toNat) = false →
          (Completes (.mmDrain d x (.remote c)) s fun t => MillQueued s t n (.drain d.toNat r 1 (s.reg n c).toNat 0) m)
          ∧ ((s.reg n b).toNat ≤ 16383 → Completes (.mmDrain d x (.wake b c)) s fun t =>
            MillQueued s t n (.drain d.toNat r 2 (s.reg n c).toNat (s.reg n b).toNat) m)))))
    ∧ ((s.core e).mill = [] → (Completes (.mmWait none) s fun t => Moved s t n (s.after 8))
      ∧ Completes (.mmWait (some d)) s fun t => Moved s t n (s.after 8))
    ∧ ((m.latch d.toNat).claim = none → Completes (.mmClaim g d) s fun t =>
      Wrote (s.onTile (tileOf e) fun m => m.onLatch d.toNat fun l => { l with claim := some lane, own := lane }) t n g 1 7 (s.after 8))
    ∧ (∀ o, (m.latch d.toNat).claim = some o → Completes (.mmClaim g d) s fun t =>
      Wrote s t n g (if o = lane then 1 else 0) 7 (s.after 8))
    ∧ ((m.latch d.toNat).claim = some lane → Completes (.mmRelease g d) s fun t =>
      Wrote (s.onTile (tileOf e) fun m => m.onLatch d.toNat fun l => { l with claim := none }) t n g 1 7 (s.after 8))
    ∧ ((m.latch d.toNat).claim ≠ some lane → Completes (.mmRelease g d) s fun t => Wrote s t n g 0 7 (s.after 8))
    ∧ (s.me.priv ≠ .user → Completes (.mmSetWeight g c) s fun t =>
      let v := (s.reg n c).toNat
      Wrote (s.onTile (tileOf e) fun m => { m with wt := mset 0 m.wt lane (if v < 1 then 0 else if 8 < v then 7 else v - 1) })
        t n g (word (mget 0 m.wt lane + 1)) 7 (s.after 8))
    ∧ (Completes (.mmStat g) s fun t =>
      Wrote (s.onCore e fun k => { k with errLost := false, errNowake := false, errIdx := false }) t n g (s.millStat e) 7 (s.after 8))

/-- The Mill's events: a grant gives the array to a run and counts its occupancy; an I8 run adds to each accumulator
word the products of its row and column, mod 2^32, whole in one event (the model's choice, log entries 17 and 51); a run of BF16
weights and activations adds the exact sum of 32 products at a time, rounded once to FP32 with subnormals flushed, eight times
over, where they and the accumulator are finite (R84); a load fills
its latch; a gather fills the operand latch, a row past the record's with zeros, which sets ERR.IDX; ACCZ zeroes an accumulator;
a drain of one row as FP32 or I32 writes the accumulator's words; its wake makes an instance of the record bound to its postbox,
with the target as payload, waits where the pool has no line, sets ERR.NOWAKE where nothing is bound, and ERR.LOST where the
postbox's die is lost (log entry 86); one that has waited ends once it is served (R86, R172 to R187, R205). -/
def Obligations.MillEventsApply : Prop :=
  ∀ (s : State) (id n c w a l tn ty k box dst m : Nat) (r ix : Shape) (fmt : MmFmt) (rows : List Row) (x : MillCmd) (mode : Nat)
    (b : Post),
    (l < 8 → (s.tile tn).holder = none → (s.tile tn).idle = false → (s.tile tn).lane = l → s.laneRun tn l = some x → x.op = .run a w fmt r →
      (s.tile tn).used ≤ mget 0 (s.tile tn).rwt l → (s.core (coreOfLane tn l)).latchRows = none → ((s.tile tn).latch w).type = some ty →
      comboRate ty fmt = some k → Completes (.millRunGrant tn) s fun t =>
        (t.tile tn).holder = some x.id ∧ (t.tile tn).used = (s.tile tn).used + 1 ∧ (t.tile tn).lane = l
        ∧ (t.tile tn).busy = (s.tile tn).busy + word (Max.max 4 ((r.ext 1 * k + 1) / 2)) ∧ t.mem = s.mem ∧ t.loc = s.loc)
    ∧ (s.millCore id = some (c, ⟨id, n, .run a w .i8 r, .streamed, rows⟩) → s.dead (dieOf c) = false → rows.length ≤ 64 →
      (∀ y ∈ (s.core c).mill, y.isRun = true → y.op.acc = some a → id ≤ y.id) → Completes (.millRunComplete id) s fun t =>
        (∀ i j, i < rows.length → j < 256 →
          mget 0 (t.core c).acc (accKey a i j) = BitVec.ofInt 32 ((mget 0 (s.core c).acc (accKey a i j)).toNat
            + ((List.range 256).map fun p =>
                rowInt (((s.tile (tileOf c)).latch w).col j) p * rowInt (rows.getD i ([], [])) p).sum))
        ∧ (t.tile (tileOf c)).runs = (s.tile (tileOf c)).runs + 1 ∧ (∀ y ∈ (t.core c).mill, y.id ≠ id) ∧ t.mem = s.mem ∧ t.loc = s.loc)
    ∧ (s.millCore id = some (c, ⟨id, n, .run a w .bf16 r, .streamed, rows⟩) → s.dead (dieOf c) = false → rows.length ≤ 64 → r.ty = 2 →
      ((s.tile (tileOf c)).latch w).type = some 2 →
      (∀ y ∈ (s.core c).mill, y.isRun = true → y.op.acc = some a → id ≤ y.id) → Completes (.millRunComplete id) s fun t =>
        (∀ i j, i < rows.length → j < 256 →
          let wt := fun k => bfCode (((s.tile (tileOf c)).latch w).col j).1 k
          let at' := fun k => bfCode (rows.getD i ([], [])).1 k
          (∀ k, k < 256 → fp32Finite (wt k) ∧ fp32Finite (at' k)) →
          ∃ p : Nat → Nat, p 0 = (mget 0 (s.core c).acc (accKey a i j)).toNat ∧ (mget 0 (t.core c).acc (accKey a i j)).toNat = p 8
            ∧ ∀ g, g < 8 → fp32Finite (p g) → GroupOf (p g) (p (g + 1))
              ((List.range 32).map fun k => fp32Value (wt (32 * g + k)) * fp32Value (at' (32 * g + k))).sum)
        ∧ (t.tile (tileOf c)).runs = (s.tile (tileOf c)).runs + 1 ∧ (∀ y ∈ (t.core c).mill, y.id ≠ id) ∧ t.mem = s.mem ∧ t.loc = s.loc)
    ∧ (∀ op, s.millCore id = some (c, ⟨id, n, op, .queued, rows⟩) → s.millReady c ⟨id, n, op, .queued, rows⟩ = true →
      (op = .loadw w r → Completes (.millLoadwExec id none) s fun t =>
        ((t.tile (tileOf c)).latch w).type = some r.ty
        ∧ ((t.tile (tileOf c)).latch w).elems = ((List.range 256).map fun i => (s.row c r i (s.locErrs none)).1).flatten
        ∧ (∀ y ∈ (t.core c).mill, y.id ≠ id) ∧ t.mem = s.mem ∧ t.loc = s.loc)
      ∧ (op = .gather r ix → (s.tile (tileOf c)).holder = none → s.flaws = [] → Completes (.millGatherExec id none) s fun t =>
        (∃ g, (t.core c).latchRows = some g ∧ g.length = ix.ext 0 ∧ ∀ i, i < ix.ext 0 →
          let v := s.elem c ix ⟨i, 0, 0, 0⟩
          (v % 2 ^ 13 < r.ext 1 → g[i]? = some (s.row (coreOfLane (tileOf c) (v / 2 ^ 13 % 8)) r (v % 2 ^ 13) []))
          ∧ (r.ext 1 ≤ v % 2 ^ 13 → (t.core c).errIdx = true ∧ g[i]? = some (List.replicate r.rowBytes 0, List.replicate 8 0)))
        ∧ (∀ y ∈ (t.core c).mill, y.id ≠ id) ∧ t.mem = s.mem ∧ t.loc = s.loc)
      ∧ (op = .accz a → Completes (.millAcczExec id) s fun t =>
        (∀ i j, i < 64 → j < 256 → mget 0 (t.core c).acc (accKey a i j) = 0)
        ∧ (∀ i j b, i < 64 → j < 256 → b ≠ a → mget 0 (t.core c).acc (accKey b i j) = mget 0 (s.core c).acc (accKey b i j))
        ∧ (∀ y ∈ (t.core c).mill, y.id ≠ id) ∧ t.mem = s.mem ∧ t.loc = s.loc)
      ∧ (op = .drain a r mode dst box → (r.ty = 0 ∨ r.ty = 0xC) → r.ext 1 = 1 → (∀ i, i < 256 → ¬ accKey a 0 i ∈ (s.core c).accErr) → s.cut (dieOf c) (dieOf dst) = false →
        s.linksOpen (dieOf c) (dieOf dst) = true → Completes (.millDrainExec id none) s fun t =>
        (∀ i, i < 256 → t.readLoc dst (r.base + 4 * i) 4 = (mget 0 (s.core c).acc (accKey a 0 i)).toNat)
        ∧ (∀ y, (y < locKey dst r.base ∨ locKey dst r.base + 1024 ≤ y) → readByte t.loc y = readByte s.loc y)
        ∧ (mode ≠ 2 → ∀ y ∈ (t.core c).mill, y.id ≠ id) ∧ (mode = 2 → ∀ y ∈ (t.core c).mill, y.id = id → y.ph = .waking) ∧ t.mem = s.mem))
    ∧ (s.millCore id = some (c, ⟨id, n, .drain a r mode dst box, .waking, rows⟩) →
      let v := word (dst * 2 ^ 32 + r.base)
      let d := box / 4096
      let gone := fun (t : State) => ∀ y ∈ (t.core c).mill, y.id ≠ id
      (s.cut (dieOf c) d = true ∨ s.cut (dieOf c) (dieOf dst) = true → Completes (.millDrainWake id) s fun t =>
        (t.core c).errLost = true ∧ gone t ∧ t.mem = s.mem)
      ∧ (s.cut (dieOf c) d = false → s.cut (dieOf c) (dieOf dst) = false → s.linksOpen (dieOf c) d = true →
        (∀ m ∈ s.msgs, m.src ≠ .box box) →
        (mget none s.posts box = none → Completes (.millDrainWake id) s fun t =>
          (t.core c).errNowake = true ∧ (t.die d).postdrop = (s.die d).postdrop + 1 ∧ gone t ∧ t.mem = s.mem ∧ t.loc = s.loc)
        ∧ (mget none s.posts box = some b → inPackage b.recPa = true → s.dead (homeDie b.recPa) = false →
          s.granted b.creds.domain b.recPa = true →
          ((s.die d).freeLine = some k → Completes (.millDrainWake id) s fun t => gone t
            ∧ (t.core c).errNowake = (s.core c).errNowake
            ∧ ∃ q, (t.die d).dieq = (s.die d).dieq ++ [q] ∧ q.recVa = b.recVa ∧ q.creds = b.creds ∧ q.payload = v)
          ∧ ((s.die d).freeLine = none → Completes (.millDrainWake id) s fun t =>
            (∃ x ∈ t.msgs, x.dst = .box box ∧ x.body = .post none box v ∧ ∀ y ∈ (t.core c).mill, y.id = id → y.ph = .arrived x.id)
            ∧ t.mem = s.mem))))
    ∧ (s.millCore id = some (c, ⟨id, n, .drain a r mode dst box, .arrived m, rows⟩) → (s.msg m).isSome = false →
      Completes (.millDrainWake id) s fun t => (∀ y ∈ (t.core c).mill, y.id ≠ id) ∧ t.mem = s.mem)

/-! ### The steward's crypto engine (R356, R357) -/

/-- In steward mode, once the operands' checks pass and no load meets a machine check: SEAL.HASH absorbs the bytes; SEAL.DIGEST writes the digest and starts
the state anew; SEAL.SIGN writes the signature of a slot that holds a key pair; SEAL.VERIFY answers whether the signature
verifies under a key on the curve; SEAL.ECDH and SEAL.KEYLOAD fill a slot; SEAL.RAND writes entropy; SEAL.EXTEND extends a
measurement; SEAL.WIPE clears the marked slots from 8 on. Each answers 1, or 0 where the slot does not serve: slot 0, the identity
key, is never written (log entry 32's reading). Package memory outside the roll reads as its bytes (last clause). -/
def Obligations.SealCompletes : Prop :=
  ∀ (s : State) (d a b c : Reg) (st : BitVec 2) (k m : BitVec 5) (i : BitVec 3) (l : Bool) (key : BitVec 384),
    let n := s.cur
    let e := dieOf s.me.core
    let len := (s.reg n b).toNat
    let pc := (s.reg n c).toNat
    let read := fun (u : State) (x : Reg) (size : Nat) => u.sealRead n (s.reg n x) size
    let put := fun (u : State) (j : Nat) (x : KeySlot) => u.onDie e fun y => { y with keys := mset .empty y.keys j x }
    let answers := fun (u t : State) (v : Word) => Wrote u t n d v replyDelay (s.after 8)
    s.me.priv = .steward → s.me.unacked = [] →
    (s.sealRefuse n false [(s.reg n a, len, .transl)] = none →
      let r := read s a len
      Completes (.sealHash d a b st) s fun t =>
        answers (r.2.onDie e fun x => { x with hashes := mset [] x.hashes st.toNat (mget [] x.hashes st.toNat ++ r.1) }) t 1)
    ∧ (s.Calm → inPackage pc = true → s.sealRefuse n true [(s.reg n c, 48, .transs)] = none → Completes (.sealDigest d c st) s fun t =>
      readBytes t.mem pc 48 = digestBytes (Config.sha384 (mget [] (s.die e).hashes st.toNat))
      ∧ (∀ x, (x < pc ∨ pc + 48 ≤ x) → readByte t.mem x = readByte s.mem x) ∧ mget [] (t.die e).hashes st.toNat = []
      ∧ Answered t n d 1 (s.after 8))
    ∧ (s.sealRefuse n true [(s.reg n a, 48, .transl), (s.reg n c, 96, .transs)] = none →
      (s.keyOf n k.toNat = .pair key → s.Calm → inPackage pc = true → Completes (.sealSign d a c k) s fun t =>
        readBytes t.mem pc 96 = Machine.bytesOfNat (Config.ecdsaSign key (num384 (read s a 48).1)).toNat 96
        ∧ (∀ x, (x < pc ∨ pc + 96 ≤ x) → readByte t.mem x = readByte s.mem x) ∧ Answered t n d 1 (s.after 8))
      ∧ ((∀ key, s.keyOf n k.toNat ≠ .pair key) → Completes (.sealSign d a c k) s fun t => answers s t 0))
    ∧ (s.sealRefuse n true [(s.reg n a, 48, .transl), (s.reg n b, 96, .transl), (s.reg n c, 96, .transl)] = none →
      let r := read s a 48
      let y := read r.2 b 96
      let g := read y.2 c 96
      Completes (.sealVerify d a b c) s fun t => answers g.2 t
        (if Config.onCurve (num768 y.1) && Config.ecdsaVerify (num768 g.1) (num384 r.1) (num768 y.1) then 1 else 0))
    ∧ (s.sealRefuse n true [(s.reg n a, 96, .transl)] = none →
      let r := read s a 96
      (s.keyOf n k.toNat = .pair key → Config.onCurve (num768 r.1) = true → s.keyWritable n m.toNat = true →
        Completes (.sealEcdh d a k m) s fun t => answers (put r.2 m.toNat (.secret (Config.ecdhExtract key (num768 r.1)))) t 1)
      ∧ (((∀ key, s.keyOf n k.toNat ≠ .pair key) ∨ Config.onCurve (num768 r.1) = false ∨ s.keyWritable n m.toNat = false) →
        Completes (.sealEcdh d a k m) s fun t => answers r.2 t 0))
    ∧ (s.sealRefuse n true [(s.reg n a, 64, .transl)] = none →
      let r := read s a 64
      let u := r.2
      let word' := fun (j : Nat) => natOfBytes ((r.1.drop (8 * j)).take 8)
      let mode := word' 0 % 256
      let port := word' 1 / 2 ^ 12 % 16
      let serves : Prop := port ≤ 4 ∧ word' 1 / 2 ^ 8 % 16 < (if port = 0 then 5 else 1)
      let set := ((port * 16 + word' 1 / 2 ^ 8 % 16) * 2 + word' 1 / 2 % 2) * 2 + word' 1 % 2
      (mode = 0 → u.keyWritable n k.toNat = true → Completes (.sealKeyload d a k) s fun t =>
        answers (put u k.toNat (.secret (num384 ((r.1.drop 8).take 48)))) t 1)
      ∧ (mode = 1 → u.keyOf n (word' 1 % 32) = .secret key → u.keyWritable n k.toNat = true → Completes (.sealKeyload d a k) s fun t =>
        answers (put u k.toNat (.secret (Config.hkdfExpand key (BitVec.ofNat 320 (natOfBytes ((r.1.drop 16).take 40)))))) t 1)
      ∧ (mode = 2 → s.Calm → inPackage (s.reg n a).toNat = true → inPackage ((s.reg n a).toNat + 63) = true →
        u.sealChecks n true [(word (word' 1), 96, .transs)] = none → inPackage (word' 1) = true → u.keyWritable n k.toNat = true →
        Completes (.sealKeyload d a k) s fun t =>
          mget .empty (t.die e).keys k.toNat = .pair (Config.entropy s.free)
          ∧ readBytes t.mem (word' 1) 96 = Machine.bytesOfNat (Config.publicKey (Config.entropy s.free)).toNat 96
          ∧ (∀ x, (x < word' 1 ∨ word' 1 + 96 ≤ x) → readByte t.mem x = readByte s.mem x) ∧ Answered t n d 1 (s.after 8))
      ∧ (mode = 3 → serves → ∀ v, (u.keyOf n k.toNat).first = some v → Completes (.sealKeyload d a k) s fun t =>
        answers (u.onDie e fun x => { x with streamKeys := mset none x.streamKeys set (some v) }) t 1)
      ∧ ((4 ≤ mode ∨ (mode < 2 ∧ u.keyWritable n k.toNat = false) ∨ (mode = 1 ∧ ∀ key, u.keyOf n (word' 1 % 32) ≠ .secret key)
          ∨ (mode = 3 ∧ (¬ serves ∨ (u.keyOf n k.toNat).first = none))) → Completes (.sealKeyload d a k) s fun t => answers u t 0))
    ∧ (Completes (.sealRand d) s fun t => answers { s with free := s.free + 1 } t ((Config.entropy s.free).setWidth 64))
    ∧ (s.sealRefuse n true [(s.reg n a, 48, .transl)] = none →
      let r := read s a 48
      ((5 ≤ i.toNat ∨ (s.die e).boot ≠ .serving) → Completes (.sealExtend d a i) s fun t =>
        answers (r.2.onDie e fun x => { x with meas := mset 0 x.meas i.toNat (Config.sha384
          (Machine.bytesOfNat (mget 0 x.meas i.toNat).toNat 48 ++ r.1)) }) t 1)
      ∧ (i.toNat < 5 → (s.die e).boot = .serving → Completes (.sealExtend d a i) s fun t => answers r.2 t 0))
    ∧ (Completes (.sealWipe d a l) s fun t =>
      (∀ j, mget .empty (t.die e).keys j = if 8 ≤ j ∧ (s.reg n a).getLsbD j = true then .empty else mget .empty (s.die e).keys j)
      ∧ (l = true → (t.die e).streamKeys = []) ∧ (l = false → (t.die e).streamKeys = (s.die e).streamKeys)
      ∧ Answered t n d 1 (s.after 8) ∧ t.mem = s.mem)
    ∧ (∀ size, let pa := (s.reg n a).toNat
        1 ≤ size → inPackage pa = true → inPackage (pa + size - 1) = true → s.entryFrame pa = none → s.entryFrame (pa + size - 1) = none →
        (read s a size).1 = readBytes s.mem pa size)

/-! ### The steward (R346 to R355) -/

/-- The host's ROM commands, with no other command waiting and its port secure: STATUS keeps the nonce; BEGIN merges and measures
the scars and runs the boot steps, or those before the one that fails, which it records; LOAD starts a verified image, SWITCH
replaces it when no call is in service; ASSIGN and RELEASE change a frame's owner and raise its generation; UNLOCK opens debug.
A completion stands where the host may write, followed by MSI-X 2. Power and resets leave what R6, R267 and R349 say; a register
write from outside reaches the register (R6, R199, R346 to R355). The model's choices: BEGIN names the live slices and the step
that fails, and goes on with any number of live slices where step 3 carries no scar (log entry 65), a reset keeps HBM and local
stores (67), power off empties memory (1), and SWITCH_ACTIVATE comes at any time within its limit (68). -/
def Obligations.StewardServes : Prop :=
  ∀ (s : State) (d tag cpl f len owner t0 : Nat) (nonce : BitVec 32) (digest : BitVec 384) (live v : Word) (brk : BitVec 256) (dom : Domain)
    (k : Nat),
    let x := s.die d
    (d < 4 → x.lost = false → x.up = true → x.hostShut = false → x.switch = none → x.romq = [] →
      let done := fun (t : State) (status : Nat) (w1 : Word) => (t.die d).msi = x.msi ++ [2] ∧
        (inPackage cpl = true → s.populated cpl = true → s.granted .host cpl = true →
          readN t.mem cpl 16 = tag % 2 ^ 32 * 2 ^ 32 + status + 2 ^ 64 * w1.toNat)
      (Completes (.romStatus d tag cpl nonce) s fun t => (t.die d).nonce = nonce ∧ t.loc = s.loc
        ∧ done t 1 (word (nonce.toNat * 2 ^ 32) + (x.bootscar &&& 0x1FF_FFFF)))
      ∧ (x.boot = .waitBegin → x.bootscar = 0 → Completes (.romBegin d tag cpl 0 none live) s fun t =>
        (t.die d).boot = .waitLoad ∧ (t.die d).slicemap = live ∧ (t.die d).alone = false ∧ (t.die d).msi = x.msi ++ [2]
        ∧ mget 0 (t.die d).meas 4 = Config.sha384 (Machine.bytesOfNat (mget 0 x.meas 4).toNat 48 ++ Machine.bytesOfNat 0 2)
        ∧ (t.die d).slhash = (let c := (List.range 64).countP fun i => live.getLsbD i
                              if 64 ≤ c then 0 else if 60 ≤ c then 1 else if 56 ≤ c then 2 else 3))
      ∧ (x.boot = .waitBegin → x.bootscar = 0 → 3 ≤ k → k ≤ 7 → Completes (.romBegin d tag cpl 0 (some k) live) s fun t =>
        (t.die d).boot = .failed ∧ (t.die d).bootscar.getLsbD 24 = true ∧ (t.die d).slicemap = if 3 < k then live else x.slicemap)
      ∧ (x.boot = .waitLoad → (Completes (.romLoad d tag cpl f len digest true) s fun t =>
          (t.die d).boot = .serving ∧ (t.die d).image = some digest ∧ done t 1 0
          ∧ mget 0 (t.die d).meas 1 = Config.sha384 (Machine.bytesOfNat (mget 0 x.meas 1).toNat 48 ++ Machine.bytesOfNat digest.toNat 48))
        ∧ (Completes (.romLoad d tag cpl f len digest false) s fun t => (t.die d).boot = .failed ∧ (t.die d).image = x.image))
      ∧ (x.boot = .serving → (Completes (.romSwitch d tag cpl f len digest true) s fun t =>
          t = s.onDie d fun y => { y with switch := some (digest, s.reft, tag, cpl) })
        ∧ (s.romFrames d f 1 = true → s.linksOpen d (homeDie (s.entryAddr f)) = true →
          ((s.deed f).owner = .free → (owner = 1 ∨ owner = 2) → Completes (.romAssign d tag cpl f 1 owner) s fun t =>
            (t.deed f).owner = (if owner = 1 then .host else .acc) ∧ (t.deed f).state = 0 ∧ (t.deed f).gen = (s.deed f).gen + 1)
          ∧ ((s.deed f).owner = .host → (s.deed f).state = 0 → Completes (.romRelease d tag cpl f 1 .host) s fun t =>
            (t.deed f).owner = .free ∧ (t.deed f).state = 0 ∧ (t.deed f).gen = (s.deed f).gen + 1)))
      ∧ (nonce = x.nonce → Completes (.romUnlock d tag cpl digest nonce true true) s fun t =>
        (t.die d).debugOpen = true ∧ (∀ j, 8 ≤ j → mget .empty (t.die d).keys j = .empty) ∧ (t.die d).streamKeys = [] ∧ (t.die d).spdm = 0
        ∧ (t.die d).peers = [] ∧ done t 1 0
        ∧ mget 0 (t.die d).meas 2 = Config.sha384 (Machine.bytesOfNat (mget 0 x.meas 2).toNat 48 ++ Machine.bytesOfNat digest.toNat 48)))
    ∧ (x.switch = some (digest, t0, tag, cpl) →
      (s.reft < t0 + 20000 → Completes (.switchActivate d) s fun t => (t.die d).image = some digest ∧ (t.die d).switch = none)
      ∧ (t0 + 20000 ≤ s.reft → Completes (.switchTimeout d) s fun t => (t.die d).image = x.image ∧ (t.die d).switch = none))
    ∧ (d < 4 → x.debugOpen = true → x.hostShut = false → Completes (.dbgbrkWrite d brk) s fun t => (t.die d).dbgbrk = brk ∧ t.mem = s.mem)
    ∧ (x.boot = .off → d < 4 → Completes (.powerOn live none) s fun t =>
      t.powered = true ∧ (t.die d).boot = .waitBegin ∧ (t.die d).slicemap = live)
    ∧ (s.altHomes = [] → Completes .coldReset s fun t =>
      t.mem = s.mem.filter (fun p => inHbm p.1) ∧ t.loc = s.loc ∧ t.threads = [] ∧ t.cores = [] ∧ t.dies = [] ∧ t.tiles = [] ∧ t.roll = [])
    ∧ (Completes .warmReset s fun t =>
      t.threads = [] ∧ (∀ c, (t.core c).c = (s.core c).c ∧ (t.core c).acc = (s.core c).acc) ∧ t.roll = [] ∧ t.altHomes = s.altHomes
      ∧ t.mem = s.mem.filter (fun p => inHbm p.1) ∧ (t.die d).meas = x.meas ∧ (t.die d).slicemap = x.slicemap ∧ (t.die d).slhash = 0)
    ∧ (Completes .powerOff s fun t => t.powered = false ∧ t.mem = [] ∧ t.loc = [] ∧ t.threads = [] ∧ t.dies = [])
    ∧ (d < 4 → x.lost = false → x.held = false → x.relock = none → (dom = .host → x.hostShut = false) →
      Completes (.registerWrite dom d 0x3_0000 8 v) s fun t =>
      t = s.onDie d fun y => { y with kpost := v &&& 0xBFFF })

/-- The SPDM requests move a steward's responder from version to session in order, on the host's port and on each scale-up link,
whose peer steward asks (the event names the port above the die: the model's choice, log entry 98); measurements 1 to 8 are MEAS0
to MEAS7; inside a port's session IDE_KM programs, switches and stops the key sets of its streams, 1 + 4 of the host's, one of a
link (R352 to R354). That a K_SET_GO ends its port's insecure state, and which sets KEY_PROG takes, is log entry 70's reading. -/
def Obligations.SessionsProgress : Prop :=
  ∀ (s : State) (d port i : Nat) (k : StreamKey) (key : BitVec 256),
    let x := s.die d
    let e := 4 * port + d
    let p := x.progress port
    let at' := fun (p : Nat) => s.onDie d fun y => if port = 0 then { y with spdm := p } else { y with peers := mset 0 y.peers (port - 1) p }
    let sets := fun (v : Option (BitVec 256)) (t : State) => mget none (t.die d).streamKeys (keyIndex k) = v ∧ t.mem = s.mem
    d < 4 → port ≤ 4 → x.lost = false → (port = 0 → x.up = true) → (port ≠ 0 → x.passed 6 = true) →
    (Completes (.getVersion e) s fun t => t = at' 1)
    ∧ (p = 1 → Completes (.getCapabilities e) s fun t => t = at' 2)
    ∧ (p = 2 → Completes (.negotiateAlgorithms e) s fun t => t = at' 3)
    ∧ (3 ≤ p → (∀ i ∈ [Instr.getDigests e, .getCertificate e, .challenge e], Completes i s fun t => t = at' p)
      ∧ (1 ≤ i → i ≤ 8 → Completes (.getMeasurements e i) s fun t =>
        t = { s with answer := some ((mget 0 x.meas (i - 1)).setWidth 1024), poison := false }))
    ∧ (p = 3 → Completes (.keyExchange e) s fun t => t = at' 4)
    ∧ (p = 4 → Completes (.finish e) s fun t => t = at' 5)
    ∧ (p = 5 → (∀ i ∈ [Instr.keyUpdate e, .ideKmQuery e], Completes i s fun t => t = at' 5)
      ∧ (Completes (.endSession e) s fun t => t = at' 3)
      ∧ (k.port = port → k.stream < (if port = 0 then 5 else 1) →
        (mget none x.streamKeys (keyIndex k) = none → Completes (.keyProg d k key) s (sets (some key)))
        ∧ (k.rx = false → mget none x.streamKeys (keyIndex k) = some key → Completes (.kSetGo d k) s fun t =>
          mget 0 (t.die d).streamTx (streamOf k) = (if k.keySet then 1 else 0)
          ∧ ¬ (if k.port = 0 then 4 else k.port - 1) ∈ (t.die d).insecure ∧ sets (some key) t)
        ∧ Completes (.kSetStop d k) s (sets none)))

/-! ### Bins, links, loss and clocks (R246 to R250, R334 to R337, R366) -/

/-- Carving zeroes a bin and marks it busy, uncarving takes it back where the accelerator owns every frame and else sets
CARVEERR; links sleep, wake, check and time out at both ends; a die that a link has marked lost is announced; the reeve
decides once an epoch; a clock step ends with DCYC as R336 gives it (R246 to R250, R335 to R337). The model's choices: when a
wake is counted (log entry 63), the links wanted (log entry 77), the measured power (log entries 64 and 105). -/
def Obligations.LinksAndPowerApply : Prop :=
  ∀ (s : State) (d b : Nat) (l : LinkId) (v : Word) (r : Relock) (w0 w1 w2 w3 : Nat),
    let x := s.die d
    let lo := d * 2 ^ 38 + 0x30_0000_0000 + b * 0x400_0000
    let owned := ∀ i, i < 16384 → (s.deed (lo / 4096 + i)).owner = .acc ∧ (s.deed (lo / 4096 + i)).state = 0
    (d < 4 → b < 8 →
      (x.carve.getLsbD b = false → Completes (.granbinCarve d b) s fun t =>
        (t.die d).carve.getLsbD b = true ∧ (t.die d).carveBusy.getLsbD b = true
        ∧ ∀ a, readByte t.mem a = if lo ≤ a ∧ a < lo + 0x400_0000 then 0 else readByte s.mem a)
      ∧ (x.carve.getLsbD b = true →
        (owned → Completes (.granbinUncarve d b) s fun t =>
          (t.die d).carve.getLsbD b = false ∧ (t.die d).carveBusy.getLsbD b = true ∧ (t.die d).carveErr = x.carveErr)
        ∧ (¬ owned → Completes (.granbinUncarve d b) s fun t => t = s.onDie d fun y => { y with carveErr := true })))
    ∧ (x.carveBusy ≠ 0 → Completes (.granbinBusyClear d) s fun t => (t.die d).carveBusy = 0 ∧ t.mem = s.mem)
    ∧ (d < 4 → Completes (.linkctlWrite d v) s fun t => (t.die d).linkctl = v &&& 3 ∧ t.mem = s.mem ∧ t.threads = s.threads)
    ∧ (d < 4 → (x.link l).st = 0 → 400 ≤ (x.link l).idle → s.maySleep d l = true → s.linkTraffic d l = false →
      Completes (.linkSleep d l) s fun t => ((t.die d).link l).st = 1 ∧ ((t.die (farDie d l)).link l).st = 1 ∧ t.msgs = s.msgs)
    ∧ (d < 4 → (x.link l).st = 2 → Completes (.linkWake d l) s fun t =>
      ((t.die d).link l).st = 0 ∧ ((t.die d).link l).wakes = (x.link l).wakes + 1 ∧ ((t.die (farDie d l)).link l).st = 0)
    ∧ (d < 4 → (x.link l).st = 1 → (s.linkTraffic d l = true ∨ (x.link l).want = true) → Completes (.linkWake d l) s fun t => ((t.die d).link l).st = 2)
    ∧ (d < 4 → (x.link l).st = 1 → 10000 ≤ (x.link l).slept → Completes (.linkCheckWake d l) s fun t => ((t.die d).link l).st = 2)
    ∧ (d < 4 → (x.link l).st ≠ 3 → 5000 ≤ (x.link l).waited → (s.die (farDie d l)).relock = none → Completes (.linkTimeout d l) s fun t =>
      ((t.die d).link l).st = 3 ∧ t.threads = s.threads)
    ∧ (d < 4 → (s.die (farDie d l)).relock ≠ none → Completes (.relockFlit d l) s fun t => ((t.die d).link l).waited = 0 ∧ t.msgs = s.msgs)
    ∧ (d < 4 → s.dead d = false → s.marked d = true → Completes (.dieLoss d) s fun t => (t.die d).lost = true)
    ∧ (s.reft ≠ 0 → s.reft % 2000 = 0 → s.epochAt ≠ s.reft →
      (∀ e, e < 4 → (s.die e).lost = false ∧ (s.die e).alone = false ∧ (s.die e).trained = true) → d < 4 →
      Completes (.reeveEpoch w0 w1 w2 w3) s fun t => t.epochAt = s.reft ∧ (t.die d).pwrnow = w0 + w1 + w2 + w3 ∧ t.mem = s.mem)
    ∧ (x.relock = some r → r.finish ≤ s.reft → Completes (.clockRelockEnd d) s fun t =>
      (t.die d).relock = none ∧ (t.die d).fcur = r.new
      ∧ (t.die d).dcyc = r.dcyc * r.new / r.old + 1200 * (50 * r.new) / 1000 + (s.reft - r.finish) * r.new / 2)

/-! ### Scale-up links, reduction windows and completions (R289, R291, R340 to R345, R353) -/

/-- Where the switches write the word of a window: its home is this package, the address is granted package memory of a
living die (R343, R344). -/
def Sys2Proof.Machine.State.HomeWord (s : State) (i off pa : Nat) : Prop :=
  let w := (s.die 0).win i
  s.dead 0 = false ∧ pa = winTarget w + off ∧ winHome w = (s.die 0).pkgid.toNat % 64 ∧ inPackage pa = true ∧ s.populated pa = true
    ∧ s.dead (homeDie pa) = false ∧ s.granted .acc pa = true ∧ s.counterOpen (pa / 128) = false
    ∧ s.entryFrame pa = none ∧ s.entryFrame (pa + 3) = none

/-- A peer's read answers memory's bytes, its write stores them and its atomic add adds; a refused one is answered with none, a
read that meets a double-bit error is poisoned; a contribution that does not complete its epoch is held, the last sends the sum
home; merged adds are applied once; a completion answers the load that awaits it, and one that does not come raises MCHK; key sets
change; a MAC failure is recorded; RDWIN is the same on every live die. The model's choices: the sums go home as the accelerator
domain's (log entry 59), and what an insecure link or port refuses (log entry 72). -/
def Obligations.PacketsServed : Prop :=
  ∀ (s : State) (j pa size src tag i off id n d : Nat) (v x cmp : Word) (line : Line) (u : BitVec 32) (sn dn : Node) (after : List Nat)
    (q : Cont) (r : Reg) (k : StreamKey) (key : BitVec 256) (op : Option AtFn) (ld ps : Bool),
    let same := pa % 128 + size ≤ 128
    (same → s.packetOk j pa size = true → s.linksOpen (linkDie j) (homeDie pa) = true → s.busy (pa / 128) = false →
      s.binBusy pa = false → s.binBusy (pa + size - 1) = false → s.counterOpen (pa / 128) = false → (s.dirOf (pa / 128)).form ≠ .x →
      s.entryFrame pa = none → s.entryFrame (pa + size - 1) = none →
      (s.flawed false pa size = true → Completes (.linkRead j pa size src tag) s fun t =>
        t.answer = none ∧ t.poison = true ∧ t.mem = s.mem ∧ t.threads = s.threads)
      ∧ (s.flawed false pa size = false →
      (Completes (.linkRead j pa size src tag) s fun t =>
        t = { s with answer := some (BitVec.ofNat 1024 (readN s.mem pa size)), poison := false, carried := t.carried })
      ∧ (Completes (.linkWrite j pa size line src tag) s fun t => StoredAt s t pa size line.toNat ∧ t.answer = some 0)
      ∧ (size = 8 → pa % 8 = 0 → Completes (.linkAtomic j pa 0x00 true x cmp src tag) s fun t =>
        StoredAt s t pa 8 (readN s.mem pa 8 + x.toNat) ∧ t.answer = some (BitVec.ofNat 1024 (readN s.mem pa 8)))))
    ∧ (s.packetOk j pa size = false →
      (Completes (.linkRead j pa size src tag) s fun t => t = { s with answer := none, poison := false })
      ∧ (Completes (.linkWrite j pa size line src tag) s fun t => t = { s with answer := none, poison := false }))
    ∧ (s.dead 0 = false → i < 8 → s.winHas i off = true → s.msgs = [] →
      let w := (s.die 0).win i
      ((s.winWord i off).parts.length + 1 < winNc w → Completes (.windowStore i off u) s fun t =>
        (t.winWord i off).parts = (s.winWord i off).parts ++ [u] ∧ (t.winWord i off).adds = (s.winWord i off).adds ∧ t.mem = s.mem)
      ∧ ((s.winWord i off).parts = [] → winNc w = 1 → s.HomeWord i off pa → Completes (.windowStore i off u) s fun t =>
        StoredAt s t pa 4 u.toNat ∧ (t.winWord i off).parts = [])
      ∧ (Completes (.windowAdd i off u) s fun t =>
        (t.winWord i off).adds = (s.winWord i off).adds ++ [u] ∧ (t.winWord i off).parts = (s.winWord i off).parts ∧ t.mem = s.mem)
      ∧ ((s.winWord i off).adds = [u] → winFmt w = 2 → s.HomeWord i off pa → Completes (.mergedAdd i off) s fun t =>
        StoredAt s t pa 4 (readN s.mem pa 4 + u.toNat) ∧ (t.winWord i off).adds = []))
    ∧ (s.due id = some ⟨id, sn, dn, after, .system n pa size true none x cmp false⟩ → (s.thr n).wait = .reply id → (s.thr n).cont = some q →
      q.d = some r → s.windowOf (sn.die.getD 0) pa = none → s.insecurePath (sn.die.getD 0) pa = false →
      ∀ e ∈ [(Instr.hostPortCompletion id .ok v, decide (pa < 0x400_0000_0000)), (.linkCompletion id .ok v, decide (0x400_0000_0000 ≤ pa))],
      e.2 = true → Completes e.1 s fun t =>
        Wrote (s.drop id) t n r (extend q.size q.sign (word (v.toNat % 2 ^ (8 * size)))) replyDelay ((s.thr n).pc + word q.len))
    ∧ (s.due id = some ⟨id, sn, dn, after, .system n pa size ld op x cmp ps⟩ → (s.thr n).wait = .reply id → (s.thr n).cont = some q →
      exec (.completionTimeout id) s = .next ((s.drop id).raise n .mchk q.va))
    ∧ (k.rx = true → mget none (s.die d).streamKeys (keyIndex k) = some key → Completes (.keySetChange d k) s fun t =>
      mget none (t.die d).streamKeys (keyIndex k) = some key
      ∧ mget none (t.die d).streamKeys (keyIndex { k with keySet := !k.keySet }) = none
      ∧ mget 0 (t.die d).streamRx (streamOf k) = (if k.keySet then 1 else 0) ∧ t.mem = s.mem)
    ∧ (d < 4 → j ≤ 4 → Completes (.ideMacFailure d j) s fun t =>
      j ∈ (t.die d).insecure ∧ (t.die d).mcrec = word (3 * 2 ^ 60 + j * 2 ^ 48) ∧ (t.die d).msi = (s.die d).msi ++ [1] ∧ t.mem = s.mem)
    ∧ (i < 8 → d < 4 → s.dead d = false → ∀ p, p < 2 → Completes (.rdwinWrite i p v) s fun t =>
      mget 0 (t.die d).rdwin (2 * i + p) = v &&& (if p = 0 then 0xFFFF_FFFF_FFE0_0000 else 0x0000_FFFF_FFE0_01FF)
      ∧ t.mem = s.mem ∧ t.threads = s.threads)
end

