-- ==== Sys2Proof/Laws/Fields.lean ====
section
/-! SUPPORT. Bit fields of the encodings: taking a field out of fields put side by side, and the codes of the enumerated
operands. -/

namespace Sys2Proof

theorem extract_low (x : BitVec k) (y : BitVec m) : (x ++ y).extractLsb' 0 m = y := by
  rw [BitVec.extractLsb'_append_eq_of_add_le (by omega), BitVec.extractLsb'_eq_self]

theorem extract_high (x : BitVec k) (y : BitVec m) : (x ++ y).extractLsb' m k = x := by
  rw [BitVec.extractLsb'_append_eq_of_le (by omega), Nat.sub_self, BitVec.extractLsb'_eq_self]

/-- A field of the high part. -/
theorem extract_above (x : BitVec k) (y : BitVec m) (i l : Nat) : (x ++ y).extractLsb' (m + i) l = x.extractLsb' i l := by
  rw [BitVec.extractLsb'_append_eq_of_le (by omega)]; congr 1; omega

/-- A field of the low part. -/
theorem extract_below (x : BitVec k) (y : BitVec m) (i l : Nat) (h : i + l ≤ m) :
    (x ++ y).extractLsb' i l = y.extractLsb' i l := BitVec.extractLsb'_append_eq_of_add_le h

theorem bit_above (x : BitVec k) (y : BitVec m) (i : Nat) : (x ++ y).getLsbD (m + i) = x.getLsbD i := by
  rw [BitVec.getLsbD_append, if_neg (by omega), Nat.add_sub_cancel_left]

theorem bit_below (x : BitVec k) (y : BitVec m) (i : Nat) (h : i < m) : (x ++ y).getLsbD i = y.getLsbD i := by
  rw [BitVec.getLsbD_append, if_pos h]

@[simp] theorem sizeOf2_code (x : Size) : sizeOf2 x.code = x := by cases x <;> rfl
@[simp] theorem rmOf2_code (x : Rm) : rmOf2 x.code = x := by cases x <;> rfl
@[simp] theorem ordOf2_code (x : AtOrd) : ordOf2 x.code = x := by cases x <;> rfl
@[simp] theorem scopeOf2_code (x : Scope) : scopeOf2 x.code = some x := by cases x <;> rfl
@[simp] theorem ldOrdOf2_code (x : LdOrd) : ldOrdOf2 x.code = some x := by cases x <;> rfl
@[simp] theorem stOrdOf2_code (x : StOrd) : stOrdOf2 x.code = some x := by cases x <;> rfl
@[simp] theorem fmtOf3_code (x : MmFmt) : fmtOf3 x.code = some x := by cases x <;> rfl
@[simp] theorem bit_getLsbD (b : Bool) : (bit b).getLsbD 0 = b := by cases b <;> rfl

/-! ### Slots and units (R28) -/

theorem slot_lt (s : Slot) : s.toNat < 16 := s.isLt
theorem unit_lt (s : Unit2) : s.toNat < 2 := s.isLt
theorem unit_le (s : Unit2) : s.toNat ≤ 1 := Nat.le_of_lt_succ s.isLt
@[simp] theorem ofSlot_toNat_lt (s : Slot) : (0#1 ++ s : BitVec 5).toNat < 16 := by revert s; decide
@[simp] theorem toSlot_ofSlot (s : Slot) : (0#1 ++ s : BitVec 5).extractLsb' 0 4 = s := extract_low _ _
@[simp] theorem ofUnit_toNat_lt (s : Unit2) : (0#4 ++ s : BitVec 5).toNat < 2 := by revert s; decide
@[simp] theorem toUnit_ofUnit (s : Unit2) : (0#4 ++ s : BitVec 5).extractLsb' 0 1 = s := extract_low _ _

/-! ### X20 fields, in the shapes of the encodings -/

@[simp] theorem x20_low12 (n : BitVec 12) : (0#8 ++ n : BitVec 20).extractLsb' 0 12 = n := extract_low _ _
@[simp] theorem x20_high8 (n : BitVec 12) : (0#8 ++ n : BitVec 20).extractLsb' 12 8 = 0 := extract_high _ _
@[simp] theorem x20_low3 (n : BitVec 3) : (0#17 ++ n : BitVec 20).extractLsb' 0 3 = n := extract_low _ _
@[simp] theorem x20_high17 (n : BitVec 3) : (0#17 ++ n : BitVec 20).extractLsb' 3 17 = 0 := extract_high _ _
@[simp] theorem x20_low2 (n : BitVec 2) : (0#18 ++ n : BitVec 20).extractLsb' 0 2 = n := extract_low _ _
@[simp] theorem x20_high18 (n : BitVec 2) : (0#18 ++ n : BitVec 20).extractLsb' 2 18 = 0 := extract_high _ _
@[simp] theorem x20_low5 (n : BitVec 5) : (0#15 ++ n : BitVec 20).extractLsb' 0 5 = n := extract_low _ _
@[simp] theorem x20_high15 (n : BitVec 5) : (0#15 ++ n : BitVec 20).extractLsb' 5 15 = 0 := extract_high _ _
@[simp] theorem x20_low6 (n : BitVec 6) : (0#14 ++ n : BitVec 20).extractLsb' 0 6 = n := extract_low _ _
@[simp] theorem x20_high14 (n : BitVec 6) : (0#14 ++ n : BitVec 20).extractLsb' 6 14 = 0 := extract_high _ _
@[simp] theorem x20_low4 (n : BitVec 4) : (0#16 ++ n : BitVec 20).extractLsb' 0 4 = n := extract_low _ _
@[simp] theorem x20_high16 (n : BitVec 4) : (0#16 ++ n : BitVec 20).extractLsb' 4 16 = 0 := extract_high _ _
@[simp] theorem x20_pos (l p : BitVec 6) : (0#8 ++ l ++ p : BitVec 20).extractLsb' 0 6 = p := extract_low _ _
@[simp] theorem x20_len1 (l p : BitVec 6) : (0#8 ++ l ++ p : BitVec 20).extractLsb' 6 6 = l :=
  (extract_above _ _ 0 6).trans (extract_low _ _)
@[simp] theorem x20_above_len1 (l p : BitVec 6) : (0#8 ++ l ++ p : BitVec 20).extractLsb' 12 8 = 0 :=
  (extract_above _ _ 6 8).trans (extract_high _ _)
@[simp] theorem x20_ecdh_k (m k : BitVec 5) : (0#7 ++ m ++ 0#3 ++ k : BitVec 20).extractLsb' 0 5 = k := extract_low _ _
@[simp] theorem x20_ecdh_mid (m k : BitVec 5) : (0#7 ++ m ++ 0#3 ++ k : BitVec 20).extractLsb' 5 3 = 0 :=
  (extract_above _ _ 0 3).trans (extract_low _ _)
@[simp] theorem x20_ecdh_m (m k : BitVec 5) : (0#7 ++ m ++ 0#3 ++ k : BitVec 20).extractLsb' 8 5 = m :=
  (extract_above _ _ 3 5).trans ((extract_above _ _ 0 5).trans (extract_low _ _))
@[simp] theorem x20_ecdh_top (m k : BitVec 5) : (0#7 ++ m ++ 0#3 ++ k : BitVec 20).extractLsb' 13 7 = 0 :=
  (extract_above _ _ 8 7).trans ((extract_above _ _ 5 7).trans (extract_high _ _))
@[simp] theorem x20_fence_pred (u p : BitVec 6) : (0#6 ++ u ++ 0#2 ++ p : BitVec 20).extractLsb' 0 6 = p := extract_low _ _
@[simp] theorem x20_fence_mid (u p : BitVec 6) : (0#6 ++ u ++ 0#2 ++ p : BitVec 20).extractLsb' 6 2 = 0 :=
  (extract_above _ _ 0 2).trans (extract_low _ _)
@[simp] theorem x20_fence_succ (u p : BitVec 6) : (0#6 ++ u ++ 0#2 ++ p : BitVec 20).extractLsb' 8 6 = u :=
  (extract_above _ _ 2 6).trans ((extract_above _ _ 0 6).trans (extract_low _ _))
@[simp] theorem x20_fence_top (u p : BitVec 6) : (0#6 ++ u ++ 0#2 ++ p : BitVec 20).extractLsb' 14 6 = 0 :=
  (extract_above _ _ 8 6).trans ((extract_above _ _ 6 6).trans (extract_high _ _))
@[simp] theorem x20_vrep_d (k c b a d : BitVec 4) : (k ++ c ++ b ++ a ++ d : BitVec 20).extractLsb' 0 4 = d := extract_low _ _
@[simp] theorem x20_vrep_a (k c b a d : BitVec 4) : (k ++ c ++ b ++ a ++ d : BitVec 20).extractLsb' 4 4 = a :=
  (extract_above _ _ 0 4).trans (extract_low _ _)
@[simp] theorem x20_vrep_b (k c b a d : BitVec 4) : (k ++ c ++ b ++ a ++ d : BitVec 20).extractLsb' 8 4 = b :=
  (extract_above _ _ 4 4).trans ((extract_above _ _ 0 4).trans (extract_low _ _))
@[simp] theorem x20_vrep_c (k c b a d : BitVec 4) : (k ++ c ++ b ++ a ++ d : BitVec 20).extractLsb' 12 4 = c :=
  (extract_above _ _ 8 4).trans ((extract_above _ _ 4 4).trans ((extract_above _ _ 0 4).trans (extract_low _ _)))
@[simp] theorem x20_vrep_k (k c b a d : BitVec 4) : (k ++ c ++ b ++ a ++ d : BitVec 20).extractLsb' 16 4 = k :=
  (extract_above _ _ 12 4).trans ((extract_above _ _ 8 4).trans ((extract_above _ _ 4 4).trans (extract_high _ _)))

/-! ### The copy command's X20 and value (R216) -/

@[simp] theorem x20_cp_scale (s d : BitVec 5) (v : BitVec 1) (c : BitVec 8) :
    (s ++ d ++ v ++ 0#1 ++ c : BitVec 20).extractLsb' 0 8 = c := extract_low _ _
@[simp] theorem x20_cp_res (s d : BitVec 5) (v : BitVec 1) (c : BitVec 8) :
    (s ++ d ++ v ++ 0#1 ++ c : BitVec 20).getLsbD 8 = false := (bit_above _ _ 0).trans (bit_below _ _ 0 (by decide))
@[simp] theorem x20_cp_conv (s d : BitVec 5) (v : BitVec 1) (c : BitVec 8) :
    (s ++ d ++ v ++ 0#1 ++ c : BitVec 20).getLsbD 9 = v.getLsbD 0 :=
  (bit_above _ _ 1).trans ((bit_above _ _ 0).trans (bit_below _ _ 0 (by decide)))
@[simp] theorem x20_cp_res_elem (s d : BitVec 5) (v : BitVec 1) (c : BitVec 8) :
    (s ++ d ++ v ++ 0#1 ++ c : BitVec 20)[8] = false := x20_cp_res s d v c
@[simp] theorem x20_cp_conv_elem (s d : BitVec 5) (v : BitVec 1) (c : BitVec 8) :
    (s ++ d ++ v ++ 0#1 ++ c : BitVec 20)[9] = v[0] := x20_cp_conv s d v c
@[simp] theorem x20_cp_dstt (s d : BitVec 5) (v : BitVec 1) (c : BitVec 8) :
    (s ++ d ++ v ++ 0#1 ++ c : BitVec 20).extractLsb' 10 5 = d :=
  (extract_above _ _ 2 5).trans ((extract_above _ _ 1 5).trans ((extract_above _ _ 0 5).trans (extract_low _ _)))
@[simp] theorem x20_cp_srct (s d : BitVec 5) (v : BitVec 1) (c : BitVec 8) :
    (s ++ d ++ v ++ 0#1 ++ c : BitVec 20).extractLsb' 15 5 = s :=
  (extract_above _ _ 7 5).trans ((extract_above _ _ 6 5).trans ((extract_above _ _ 5 5).trans (extract_high _ _)))

/-- The two words of a 64-bit operand give it back (R27, R30). -/
@[simp] theorem halves (v : Word) : (v.extractLsb' 32 32 ++ v.extractLsb' 0 32 : BitVec 64) = v := by
  rw [BitVec.extractLsb'_append_extractLsb'_eq_extractLsb' (by decide), BitVec.extractLsb'_eq_self]

end Sys2Proof
end

