-- ==== Sys2Proof/Laws/Encoding.lean ====
section
/-! SUPPORT. From fields to words and bytes: the fields of the words that hold them, the shape of the three lengths, and
bytes taken from a word. -/

namespace Sys2Proof

/-- The fields of a record's own words are the record (R26, R27). -/
theorem fieldsOf_words (f : Fields) : fieldsOf f.word0 f.word1 f.w2 f.w3 = f := by
  obtain ⟨len, maj, d, a, b, fn, c, qual, x20, w2, w3⟩ := f
  simp only [fieldsOf, Fields.word0, Fields.word1, Fields.mk.injEq, and_true]
  refine ⟨extract_low _ _, ?_, ?_, ?_, ?_, ?_, ?_, ?_, extract_low _ _⟩
  · exact (extract_above _ _ 0 8).trans (extract_low _ _)
  · exact (extract_above _ _ 8 5).trans ((extract_above _ _ 0 5).trans (extract_low _ _))
  · exact (extract_above _ _ 13 5).trans ((extract_above _ _ 5 5).trans ((extract_above _ _ 0 5).trans (extract_low _ _)))
  · exact (extract_above _ _ 18 5).trans ((extract_above _ _ 10 5).trans ((extract_above _ _ 5 5).trans
      ((extract_above _ _ 0 5).trans (extract_low _ _))))
  · exact (extract_above _ _ 23 7).trans ((extract_above _ _ 15 7).trans ((extract_above _ _ 10 7).trans
      ((extract_above _ _ 5 7).trans (extract_high _ _))))
  · exact (extract_above _ _ 7 5).trans (extract_high _ _)
  · exact (extract_above _ _ 0 7).trans (extract_low _ _)

/-- LEN is the low two bits of W0 (R21). -/
theorem word0_len (f : Fields) : f.word0.extractLsb' 0 2 = f.len := extract_low _ _

/-- One of the three lengths, with the words beyond its own zero (R21, R27). -/
abbrev Fields.Shaped (f : Fields) : Prop := (f.len = 1 ∧ f.w2 = 0 ∧ f.w3 = 0) ∨ (f.len = 2 ∧ f.w3 = 0) ∨ f.len = 3

theorem shaped_encAlu (maj : BitVec 8) (cc : BitVec 3) (d a : Reg) (y : Opnd) (w : Bool) : (encAlu maj cc d a y w).Shaped := by
  cases y <;> simp [encAlu, Fields.Shaped]
theorem shaped_encBranch (maj : BitVec 8) (a : Reg) (y : Cmp) (o : BitVec 20) : (encBranch maj a y o).Shaped := by
  cases y <;> simp [encBranch, Fields.Shaped]
theorem shaped_encOff (maj : BitVec 8) (d a : Reg) (q : BitVec 7) (x : Off) : (encOff maj d a q x).Shaped := by
  cases x <;> simp [encOff, Fields.Shaped]
theorem shaped_encMem (maj : BitVec 8) (d a c : Reg) (f : AForm) (o : BitVec 2) (z : Bool) (sz : Size) :
    (encMem maj d a c f o z sz).Shaped := by cases f <;> simp [encMem, Fields.Shaped]
theorem shaped_encAlt (maj : BitVec 8) (d a : Reg) (n : AltN) : (encAlt maj d a n).Shaped := by
  cases n <;> simp [encAlt, Fields.Shaped]
theorem shaped_encShift (maj : BitVec 8) (d a : Slot) (x : VShift) : (encShift maj d a x).Shaped := by
  cases x <;> simp [encShift, Fields.Shaped]

/-- Every encoding is of one of the three lengths. -/
theorem encodeFields_shape (i : Instr) (f : Fields) (h : encodeFields i = some f) : f.Shaped := by
  cases i
  case li d x => cases x <;> cases h <;> simp [Fields.Shaped]
  case waita d a y w => cases y <;> cases h <;> simp [Fields.Shaped]
  case vBcast d x => cases x <;> cases h <;> simp [Fields.Shaped]
  case vrep n k sd sa sb sc => cases n <;> cases h <;> simp [Fields.Shaped]
  case mmDrain d a x => cases x <;> cases h <;> simp [Fields.Shaped]
  case mmWait d => cases d <;> cases h <;> simp [Fields.Shaped]
  all_goals first
    | (cases h; done)
    | (cases h; exact shaped_encAlu _ _ _ _ _ _)
    | (cases h; exact shaped_encBranch _ _ _ _)
    | (cases h; exact shaped_encOff _ _ _ _ _)
    | (cases h; exact shaped_encMem _ _ _ _ _ _ _ _)
    | (cases h; exact shaped_encAlt _ _ _ _)
    | (cases h; exact shaped_encShift _ _ _ _)
    | (cases h; exact .inl ⟨rfl, rfl, rfl⟩)
    | (cases h; exact .inr (.inr rfl))

/-- Four bytes give the word they were taken from, whatever follows (R4). -/
theorem wordOfBytes_bytesOfWord (w : BitVec 32) (l : List Byte) : wordOfBytes (bytesOfWord w ++ l) = w := by
  simp only [bytesOfWord, List.cons_append, List.nil_append, wordOfBytes]
  rw [BitVec.extractLsb'_append_extractLsb'_eq_extractLsb' (by decide),
    BitVec.extractLsb'_append_extractLsb'_eq_extractLsb' (by decide),
    BitVec.extractLsb'_append_extractLsb'_eq_extractLsb' (by decide), BitVec.extractLsb'_eq_self]

/-- The bytes after a word's. -/
theorem drop_bytesOfWord (w : BitVec 32) (l : List Byte) : (bytesOfWord w ++ l).drop 4 = l := rfl

end Sys2Proof
end

