-- ==== Sys2Proof/Laws/Maps.lean ====
section
/-! SUPPORT. Laws of the sparse maps and of the memories: read after write, the canonical form, wider accesses. -/

namespace Sys2Proof.Machine

/-! ### Maps -/

theorem mget_merase_self (d : α) (m : Map α) (k : Nat) : mget d (merase m k) k = d := by
  induction m with
  | nil => rfl
  | cons p m ih =>
    obtain ⟨k', v⟩ := p
    simp only [merase]
    split
    · exact ih
    · rename_i h; simp only [mget, if_neg h, ih]

theorem mget_merase_ne (d : α) (m : Map α) {k j : Nat} (h : j ≠ k) : mget d (merase m k) j = mget d m j := by
  induction m with
  | nil => rfl
  | cons p m ih =>
    obtain ⟨k', v⟩ := p
    simp only [merase]
    split
    · rename_i e; subst e; simp only [mget, if_neg (Ne.symm h), ih]
    · simp only [mget, ih]

theorem mget_minsert_ne (d : α) (m : Map α) {k j : Nat} (v : α) (h : j ≠ k) :
    mget d (minsert m k v) j = mget d m j := by
  induction m with
  | nil => simp [minsert, mget, Ne.symm h]
  | cons p m ih =>
    obtain ⟨k', v'⟩ := p
    simp only [minsert]
    split
    · simp only [mget, if_neg (Ne.symm h)]
    · simp only [mget, ih]

/-- A key is listed nowhere in a map from which it was erased. -/
theorem not_mem_merase (m : Map α) (k : Nat) (v : α) : (k, v) ∉ merase m k := by
  induction m with
  | nil => simp [merase]
  | cons p m ih =>
    obtain ⟨k', v'⟩ := p
    simp only [merase]
    split
    · exact ih
    · rename_i h; simp [ih, Ne.symm h]

theorem mem_of_mem_merase {m : Map α} {k : Nat} {p : Nat × α} (h : p ∈ merase m k) : p ∈ m := by
  induction m with
  | nil => simp [merase] at h
  | cons q m ih =>
    obtain ⟨k', v'⟩ := q
    simp only [merase] at h
    split at h
    · exact List.mem_cons_of_mem _ (ih h)
    · rcases List.mem_cons.mp h with rfl | h
      · exact List.mem_cons_self
      · exact List.mem_cons_of_mem _ (ih h)

theorem mem_minsert {m : Map α} {k : Nat} {v : α} {p : Nat × α} : p ∈ minsert m k v ↔ p = (k, v) ∨ p ∈ m := by
  induction m with
  | nil => simp [minsert]
  | cons q m ih =>
    obtain ⟨k', v'⟩ := q
    simp only [minsert]
    split
    · simp
    · simp only [List.mem_cons, ih]; constructor
      · rintro (h | h | h) <;> simp [h]
      · rintro (h | h | h) <;> simp [h]

theorem mget_minsert_self (d : α) (m : Map α) (k : Nat) (v : α) (h : ∀ x, (k, x) ∉ m) :
    mget d (minsert m k v) k = v := by
  induction m with
  | nil => simp [minsert, mget]
  | cons q m ih =>
    obtain ⟨k', v'⟩ := q
    have hk : k' ≠ k := fun e => h v' (by simp [e])
    simp only [minsert]
    split
    · simp [mget]
    · simp only [mget, if_neg hk]; exact ih fun x hx => h x (List.mem_cons_of_mem _ hx)

/-- Read after write of one key. -/
@[simp] theorem mget_mset_self [DecidableEq α] (d : α) (m : Map α) (k : Nat) (v : α) : mget d (mset d m k v) k = v := by
  unfold mset
  split
  · rename_i h; rw [mget_merase_self, h]
  · exact mget_minsert_self d _ k v fun x => not_mem_merase m k x

/-- A write leaves every other key alone. -/
theorem mget_mset_ne [DecidableEq α] (d : α) (m : Map α) {k j : Nat} (v : α) (h : j ≠ k) :
    mget d (mset d m k v) j = mget d m j := by
  unfold mset
  split
  · exact mget_merase_ne d m h
  · rw [mget_minsert_ne d _ v h, mget_merase_ne d m h]

/-- Read after write, of any key. -/
theorem mget_mset [DecidableEq α] (d : α) (m : Map α) (k j : Nat) (v : α) :
    mget d (mset d m k v) j = if j = k then v else mget d m j := by
  by_cases h : j = k
  · subst h; simp
  · rw [mget_mset_ne d m v h, if_neg h]

/-- What a map holds is listed in it, or is what an unlisted key reads as. -/
theorem mget_mem (d : α) (m : Map α) (k : Nat) : mget d m k = d ∨ (k, mget d m k) ∈ m := by
  induction m with
  | nil => exact .inl rfl
  | cons q m ih =>
    obtain ⟨k', v'⟩ := q
    simp only [mget]
    split
    · rename_i h; subst h; exact .inr List.mem_cons_self
    · exact ih.imp id (List.mem_cons_of_mem _)

theorem mem_mset [DecidableEq α] {d : α} {m : Map α} {k : Nat} {v : α} {p : Nat × α} (h : p ∈ mset d m k v) :
    p = (k, v) ∨ p ∈ m := by
  unfold mset at h
  split at h
  · exact .inr (mem_of_mem_merase h)
  · exact (mem_minsert.mp h).imp id mem_of_mem_merase

/-! ### The canonical form of a memory -/

/-- The canonical form, as an order on the addresses and a condition on the bytes. -/
theorem memWf_iff (m : List Host.Cell) :
    memWf m = true ↔ m.Pairwise (fun p q => p.1 < q.1) ∧ ∀ p ∈ m, p.2 ≠ unwritten := by
  induction m with
  | nil => simp [memWf]
  | cons p m ih =>
    obtain ⟨k, v⟩ := p
    cases m with
    | nil => simp [memWf]
    | cons q m =>
      obtain ⟨k', v'⟩ := q
      have := ih
      simp only [memWf, Bool.and_eq_true, ih, decide_eq_true_eq, bne_iff_ne, ne_eq, List.pairwise_cons,
        List.mem_cons, forall_eq_or_imp]
      constructor
      · rintro ⟨⟨hv, hk⟩, ⟨ho, hr⟩, hv', hm⟩
        exact ⟨⟨⟨hk, fun p hp => Nat.lt_trans hk (ho p hp)⟩, ho, hr⟩, hv, hv', hm⟩
      · rintro ⟨⟨⟨hk, _⟩, ho, hr⟩, hv, hv', hm⟩
        exact ⟨⟨hv, hk⟩, ⟨ho, hr⟩, hv', hm⟩

/-- Any part of a memory in canonical form that keeps the order is in canonical form. -/
theorem memWf_sublist {m m' : List Host.Cell} (hs : m'.Sublist m) (h : memWf m = true) : memWf m' = true := by
  rw [memWf_iff] at h ⊢
  exact ⟨h.1.sublist hs, fun p hp => h.2 p (hs.subset hp)⟩

theorem memWf_filter (f : Host.Cell → Bool) {m : List Host.Cell} (h : memWf m = true) : memWf (m.filter f) = true :=
  memWf_sublist List.filter_sublist h

theorem merase_sublist (m : Map α) (k : Nat) : (merase m k).Sublist m := by
  induction m with
  | nil => exact List.Sublist.refl _
  | cons p m ih =>
    obtain ⟨k', v⟩ := p
    simp only [merase]
    split
    · exact ih.cons _
    · exact ih.cons_cons _

theorem pairwise_minsert {m : Map α} (h : m.Pairwise (fun p q => p.1 < q.1)) (k : Nat) (v : α)
    (hk : ∀ x, (k, x) ∉ m) : (minsert m k v).Pairwise (fun p q => p.1 < q.1) := by
  induction m with
  | nil => simp [minsert]
  | cons q m ih =>
    obtain ⟨k', v'⟩ := q
    rw [List.pairwise_cons] at h
    simp only [minsert]
    split
    · rename_i hlt
      refine List.pairwise_cons.mpr ⟨?_, List.pairwise_cons.mpr h⟩
      intro p hp
      rcases List.mem_cons.mp hp with rfl | hp
      · exact hlt
      · exact Nat.lt_trans hlt (h.1 p hp)
    · rename_i hlt
      have hne : k' ≠ k := fun e => hk v' (by simp [e])
      have hlt' : k' < k := by omega
      refine List.pairwise_cons.mpr ⟨?_, ih h.2 fun x hx => hk x (List.mem_cons_of_mem _ hx)⟩
      intro p hp
      rcases mem_minsert.mp hp with rfl | hp
      · exact hlt'
      · exact h.1 p hp

/-- Writing one byte keeps the canonical form. -/
theorem memWf_writeByte {m : List Host.Cell} (a : Nat) (b : Byte) (h : memWf m = true) :
    memWf (writeByte m a b) = true := by
  unfold writeByte mset
  split
  · exact memWf_sublist (merase_sublist m a) h
  · rename_i hb
    have h' := (memWf_iff _).mp (memWf_sublist (merase_sublist m a) h)
    rw [memWf_iff]
    refine ⟨pairwise_minsert h'.1 a b (not_mem_merase m a), ?_⟩
    intro p hp
    rcases mem_minsert.mp hp with rfl | hp
    · exact hb
    · exact h'.2 p hp

/-- Writing `n` bytes keeps the canonical form. -/
theorem memWf_writeN {m : List Host.Cell} (h : memWf m = true) (a n v : Nat) : memWf (writeN m a n v) = true := by
  induction n generalizing m a v with
  | zero => exact h
  | succ n ih => exact ih (memWf_writeByte a _ h) (a + 1) (v / 256)

/-- Writing bytes keeps the canonical form. -/
theorem memWf_writeBytes {m : List Host.Cell} (h : memWf m = true) (a : Nat) (l : List Byte) :
    memWf (writeBytes m a l) = true := by
  induction l generalizing m a with
  | nil => exact h
  | cons b l ih => exact ih (memWf_writeByte a b h) (a + 1)

/-! ### Reading after writing -/

@[simp] theorem readByte_writeByte_self (m : List Host.Cell) (a : Nat) (b : Byte) :
    readByte (writeByte m a b) a = b := mget_mset_self _ _ _ _

theorem readByte_writeByte_ne (m : List Host.Cell) {a j : Nat} (b : Byte) (h : j ≠ a) :
    readByte (writeByte m a b) j = readByte m j := mget_mset_ne _ _ _ h

/-- A wide write leaves every byte outside it alone. -/
theorem readByte_writeN_out (m : List Host.Cell) (a n v j : Nat) (h : j < a ∨ a + n ≤ j) :
    readByte (writeN m a n v) j = readByte m j := by
  induction n generalizing m a v with
  | zero => rfl
  | succ n ih =>
    rw [writeN, ih (a := a + 1) (h := by omega)]
    exact readByte_writeByte_ne m _ (by omega)

/-- A wide write puts the bytes of the value in rising order, the lowest first (R4). -/
theorem readByte_writeN_in (m : List Host.Cell) (a n v i : Nat) (h : i < n) :
    readByte (writeN m a n v) (a + i) = BitVec.ofNat 8 (v / 256 ^ i) := by
  induction n generalizing m a v i with
  | zero => omega
  | succ n ih =>
    rw [writeN]
    cases i with
    | zero => rw [readByte_writeN_out (h := by omega)]; simp
    | succ i =>
      have : a + (i + 1) = a + 1 + i := by omega
      rw [this, ih (h := by omega), Nat.pow_succ, Nat.mul_comm, Nat.div_div_eq_div_mul]

/-- Bytes written one by one leave every byte outside them alone. -/
theorem readByte_writeBytes_out (m : List Host.Cell) (a : Nat) (l : List Byte) (j : Nat)
    (h : j < a ∨ a + l.length ≤ j) : readByte (writeBytes m a l) j = readByte m j := by
  induction l generalizing m a with
  | nil => rfl
  | cons b l ih =>
    simp only [List.length_cons] at h
    rw [writeBytes, ih (a := a + 1) (h := by omega)]
    exact readByte_writeByte_ne m _ (by omega)

/-- A read takes what a write of the same size left, modulo its width. -/
theorem readN_writeN (m : List Host.Cell) (a n v : Nat) : readN (writeN m a n v) a n = v % 256 ^ n := by
  suffices h : ∀ (m : List Host.Cell) (n : Nat) (a v : Nat),
      (∀ i, i < n → readByte m (a + i) = BitVec.ofNat 8 (v / 256 ^ i)) → readN m a n = v % 256 ^ n from
    h _ _ _ _ fun i hi => readByte_writeN_in m a n v i hi
  clear m a n v
  intro m n
  induction n with
  | zero => intro a v _; simp [readN, Nat.mod_one]
  | succ n ih =>
    intro a v h
    have h0 := h 0 (by omega)
    rw [readN, ih (a + 1) (v / 256)]
    · simp only [Nat.add_zero, Nat.pow_zero, Nat.div_one] at h0
      rw [h0, Nat.pow_succ, Nat.mul_comm (256 ^ n), Nat.mod_mul]; simp
    · intro i hi
      rw [show a + 1 + i = a + (i + 1) by omega, h (i + 1) (by omega), Nat.pow_succ, Nat.mul_comm,
        Nat.div_div_eq_div_mul]

/-- A read depends on its bytes alone. -/
theorem readN_congr {m m' : List Host.Cell} {a n : Nat} (h : ∀ j, a ≤ j → j < a + n → readByte m j = readByte m' j) :
    readN m a n = readN m' a n := by
  induction n generalizing a with
  | zero => rfl
  | succ n ih =>
    rw [readN, readN, h a (by omega) (by omega), ih fun j h1 h2 => h j (by omega) (by omega)]

end Sys2Proof.Machine
end

