-- ==== Sys2Proof/Laws/State.lean ====
section
/-! SUPPORT. The updates of the state: one lemma per field that an update leaves alone, and what the accessors of
threads, cores, tiles, dies and deeds read after an update of one of them. -/

namespace Sys2Proof.Machine

/-! ### setThr -/

@[simp] theorem State.setThr_powered (s : State) (n : Nat) (t : Thread) : (s.setThr n t).powered = s.powered := rfl
@[simp] theorem State.setThr_cores (s : State) (n : Nat) (t : Thread) : (s.setThr n t).cores = s.cores := rfl
@[simp] theorem State.setThr_tiles (s : State) (n : Nat) (t : Thread) : (s.setThr n t).tiles = s.tiles := rfl
@[simp] theorem State.setThr_dies (s : State) (n : Nat) (t : Thread) : (s.setThr n t).dies = s.dies := rfl
@[simp] theorem State.setThr_mem (s : State) (n : Nat) (t : Thread) : (s.setThr n t).mem = s.mem := rfl
@[simp] theorem State.setThr_loc (s : State) (n : Nat) (t : Thread) : (s.setThr n t).loc = s.loc := rfl
@[simp] theorem State.setThr_roll (s : State) (n : Nat) (t : Thread) : (s.setThr n t).roll = s.roll := rfl
@[simp] theorem State.setThr_losing (s : State) (n : Nat) (t : Thread) : (s.setThr n t).losing = s.losing := rfl
@[simp] theorem State.setThr_span2m (s : State) (n : Nat) (t : Thread) : (s.setThr n t).span2m = s.span2m := rfl
@[simp] theorem State.setThr_span1g (s : State) (n : Nat) (t : Thread) : (s.setThr n t).span1g = s.span1g := rfl
@[simp] theorem State.setThr_dir (s : State) (n : Nat) (t : Thread) : (s.setThr n t).dir = s.dir := rfl
@[simp] theorem State.setThr_posts (s : State) (n : Nat) (t : Thread) : (s.setThr n t).posts = s.posts := rfl
@[simp] theorem State.setThr_ctxs (s : State) (n : Nat) (t : Thread) : (s.setThr n t).ctxs = s.ctxs := rfl
@[simp] theorem State.setThr_launches (s : State) (n : Nat) (t : Thread) : (s.setThr n t).launches = s.launches := rfl
@[simp] theorem State.setThr_regs (s : State) (n : Nat) (t : Thread) : (s.setThr n t).regs = s.regs := rfl
@[simp] theorem State.setThr_altHomes (s : State) (n : Nat) (t : Thread) : (s.setThr n t).altHomes = s.altHomes := rfl
@[simp] theorem State.setThr_msgs (s : State) (n : Nat) (t : Thread) : (s.setThr n t).msgs = s.msgs := rfl
@[simp] theorem State.setThr_txns (s : State) (n : Nat) (t : Thread) : (s.setThr n t).txns = s.txns := rfl
@[simp] theorem State.setThr_l2 (s : State) (n : Nat) (t : Thread) : (s.setThr n t).l2 = s.l2 := rfl
@[simp] theorem State.setThr_flaws (s : State) (n : Nat) (t : Thread) : (s.setThr n t).flaws = s.flaws := rfl
@[simp] theorem State.setThr_agentOps (s : State) (n : Nat) (t : Thread) : (s.setThr n t).agentOps = s.agentOps := rfl
@[simp] theorem State.setThr_carried (s : State) (n : Nat) (t : Thread) : (s.setThr n t).carried = s.carried := rfl
@[simp] theorem State.setThr_windows (s : State) (n : Nat) (t : Thread) : (s.setThr n t).windows = s.windows := rfl
@[simp] theorem State.setThr_reft (s : State) (n : Nat) (t : Thread) : (s.setThr n t).reft = s.reft := rfl
@[simp] theorem State.setThr_answer (s : State) (n : Nat) (t : Thread) : (s.setThr n t).answer = s.answer := rfl
@[simp] theorem State.setThr_poison (s : State) (n : Nat) (t : Thread) : (s.setThr n t).poison = s.poison := rfl
@[simp] theorem State.setThr_epochAt (s : State) (n : Nat) (t : Thread) : (s.setThr n t).epochAt = s.epochAt := rfl
@[simp] theorem State.setThr_met (s : State) (n : Nat) (t : Thread) : (s.setThr n t).met = s.met := rfl
@[simp] theorem State.setThr_stepAt (s : State) (n : Nat) (t : Thread) : (s.setThr n t).stepAt = s.stepAt := rfl
@[simp] theorem State.setThr_sched (s : State) (n : Nat) (t : Thread) : (s.setThr n t).sched = s.sched := rfl
@[simp] theorem State.setThr_prompt (s : State) (n : Nat) (t : Thread) : (s.setThr n t).prompt = s.prompt := rfl
@[simp] theorem State.setThr_cur (s : State) (n : Nat) (t : Thread) : (s.setThr n t).cur = s.cur := rfl
@[simp] theorem State.setThr_nextId (s : State) (n : Nat) (t : Thread) : (s.setThr n t).nextId = s.nextId := rfl
@[simp] theorem State.setThr_free (s : State) (n : Nat) (t : Thread) : (s.setThr n t).free = s.free := rfl

/-! ### onThr -/

@[simp] theorem State.onThr_powered (s : State) (n : Nat) (f : Thread → Thread) : (s.onThr n f).powered = s.powered := rfl
@[simp] theorem State.onThr_cores (s : State) (n : Nat) (f : Thread → Thread) : (s.onThr n f).cores = s.cores := rfl
@[simp] theorem State.onThr_tiles (s : State) (n : Nat) (f : Thread → Thread) : (s.onThr n f).tiles = s.tiles := rfl
@[simp] theorem State.onThr_dies (s : State) (n : Nat) (f : Thread → Thread) : (s.onThr n f).dies = s.dies := rfl
@[simp] theorem State.onThr_mem (s : State) (n : Nat) (f : Thread → Thread) : (s.onThr n f).mem = s.mem := rfl
@[simp] theorem State.onThr_loc (s : State) (n : Nat) (f : Thread → Thread) : (s.onThr n f).loc = s.loc := rfl
@[simp] theorem State.onThr_roll (s : State) (n : Nat) (f : Thread → Thread) : (s.onThr n f).roll = s.roll := rfl
@[simp] theorem State.onThr_losing (s : State) (n : Nat) (f : Thread → Thread) : (s.onThr n f).losing = s.losing := rfl
@[simp] theorem State.onThr_span2m (s : State) (n : Nat) (f : Thread → Thread) : (s.onThr n f).span2m = s.span2m := rfl
@[simp] theorem State.onThr_span1g (s : State) (n : Nat) (f : Thread → Thread) : (s.onThr n f).span1g = s.span1g := rfl
@[simp] theorem State.onThr_dir (s : State) (n : Nat) (f : Thread → Thread) : (s.onThr n f).dir = s.dir := rfl
@[simp] theorem State.onThr_posts (s : State) (n : Nat) (f : Thread → Thread) : (s.onThr n f).posts = s.posts := rfl
@[simp] theorem State.onThr_ctxs (s : State) (n : Nat) (f : Thread → Thread) : (s.onThr n f).ctxs = s.ctxs := rfl
@[simp] theorem State.onThr_launches (s : State) (n : Nat) (f : Thread → Thread) : (s.onThr n f).launches = s.launches := rfl
@[simp] theorem State.onThr_regs (s : State) (n : Nat) (f : Thread → Thread) : (s.onThr n f).regs = s.regs := rfl
@[simp] theorem State.onThr_altHomes (s : State) (n : Nat) (f : Thread → Thread) : (s.onThr n f).altHomes = s.altHomes := rfl
@[simp] theorem State.onThr_msgs (s : State) (n : Nat) (f : Thread → Thread) : (s.onThr n f).msgs = s.msgs := rfl
@[simp] theorem State.onThr_txns (s : State) (n : Nat) (f : Thread → Thread) : (s.onThr n f).txns = s.txns := rfl
@[simp] theorem State.onThr_l2 (s : State) (n : Nat) (f : Thread → Thread) : (s.onThr n f).l2 = s.l2 := rfl
@[simp] theorem State.onThr_flaws (s : State) (n : Nat) (f : Thread → Thread) : (s.onThr n f).flaws = s.flaws := rfl
@[simp] theorem State.onThr_agentOps (s : State) (n : Nat) (f : Thread → Thread) : (s.onThr n f).agentOps = s.agentOps := rfl
@[simp] theorem State.onThr_carried (s : State) (n : Nat) (f : Thread → Thread) : (s.onThr n f).carried = s.carried := rfl
@[simp] theorem State.onThr_windows (s : State) (n : Nat) (f : Thread → Thread) : (s.onThr n f).windows = s.windows := rfl
@[simp] theorem State.onThr_reft (s : State) (n : Nat) (f : Thread → Thread) : (s.onThr n f).reft = s.reft := rfl
@[simp] theorem State.onThr_answer (s : State) (n : Nat) (f : Thread → Thread) : (s.onThr n f).answer = s.answer := rfl
@[simp] theorem State.onThr_poison (s : State) (n : Nat) (f : Thread → Thread) : (s.onThr n f).poison = s.poison := rfl
@[simp] theorem State.onThr_epochAt (s : State) (n : Nat) (f : Thread → Thread) : (s.onThr n f).epochAt = s.epochAt := rfl
@[simp] theorem State.onThr_met (s : State) (n : Nat) (f : Thread → Thread) : (s.onThr n f).met = s.met := rfl
@[simp] theorem State.onThr_stepAt (s : State) (n : Nat) (f : Thread → Thread) : (s.onThr n f).stepAt = s.stepAt := rfl
@[simp] theorem State.onThr_sched (s : State) (n : Nat) (f : Thread → Thread) : (s.onThr n f).sched = s.sched := rfl
@[simp] theorem State.onThr_prompt (s : State) (n : Nat) (f : Thread → Thread) : (s.onThr n f).prompt = s.prompt := rfl
@[simp] theorem State.onThr_cur (s : State) (n : Nat) (f : Thread → Thread) : (s.onThr n f).cur = s.cur := rfl
@[simp] theorem State.onThr_nextId (s : State) (n : Nat) (f : Thread → Thread) : (s.onThr n f).nextId = s.nextId := rfl
@[simp] theorem State.onThr_free (s : State) (n : Nat) (f : Thread → Thread) : (s.onThr n f).free = s.free := rfl

/-! ### setCore -/

@[simp] theorem State.setCore_powered (s : State) (c : Nat) (x : Core) : (s.setCore c x).powered = s.powered := rfl
@[simp] theorem State.setCore_threads (s : State) (c : Nat) (x : Core) : (s.setCore c x).threads = s.threads := rfl
@[simp] theorem State.setCore_tiles (s : State) (c : Nat) (x : Core) : (s.setCore c x).tiles = s.tiles := rfl
@[simp] theorem State.setCore_dies (s : State) (c : Nat) (x : Core) : (s.setCore c x).dies = s.dies := rfl
@[simp] theorem State.setCore_mem (s : State) (c : Nat) (x : Core) : (s.setCore c x).mem = s.mem := rfl
@[simp] theorem State.setCore_loc (s : State) (c : Nat) (x : Core) : (s.setCore c x).loc = s.loc := rfl
@[simp] theorem State.setCore_roll (s : State) (c : Nat) (x : Core) : (s.setCore c x).roll = s.roll := rfl
@[simp] theorem State.setCore_losing (s : State) (c : Nat) (x : Core) : (s.setCore c x).losing = s.losing := rfl
@[simp] theorem State.setCore_span2m (s : State) (c : Nat) (x : Core) : (s.setCore c x).span2m = s.span2m := rfl
@[simp] theorem State.setCore_span1g (s : State) (c : Nat) (x : Core) : (s.setCore c x).span1g = s.span1g := rfl
@[simp] theorem State.setCore_dir (s : State) (c : Nat) (x : Core) : (s.setCore c x).dir = s.dir := rfl
@[simp] theorem State.setCore_posts (s : State) (c : Nat) (x : Core) : (s.setCore c x).posts = s.posts := rfl
@[simp] theorem State.setCore_ctxs (s : State) (c : Nat) (x : Core) : (s.setCore c x).ctxs = s.ctxs := rfl
@[simp] theorem State.setCore_launches (s : State) (c : Nat) (x : Core) : (s.setCore c x).launches = s.launches := rfl
@[simp] theorem State.setCore_regs (s : State) (c : Nat) (x : Core) : (s.setCore c x).regs = s.regs := rfl
@[simp] theorem State.setCore_altHomes (s : State) (c : Nat) (x : Core) : (s.setCore c x).altHomes = s.altHomes := rfl
@[simp] theorem State.setCore_msgs (s : State) (c : Nat) (x : Core) : (s.setCore c x).msgs = s.msgs := rfl
@[simp] theorem State.setCore_txns (s : State) (c : Nat) (x : Core) : (s.setCore c x).txns = s.txns := rfl
@[simp] theorem State.setCore_l2 (s : State) (c : Nat) (x : Core) : (s.setCore c x).l2 = s.l2 := rfl
@[simp] theorem State.setCore_flaws (s : State) (c : Nat) (x : Core) : (s.setCore c x).flaws = s.flaws := rfl
@[simp] theorem State.setCore_agentOps (s : State) (c : Nat) (x : Core) : (s.setCore c x).agentOps = s.agentOps := rfl
@[simp] theorem State.setCore_carried (s : State) (c : Nat) (x : Core) : (s.setCore c x).carried = s.carried := rfl
@[simp] theorem State.setCore_windows (s : State) (c : Nat) (x : Core) : (s.setCore c x).windows = s.windows := rfl
@[simp] theorem State.setCore_reft (s : State) (c : Nat) (x : Core) : (s.setCore c x).reft = s.reft := rfl
@[simp] theorem State.setCore_answer (s : State) (c : Nat) (x : Core) : (s.setCore c x).answer = s.answer := rfl
@[simp] theorem State.setCore_poison (s : State) (c : Nat) (x : Core) : (s.setCore c x).poison = s.poison := rfl
@[simp] theorem State.setCore_epochAt (s : State) (c : Nat) (x : Core) : (s.setCore c x).epochAt = s.epochAt := rfl
@[simp] theorem State.setCore_met (s : State) (c : Nat) (x : Core) : (s.setCore c x).met = s.met := rfl
@[simp] theorem State.setCore_stepAt (s : State) (c : Nat) (x : Core) : (s.setCore c x).stepAt = s.stepAt := rfl
@[simp] theorem State.setCore_sched (s : State) (c : Nat) (x : Core) : (s.setCore c x).sched = s.sched := rfl
@[simp] theorem State.setCore_prompt (s : State) (c : Nat) (x : Core) : (s.setCore c x).prompt = s.prompt := rfl
@[simp] theorem State.setCore_cur (s : State) (c : Nat) (x : Core) : (s.setCore c x).cur = s.cur := rfl
@[simp] theorem State.setCore_nextId (s : State) (c : Nat) (x : Core) : (s.setCore c x).nextId = s.nextId := rfl
@[simp] theorem State.setCore_free (s : State) (c : Nat) (x : Core) : (s.setCore c x).free = s.free := rfl

/-! ### onCore -/

@[simp] theorem State.onCore_powered (s : State) (c : Nat) (f : Core → Core) : (s.onCore c f).powered = s.powered := rfl
@[simp] theorem State.onCore_threads (s : State) (c : Nat) (f : Core → Core) : (s.onCore c f).threads = s.threads := rfl
@[simp] theorem State.onCore_tiles (s : State) (c : Nat) (f : Core → Core) : (s.onCore c f).tiles = s.tiles := rfl
@[simp] theorem State.onCore_dies (s : State) (c : Nat) (f : Core → Core) : (s.onCore c f).dies = s.dies := rfl
@[simp] theorem State.onCore_mem (s : State) (c : Nat) (f : Core → Core) : (s.onCore c f).mem = s.mem := rfl
@[simp] theorem State.onCore_loc (s : State) (c : Nat) (f : Core → Core) : (s.onCore c f).loc = s.loc := rfl
@[simp] theorem State.onCore_roll (s : State) (c : Nat) (f : Core → Core) : (s.onCore c f).roll = s.roll := rfl
@[simp] theorem State.onCore_losing (s : State) (c : Nat) (f : Core → Core) : (s.onCore c f).losing = s.losing := rfl
@[simp] theorem State.onCore_span2m (s : State) (c : Nat) (f : Core → Core) : (s.onCore c f).span2m = s.span2m := rfl
@[simp] theorem State.onCore_span1g (s : State) (c : Nat) (f : Core → Core) : (s.onCore c f).span1g = s.span1g := rfl
@[simp] theorem State.onCore_dir (s : State) (c : Nat) (f : Core → Core) : (s.onCore c f).dir = s.dir := rfl
@[simp] theorem State.onCore_posts (s : State) (c : Nat) (f : Core → Core) : (s.onCore c f).posts = s.posts := rfl
@[simp] theorem State.onCore_ctxs (s : State) (c : Nat) (f : Core → Core) : (s.onCore c f).ctxs = s.ctxs := rfl
@[simp] theorem State.onCore_launches (s : State) (c : Nat) (f : Core → Core) : (s.onCore c f).launches = s.launches := rfl
@[simp] theorem State.onCore_regs (s : State) (c : Nat) (f : Core → Core) : (s.onCore c f).regs = s.regs := rfl
@[simp] theorem State.onCore_altHomes (s : State) (c : Nat) (f : Core → Core) : (s.onCore c f).altHomes = s.altHomes := rfl
@[simp] theorem State.onCore_msgs (s : State) (c : Nat) (f : Core → Core) : (s.onCore c f).msgs = s.msgs := rfl
@[simp] theorem State.onCore_txns (s : State) (c : Nat) (f : Core → Core) : (s.onCore c f).txns = s.txns := rfl
@[simp] theorem State.onCore_l2 (s : State) (c : Nat) (f : Core → Core) : (s.onCore c f).l2 = s.l2 := rfl
@[simp] theorem State.onCore_flaws (s : State) (c : Nat) (f : Core → Core) : (s.onCore c f).flaws = s.flaws := rfl
@[simp] theorem State.onCore_agentOps (s : State) (c : Nat) (f : Core → Core) : (s.onCore c f).agentOps = s.agentOps := rfl
@[simp] theorem State.onCore_carried (s : State) (c : Nat) (f : Core → Core) : (s.onCore c f).carried = s.carried := rfl
@[simp] theorem State.onCore_windows (s : State) (c : Nat) (f : Core → Core) : (s.onCore c f).windows = s.windows := rfl
@[simp] theorem State.onCore_reft (s : State) (c : Nat) (f : Core → Core) : (s.onCore c f).reft = s.reft := rfl
@[simp] theorem State.onCore_answer (s : State) (c : Nat) (f : Core → Core) : (s.onCore c f).answer = s.answer := rfl
@[simp] theorem State.onCore_poison (s : State) (c : Nat) (f : Core → Core) : (s.onCore c f).poison = s.poison := rfl
@[simp] theorem State.onCore_epochAt (s : State) (c : Nat) (f : Core → Core) : (s.onCore c f).epochAt = s.epochAt := rfl
@[simp] theorem State.onCore_met (s : State) (c : Nat) (f : Core → Core) : (s.onCore c f).met = s.met := rfl
@[simp] theorem State.onCore_stepAt (s : State) (c : Nat) (f : Core → Core) : (s.onCore c f).stepAt = s.stepAt := rfl
@[simp] theorem State.onCore_sched (s : State) (c : Nat) (f : Core → Core) : (s.onCore c f).sched = s.sched := rfl
@[simp] theorem State.onCore_prompt (s : State) (c : Nat) (f : Core → Core) : (s.onCore c f).prompt = s.prompt := rfl
@[simp] theorem State.onCore_cur (s : State) (c : Nat) (f : Core → Core) : (s.onCore c f).cur = s.cur := rfl
@[simp] theorem State.onCore_nextId (s : State) (c : Nat) (f : Core → Core) : (s.onCore c f).nextId = s.nextId := rfl
@[simp] theorem State.onCore_free (s : State) (c : Nat) (f : Core → Core) : (s.onCore c f).free = s.free := rfl

/-! ### onTile -/

@[simp] theorem State.onTile_powered (s : State) (t : Nat) (f : Tile → Tile) : (s.onTile t f).powered = s.powered := rfl
@[simp] theorem State.onTile_threads (s : State) (t : Nat) (f : Tile → Tile) : (s.onTile t f).threads = s.threads := rfl
@[simp] theorem State.onTile_cores (s : State) (t : Nat) (f : Tile → Tile) : (s.onTile t f).cores = s.cores := rfl
@[simp] theorem State.onTile_dies (s : State) (t : Nat) (f : Tile → Tile) : (s.onTile t f).dies = s.dies := rfl
@[simp] theorem State.onTile_mem (s : State) (t : Nat) (f : Tile → Tile) : (s.onTile t f).mem = s.mem := rfl
@[simp] theorem State.onTile_loc (s : State) (t : Nat) (f : Tile → Tile) : (s.onTile t f).loc = s.loc := rfl
@[simp] theorem State.onTile_roll (s : State) (t : Nat) (f : Tile → Tile) : (s.onTile t f).roll = s.roll := rfl
@[simp] theorem State.onTile_losing (s : State) (t : Nat) (f : Tile → Tile) : (s.onTile t f).losing = s.losing := rfl
@[simp] theorem State.onTile_span2m (s : State) (t : Nat) (f : Tile → Tile) : (s.onTile t f).span2m = s.span2m := rfl
@[simp] theorem State.onTile_span1g (s : State) (t : Nat) (f : Tile → Tile) : (s.onTile t f).span1g = s.span1g := rfl
@[simp] theorem State.onTile_dir (s : State) (t : Nat) (f : Tile → Tile) : (s.onTile t f).dir = s.dir := rfl
@[simp] theorem State.onTile_posts (s : State) (t : Nat) (f : Tile → Tile) : (s.onTile t f).posts = s.posts := rfl
@[simp] theorem State.onTile_ctxs (s : State) (t : Nat) (f : Tile → Tile) : (s.onTile t f).ctxs = s.ctxs := rfl
@[simp] theorem State.onTile_launches (s : State) (t : Nat) (f : Tile → Tile) : (s.onTile t f).launches = s.launches := rfl
@[simp] theorem State.onTile_regs (s : State) (t : Nat) (f : Tile → Tile) : (s.onTile t f).regs = s.regs := rfl
@[simp] theorem State.onTile_altHomes (s : State) (t : Nat) (f : Tile → Tile) : (s.onTile t f).altHomes = s.altHomes := rfl
@[simp] theorem State.onTile_msgs (s : State) (t : Nat) (f : Tile → Tile) : (s.onTile t f).msgs = s.msgs := rfl
@[simp] theorem State.onTile_txns (s : State) (t : Nat) (f : Tile → Tile) : (s.onTile t f).txns = s.txns := rfl
@[simp] theorem State.onTile_l2 (s : State) (t : Nat) (f : Tile → Tile) : (s.onTile t f).l2 = s.l2 := rfl
@[simp] theorem State.onTile_flaws (s : State) (t : Nat) (f : Tile → Tile) : (s.onTile t f).flaws = s.flaws := rfl
@[simp] theorem State.onTile_agentOps (s : State) (t : Nat) (f : Tile → Tile) : (s.onTile t f).agentOps = s.agentOps := rfl
@[simp] theorem State.onTile_carried (s : State) (t : Nat) (f : Tile → Tile) : (s.onTile t f).carried = s.carried := rfl
@[simp] theorem State.onTile_windows (s : State) (t : Nat) (f : Tile → Tile) : (s.onTile t f).windows = s.windows := rfl
@[simp] theorem State.onTile_reft (s : State) (t : Nat) (f : Tile → Tile) : (s.onTile t f).reft = s.reft := rfl
@[simp] theorem State.onTile_answer (s : State) (t : Nat) (f : Tile → Tile) : (s.onTile t f).answer = s.answer := rfl
@[simp] theorem State.onTile_poison (s : State) (t : Nat) (f : Tile → Tile) : (s.onTile t f).poison = s.poison := rfl
@[simp] theorem State.onTile_epochAt (s : State) (t : Nat) (f : Tile → Tile) : (s.onTile t f).epochAt = s.epochAt := rfl
@[simp] theorem State.onTile_met (s : State) (t : Nat) (f : Tile → Tile) : (s.onTile t f).met = s.met := rfl
@[simp] theorem State.onTile_stepAt (s : State) (t : Nat) (f : Tile → Tile) : (s.onTile t f).stepAt = s.stepAt := rfl
@[simp] theorem State.onTile_sched (s : State) (t : Nat) (f : Tile → Tile) : (s.onTile t f).sched = s.sched := rfl
@[simp] theorem State.onTile_prompt (s : State) (t : Nat) (f : Tile → Tile) : (s.onTile t f).prompt = s.prompt := rfl
@[simp] theorem State.onTile_cur (s : State) (t : Nat) (f : Tile → Tile) : (s.onTile t f).cur = s.cur := rfl
@[simp] theorem State.onTile_nextId (s : State) (t : Nat) (f : Tile → Tile) : (s.onTile t f).nextId = s.nextId := rfl
@[simp] theorem State.onTile_free (s : State) (t : Nat) (f : Tile → Tile) : (s.onTile t f).free = s.free := rfl

/-! ### onDie -/

@[simp] theorem State.onDie_powered (s : State) (d : Nat) (f : Die → Die) : (s.onDie d f).powered = s.powered := rfl
@[simp] theorem State.onDie_threads (s : State) (d : Nat) (f : Die → Die) : (s.onDie d f).threads = s.threads := rfl
@[simp] theorem State.onDie_cores (s : State) (d : Nat) (f : Die → Die) : (s.onDie d f).cores = s.cores := rfl
@[simp] theorem State.onDie_tiles (s : State) (d : Nat) (f : Die → Die) : (s.onDie d f).tiles = s.tiles := rfl
@[simp] theorem State.onDie_mem (s : State) (d : Nat) (f : Die → Die) : (s.onDie d f).mem = s.mem := rfl
@[simp] theorem State.onDie_loc (s : State) (d : Nat) (f : Die → Die) : (s.onDie d f).loc = s.loc := rfl
@[simp] theorem State.onDie_roll (s : State) (d : Nat) (f : Die → Die) : (s.onDie d f).roll = s.roll := rfl
@[simp] theorem State.onDie_losing (s : State) (d : Nat) (f : Die → Die) : (s.onDie d f).losing = s.losing := rfl
@[simp] theorem State.onDie_span2m (s : State) (d : Nat) (f : Die → Die) : (s.onDie d f).span2m = s.span2m := rfl
@[simp] theorem State.onDie_span1g (s : State) (d : Nat) (f : Die → Die) : (s.onDie d f).span1g = s.span1g := rfl
@[simp] theorem State.onDie_dir (s : State) (d : Nat) (f : Die → Die) : (s.onDie d f).dir = s.dir := rfl
@[simp] theorem State.onDie_posts (s : State) (d : Nat) (f : Die → Die) : (s.onDie d f).posts = s.posts := rfl
@[simp] theorem State.onDie_ctxs (s : State) (d : Nat) (f : Die → Die) : (s.onDie d f).ctxs = s.ctxs := rfl
@[simp] theorem State.onDie_launches (s : State) (d : Nat) (f : Die → Die) : (s.onDie d f).launches = s.launches := rfl
@[simp] theorem State.onDie_regs (s : State) (d : Nat) (f : Die → Die) : (s.onDie d f).regs = s.regs := rfl
@[simp] theorem State.onDie_altHomes (s : State) (d : Nat) (f : Die → Die) : (s.onDie d f).altHomes = s.altHomes := rfl
@[simp] theorem State.onDie_msgs (s : State) (d : Nat) (f : Die → Die) : (s.onDie d f).msgs = s.msgs := rfl
@[simp] theorem State.onDie_txns (s : State) (d : Nat) (f : Die → Die) : (s.onDie d f).txns = s.txns := rfl
@[simp] theorem State.onDie_l2 (s : State) (d : Nat) (f : Die → Die) : (s.onDie d f).l2 = s.l2 := rfl
@[simp] theorem State.onDie_flaws (s : State) (d : Nat) (f : Die → Die) : (s.onDie d f).flaws = s.flaws := rfl
@[simp] theorem State.onDie_agentOps (s : State) (d : Nat) (f : Die → Die) : (s.onDie d f).agentOps = s.agentOps := rfl
@[simp] theorem State.onDie_carried (s : State) (d : Nat) (f : Die → Die) : (s.onDie d f).carried = s.carried := rfl
@[simp] theorem State.onDie_windows (s : State) (d : Nat) (f : Die → Die) : (s.onDie d f).windows = s.windows := rfl
@[simp] theorem State.onDie_reft (s : State) (d : Nat) (f : Die → Die) : (s.onDie d f).reft = s.reft := rfl
@[simp] theorem State.onDie_answer (s : State) (d : Nat) (f : Die → Die) : (s.onDie d f).answer = s.answer := rfl
@[simp] theorem State.onDie_poison (s : State) (d : Nat) (f : Die → Die) : (s.onDie d f).poison = s.poison := rfl
@[simp] theorem State.onDie_epochAt (s : State) (d : Nat) (f : Die → Die) : (s.onDie d f).epochAt = s.epochAt := rfl
@[simp] theorem State.onDie_met (s : State) (d : Nat) (f : Die → Die) : (s.onDie d f).met = s.met := rfl
@[simp] theorem State.onDie_stepAt (s : State) (d : Nat) (f : Die → Die) : (s.onDie d f).stepAt = s.stepAt := rfl
@[simp] theorem State.onDie_sched (s : State) (d : Nat) (f : Die → Die) : (s.onDie d f).sched = s.sched := rfl
@[simp] theorem State.onDie_prompt (s : State) (d : Nat) (f : Die → Die) : (s.onDie d f).prompt = s.prompt := rfl
@[simp] theorem State.onDie_cur (s : State) (d : Nat) (f : Die → Die) : (s.onDie d f).cur = s.cur := rfl
@[simp] theorem State.onDie_nextId (s : State) (d : Nat) (f : Die → Die) : (s.onDie d f).nextId = s.nextId := rfl
@[simp] theorem State.onDie_free (s : State) (d : Nat) (f : Die → Die) : (s.onDie d f).free = s.free := rfl

/-! ### setDeed -/

@[simp] theorem State.setDeed_powered (s : State) (a : Nat) (e : Deed) : (s.setDeed a e).powered = s.powered := rfl
@[simp] theorem State.setDeed_threads (s : State) (a : Nat) (e : Deed) : (s.setDeed a e).threads = s.threads := rfl
@[simp] theorem State.setDeed_cores (s : State) (a : Nat) (e : Deed) : (s.setDeed a e).cores = s.cores := rfl
@[simp] theorem State.setDeed_tiles (s : State) (a : Nat) (e : Deed) : (s.setDeed a e).tiles = s.tiles := rfl
@[simp] theorem State.setDeed_dies (s : State) (a : Nat) (e : Deed) : (s.setDeed a e).dies = s.dies := rfl
@[simp] theorem State.setDeed_mem (s : State) (a : Nat) (e : Deed) : (s.setDeed a e).mem = s.mem := rfl
@[simp] theorem State.setDeed_loc (s : State) (a : Nat) (e : Deed) : (s.setDeed a e).loc = s.loc := rfl
@[simp] theorem State.setDeed_losing (s : State) (a : Nat) (e : Deed) : (s.setDeed a e).losing = s.losing := rfl
@[simp] theorem State.setDeed_span2m (s : State) (a : Nat) (e : Deed) : (s.setDeed a e).span2m = s.span2m := rfl
@[simp] theorem State.setDeed_span1g (s : State) (a : Nat) (e : Deed) : (s.setDeed a e).span1g = s.span1g := rfl
@[simp] theorem State.setDeed_dir (s : State) (a : Nat) (e : Deed) : (s.setDeed a e).dir = s.dir := rfl
@[simp] theorem State.setDeed_posts (s : State) (a : Nat) (e : Deed) : (s.setDeed a e).posts = s.posts := rfl
@[simp] theorem State.setDeed_ctxs (s : State) (a : Nat) (e : Deed) : (s.setDeed a e).ctxs = s.ctxs := rfl
@[simp] theorem State.setDeed_launches (s : State) (a : Nat) (e : Deed) : (s.setDeed a e).launches = s.launches := rfl
@[simp] theorem State.setDeed_regs (s : State) (a : Nat) (e : Deed) : (s.setDeed a e).regs = s.regs := rfl
@[simp] theorem State.setDeed_altHomes (s : State) (a : Nat) (e : Deed) : (s.setDeed a e).altHomes = s.altHomes := rfl
@[simp] theorem State.setDeed_msgs (s : State) (a : Nat) (e : Deed) : (s.setDeed a e).msgs = s.msgs := rfl
@[simp] theorem State.setDeed_txns (s : State) (a : Nat) (e : Deed) : (s.setDeed a e).txns = s.txns := rfl
@[simp] theorem State.setDeed_l2 (s : State) (a : Nat) (e : Deed) : (s.setDeed a e).l2 = s.l2 := rfl
@[simp] theorem State.setDeed_flaws (s : State) (a : Nat) (e : Deed) : (s.setDeed a e).flaws = s.flaws := rfl
@[simp] theorem State.setDeed_agentOps (s : State) (a : Nat) (e : Deed) : (s.setDeed a e).agentOps = s.agentOps := rfl
@[simp] theorem State.setDeed_carried (s : State) (a : Nat) (e : Deed) : (s.setDeed a e).carried = s.carried := rfl
@[simp] theorem State.setDeed_windows (s : State) (a : Nat) (e : Deed) : (s.setDeed a e).windows = s.windows := rfl
@[simp] theorem State.setDeed_reft (s : State) (a : Nat) (e : Deed) : (s.setDeed a e).reft = s.reft := rfl
@[simp] theorem State.setDeed_answer (s : State) (a : Nat) (e : Deed) : (s.setDeed a e).answer = s.answer := rfl
@[simp] theorem State.setDeed_poison (s : State) (a : Nat) (e : Deed) : (s.setDeed a e).poison = s.poison := rfl
@[simp] theorem State.setDeed_epochAt (s : State) (a : Nat) (e : Deed) : (s.setDeed a e).epochAt = s.epochAt := rfl
@[simp] theorem State.setDeed_met (s : State) (a : Nat) (e : Deed) : (s.setDeed a e).met = s.met := rfl
@[simp] theorem State.setDeed_stepAt (s : State) (a : Nat) (e : Deed) : (s.setDeed a e).stepAt = s.stepAt := rfl
@[simp] theorem State.setDeed_sched (s : State) (a : Nat) (e : Deed) : (s.setDeed a e).sched = s.sched := rfl
@[simp] theorem State.setDeed_prompt (s : State) (a : Nat) (e : Deed) : (s.setDeed a e).prompt = s.prompt := rfl
@[simp] theorem State.setDeed_cur (s : State) (a : Nat) (e : Deed) : (s.setDeed a e).cur = s.cur := rfl
@[simp] theorem State.setDeed_nextId (s : State) (a : Nat) (e : Deed) : (s.setDeed a e).nextId = s.nextId := rfl
@[simp] theorem State.setDeed_free (s : State) (a : Nat) (e : Deed) : (s.setDeed a e).free = s.free := rfl

/-! ### setDir -/

@[simp] theorem State.setDir_powered (s : State) (l : Nat) (x : Dir) : (s.setDir l x).powered = s.powered := rfl
@[simp] theorem State.setDir_threads (s : State) (l : Nat) (x : Dir) : (s.setDir l x).threads = s.threads := rfl
@[simp] theorem State.setDir_cores (s : State) (l : Nat) (x : Dir) : (s.setDir l x).cores = s.cores := rfl
@[simp] theorem State.setDir_tiles (s : State) (l : Nat) (x : Dir) : (s.setDir l x).tiles = s.tiles := rfl
@[simp] theorem State.setDir_dies (s : State) (l : Nat) (x : Dir) : (s.setDir l x).dies = s.dies := rfl
@[simp] theorem State.setDir_mem (s : State) (l : Nat) (x : Dir) : (s.setDir l x).mem = s.mem := rfl
@[simp] theorem State.setDir_loc (s : State) (l : Nat) (x : Dir) : (s.setDir l x).loc = s.loc := rfl
@[simp] theorem State.setDir_roll (s : State) (l : Nat) (x : Dir) : (s.setDir l x).roll = s.roll := rfl
@[simp] theorem State.setDir_losing (s : State) (l : Nat) (x : Dir) : (s.setDir l x).losing = s.losing := rfl
@[simp] theorem State.setDir_span2m (s : State) (l : Nat) (x : Dir) : (s.setDir l x).span2m = s.span2m := rfl
@[simp] theorem State.setDir_span1g (s : State) (l : Nat) (x : Dir) : (s.setDir l x).span1g = s.span1g := rfl
@[simp] theorem State.setDir_posts (s : State) (l : Nat) (x : Dir) : (s.setDir l x).posts = s.posts := rfl
@[simp] theorem State.setDir_ctxs (s : State) (l : Nat) (x : Dir) : (s.setDir l x).ctxs = s.ctxs := rfl
@[simp] theorem State.setDir_launches (s : State) (l : Nat) (x : Dir) : (s.setDir l x).launches = s.launches := rfl
@[simp] theorem State.setDir_regs (s : State) (l : Nat) (x : Dir) : (s.setDir l x).regs = s.regs := rfl
@[simp] theorem State.setDir_altHomes (s : State) (l : Nat) (x : Dir) : (s.setDir l x).altHomes = s.altHomes := rfl
@[simp] theorem State.setDir_msgs (s : State) (l : Nat) (x : Dir) : (s.setDir l x).msgs = s.msgs := rfl
@[simp] theorem State.setDir_txns (s : State) (l : Nat) (x : Dir) : (s.setDir l x).txns = s.txns := rfl
@[simp] theorem State.setDir_l2 (s : State) (l : Nat) (x : Dir) : (s.setDir l x).l2 = s.l2 := rfl
@[simp] theorem State.setDir_flaws (s : State) (l : Nat) (x : Dir) : (s.setDir l x).flaws = s.flaws := rfl
@[simp] theorem State.setDir_agentOps (s : State) (l : Nat) (x : Dir) : (s.setDir l x).agentOps = s.agentOps := rfl
@[simp] theorem State.setDir_carried (s : State) (l : Nat) (x : Dir) : (s.setDir l x).carried = s.carried := rfl
@[simp] theorem State.setDir_windows (s : State) (l : Nat) (x : Dir) : (s.setDir l x).windows = s.windows := rfl
@[simp] theorem State.setDir_reft (s : State) (l : Nat) (x : Dir) : (s.setDir l x).reft = s.reft := rfl
@[simp] theorem State.setDir_answer (s : State) (l : Nat) (x : Dir) : (s.setDir l x).answer = s.answer := rfl
@[simp] theorem State.setDir_poison (s : State) (l : Nat) (x : Dir) : (s.setDir l x).poison = s.poison := rfl
@[simp] theorem State.setDir_epochAt (s : State) (l : Nat) (x : Dir) : (s.setDir l x).epochAt = s.epochAt := rfl
@[simp] theorem State.setDir_met (s : State) (l : Nat) (x : Dir) : (s.setDir l x).met = s.met := rfl
@[simp] theorem State.setDir_stepAt (s : State) (l : Nat) (x : Dir) : (s.setDir l x).stepAt = s.stepAt := rfl
@[simp] theorem State.setDir_sched (s : State) (l : Nat) (x : Dir) : (s.setDir l x).sched = s.sched := rfl
@[simp] theorem State.setDir_prompt (s : State) (l : Nat) (x : Dir) : (s.setDir l x).prompt = s.prompt := rfl
@[simp] theorem State.setDir_cur (s : State) (l : Nat) (x : Dir) : (s.setDir l x).cur = s.cur := rfl
@[simp] theorem State.setDir_nextId (s : State) (l : Nat) (x : Dir) : (s.setDir l x).nextId = s.nextId := rfl
@[simp] theorem State.setDir_free (s : State) (l : Nat) (x : Dir) : (s.setDir l x).free = s.free := rfl

/-! ### setCtx -/

@[simp] theorem State.setCtx_powered (s : State) (k : Nat) (x : Ctx) : (s.setCtx k x).powered = s.powered := rfl
@[simp] theorem State.setCtx_threads (s : State) (k : Nat) (x : Ctx) : (s.setCtx k x).threads = s.threads := rfl
@[simp] theorem State.setCtx_cores (s : State) (k : Nat) (x : Ctx) : (s.setCtx k x).cores = s.cores := rfl
@[simp] theorem State.setCtx_tiles (s : State) (k : Nat) (x : Ctx) : (s.setCtx k x).tiles = s.tiles := rfl
@[simp] theorem State.setCtx_dies (s : State) (k : Nat) (x : Ctx) : (s.setCtx k x).dies = s.dies := rfl
@[simp] theorem State.setCtx_mem (s : State) (k : Nat) (x : Ctx) : (s.setCtx k x).mem = s.mem := rfl
@[simp] theorem State.setCtx_loc (s : State) (k : Nat) (x : Ctx) : (s.setCtx k x).loc = s.loc := rfl
@[simp] theorem State.setCtx_roll (s : State) (k : Nat) (x : Ctx) : (s.setCtx k x).roll = s.roll := rfl
@[simp] theorem State.setCtx_losing (s : State) (k : Nat) (x : Ctx) : (s.setCtx k x).losing = s.losing := rfl
@[simp] theorem State.setCtx_span2m (s : State) (k : Nat) (x : Ctx) : (s.setCtx k x).span2m = s.span2m := rfl
@[simp] theorem State.setCtx_span1g (s : State) (k : Nat) (x : Ctx) : (s.setCtx k x).span1g = s.span1g := rfl
@[simp] theorem State.setCtx_dir (s : State) (k : Nat) (x : Ctx) : (s.setCtx k x).dir = s.dir := rfl
@[simp] theorem State.setCtx_posts (s : State) (k : Nat) (x : Ctx) : (s.setCtx k x).posts = s.posts := rfl
@[simp] theorem State.setCtx_launches (s : State) (k : Nat) (x : Ctx) : (s.setCtx k x).launches = s.launches := rfl
@[simp] theorem State.setCtx_regs (s : State) (k : Nat) (x : Ctx) : (s.setCtx k x).regs = s.regs := rfl
@[simp] theorem State.setCtx_altHomes (s : State) (k : Nat) (x : Ctx) : (s.setCtx k x).altHomes = s.altHomes := rfl
@[simp] theorem State.setCtx_msgs (s : State) (k : Nat) (x : Ctx) : (s.setCtx k x).msgs = s.msgs := rfl
@[simp] theorem State.setCtx_txns (s : State) (k : Nat) (x : Ctx) : (s.setCtx k x).txns = s.txns := rfl
@[simp] theorem State.setCtx_l2 (s : State) (k : Nat) (x : Ctx) : (s.setCtx k x).l2 = s.l2 := rfl
@[simp] theorem State.setCtx_flaws (s : State) (k : Nat) (x : Ctx) : (s.setCtx k x).flaws = s.flaws := rfl
@[simp] theorem State.setCtx_agentOps (s : State) (k : Nat) (x : Ctx) : (s.setCtx k x).agentOps = s.agentOps := rfl
@[simp] theorem State.setCtx_carried (s : State) (k : Nat) (x : Ctx) : (s.setCtx k x).carried = s.carried := rfl
@[simp] theorem State.setCtx_windows (s : State) (k : Nat) (x : Ctx) : (s.setCtx k x).windows = s.windows := rfl
@[simp] theorem State.setCtx_reft (s : State) (k : Nat) (x : Ctx) : (s.setCtx k x).reft = s.reft := rfl
@[simp] theorem State.setCtx_answer (s : State) (k : Nat) (x : Ctx) : (s.setCtx k x).answer = s.answer := rfl
@[simp] theorem State.setCtx_poison (s : State) (k : Nat) (x : Ctx) : (s.setCtx k x).poison = s.poison := rfl
@[simp] theorem State.setCtx_epochAt (s : State) (k : Nat) (x : Ctx) : (s.setCtx k x).epochAt = s.epochAt := rfl
@[simp] theorem State.setCtx_met (s : State) (k : Nat) (x : Ctx) : (s.setCtx k x).met = s.met := rfl
@[simp] theorem State.setCtx_stepAt (s : State) (k : Nat) (x : Ctx) : (s.setCtx k x).stepAt = s.stepAt := rfl
@[simp] theorem State.setCtx_sched (s : State) (k : Nat) (x : Ctx) : (s.setCtx k x).sched = s.sched := rfl
@[simp] theorem State.setCtx_prompt (s : State) (k : Nat) (x : Ctx) : (s.setCtx k x).prompt = s.prompt := rfl
@[simp] theorem State.setCtx_cur (s : State) (k : Nat) (x : Ctx) : (s.setCtx k x).cur = s.cur := rfl
@[simp] theorem State.setCtx_nextId (s : State) (k : Nat) (x : Ctx) : (s.setCtx k x).nextId = s.nextId := rfl
@[simp] theorem State.setCtx_free (s : State) (k : Nat) (x : Ctx) : (s.setCtx k x).free = s.free := rfl

/-! ### put -/

@[simp] theorem State.put_powered (s : State) (id : Nat) (src dst : Node) (after : List Nat) (b : Body) : (s.put id src dst after b).powered = s.powered := rfl
@[simp] theorem State.put_threads (s : State) (id : Nat) (src dst : Node) (after : List Nat) (b : Body) : (s.put id src dst after b).threads = s.threads := rfl
@[simp] theorem State.put_cores (s : State) (id : Nat) (src dst : Node) (after : List Nat) (b : Body) : (s.put id src dst after b).cores = s.cores := rfl
@[simp] theorem State.put_tiles (s : State) (id : Nat) (src dst : Node) (after : List Nat) (b : Body) : (s.put id src dst after b).tiles = s.tiles := rfl
@[simp] theorem State.put_dies (s : State) (id : Nat) (src dst : Node) (after : List Nat) (b : Body) : (s.put id src dst after b).dies = s.dies := rfl
@[simp] theorem State.put_mem (s : State) (id : Nat) (src dst : Node) (after : List Nat) (b : Body) : (s.put id src dst after b).mem = s.mem := rfl
@[simp] theorem State.put_loc (s : State) (id : Nat) (src dst : Node) (after : List Nat) (b : Body) : (s.put id src dst after b).loc = s.loc := rfl
@[simp] theorem State.put_roll (s : State) (id : Nat) (src dst : Node) (after : List Nat) (b : Body) : (s.put id src dst after b).roll = s.roll := rfl
@[simp] theorem State.put_losing (s : State) (id : Nat) (src dst : Node) (after : List Nat) (b : Body) : (s.put id src dst after b).losing = s.losing := rfl
@[simp] theorem State.put_span2m (s : State) (id : Nat) (src dst : Node) (after : List Nat) (b : Body) : (s.put id src dst after b).span2m = s.span2m := rfl
@[simp] theorem State.put_span1g (s : State) (id : Nat) (src dst : Node) (after : List Nat) (b : Body) : (s.put id src dst after b).span1g = s.span1g := rfl
@[simp] theorem State.put_dir (s : State) (id : Nat) (src dst : Node) (after : List Nat) (b : Body) : (s.put id src dst after b).dir = s.dir := rfl
@[simp] theorem State.put_posts (s : State) (id : Nat) (src dst : Node) (after : List Nat) (b : Body) : (s.put id src dst after b).posts = s.posts := rfl
@[simp] theorem State.put_ctxs (s : State) (id : Nat) (src dst : Node) (after : List Nat) (b : Body) : (s.put id src dst after b).ctxs = s.ctxs := rfl
@[simp] theorem State.put_launches (s : State) (id : Nat) (src dst : Node) (after : List Nat) (b : Body) : (s.put id src dst after b).launches = s.launches := rfl
@[simp] theorem State.put_regs (s : State) (id : Nat) (src dst : Node) (after : List Nat) (b : Body) : (s.put id src dst after b).regs = s.regs := rfl
@[simp] theorem State.put_altHomes (s : State) (id : Nat) (src dst : Node) (after : List Nat) (b : Body) : (s.put id src dst after b).altHomes = s.altHomes := rfl
@[simp] theorem State.put_txns (s : State) (id : Nat) (src dst : Node) (after : List Nat) (b : Body) : (s.put id src dst after b).txns = s.txns := rfl
@[simp] theorem State.put_l2 (s : State) (id : Nat) (src dst : Node) (after : List Nat) (b : Body) : (s.put id src dst after b).l2 = s.l2 := rfl
@[simp] theorem State.put_flaws (s : State) (id : Nat) (src dst : Node) (after : List Nat) (b : Body) : (s.put id src dst after b).flaws = s.flaws := rfl
@[simp] theorem State.put_agentOps (s : State) (id : Nat) (src dst : Node) (after : List Nat) (b : Body) : (s.put id src dst after b).agentOps = s.agentOps := rfl
@[simp] theorem State.put_carried (s : State) (id : Nat) (src dst : Node) (after : List Nat) (b : Body) : (s.put id src dst after b).carried = s.carried := rfl
@[simp] theorem State.put_windows (s : State) (id : Nat) (src dst : Node) (after : List Nat) (b : Body) : (s.put id src dst after b).windows = s.windows := rfl
@[simp] theorem State.put_reft (s : State) (id : Nat) (src dst : Node) (after : List Nat) (b : Body) : (s.put id src dst after b).reft = s.reft := rfl
@[simp] theorem State.put_answer (s : State) (id : Nat) (src dst : Node) (after : List Nat) (b : Body) : (s.put id src dst after b).answer = s.answer := rfl
@[simp] theorem State.put_poison (s : State) (id : Nat) (src dst : Node) (after : List Nat) (b : Body) : (s.put id src dst after b).poison = s.poison := rfl
@[simp] theorem State.put_epochAt (s : State) (id : Nat) (src dst : Node) (after : List Nat) (b : Body) : (s.put id src dst after b).epochAt = s.epochAt := rfl
@[simp] theorem State.put_met (s : State) (id : Nat) (src dst : Node) (after : List Nat) (b : Body) : (s.put id src dst after b).met = s.met := rfl
@[simp] theorem State.put_stepAt (s : State) (id : Nat) (src dst : Node) (after : List Nat) (b : Body) : (s.put id src dst after b).stepAt = s.stepAt := rfl
@[simp] theorem State.put_sched (s : State) (id : Nat) (src dst : Node) (after : List Nat) (b : Body) : (s.put id src dst after b).sched = s.sched := rfl
@[simp] theorem State.put_prompt (s : State) (id : Nat) (src dst : Node) (after : List Nat) (b : Body) : (s.put id src dst after b).prompt = s.prompt := rfl
@[simp] theorem State.put_cur (s : State) (id : Nat) (src dst : Node) (after : List Nat) (b : Body) : (s.put id src dst after b).cur = s.cur := rfl
@[simp] theorem State.put_nextId (s : State) (id : Nat) (src dst : Node) (after : List Nat) (b : Body) : (s.put id src dst after b).nextId = s.nextId := rfl
@[simp] theorem State.put_free (s : State) (id : Nat) (src dst : Node) (after : List Nat) (b : Body) : (s.put id src dst after b).free = s.free := rfl

/-! ### send -/

@[simp] theorem State.send_powered (s : State) (src dst : Node) (b : Body) : (s.send src dst b).powered = s.powered := rfl
@[simp] theorem State.send_threads (s : State) (src dst : Node) (b : Body) : (s.send src dst b).threads = s.threads := rfl
@[simp] theorem State.send_cores (s : State) (src dst : Node) (b : Body) : (s.send src dst b).cores = s.cores := rfl
@[simp] theorem State.send_tiles (s : State) (src dst : Node) (b : Body) : (s.send src dst b).tiles = s.tiles := rfl
@[simp] theorem State.send_dies (s : State) (src dst : Node) (b : Body) : (s.send src dst b).dies = s.dies := rfl
@[simp] theorem State.send_mem (s : State) (src dst : Node) (b : Body) : (s.send src dst b).mem = s.mem := rfl
@[simp] theorem State.send_loc (s : State) (src dst : Node) (b : Body) : (s.send src dst b).loc = s.loc := rfl
@[simp] theorem State.send_roll (s : State) (src dst : Node) (b : Body) : (s.send src dst b).roll = s.roll := rfl
@[simp] theorem State.send_losing (s : State) (src dst : Node) (b : Body) : (s.send src dst b).losing = s.losing := rfl
@[simp] theorem State.send_span2m (s : State) (src dst : Node) (b : Body) : (s.send src dst b).span2m = s.span2m := rfl
@[simp] theorem State.send_span1g (s : State) (src dst : Node) (b : Body) : (s.send src dst b).span1g = s.span1g := rfl
@[simp] theorem State.send_dir (s : State) (src dst : Node) (b : Body) : (s.send src dst b).dir = s.dir := rfl
@[simp] theorem State.send_posts (s : State) (src dst : Node) (b : Body) : (s.send src dst b).posts = s.posts := rfl
@[simp] theorem State.send_ctxs (s : State) (src dst : Node) (b : Body) : (s.send src dst b).ctxs = s.ctxs := rfl
@[simp] theorem State.send_launches (s : State) (src dst : Node) (b : Body) : (s.send src dst b).launches = s.launches := rfl
@[simp] theorem State.send_regs (s : State) (src dst : Node) (b : Body) : (s.send src dst b).regs = s.regs := rfl
@[simp] theorem State.send_altHomes (s : State) (src dst : Node) (b : Body) : (s.send src dst b).altHomes = s.altHomes := rfl
@[simp] theorem State.send_txns (s : State) (src dst : Node) (b : Body) : (s.send src dst b).txns = s.txns := rfl
@[simp] theorem State.send_l2 (s : State) (src dst : Node) (b : Body) : (s.send src dst b).l2 = s.l2 := rfl
@[simp] theorem State.send_flaws (s : State) (src dst : Node) (b : Body) : (s.send src dst b).flaws = s.flaws := rfl
@[simp] theorem State.send_agentOps (s : State) (src dst : Node) (b : Body) : (s.send src dst b).agentOps = s.agentOps := rfl
@[simp] theorem State.send_carried (s : State) (src dst : Node) (b : Body) : (s.send src dst b).carried = s.carried := rfl
@[simp] theorem State.send_windows (s : State) (src dst : Node) (b : Body) : (s.send src dst b).windows = s.windows := rfl
@[simp] theorem State.send_reft (s : State) (src dst : Node) (b : Body) : (s.send src dst b).reft = s.reft := rfl
@[simp] theorem State.send_answer (s : State) (src dst : Node) (b : Body) : (s.send src dst b).answer = s.answer := rfl
@[simp] theorem State.send_poison (s : State) (src dst : Node) (b : Body) : (s.send src dst b).poison = s.poison := rfl
@[simp] theorem State.send_epochAt (s : State) (src dst : Node) (b : Body) : (s.send src dst b).epochAt = s.epochAt := rfl
@[simp] theorem State.send_met (s : State) (src dst : Node) (b : Body) : (s.send src dst b).met = s.met := rfl
@[simp] theorem State.send_stepAt (s : State) (src dst : Node) (b : Body) : (s.send src dst b).stepAt = s.stepAt := rfl
@[simp] theorem State.send_sched (s : State) (src dst : Node) (b : Body) : (s.send src dst b).sched = s.sched := rfl
@[simp] theorem State.send_prompt (s : State) (src dst : Node) (b : Body) : (s.send src dst b).prompt = s.prompt := rfl
@[simp] theorem State.send_cur (s : State) (src dst : Node) (b : Body) : (s.send src dst b).cur = s.cur := rfl
@[simp] theorem State.send_free (s : State) (src dst : Node) (b : Body) : (s.send src dst b).free = s.free := rfl

/-! ### drop -/

@[simp] theorem State.drop_powered (s : State) (id : Nat) : (s.drop id).powered = s.powered := rfl
@[simp] theorem State.drop_threads (s : State) (id : Nat) : (s.drop id).threads = s.threads := rfl
@[simp] theorem State.drop_cores (s : State) (id : Nat) : (s.drop id).cores = s.cores := rfl
@[simp] theorem State.drop_tiles (s : State) (id : Nat) : (s.drop id).tiles = s.tiles := rfl
@[simp] theorem State.drop_dies (s : State) (id : Nat) : (s.drop id).dies = s.dies := rfl
@[simp] theorem State.drop_mem (s : State) (id : Nat) : (s.drop id).mem = s.mem := rfl
@[simp] theorem State.drop_loc (s : State) (id : Nat) : (s.drop id).loc = s.loc := rfl
@[simp] theorem State.drop_roll (s : State) (id : Nat) : (s.drop id).roll = s.roll := rfl
@[simp] theorem State.drop_losing (s : State) (id : Nat) : (s.drop id).losing = s.losing := rfl
@[simp] theorem State.drop_span2m (s : State) (id : Nat) : (s.drop id).span2m = s.span2m := rfl
@[simp] theorem State.drop_span1g (s : State) (id : Nat) : (s.drop id).span1g = s.span1g := rfl
@[simp] theorem State.drop_dir (s : State) (id : Nat) : (s.drop id).dir = s.dir := rfl
@[simp] theorem State.drop_posts (s : State) (id : Nat) : (s.drop id).posts = s.posts := rfl
@[simp] theorem State.drop_ctxs (s : State) (id : Nat) : (s.drop id).ctxs = s.ctxs := rfl
@[simp] theorem State.drop_launches (s : State) (id : Nat) : (s.drop id).launches = s.launches := rfl
@[simp] theorem State.drop_regs (s : State) (id : Nat) : (s.drop id).regs = s.regs := rfl
@[simp] theorem State.drop_altHomes (s : State) (id : Nat) : (s.drop id).altHomes = s.altHomes := rfl
@[simp] theorem State.drop_txns (s : State) (id : Nat) : (s.drop id).txns = s.txns := rfl
@[simp] theorem State.drop_l2 (s : State) (id : Nat) : (s.drop id).l2 = s.l2 := rfl
@[simp] theorem State.drop_flaws (s : State) (id : Nat) : (s.drop id).flaws = s.flaws := rfl
@[simp] theorem State.drop_agentOps (s : State) (id : Nat) : (s.drop id).agentOps = s.agentOps := rfl
@[simp] theorem State.drop_windows (s : State) (id : Nat) : (s.drop id).windows = s.windows := rfl
@[simp] theorem State.drop_reft (s : State) (id : Nat) : (s.drop id).reft = s.reft := rfl
@[simp] theorem State.drop_answer (s : State) (id : Nat) : (s.drop id).answer = s.answer := rfl
@[simp] theorem State.drop_poison (s : State) (id : Nat) : (s.drop id).poison = s.poison := rfl
@[simp] theorem State.drop_epochAt (s : State) (id : Nat) : (s.drop id).epochAt = s.epochAt := rfl
@[simp] theorem State.drop_met (s : State) (id : Nat) : (s.drop id).met = s.met := rfl
@[simp] theorem State.drop_stepAt (s : State) (id : Nat) : (s.drop id).stepAt = s.stepAt := rfl
@[simp] theorem State.drop_sched (s : State) (id : Nat) : (s.drop id).sched = s.sched := rfl
@[simp] theorem State.drop_prompt (s : State) (id : Nat) : (s.drop id).prompt = s.prompt := rfl
@[simp] theorem State.drop_cur (s : State) (id : Nat) : (s.drop id).cur = s.cur := rfl
@[simp] theorem State.drop_nextId (s : State) (id : Nat) : (s.drop id).nextId = s.nextId := rfl
@[simp] theorem State.drop_free (s : State) (id : Nat) : (s.drop id).free = s.free := rfl

/-! ### carry -/

@[simp] theorem State.carry_powered (s : State) (a b : Nat) : (s.carry a b).powered = s.powered := rfl
@[simp] theorem State.carry_threads (s : State) (a b : Nat) : (s.carry a b).threads = s.threads := rfl
@[simp] theorem State.carry_cores (s : State) (a b : Nat) : (s.carry a b).cores = s.cores := rfl
@[simp] theorem State.carry_tiles (s : State) (a b : Nat) : (s.carry a b).tiles = s.tiles := rfl
@[simp] theorem State.carry_dies (s : State) (a b : Nat) : (s.carry a b).dies = s.dies := rfl
@[simp] theorem State.carry_mem (s : State) (a b : Nat) : (s.carry a b).mem = s.mem := rfl
@[simp] theorem State.carry_loc (s : State) (a b : Nat) : (s.carry a b).loc = s.loc := rfl
@[simp] theorem State.carry_roll (s : State) (a b : Nat) : (s.carry a b).roll = s.roll := rfl
@[simp] theorem State.carry_losing (s : State) (a b : Nat) : (s.carry a b).losing = s.losing := rfl
@[simp] theorem State.carry_span2m (s : State) (a b : Nat) : (s.carry a b).span2m = s.span2m := rfl
@[simp] theorem State.carry_span1g (s : State) (a b : Nat) : (s.carry a b).span1g = s.span1g := rfl
@[simp] theorem State.carry_dir (s : State) (a b : Nat) : (s.carry a b).dir = s.dir := rfl
@[simp] theorem State.carry_posts (s : State) (a b : Nat) : (s.carry a b).posts = s.posts := rfl
@[simp] theorem State.carry_ctxs (s : State) (a b : Nat) : (s.carry a b).ctxs = s.ctxs := rfl
@[simp] theorem State.carry_launches (s : State) (a b : Nat) : (s.carry a b).launches = s.launches := rfl
@[simp] theorem State.carry_regs (s : State) (a b : Nat) : (s.carry a b).regs = s.regs := rfl
@[simp] theorem State.carry_altHomes (s : State) (a b : Nat) : (s.carry a b).altHomes = s.altHomes := rfl
@[simp] theorem State.carry_msgs (s : State) (a b : Nat) : (s.carry a b).msgs = s.msgs := rfl
@[simp] theorem State.carry_txns (s : State) (a b : Nat) : (s.carry a b).txns = s.txns := rfl
@[simp] theorem State.carry_l2 (s : State) (a b : Nat) : (s.carry a b).l2 = s.l2 := rfl
@[simp] theorem State.carry_flaws (s : State) (a b : Nat) : (s.carry a b).flaws = s.flaws := rfl
@[simp] theorem State.carry_agentOps (s : State) (a b : Nat) : (s.carry a b).agentOps = s.agentOps := rfl
@[simp] theorem State.carry_windows (s : State) (a b : Nat) : (s.carry a b).windows = s.windows := rfl
@[simp] theorem State.carry_reft (s : State) (a b : Nat) : (s.carry a b).reft = s.reft := rfl
@[simp] theorem State.carry_answer (s : State) (a b : Nat) : (s.carry a b).answer = s.answer := rfl
@[simp] theorem State.carry_poison (s : State) (a b : Nat) : (s.carry a b).poison = s.poison := rfl
@[simp] theorem State.carry_epochAt (s : State) (a b : Nat) : (s.carry a b).epochAt = s.epochAt := rfl
@[simp] theorem State.carry_met (s : State) (a b : Nat) : (s.carry a b).met = s.met := rfl
@[simp] theorem State.carry_stepAt (s : State) (a b : Nat) : (s.carry a b).stepAt = s.stepAt := rfl
@[simp] theorem State.carry_sched (s : State) (a b : Nat) : (s.carry a b).sched = s.sched := rfl
@[simp] theorem State.carry_prompt (s : State) (a b : Nat) : (s.carry a b).prompt = s.prompt := rfl
@[simp] theorem State.carry_cur (s : State) (a b : Nat) : (s.carry a b).cur = s.cur := rfl
@[simp] theorem State.carry_nextId (s : State) (a b : Nat) : (s.carry a b).nextId = s.nextId := rfl
@[simp] theorem State.carry_free (s : State) (a b : Nat) : (s.carry a b).free = s.free := rfl

/-! ### goto -/

@[simp] theorem State.goto_powered (s : State) (n : Nat) (pc : Word) : (s.goto n pc).powered = s.powered := rfl
@[simp] theorem State.goto_cores (s : State) (n : Nat) (pc : Word) : (s.goto n pc).cores = s.cores := rfl
@[simp] theorem State.goto_tiles (s : State) (n : Nat) (pc : Word) : (s.goto n pc).tiles = s.tiles := rfl
@[simp] theorem State.goto_dies (s : State) (n : Nat) (pc : Word) : (s.goto n pc).dies = s.dies := rfl
@[simp] theorem State.goto_mem (s : State) (n : Nat) (pc : Word) : (s.goto n pc).mem = s.mem := rfl
@[simp] theorem State.goto_loc (s : State) (n : Nat) (pc : Word) : (s.goto n pc).loc = s.loc := rfl
@[simp] theorem State.goto_roll (s : State) (n : Nat) (pc : Word) : (s.goto n pc).roll = s.roll := rfl
@[simp] theorem State.goto_losing (s : State) (n : Nat) (pc : Word) : (s.goto n pc).losing = s.losing := rfl
@[simp] theorem State.goto_span2m (s : State) (n : Nat) (pc : Word) : (s.goto n pc).span2m = s.span2m := rfl
@[simp] theorem State.goto_span1g (s : State) (n : Nat) (pc : Word) : (s.goto n pc).span1g = s.span1g := rfl
@[simp] theorem State.goto_dir (s : State) (n : Nat) (pc : Word) : (s.goto n pc).dir = s.dir := rfl
@[simp] theorem State.goto_posts (s : State) (n : Nat) (pc : Word) : (s.goto n pc).posts = s.posts := rfl
@[simp] theorem State.goto_ctxs (s : State) (n : Nat) (pc : Word) : (s.goto n pc).ctxs = s.ctxs := rfl
@[simp] theorem State.goto_launches (s : State) (n : Nat) (pc : Word) : (s.goto n pc).launches = s.launches := rfl
@[simp] theorem State.goto_regs (s : State) (n : Nat) (pc : Word) : (s.goto n pc).regs = s.regs := rfl
@[simp] theorem State.goto_altHomes (s : State) (n : Nat) (pc : Word) : (s.goto n pc).altHomes = s.altHomes := rfl
@[simp] theorem State.goto_msgs (s : State) (n : Nat) (pc : Word) : (s.goto n pc).msgs = s.msgs := rfl
@[simp] theorem State.goto_txns (s : State) (n : Nat) (pc : Word) : (s.goto n pc).txns = s.txns := rfl
@[simp] theorem State.goto_l2 (s : State) (n : Nat) (pc : Word) : (s.goto n pc).l2 = s.l2 := rfl
@[simp] theorem State.goto_flaws (s : State) (n : Nat) (pc : Word) : (s.goto n pc).flaws = s.flaws := rfl
@[simp] theorem State.goto_agentOps (s : State) (n : Nat) (pc : Word) : (s.goto n pc).agentOps = s.agentOps := rfl
@[simp] theorem State.goto_carried (s : State) (n : Nat) (pc : Word) : (s.goto n pc).carried = s.carried := rfl
@[simp] theorem State.goto_windows (s : State) (n : Nat) (pc : Word) : (s.goto n pc).windows = s.windows := rfl
@[simp] theorem State.goto_reft (s : State) (n : Nat) (pc : Word) : (s.goto n pc).reft = s.reft := rfl
@[simp] theorem State.goto_answer (s : State) (n : Nat) (pc : Word) : (s.goto n pc).answer = s.answer := rfl
@[simp] theorem State.goto_poison (s : State) (n : Nat) (pc : Word) : (s.goto n pc).poison = s.poison := rfl
@[simp] theorem State.goto_epochAt (s : State) (n : Nat) (pc : Word) : (s.goto n pc).epochAt = s.epochAt := rfl
@[simp] theorem State.goto_met (s : State) (n : Nat) (pc : Word) : (s.goto n pc).met = s.met := rfl
@[simp] theorem State.goto_stepAt (s : State) (n : Nat) (pc : Word) : (s.goto n pc).stepAt = s.stepAt := rfl
@[simp] theorem State.goto_sched (s : State) (n : Nat) (pc : Word) : (s.goto n pc).sched = s.sched := rfl
@[simp] theorem State.goto_prompt (s : State) (n : Nat) (pc : Word) : (s.goto n pc).prompt = s.prompt := rfl
@[simp] theorem State.goto_cur (s : State) (n : Nat) (pc : Word) : (s.goto n pc).cur = s.cur := rfl
@[simp] theorem State.goto_nextId (s : State) (n : Nat) (pc : Word) : (s.goto n pc).nextId = s.nextId := rfl
@[simp] theorem State.goto_free (s : State) (n : Nat) (pc : Word) : (s.goto n pc).free = s.free := rfl

/-! ### finish -/

@[simp] theorem State.finish_powered (s : State) (n len : Nat) : (s.finish n len).powered = s.powered := rfl
@[simp] theorem State.finish_cores (s : State) (n len : Nat) : (s.finish n len).cores = s.cores := rfl
@[simp] theorem State.finish_tiles (s : State) (n len : Nat) : (s.finish n len).tiles = s.tiles := rfl
@[simp] theorem State.finish_dies (s : State) (n len : Nat) : (s.finish n len).dies = s.dies := rfl
@[simp] theorem State.finish_mem (s : State) (n len : Nat) : (s.finish n len).mem = s.mem := rfl
@[simp] theorem State.finish_loc (s : State) (n len : Nat) : (s.finish n len).loc = s.loc := rfl
@[simp] theorem State.finish_roll (s : State) (n len : Nat) : (s.finish n len).roll = s.roll := rfl
@[simp] theorem State.finish_losing (s : State) (n len : Nat) : (s.finish n len).losing = s.losing := rfl
@[simp] theorem State.finish_span2m (s : State) (n len : Nat) : (s.finish n len).span2m = s.span2m := rfl
@[simp] theorem State.finish_span1g (s : State) (n len : Nat) : (s.finish n len).span1g = s.span1g := rfl
@[simp] theorem State.finish_dir (s : State) (n len : Nat) : (s.finish n len).dir = s.dir := rfl
@[simp] theorem State.finish_posts (s : State) (n len : Nat) : (s.finish n len).posts = s.posts := rfl
@[simp] theorem State.finish_ctxs (s : State) (n len : Nat) : (s.finish n len).ctxs = s.ctxs := rfl
@[simp] theorem State.finish_launches (s : State) (n len : Nat) : (s.finish n len).launches = s.launches := rfl
@[simp] theorem State.finish_regs (s : State) (n len : Nat) : (s.finish n len).regs = s.regs := rfl
@[simp] theorem State.finish_altHomes (s : State) (n len : Nat) : (s.finish n len).altHomes = s.altHomes := rfl
@[simp] theorem State.finish_msgs (s : State) (n len : Nat) : (s.finish n len).msgs = s.msgs := rfl
@[simp] theorem State.finish_txns (s : State) (n len : Nat) : (s.finish n len).txns = s.txns := rfl
@[simp] theorem State.finish_l2 (s : State) (n len : Nat) : (s.finish n len).l2 = s.l2 := rfl
@[simp] theorem State.finish_flaws (s : State) (n len : Nat) : (s.finish n len).flaws = s.flaws := rfl
@[simp] theorem State.finish_agentOps (s : State) (n len : Nat) : (s.finish n len).agentOps = s.agentOps := rfl
@[simp] theorem State.finish_carried (s : State) (n len : Nat) : (s.finish n len).carried = s.carried := rfl
@[simp] theorem State.finish_windows (s : State) (n len : Nat) : (s.finish n len).windows = s.windows := rfl
@[simp] theorem State.finish_reft (s : State) (n len : Nat) : (s.finish n len).reft = s.reft := rfl
@[simp] theorem State.finish_answer (s : State) (n len : Nat) : (s.finish n len).answer = s.answer := rfl
@[simp] theorem State.finish_poison (s : State) (n len : Nat) : (s.finish n len).poison = s.poison := rfl
@[simp] theorem State.finish_epochAt (s : State) (n len : Nat) : (s.finish n len).epochAt = s.epochAt := rfl
@[simp] theorem State.finish_met (s : State) (n len : Nat) : (s.finish n len).met = s.met := rfl
@[simp] theorem State.finish_stepAt (s : State) (n len : Nat) : (s.finish n len).stepAt = s.stepAt := rfl
@[simp] theorem State.finish_sched (s : State) (n len : Nat) : (s.finish n len).sched = s.sched := rfl
@[simp] theorem State.finish_prompt (s : State) (n len : Nat) : (s.finish n len).prompt = s.prompt := rfl
@[simp] theorem State.finish_cur (s : State) (n len : Nat) : (s.finish n len).cur = s.cur := rfl
@[simp] theorem State.finish_nextId (s : State) (n len : Nat) : (s.finish n len).nextId = s.nextId := rfl
@[simp] theorem State.finish_free (s : State) (n len : Nat) : (s.finish n len).free = s.free := rfl

/-! ### park -/

@[simp] theorem State.park_powered (s : State) (n : Nat) (r : Run) (w : Wait) : (s.park n r w).powered = s.powered := rfl
@[simp] theorem State.park_cores (s : State) (n : Nat) (r : Run) (w : Wait) : (s.park n r w).cores = s.cores := rfl
@[simp] theorem State.park_tiles (s : State) (n : Nat) (r : Run) (w : Wait) : (s.park n r w).tiles = s.tiles := rfl
@[simp] theorem State.park_dies (s : State) (n : Nat) (r : Run) (w : Wait) : (s.park n r w).dies = s.dies := rfl
@[simp] theorem State.park_mem (s : State) (n : Nat) (r : Run) (w : Wait) : (s.park n r w).mem = s.mem := rfl
@[simp] theorem State.park_loc (s : State) (n : Nat) (r : Run) (w : Wait) : (s.park n r w).loc = s.loc := rfl
@[simp] theorem State.park_roll (s : State) (n : Nat) (r : Run) (w : Wait) : (s.park n r w).roll = s.roll := rfl
@[simp] theorem State.park_losing (s : State) (n : Nat) (r : Run) (w : Wait) : (s.park n r w).losing = s.losing := rfl
@[simp] theorem State.park_span2m (s : State) (n : Nat) (r : Run) (w : Wait) : (s.park n r w).span2m = s.span2m := rfl
@[simp] theorem State.park_span1g (s : State) (n : Nat) (r : Run) (w : Wait) : (s.park n r w).span1g = s.span1g := rfl
@[simp] theorem State.park_dir (s : State) (n : Nat) (r : Run) (w : Wait) : (s.park n r w).dir = s.dir := rfl
@[simp] theorem State.park_posts (s : State) (n : Nat) (r : Run) (w : Wait) : (s.park n r w).posts = s.posts := rfl
@[simp] theorem State.park_ctxs (s : State) (n : Nat) (r : Run) (w : Wait) : (s.park n r w).ctxs = s.ctxs := rfl
@[simp] theorem State.park_launches (s : State) (n : Nat) (r : Run) (w : Wait) : (s.park n r w).launches = s.launches := rfl
@[simp] theorem State.park_regs (s : State) (n : Nat) (r : Run) (w : Wait) : (s.park n r w).regs = s.regs := rfl
@[simp] theorem State.park_altHomes (s : State) (n : Nat) (r : Run) (w : Wait) : (s.park n r w).altHomes = s.altHomes := rfl
@[simp] theorem State.park_msgs (s : State) (n : Nat) (r : Run) (w : Wait) : (s.park n r w).msgs = s.msgs := rfl
@[simp] theorem State.park_txns (s : State) (n : Nat) (r : Run) (w : Wait) : (s.park n r w).txns = s.txns := rfl
@[simp] theorem State.park_l2 (s : State) (n : Nat) (r : Run) (w : Wait) : (s.park n r w).l2 = s.l2 := rfl
@[simp] theorem State.park_flaws (s : State) (n : Nat) (r : Run) (w : Wait) : (s.park n r w).flaws = s.flaws := rfl
@[simp] theorem State.park_agentOps (s : State) (n : Nat) (r : Run) (w : Wait) : (s.park n r w).agentOps = s.agentOps := rfl
@[simp] theorem State.park_carried (s : State) (n : Nat) (r : Run) (w : Wait) : (s.park n r w).carried = s.carried := rfl
@[simp] theorem State.park_windows (s : State) (n : Nat) (r : Run) (w : Wait) : (s.park n r w).windows = s.windows := rfl
@[simp] theorem State.park_reft (s : State) (n : Nat) (r : Run) (w : Wait) : (s.park n r w).reft = s.reft := rfl
@[simp] theorem State.park_answer (s : State) (n : Nat) (r : Run) (w : Wait) : (s.park n r w).answer = s.answer := rfl
@[simp] theorem State.park_poison (s : State) (n : Nat) (r : Run) (w : Wait) : (s.park n r w).poison = s.poison := rfl
@[simp] theorem State.park_epochAt (s : State) (n : Nat) (r : Run) (w : Wait) : (s.park n r w).epochAt = s.epochAt := rfl
@[simp] theorem State.park_met (s : State) (n : Nat) (r : Run) (w : Wait) : (s.park n r w).met = s.met := rfl
@[simp] theorem State.park_stepAt (s : State) (n : Nat) (r : Run) (w : Wait) : (s.park n r w).stepAt = s.stepAt := rfl
@[simp] theorem State.park_sched (s : State) (n : Nat) (r : Run) (w : Wait) : (s.park n r w).sched = s.sched := rfl
@[simp] theorem State.park_prompt (s : State) (n : Nat) (r : Run) (w : Wait) : (s.park n r w).prompt = s.prompt := rfl
@[simp] theorem State.park_cur (s : State) (n : Nat) (r : Run) (w : Wait) : (s.park n r w).cur = s.cur := rfl
@[simp] theorem State.park_nextId (s : State) (n : Nat) (r : Run) (w : Wait) : (s.park n r w).nextId = s.nextId := rfl
@[simp] theorem State.park_free (s : State) (n : Nat) (r : Run) (w : Wait) : (s.park n r w).free = s.free := rfl

/-! ### again -/

@[simp] theorem State.again_powered (s : State) (n : Nat) : (s.again n).powered = s.powered := rfl
@[simp] theorem State.again_cores (s : State) (n : Nat) : (s.again n).cores = s.cores := rfl
@[simp] theorem State.again_tiles (s : State) (n : Nat) : (s.again n).tiles = s.tiles := rfl
@[simp] theorem State.again_dies (s : State) (n : Nat) : (s.again n).dies = s.dies := rfl
@[simp] theorem State.again_mem (s : State) (n : Nat) : (s.again n).mem = s.mem := rfl
@[simp] theorem State.again_loc (s : State) (n : Nat) : (s.again n).loc = s.loc := rfl
@[simp] theorem State.again_roll (s : State) (n : Nat) : (s.again n).roll = s.roll := rfl
@[simp] theorem State.again_losing (s : State) (n : Nat) : (s.again n).losing = s.losing := rfl
@[simp] theorem State.again_span2m (s : State) (n : Nat) : (s.again n).span2m = s.span2m := rfl
@[simp] theorem State.again_span1g (s : State) (n : Nat) : (s.again n).span1g = s.span1g := rfl
@[simp] theorem State.again_dir (s : State) (n : Nat) : (s.again n).dir = s.dir := rfl
@[simp] theorem State.again_posts (s : State) (n : Nat) : (s.again n).posts = s.posts := rfl
@[simp] theorem State.again_ctxs (s : State) (n : Nat) : (s.again n).ctxs = s.ctxs := rfl
@[simp] theorem State.again_launches (s : State) (n : Nat) : (s.again n).launches = s.launches := rfl
@[simp] theorem State.again_regs (s : State) (n : Nat) : (s.again n).regs = s.regs := rfl
@[simp] theorem State.again_altHomes (s : State) (n : Nat) : (s.again n).altHomes = s.altHomes := rfl
@[simp] theorem State.again_msgs (s : State) (n : Nat) : (s.again n).msgs = s.msgs := rfl
@[simp] theorem State.again_txns (s : State) (n : Nat) : (s.again n).txns = s.txns := rfl
@[simp] theorem State.again_l2 (s : State) (n : Nat) : (s.again n).l2 = s.l2 := rfl
@[simp] theorem State.again_flaws (s : State) (n : Nat) : (s.again n).flaws = s.flaws := rfl
@[simp] theorem State.again_agentOps (s : State) (n : Nat) : (s.again n).agentOps = s.agentOps := rfl
@[simp] theorem State.again_carried (s : State) (n : Nat) : (s.again n).carried = s.carried := rfl
@[simp] theorem State.again_windows (s : State) (n : Nat) : (s.again n).windows = s.windows := rfl
@[simp] theorem State.again_reft (s : State) (n : Nat) : (s.again n).reft = s.reft := rfl
@[simp] theorem State.again_answer (s : State) (n : Nat) : (s.again n).answer = s.answer := rfl
@[simp] theorem State.again_poison (s : State) (n : Nat) : (s.again n).poison = s.poison := rfl
@[simp] theorem State.again_epochAt (s : State) (n : Nat) : (s.again n).epochAt = s.epochAt := rfl
@[simp] theorem State.again_met (s : State) (n : Nat) : (s.again n).met = s.met := rfl
@[simp] theorem State.again_stepAt (s : State) (n : Nat) : (s.again n).stepAt = s.stepAt := rfl
@[simp] theorem State.again_sched (s : State) (n : Nat) : (s.again n).sched = s.sched := rfl
@[simp] theorem State.again_prompt (s : State) (n : Nat) : (s.again n).prompt = s.prompt := rfl
@[simp] theorem State.again_cur (s : State) (n : Nat) : (s.again n).cur = s.cur := rfl
@[simp] theorem State.again_nextId (s : State) (n : Nat) : (s.again n).nextId = s.nextId := rfl
@[simp] theorem State.again_free (s : State) (n : Nat) : (s.again n).free = s.free := rfl

/-! ### answers -/

@[simp] theorem State.answers_powered (s : State) (v : Option Line) : (s.answers v).powered = s.powered := rfl
@[simp] theorem State.answers_threads (s : State) (v : Option Line) : (s.answers v).threads = s.threads := rfl
@[simp] theorem State.answers_cores (s : State) (v : Option Line) : (s.answers v).cores = s.cores := rfl
@[simp] theorem State.answers_tiles (s : State) (v : Option Line) : (s.answers v).tiles = s.tiles := rfl
@[simp] theorem State.answers_dies (s : State) (v : Option Line) : (s.answers v).dies = s.dies := rfl
@[simp] theorem State.answers_mem (s : State) (v : Option Line) : (s.answers v).mem = s.mem := rfl
@[simp] theorem State.answers_loc (s : State) (v : Option Line) : (s.answers v).loc = s.loc := rfl
@[simp] theorem State.answers_roll (s : State) (v : Option Line) : (s.answers v).roll = s.roll := rfl
@[simp] theorem State.answers_losing (s : State) (v : Option Line) : (s.answers v).losing = s.losing := rfl
@[simp] theorem State.answers_span2m (s : State) (v : Option Line) : (s.answers v).span2m = s.span2m := rfl
@[simp] theorem State.answers_span1g (s : State) (v : Option Line) : (s.answers v).span1g = s.span1g := rfl
@[simp] theorem State.answers_dir (s : State) (v : Option Line) : (s.answers v).dir = s.dir := rfl
@[simp] theorem State.answers_posts (s : State) (v : Option Line) : (s.answers v).posts = s.posts := rfl
@[simp] theorem State.answers_ctxs (s : State) (v : Option Line) : (s.answers v).ctxs = s.ctxs := rfl
@[simp] theorem State.answers_launches (s : State) (v : Option Line) : (s.answers v).launches = s.launches := rfl
@[simp] theorem State.answers_regs (s : State) (v : Option Line) : (s.answers v).regs = s.regs := rfl
@[simp] theorem State.answers_altHomes (s : State) (v : Option Line) : (s.answers v).altHomes = s.altHomes := rfl
@[simp] theorem State.answers_msgs (s : State) (v : Option Line) : (s.answers v).msgs = s.msgs := rfl
@[simp] theorem State.answers_txns (s : State) (v : Option Line) : (s.answers v).txns = s.txns := rfl
@[simp] theorem State.answers_l2 (s : State) (v : Option Line) : (s.answers v).l2 = s.l2 := rfl
@[simp] theorem State.answers_flaws (s : State) (v : Option Line) : (s.answers v).flaws = s.flaws := rfl
@[simp] theorem State.answers_agentOps (s : State) (v : Option Line) : (s.answers v).agentOps = s.agentOps := rfl
@[simp] theorem State.answers_carried (s : State) (v : Option Line) : (s.answers v).carried = s.carried := rfl
@[simp] theorem State.answers_windows (s : State) (v : Option Line) : (s.answers v).windows = s.windows := rfl
@[simp] theorem State.answers_reft (s : State) (v : Option Line) : (s.answers v).reft = s.reft := rfl
@[simp] theorem State.answers_epochAt (s : State) (v : Option Line) : (s.answers v).epochAt = s.epochAt := rfl
@[simp] theorem State.answers_met (s : State) (v : Option Line) : (s.answers v).met = s.met := rfl
@[simp] theorem State.answers_stepAt (s : State) (v : Option Line) : (s.answers v).stepAt = s.stepAt := rfl
@[simp] theorem State.answers_sched (s : State) (v : Option Line) : (s.answers v).sched = s.sched := rfl
@[simp] theorem State.answers_prompt (s : State) (v : Option Line) : (s.answers v).prompt = s.prompt := rfl
@[simp] theorem State.answers_cur (s : State) (v : Option Line) : (s.answers v).cur = s.cur := rfl
@[simp] theorem State.answers_nextId (s : State) (v : Option Line) : (s.answers v).nextId = s.nextId := rfl
@[simp] theorem State.answers_free (s : State) (v : Option Line) : (s.answers v).free = s.free := rfl

/-! ### poisons -/

@[simp] theorem State.poisons_powered (s : State) : s.poisons.powered = s.powered := rfl
@[simp] theorem State.poisons_threads (s : State) : s.poisons.threads = s.threads := rfl
@[simp] theorem State.poisons_cores (s : State) : s.poisons.cores = s.cores := rfl
@[simp] theorem State.poisons_tiles (s : State) : s.poisons.tiles = s.tiles := rfl
@[simp] theorem State.poisons_dies (s : State) : s.poisons.dies = s.dies := rfl
@[simp] theorem State.poisons_mem (s : State) : s.poisons.mem = s.mem := rfl
@[simp] theorem State.poisons_loc (s : State) : s.poisons.loc = s.loc := rfl
@[simp] theorem State.poisons_roll (s : State) : s.poisons.roll = s.roll := rfl
@[simp] theorem State.poisons_losing (s : State) : s.poisons.losing = s.losing := rfl
@[simp] theorem State.poisons_span2m (s : State) : s.poisons.span2m = s.span2m := rfl
@[simp] theorem State.poisons_span1g (s : State) : s.poisons.span1g = s.span1g := rfl
@[simp] theorem State.poisons_dir (s : State) : s.poisons.dir = s.dir := rfl
@[simp] theorem State.poisons_posts (s : State) : s.poisons.posts = s.posts := rfl
@[simp] theorem State.poisons_ctxs (s : State) : s.poisons.ctxs = s.ctxs := rfl
@[simp] theorem State.poisons_launches (s : State) : s.poisons.launches = s.launches := rfl
@[simp] theorem State.poisons_regs (s : State) : s.poisons.regs = s.regs := rfl
@[simp] theorem State.poisons_altHomes (s : State) : s.poisons.altHomes = s.altHomes := rfl
@[simp] theorem State.poisons_msgs (s : State) : s.poisons.msgs = s.msgs := rfl
@[simp] theorem State.poisons_txns (s : State) : s.poisons.txns = s.txns := rfl
@[simp] theorem State.poisons_l2 (s : State) : s.poisons.l2 = s.l2 := rfl
@[simp] theorem State.poisons_flaws (s : State) : s.poisons.flaws = s.flaws := rfl
@[simp] theorem State.poisons_agentOps (s : State) : s.poisons.agentOps = s.agentOps := rfl
@[simp] theorem State.poisons_carried (s : State) : s.poisons.carried = s.carried := rfl
@[simp] theorem State.poisons_windows (s : State) : s.poisons.windows = s.windows := rfl
@[simp] theorem State.poisons_reft (s : State) : s.poisons.reft = s.reft := rfl
@[simp] theorem State.poisons_epochAt (s : State) : s.poisons.epochAt = s.epochAt := rfl
@[simp] theorem State.poisons_met (s : State) : s.poisons.met = s.met := rfl
@[simp] theorem State.poisons_stepAt (s : State) : s.poisons.stepAt = s.stepAt := rfl
@[simp] theorem State.poisons_sched (s : State) : s.poisons.sched = s.sched := rfl
@[simp] theorem State.poisons_prompt (s : State) : s.poisons.prompt = s.prompt := rfl
@[simp] theorem State.poisons_cur (s : State) : s.poisons.cur = s.cur := rfl
@[simp] theorem State.poisons_nextId (s : State) : s.poisons.nextId = s.nextId := rfl
@[simp] theorem State.poisons_free (s : State) : s.poisons.free = s.free := rfl

@[simp] theorem State.answers_answer (s : State) (v : Option Line) : (s.answers v).answer = v := rfl
@[simp] theorem State.answers_poison (s : State) (v : Option Line) : (s.answers v).poison = false := rfl
@[simp] theorem State.poisons_answer (s : State) : s.poisons.answer = none := rfl
@[simp] theorem State.poisons_poison (s : State) : s.poisons.poison = true := rfl

/-! ### clearResv -/

@[simp] theorem State.clearResv_powered (s : State) (n : Nat) : (s.clearResv n).powered = s.powered := rfl
@[simp] theorem State.clearResv_cores (s : State) (n : Nat) : (s.clearResv n).cores = s.cores := rfl
@[simp] theorem State.clearResv_tiles (s : State) (n : Nat) : (s.clearResv n).tiles = s.tiles := rfl
@[simp] theorem State.clearResv_dies (s : State) (n : Nat) : (s.clearResv n).dies = s.dies := rfl
@[simp] theorem State.clearResv_mem (s : State) (n : Nat) : (s.clearResv n).mem = s.mem := rfl
@[simp] theorem State.clearResv_loc (s : State) (n : Nat) : (s.clearResv n).loc = s.loc := rfl
@[simp] theorem State.clearResv_roll (s : State) (n : Nat) : (s.clearResv n).roll = s.roll := rfl
@[simp] theorem State.clearResv_losing (s : State) (n : Nat) : (s.clearResv n).losing = s.losing := rfl
@[simp] theorem State.clearResv_span2m (s : State) (n : Nat) : (s.clearResv n).span2m = s.span2m := rfl
@[simp] theorem State.clearResv_span1g (s : State) (n : Nat) : (s.clearResv n).span1g = s.span1g := rfl
@[simp] theorem State.clearResv_dir (s : State) (n : Nat) : (s.clearResv n).dir = s.dir := rfl
@[simp] theorem State.clearResv_posts (s : State) (n : Nat) : (s.clearResv n).posts = s.posts := rfl
@[simp] theorem State.clearResv_ctxs (s : State) (n : Nat) : (s.clearResv n).ctxs = s.ctxs := rfl
@[simp] theorem State.clearResv_launches (s : State) (n : Nat) : (s.clearResv n).launches = s.launches := rfl
@[simp] theorem State.clearResv_altHomes (s : State) (n : Nat) : (s.clearResv n).altHomes = s.altHomes := rfl
@[simp] theorem State.clearResv_msgs (s : State) (n : Nat) : (s.clearResv n).msgs = s.msgs := rfl
@[simp] theorem State.clearResv_txns (s : State) (n : Nat) : (s.clearResv n).txns = s.txns := rfl
@[simp] theorem State.clearResv_l2 (s : State) (n : Nat) : (s.clearResv n).l2 = s.l2 := rfl
@[simp] theorem State.clearResv_flaws (s : State) (n : Nat) : (s.clearResv n).flaws = s.flaws := rfl
@[simp] theorem State.clearResv_agentOps (s : State) (n : Nat) : (s.clearResv n).agentOps = s.agentOps := rfl
@[simp] theorem State.clearResv_carried (s : State) (n : Nat) : (s.clearResv n).carried = s.carried := rfl
@[simp] theorem State.clearResv_windows (s : State) (n : Nat) : (s.clearResv n).windows = s.windows := rfl
@[simp] theorem State.clearResv_reft (s : State) (n : Nat) : (s.clearResv n).reft = s.reft := rfl
@[simp] theorem State.clearResv_answer (s : State) (n : Nat) : (s.clearResv n).answer = s.answer := rfl
@[simp] theorem State.clearResv_poison (s : State) (n : Nat) : (s.clearResv n).poison = s.poison := rfl
@[simp] theorem State.clearResv_epochAt (s : State) (n : Nat) : (s.clearResv n).epochAt = s.epochAt := rfl
@[simp] theorem State.clearResv_met (s : State) (n : Nat) : (s.clearResv n).met = s.met := rfl
@[simp] theorem State.clearResv_stepAt (s : State) (n : Nat) : (s.clearResv n).stepAt = s.stepAt := rfl
@[simp] theorem State.clearResv_sched (s : State) (n : Nat) : (s.clearResv n).sched = s.sched := rfl
@[simp] theorem State.clearResv_prompt (s : State) (n : Nat) : (s.clearResv n).prompt = s.prompt := rfl
@[simp] theorem State.clearResv_cur (s : State) (n : Nat) : (s.clearResv n).cur = s.cur := rfl
@[simp] theorem State.clearResv_nextId (s : State) (n : Nat) : (s.clearResv n).nextId = s.nextId := rfl
@[simp] theorem State.clearResv_free (s : State) (n : Nat) : (s.clearResv n).free = s.free := rfl

/-! ### Threads, cores, tiles, dies, deeds: read after write -/

@[simp] theorem State.setThr_thr_self (s : State) (n : Nat) (t : Thread) : (s.setThr n t).thr n = t := by
  simp [State.thr, State.setThr]

theorem State.setThr_thr_ne (s : State) {n m : Nat} (t : Thread) (h : m ≠ n) : (s.setThr n t).thr m = s.thr m := by
  simp [State.thr, State.setThr, mget_mset_ne _ _ _ h]

@[simp] theorem State.onThr_thr_self (s : State) (n : Nat) (f : Thread → Thread) : (s.onThr n f).thr n = f (s.thr n) :=
  State.setThr_thr_self s n _

theorem State.onThr_thr_ne (s : State) {n m : Nat} (f : Thread → Thread) (h : m ≠ n) : (s.onThr n f).thr m = s.thr m :=
  State.setThr_thr_ne s _ h

theorem State.onThr_thr (s : State) (n m : Nat) (f : Thread → Thread) :
    (s.onThr n f).thr m = if m = n then f (s.thr n) else s.thr m := by
  by_cases h : m = n
  · subst h; simp
  · simp [State.onThr_thr_ne s f h, h]

@[simp] theorem State.setCore_core_self (s : State) (c : Nat) (x : Core) : (s.setCore c x).core c = x := by
  simp [State.core, State.setCore]

theorem State.setCore_core_ne (s : State) {c e : Nat} (x : Core) (h : e ≠ c) : (s.setCore c x).core e = s.core e := by
  simp [State.core, State.setCore, mget_mset_ne _ _ _ h]

@[simp] theorem State.onCore_core_self (s : State) (c : Nat) (f : Core → Core) : (s.onCore c f).core c = f (s.core c) :=
  State.setCore_core_self s c _

theorem State.onCore_core_ne (s : State) {c e : Nat} (f : Core → Core) (h : e ≠ c) : (s.onCore c f).core e = s.core e :=
  State.setCore_core_ne s _ h

theorem State.onCore_core (s : State) (c e : Nat) (f : Core → Core) :
    (s.onCore c f).core e = if e = c then f (s.core c) else s.core e := by
  by_cases h : e = c
  · subst h; simp
  · simp [State.onCore_core_ne s f h, h]

@[simp] theorem State.onTile_tile_self (s : State) (t : Nat) (f : Tile → Tile) : (s.onTile t f).tile t = f (s.tile t) := by
  simp [State.tile, State.onTile]

theorem State.onTile_tile_ne (s : State) {t u : Nat} (f : Tile → Tile) (h : u ≠ t) : (s.onTile t f).tile u = s.tile u := by
  simp [State.tile, State.onTile, mget_mset_ne _ _ _ h]

@[simp] theorem State.onDie_die_self (s : State) (d : Nat) (f : Die → Die) : (s.onDie d f).die d = f (s.die d) := by
  simp [State.die, State.onDie]

theorem State.onDie_die_ne (s : State) {d e : Nat} (f : Die → Die) (h : e ≠ d) : (s.onDie d f).die e = s.die e := by
  simp [State.die, State.onDie, mget_mset_ne _ _ _ h]

theorem State.onDie_die (s : State) (d e : Nat) (f : Die → Die) :
    (s.onDie d f).die e = if e = d then f (s.die d) else s.die e := by
  by_cases h : e = d
  · subst h; simp
  · simp [State.onDie_die_ne s f h, h]

@[simp] theorem State.setDeed_deed_self (s : State) (a : Nat) (e : Deed) : (s.setDeed a e).deed a = e := by
  simp [State.deed, State.setDeed]

theorem State.setDeed_deed_ne (s : State) {a b : Nat} (e : Deed) (h : b ≠ a) : (s.setDeed a e).deed b = s.deed b := by
  have hb : (s.setDeed a e).bootDeed b = s.bootDeed b := rfl
  simp [State.deed, hb]
  simp [State.setDeed, mget_mset_ne _ _ _ h]

@[simp] theorem State.setDir_dirOf_self (s : State) (l : Nat) (x : Dir) : (s.setDir l x).dirOf l = x := by
  simp [State.dirOf, State.setDir]

theorem State.setDir_dirOf_ne (s : State) {l k : Nat} (x : Dir) (h : k ≠ l) : (s.setDir l x).dirOf k = s.dirOf k := by
  simp [State.dirOf, State.setDir, mget_mset_ne _ _ _ h]

@[simp] theorem State.setCtx_ctx_self (s : State) (k : Nat) (x : Ctx) : (s.setCtx k x).ctx k = x := by
  simp [State.ctx, State.setCtx]

theorem State.setCtx_ctx_ne (s : State) {k j : Nat} (x : Ctx) (h : j ≠ k) : (s.setCtx k x).ctx j = s.ctx j := by
  simp [State.ctx, State.setCtx, mget_mset_ne _ _ _ h]

/-! ### An update of one kind of state leaves what the accessors of the others read -/

@[simp] theorem State.setThr_core (s : State) (n : Nat) (t : Thread) (c : Nat) : (s.setThr n t).core c = s.core c := rfl
@[simp] theorem State.setThr_tile (s : State) (n : Nat) (t : Thread) (u : Nat) : (s.setThr n t).tile u = s.tile u := rfl
@[simp] theorem State.setThr_die (s : State) (n : Nat) (t : Thread) (d : Nat) : (s.setThr n t).die d = s.die d := rfl
@[simp] theorem State.setThr_deed (s : State) (n : Nat) (t : Thread) (a : Nat) : (s.setThr n t).deed a = s.deed a := rfl
@[simp] theorem State.onThr_core (s : State) (n : Nat) (f : Thread → Thread) (c : Nat) : (s.onThr n f).core c = s.core c := rfl
@[simp] theorem State.onThr_tile (s : State) (n : Nat) (f : Thread → Thread) (u : Nat) : (s.onThr n f).tile u = s.tile u := rfl
@[simp] theorem State.onThr_die (s : State) (n : Nat) (f : Thread → Thread) (d : Nat) : (s.onThr n f).die d = s.die d := rfl
@[simp] theorem State.onThr_deed (s : State) (n : Nat) (f : Thread → Thread) (a : Nat) : (s.onThr n f).deed a = s.deed a := rfl
@[simp] theorem State.goto_core (s : State) (n : Nat) (pc : Word) (c : Nat) : (s.goto n pc).core c = s.core c := rfl
@[simp] theorem State.goto_tile (s : State) (n : Nat) (pc : Word) (u : Nat) : (s.goto n pc).tile u = s.tile u := rfl
@[simp] theorem State.goto_die (s : State) (n : Nat) (pc : Word) (d : Nat) : (s.goto n pc).die d = s.die d := rfl
@[simp] theorem State.finish_core (s : State) (n len : Nat) (c : Nat) : (s.finish n len).core c = s.core c := rfl
@[simp] theorem State.finish_tile (s : State) (n len : Nat) (u : Nat) : (s.finish n len).tile u = s.tile u := rfl
@[simp] theorem State.finish_die (s : State) (n len : Nat) (d : Nat) : (s.finish n len).die d = s.die d := rfl
@[simp] theorem State.onCore_thr (s : State) (c : Nat) (f : Core → Core) (n : Nat) : (s.onCore c f).thr n = s.thr n := rfl
@[simp] theorem State.onCore_tile (s : State) (c : Nat) (f : Core → Core) (u : Nat) : (s.onCore c f).tile u = s.tile u := rfl
@[simp] theorem State.onCore_die (s : State) (c : Nat) (f : Core → Core) (d : Nat) : (s.onCore c f).die d = s.die d := rfl
@[simp] theorem State.onCore_deed (s : State) (c : Nat) (f : Core → Core) (a : Nat) : (s.onCore c f).deed a = s.deed a := rfl
@[simp] theorem State.setCore_thr (s : State) (c : Nat) (x : Core) (n : Nat) : (s.setCore c x).thr n = s.thr n := rfl
@[simp] theorem State.setCore_die (s : State) (c : Nat) (x : Core) (d : Nat) : (s.setCore c x).die d = s.die d := rfl
@[simp] theorem State.onTile_thr (s : State) (t : Nat) (f : Tile → Tile) (n : Nat) : (s.onTile t f).thr n = s.thr n := rfl
@[simp] theorem State.onTile_core (s : State) (t : Nat) (f : Tile → Tile) (c : Nat) : (s.onTile t f).core c = s.core c := rfl
@[simp] theorem State.onTile_die (s : State) (t : Nat) (f : Tile → Tile) (d : Nat) : (s.onTile t f).die d = s.die d := rfl
@[simp] theorem State.onDie_thr (s : State) (d : Nat) (f : Die → Die) (n : Nat) : (s.onDie d f).thr n = s.thr n := rfl
@[simp] theorem State.onDie_core (s : State) (d : Nat) (f : Die → Die) (c : Nat) : (s.onDie d f).core c = s.core c := rfl
@[simp] theorem State.onDie_tile (s : State) (d : Nat) (f : Die → Die) (u : Nat) : (s.onDie d f).tile u = s.tile u := rfl
@[simp] theorem State.setDeed_thr (s : State) (a : Nat) (e : Deed) (n : Nat) : (s.setDeed a e).thr n = s.thr n := rfl
@[simp] theorem State.setDeed_core (s : State) (a : Nat) (e : Deed) (c : Nat) : (s.setDeed a e).core c = s.core c := rfl
@[simp] theorem State.setDeed_die (s : State) (a : Nat) (e : Deed) (d : Nat) : (s.setDeed a e).die d = s.die d := rfl
@[simp] theorem State.send_thr (s : State) (src dst : Node) (b : Body) (n : Nat) : (s.send src dst b).thr n = s.thr n := rfl
@[simp] theorem State.send_core (s : State) (src dst : Node) (b : Body) (c : Nat) : (s.send src dst b).core c = s.core c := rfl
@[simp] theorem State.send_die (s : State) (src dst : Node) (b : Body) (d : Nat) : (s.send src dst b).die d = s.die d := rfl
@[simp] theorem State.send_deed (s : State) (src dst : Node) (b : Body) (a : Nat) : (s.send src dst b).deed a = s.deed a := rfl
@[simp] theorem State.drop_thr (s : State) (id n : Nat) : (s.drop id).thr n = s.thr n := rfl
@[simp] theorem State.drop_core (s : State) (id c : Nat) : (s.drop id).core c = s.core c := rfl
@[simp] theorem State.drop_die (s : State) (id d : Nat) : (s.drop id).die d = s.die d := rfl
@[simp] theorem State.drop_deed (s : State) (id a : Nat) : (s.drop id).deed a = s.deed a := rfl

end Sys2Proof.Machine
end

