-- ==== Sys2Proof/Laws/Ops.lean ====
section
/-! SUPPORT. What the shared operations over registers, threads and home slices do, said once: the lemmas that a proof about an
instruction cites instead of unfolding them. -/

namespace Sys2Proof.Machine

/-! ### Going on -/

/-- `goto` moves the thread and changes nothing else. -/
theorem goto_moved (s : State) (n : Nat) (pc : Word) : Moved s (s.goto n pc) n pc :=
  ⟨⟨rfl, fun _ h => State.onThr_thr_ne _ _ h⟩, State.onThr_thr_self _ _ _⟩

/-- `finish` moves the thread past its instruction and changes nothing else. -/
theorem finish_moved (s : State) (n len : Nat) : Moved s (s.finish n len) n ((s.thr n).pc + word len) :=
  goto_moved s n _

/-! ### Writing a destination -/

/-- Writing a register leaves the fields of the thread but its private bank. -/
theorem setReg_thr (s : State) (n : Nat) (d : Reg) (v : Word) (delay : Nat) :
    (s.setReg n d v delay).thr n = { s.thr n with g := ((s.setReg n d v delay).thr n).g } := by
  unfold State.setReg
  split
  · rfl
  · simp

/-- Writing a register leaves every other thread. -/
theorem setReg_thr_ne (s : State) {n m : Nat} (d : Reg) (v : Word) (delay : Nat) (h : m ≠ n) :
    (s.setReg n d v delay).thr m = s.thr m := by
  unfold State.setReg
  split
  · rfl
  · exact State.onThr_thr_ne _ _ h

/-- Writing a register touches threads and cores alone. -/
theorem setReg_fields (s : State) (n : Nat) (d : Reg) (v : Word) (delay : Nat) :
    s.setReg n d v delay = { s with threads := (s.setReg n d v delay).threads, cores := (s.setReg n d v delay).cores } := by
  unfold State.setReg
  split <;> rfl

/-- A write followed by a move is exactly that: the destination holds the value, nothing else has changed. -/
theorem setReg_goto_wrote (s : State) (n : Nat) (d : Reg) (v : Word) (delay : Nat) (pc : Word) :
    Wrote s ((s.setReg n d v delay).goto n pc) n d v delay pc := by
  refine ⟨⟨?_, ?_, ?_⟩, ?_, ?_⟩
  · unfold State.setReg; split <;> rfl
  · intro m h
    rw [State.goto, State.onThr_thr_ne _ _ h, setReg_thr_ne s d v delay h]
  · intro c h
    simp only [State.goto_core]
    unfold State.setReg
    split
    · exact State.onCore_core_ne _ _ h
    · rfl
  · unfold WentOn
    simp only [State.goto, State.onThr_thr_self]
    rw [setReg_thr]
  · unfold Holds
    simp only [State.goto_core]
    by_cases h : isCommons d
    · rw [if_pos h]
      simp [State.setReg, h, State.goto]
    · rw [if_neg h]
      simp [State.setReg, h, State.goto, mget_mset]

/-- `write` writes the destination and goes on; nothing else changes. -/
theorem write_wrote (s : State) (n : Nat) (d : Reg) (v : Word) (delay len : Nat) :
    Wrote s (s.write n d v delay len) n d v delay ((s.thr n).pc + word len) := by
  have h : ((s.setReg n d v delay).thr n).pc = (s.thr n).pc := by rw [setReg_thr]
  rw [← h]
  exact setReg_goto_wrote s n d v delay _

/-- A private destination reads back at once. -/
theorem write_reg_self (s : State) (n : Nat) (d : Reg) (v : Word) (delay len : Nat) (h : isCommons d = false) :
    (s.write n d v delay len).reg n d = v := by
  simp [State.reg, h, State.write, State.finish, State.goto, State.setReg]

/-! ### Checks -/

@[simp] theorem check_none (s : State) (n : Nat) (go : State) : s.check n none go = go := rfl
@[simp] theorem check_some (s : State) (n : Nat) (c : Cause) (v : Word) (go : State) :
    s.check n (some (c, v)) go = s.raise n c v := rfl

theorem check_failIf (s : State) (n : Nat) (p : Bool) (c : Cause) (v : Word) (go : State) :
    s.check n (failIf p c v) go = if p then s.raise n c v else go := by cases p <;> rfl

/-! ### Home slices -/

/-- Sending a list of messages from the line's home touches messages and the counter alone. -/
theorem foldl_send_keeps (line id : Nat) (l : List (Node × (Nat → Body))) (s : State) :
    (l.foldl (fun s m => s.send (s.homeNode (line * 128)) m.1 (m.2 id)) s).mem = s.mem
      ∧ (l.foldl (fun s m => s.send (s.homeNode (line * 128)) m.1 (m.2 id)) s).cores = s.cores
      ∧ (l.foldl (fun s m => s.send (s.homeNode (line * 128)) m.1 (m.2 id)) s).txns = s.txns := by
  induction l generalizing s with
  | nil => exact ⟨rfl, rfl, rfl⟩
  | cons m l ih => exact ih _

/-- A transaction that nothing follows leaves memory and cores, and adds at most one of that kind. -/
theorem transact_nothing (s : State) (line : Nat) (l : List (Node × (Nat → Body))) :
    (s.transact line l .nothing).mem = s.mem ∧ (s.transact line l .nothing).cores = s.cores
      ∧ ∀ t ∈ (s.transact line l .nothing).txns, t ∈ s.txns ∨ t.done = .nothing := by
  unfold State.transact
  split
  · exact ⟨rfl, rfl, fun t h => .inl h⟩
  · obtain ⟨hm, hc, hx⟩ := foldl_send_keeps line s.nextId l
      { s with nextId := s.nextId + 1, txns := s.txns ++ [{ id := s.nextId, line := line, left := l.length, done := .nothing }] }
    refine ⟨hm, hc, fun t h => ?_⟩
    dsimp only at h
    rw [hx] at h
    rcases List.mem_append.1 h with h | h
    · exact .inl h
    · right; rw [List.mem_singleton.1 h]

/-- Making room in a directory set leaves memory and cores, and adds at most a transaction that nothing follows (R230). -/
theorem dirRoom_keeps (s : State) (line : Nat) :
    (s.dirRoom line).mem = s.mem ∧ (s.dirRoom line).cores = s.cores
      ∧ ∀ t ∈ (s.dirRoom line).txns, t ∈ s.txns ∨ t.done = .nothing := by
  have same : s.mem = s.mem ∧ s.cores = s.cores ∧ ∀ t ∈ s.txns, t ∈ s.txns ∨ t.done = Done.nothing :=
    ⟨rfl, rfl, fun t h => .inl h⟩
  have ev : ∀ k, (s.evictEntry k).mem = s.mem ∧ (s.evictEntry k).cores = s.cores
      ∧ ∀ t ∈ (s.evictEntry k).txns, t ∈ s.txns ∨ t.done = Done.nothing := fun k => transact_nothing (s.setDir k {}) k _
  unfold State.dirRoom
  dsimp only
  repeat' split
  all_goals first | exact same | exact ev _

/-- A completed thread changes no byte of memory. -/
theorem complete_mem (s : State) (n : Nat) (v : Word) : (s.complete n v).mem = s.mem := by
  unfold State.complete
  dsimp only
  repeat' split
  · rfl
  · unfold State.setReg; split <;> rfl
  · rfl

/-- Waking the held threads changes no byte of memory. -/
theorem unhold_mem (s : State) : s.unhold.mem = s.mem := by
  have f : ∀ (l : List Nat) (t : State), (l.foldl (fun s n => s.complete n 1) t).mem = t.mem := by
    intro l
    induction l with
    | nil => exact fun _ => rfl
    | cons a l ih => exact fun t => (ih _).trans (complete_mem _ _ _)
  exact f _ _

/-- A reply of a transaction that nothing follows changes no byte of memory. -/
theorem replied_keeps (s : State) (txn : Nat) (h : ∀ t ∈ s.txns, t.done = .nothing) : (s.replied txn).mem = s.mem := by
  unfold State.replied
  split
  · rfl
  · rename_i t ht
    split
    · rw [h t (List.mem_of_find?_eq_some ht)]; exact unhold_mem _
    · rfl

/-- Threads that a die link held go on; nothing but threads changes (R18, R337). -/
theorem drained_keeps (s : State) : s.drained = { s with threads := s.drained.threads } := rfl

/-- What meets a busy part changes no byte of memory: it is only tried again. -/
@[simp] theorem meet_mem (s : State) : s.meet.mem = s.mem := rfl

@[simp] theorem meet_cores (s : State) : s.meet.cores = s.cores := rfl

@[simp] theorem meet_threads (s : State) : s.meet.threads = s.threads := rfl

@[simp] theorem carry_mem (s : State) (a b : Nat) : (s.carry a b).mem = s.mem := rfl

/-- Leaving the queue of ALT instructions changes cores alone (R265). -/
theorem dequeue_keeps (s : State) (n : Nat) : s.dequeue n = { s with cores := (s.dequeue n).cores } := by
  unfold State.dequeue
  split <;> rfl

/-- Giving the next ALT instruction of each counter its turn changes no byte of memory (R265). -/
theorem freeAllot_mem (s : State) (c : Nat) : (s.freeAllot c).mem = s.mem := by
  unfold State.freeAllot
  generalize (s.core c).altq = l
  induction l generalizing s with
  | nil => rfl
  | cons q l ih =>
    refine (ih _).trans ?_
    dsimp only
    split
    · split <;> rfl
    · rfl

end Sys2Proof.Machine
end

