-- ==== Sys2Proof/Laws/PerInstr.lean ====
section
/-! SUPPORT. The round trip of every instruction, constructor by constructor: the fields that encode it decode to it. -/

namespace Sys2Proof.Laws

set_option linter.unusedSimpArgs false

/-- Decoding the fields of a well-formed instruction gives it back. -/
def RoundTrip.Statement (i : Instr) : Prop :=
  i.wf = true → ∀ f, encodeFields i = some f → decodeFields f = .ok i

theorem RoundTrip.pad : RoundTrip.Statement .pad :=
  fun _ _ h => nomatch h
theorem RoundTrip.nop : RoundTrip.Statement .nop := by
  intro h f hf
  (cases hf; first | rfl | simp +decide [decodeFields, Fields.system, f8, f12, f16, fFn, Fields.only8, orBad, Fields.z])
theorem RoundTrip.brk (x0 : BitVec 20) : RoundTrip.Statement (.brk x0) := by
  intro h f hf
  (cases hf; first | rfl | simp +decide [decodeFields, Fields.system, f8, f12, f16, fFn, Fields.only8, orBad, Fields.z])
theorem RoundTrip.trap (x0 : BitVec 20) : RoundTrip.Statement (.trap x0) := by
  intro h f hf
  (cases hf; first | rfl | simp +decide [decodeFields, Fields.system, f8, f12, f16, fFn, Fields.only8, orBad, Fields.z])
theorem RoundTrip.rtt : RoundTrip.Statement .rtt := by
  intro h f hf
  (cases hf; first | rfl | simp +decide [decodeFields, Fields.system, f8, f12, f16, fFn, Fields.only8, orBad, Fields.z])
theorem RoundTrip.srr (x0 : Reg) (x1 : BitVec 12) : RoundTrip.Statement (.srr x0 x1) := by
  intro h f hf
  (cases hf; first | rfl | simp +decide [decodeFields, Fields.system, f8, f12, f16, fFn, Fields.only8, orBad, Fields.z])
theorem RoundTrip.srw (x0 : Reg) (x1 : BitVec 12) : RoundTrip.Statement (.srw x0 x1) := by
  intro h f hf
  (cases hf; first | rfl | simp +decide [decodeFields, Fields.system, f8, f12, f16, fFn, Fields.only8, orBad, Fields.z])
theorem RoundTrip.ctxSave (x0 : Reg) (x1 : BitVec 20) (x2 : Bool) : RoundTrip.Statement (.ctxSave x0 x1 x2) := by
  intro h f hf
  cases x2 <;> (cases hf; first | rfl | simp +decide [decodeFields, Fields.system, f8, f12, f16, fFn, Fields.only8, orBad, Fields.z])
theorem RoundTrip.ctxLoad (x0 : Reg) (x1 : BitVec 20) (x2 : Bool) : RoundTrip.Statement (.ctxLoad x0 x1 x2) := by
  intro h f hf
  cases x2 <;> (cases hf; first | rfl | simp +decide [decodeFields, Fields.system, f8, f12, f16, fFn, Fields.only8, orBad, Fields.z])
theorem RoundTrip.rdcyc (x0 : Reg) : RoundTrip.Statement (.rdcyc x0) := by
  intro h f hf
  (cases hf; first | rfl | simp +decide [decodeFields, Fields.system, f8, f12, f16, fFn, Fields.only8, orBad, Fields.z])
theorem RoundTrip.rdref (x0 : Reg) : RoundTrip.Statement (.rdref x0) := by
  intro h f hf
  (cases hf; first | rfl | simp +decide [decodeFields, Fields.system, f8, f12, f16, fFn, Fields.only8, orBad, Fields.z])
theorem RoundTrip.tmrSet (x0 : Reg) (x1 : Reg) : RoundTrip.Statement (.tmrSet x0 x1) := by
  intro h f hf
  (cases hf; first | rfl | simp +decide [decodeFields, Fields.system, f8, f12, f16, fFn, Fields.only8, orBad, Fields.z])
theorem RoundTrip.deedOffer (x0 : Reg) (x1 : Reg) : RoundTrip.Statement (.deedOffer x0 x1) := by
  intro h f hf
  (cases hf; first | rfl | simp +decide [decodeFields, Fields.deed, f8, f12, f16, fFn, Fields.only8, orBad])
theorem RoundTrip.deedAccept (x0 : Reg) (x1 : Reg) : RoundTrip.Statement (.deedAccept x0 x1) := by
  intro h f hf
  (cases hf; first | rfl | simp +decide [decodeFields, Fields.deed, f8, f12, f16, fFn, Fields.only8, orBad])
theorem RoundTrip.deedLend (x0 : Reg) (x1 : Reg) (x2 : BitVec 3) : RoundTrip.Statement (.deedLend x0 x1 x2) := by
  intro h f hf
  (cases hf; first | rfl | simp +decide [decodeFields, Fields.deed, f8, f12, f16, fFn, Fields.only8, orBad])
theorem RoundTrip.deedRecall (x0 : Reg) (x1 : Reg) : RoundTrip.Statement (.deedRecall x0 x1) := by
  intro h f hf
  (cases hf; first | rfl | simp +decide [decodeFields, Fields.deed, f8, f12, f16, fFn, Fields.only8, orBad])
theorem RoundTrip.deedReturn (x0 : Reg) (x1 : Reg) : RoundTrip.Statement (.deedReturn x0 x1) := by
  intro h f hf
  (cases hf; first | rfl | simp +decide [decodeFields, Fields.deed, f8, f12, f16, fFn, Fields.only8, orBad])
theorem RoundTrip.deedQuery (x0 : Reg) (x1 : Reg) : RoundTrip.Statement (.deedQuery x0 x1) := by
  intro h f hf
  (cases hf; first | rfl | simp +decide [decodeFields, Fields.deed, f8, f12, f16, fFn, Fields.only8, orBad])
theorem RoundTrip.sealHash (x0 : Reg) (x1 : Reg) (x2 : Reg) (x3 : BitVec 2) : RoundTrip.Statement (.sealHash x0 x1 x2 x3) := by
  intro h f hf
  (cases hf; first | rfl | simp +decide [decodeFields, Fields.seal, f8, f12, f16, fFn, Fields.only8, orBad])
theorem RoundTrip.sealDigest (x0 : Reg) (x1 : Reg) (x2 : BitVec 2) : RoundTrip.Statement (.sealDigest x0 x1 x2) := by
  intro h f hf
  (cases hf; first | rfl | simp +decide [decodeFields, Fields.seal, f8, f12, f16, fFn, Fields.only8, orBad])
theorem RoundTrip.sealSign (x0 : Reg) (x1 : Reg) (x2 : Reg) (x3 : BitVec 5) : RoundTrip.Statement (.sealSign x0 x1 x2 x3) := by
  intro h f hf
  (cases hf; first | rfl | simp +decide [decodeFields, Fields.seal, f8, f12, f16, fFn, Fields.only8, orBad])
theorem RoundTrip.sealVerify (x0 : Reg) (x1 : Reg) (x2 : Reg) (x3 : Reg) : RoundTrip.Statement (.sealVerify x0 x1 x2 x3) := by
  intro h f hf
  (cases hf; first | rfl | simp +decide [decodeFields, Fields.seal, f8, f12, f16, fFn, Fields.only8, orBad])
theorem RoundTrip.sealEcdh (x0 : Reg) (x1 : Reg) (x2 : BitVec 5) (x3 : BitVec 5) : RoundTrip.Statement (.sealEcdh x0 x1 x2 x3) := by
  intro h f hf
  (cases hf; first | rfl | simp +decide [decodeFields, Fields.seal, f8, f12, f16, fFn, Fields.only8, orBad])
theorem RoundTrip.sealKeyload (x0 : Reg) (x1 : Reg) (x2 : BitVec 5) : RoundTrip.Statement (.sealKeyload x0 x1 x2) := by
  intro h f hf
  (cases hf; first | rfl | simp +decide [decodeFields, Fields.seal, f8, f12, f16, fFn, Fields.only8, orBad])
theorem RoundTrip.sealRand (x0 : Reg) : RoundTrip.Statement (.sealRand x0) := by
  intro h f hf
  (cases hf; first | rfl | simp +decide [decodeFields, Fields.seal, f8, f12, f16, fFn, Fields.only8, orBad])
theorem RoundTrip.sealExtend (x0 : Reg) (x1 : Reg) (x2 : BitVec 3) : RoundTrip.Statement (.sealExtend x0 x1 x2) := by
  intro h f hf
  (cases hf; first | rfl | simp +decide [decodeFields, Fields.seal, f8, f12, f16, fFn, Fields.only8, orBad])
theorem RoundTrip.sealWipe (x0 : Reg) (x1 : Reg) (x2 : Bool) : RoundTrip.Statement (.sealWipe x0 x1 x2) := by
  intro h f hf
  cases x2 <;> (cases hf; first | rfl | simp +decide [decodeFields, Fields.seal, f8, f12, f16, fFn, Fields.only8, orBad])
theorem RoundTrip.add (x0 : Reg) (x1 : Reg) (x2 : Opnd) (x3 : Bool) : RoundTrip.Statement (.add x0 x1 x2 x3) := by
  intro h f hf
  cases x2 <;> cases x3 <;> (cases hf; first | rfl | simp +decide [decodeFields, Fields.scalar, f8, f12, f16, fFn, Fields.only8, orBad, encAlu, encBranch, encOff, Fields.alu, Fields.set, Fields.opnd, Fields.bitCount, Fields.bitField, Fields.branch, Fields.off])
theorem RoundTrip.sub (x0 : Reg) (x1 : Reg) (x2 : Opnd) (x3 : Bool) : RoundTrip.Statement (.sub x0 x1 x2 x3) := by
  intro h f hf
  cases x2 <;> cases x3 <;> (cases hf; first | rfl | simp +decide [decodeFields, Fields.scalar, f8, f12, f16, fFn, Fields.only8, orBad, encAlu, encBranch, encOff, Fields.alu, Fields.set, Fields.opnd, Fields.bitCount, Fields.bitField, Fields.branch, Fields.off])
theorem RoundTrip.mul (x0 : Reg) (x1 : Reg) (x2 : Opnd) (x3 : Bool) : RoundTrip.Statement (.mul x0 x1 x2 x3) := by
  intro h f hf
  cases x2 <;> cases x3 <;> (cases hf; first | rfl | simp +decide [decodeFields, Fields.scalar, f8, f12, f16, fFn, Fields.only8, orBad, encAlu, encBranch, encOff, Fields.alu, Fields.set, Fields.opnd, Fields.bitCount, Fields.bitField, Fields.branch, Fields.off])
theorem RoundTrip.mulh (x0 : Reg) (x1 : Reg) (x2 : Opnd) (x3 : Bool) : RoundTrip.Statement (.mulh x0 x1 x2 x3) := by
  intro h f hf
  cases x2 <;> cases x3 <;> (cases hf; first | rfl | simp +decide [decodeFields, Fields.scalar, f8, f12, f16, fFn, Fields.only8, orBad, encAlu, encBranch, encOff, Fields.alu, Fields.set, Fields.opnd, Fields.bitCount, Fields.bitField, Fields.branch, Fields.off])
theorem RoundTrip.mulhn (x0 : Reg) (x1 : Reg) (x2 : Opnd) (x3 : Bool) : RoundTrip.Statement (.mulhn x0 x1 x2 x3) := by
  intro h f hf
  cases x2 <;> cases x3 <;> (cases hf; first | rfl | simp +decide [decodeFields, Fields.scalar, f8, f12, f16, fFn, Fields.only8, orBad, encAlu, encBranch, encOff, Fields.alu, Fields.set, Fields.opnd, Fields.bitCount, Fields.bitField, Fields.branch, Fields.off])
theorem RoundTrip.div (x0 : Reg) (x1 : Reg) (x2 : Opnd) (x3 : Bool) : RoundTrip.Statement (.div x0 x1 x2 x3) := by
  intro h f hf
  cases x2 <;> cases x3 <;> (cases hf; first | rfl | simp +decide [decodeFields, Fields.scalar, f8, f12, f16, fFn, Fields.only8, orBad, encAlu, encBranch, encOff, Fields.alu, Fields.set, Fields.opnd, Fields.bitCount, Fields.bitField, Fields.branch, Fields.off])
theorem RoundTrip.divn (x0 : Reg) (x1 : Reg) (x2 : Opnd) (x3 : Bool) : RoundTrip.Statement (.divn x0 x1 x2 x3) := by
  intro h f hf
  cases x2 <;> cases x3 <;> (cases hf; first | rfl | simp +decide [decodeFields, Fields.scalar, f8, f12, f16, fFn, Fields.only8, orBad, encAlu, encBranch, encOff, Fields.alu, Fields.set, Fields.opnd, Fields.bitCount, Fields.bitField, Fields.branch, Fields.off])
theorem RoundTrip.rem (x0 : Reg) (x1 : Reg) (x2 : Opnd) (x3 : Bool) : RoundTrip.Statement (.rem x0 x1 x2 x3) := by
  intro h f hf
  cases x2 <;> cases x3 <;> (cases hf; first | rfl | simp +decide [decodeFields, Fields.scalar, f8, f12, f16, fFn, Fields.only8, orBad, encAlu, encBranch, encOff, Fields.alu, Fields.set, Fields.opnd, Fields.bitCount, Fields.bitField, Fields.branch, Fields.off])
theorem RoundTrip.remn (x0 : Reg) (x1 : Reg) (x2 : Opnd) (x3 : Bool) : RoundTrip.Statement (.remn x0 x1 x2 x3) := by
  intro h f hf
  cases x2 <;> cases x3 <;> (cases hf; first | rfl | simp +decide [decodeFields, Fields.scalar, f8, f12, f16, fFn, Fields.only8, orBad, encAlu, encBranch, encOff, Fields.alu, Fields.set, Fields.opnd, Fields.bitCount, Fields.bitField, Fields.branch, Fields.off])
theorem RoundTrip.and (x0 : Reg) (x1 : Reg) (x2 : Opnd) (x3 : Bool) : RoundTrip.Statement (.and x0 x1 x2 x3) := by
  intro h f hf
  cases x2 <;> cases x3 <;> (cases hf; first | rfl | simp +decide [decodeFields, Fields.scalar, f8, f12, f16, fFn, Fields.only8, orBad, encAlu, encBranch, encOff, Fields.alu, Fields.set, Fields.opnd, Fields.bitCount, Fields.bitField, Fields.branch, Fields.off])
theorem RoundTrip.or (x0 : Reg) (x1 : Reg) (x2 : Opnd) (x3 : Bool) : RoundTrip.Statement (.or x0 x1 x2 x3) := by
  intro h f hf
  cases x2 <;> cases x3 <;> (cases hf; first | rfl | simp +decide [decodeFields, Fields.scalar, f8, f12, f16, fFn, Fields.only8, orBad, encAlu, encBranch, encOff, Fields.alu, Fields.set, Fields.opnd, Fields.bitCount, Fields.bitField, Fields.branch, Fields.off])
theorem RoundTrip.xor (x0 : Reg) (x1 : Reg) (x2 : Opnd) (x3 : Bool) : RoundTrip.Statement (.xor x0 x1 x2 x3) := by
  intro h f hf
  cases x2 <;> cases x3 <;> (cases hf; first | rfl | simp +decide [decodeFields, Fields.scalar, f8, f12, f16, fFn, Fields.only8, orBad, encAlu, encBranch, encOff, Fields.alu, Fields.set, Fields.opnd, Fields.bitCount, Fields.bitField, Fields.branch, Fields.off])
theorem RoundTrip.andn (x0 : Reg) (x1 : Reg) (x2 : Opnd) (x3 : Bool) : RoundTrip.Statement (.andn x0 x1 x2 x3) := by
  intro h f hf
  cases x2 <;> cases x3 <;> (cases hf; first | rfl | simp +decide [decodeFields, Fields.scalar, f8, f12, f16, fFn, Fields.only8, orBad, encAlu, encBranch, encOff, Fields.alu, Fields.set, Fields.opnd, Fields.bitCount, Fields.bitField, Fields.branch, Fields.off])
theorem RoundTrip.shl (x0 : Reg) (x1 : Reg) (x2 : Opnd) (x3 : Bool) : RoundTrip.Statement (.shl x0 x1 x2 x3) := by
  intro h f hf
  cases x2 <;> cases x3 <;> (cases hf; first | rfl | simp +decide [decodeFields, Fields.scalar, f8, f12, f16, fFn, Fields.only8, orBad, encAlu, encBranch, encOff, Fields.alu, Fields.set, Fields.opnd, Fields.bitCount, Fields.bitField, Fields.branch, Fields.off])
theorem RoundTrip.shr (x0 : Reg) (x1 : Reg) (x2 : Opnd) (x3 : Bool) : RoundTrip.Statement (.shr x0 x1 x2 x3) := by
  intro h f hf
  cases x2 <;> cases x3 <;> (cases hf; first | rfl | simp +decide [decodeFields, Fields.scalar, f8, f12, f16, fFn, Fields.only8, orBad, encAlu, encBranch, encOff, Fields.alu, Fields.set, Fields.opnd, Fields.bitCount, Fields.bitField, Fields.branch, Fields.off])
theorem RoundTrip.sha (x0 : Reg) (x1 : Reg) (x2 : Opnd) (x3 : Bool) : RoundTrip.Statement (.sha x0 x1 x2 x3) := by
  intro h f hf
  cases x2 <;> cases x3 <;> (cases hf; first | rfl | simp +decide [decodeFields, Fields.scalar, f8, f12, f16, fFn, Fields.only8, orBad, encAlu, encBranch, encOff, Fields.alu, Fields.set, Fields.opnd, Fields.bitCount, Fields.bitField, Fields.branch, Fields.off])
theorem RoundTrip.rol (x0 : Reg) (x1 : Reg) (x2 : Opnd) (x3 : Bool) : RoundTrip.Statement (.rol x0 x1 x2 x3) := by
  intro h f hf
  cases x2 <;> cases x3 <;> (cases hf; first | rfl | simp +decide [decodeFields, Fields.scalar, f8, f12, f16, fFn, Fields.only8, orBad, encAlu, encBranch, encOff, Fields.alu, Fields.set, Fields.opnd, Fields.bitCount, Fields.bitField, Fields.branch, Fields.off])
theorem RoundTrip.ror (x0 : Reg) (x1 : Reg) (x2 : Opnd) (x3 : Bool) : RoundTrip.Statement (.ror x0 x1 x2 x3) := by
  intro h f hf
  cases x2 <;> cases x3 <;> (cases hf; first | rfl | simp +decide [decodeFields, Fields.scalar, f8, f12, f16, fFn, Fields.only8, orBad, encAlu, encBranch, encOff, Fields.alu, Fields.set, Fields.opnd, Fields.bitCount, Fields.bitField, Fields.branch, Fields.off])
theorem RoundTrip.min (x0 : Reg) (x1 : Reg) (x2 : Opnd) (x3 : Bool) : RoundTrip.Statement (.min x0 x1 x2 x3) := by
  intro h f hf
  cases x2 <;> cases x3 <;> (cases hf; first | rfl | simp +decide [decodeFields, Fields.scalar, f8, f12, f16, fFn, Fields.only8, orBad, encAlu, encBranch, encOff, Fields.alu, Fields.set, Fields.opnd, Fields.bitCount, Fields.bitField, Fields.branch, Fields.off])
theorem RoundTrip.max (x0 : Reg) (x1 : Reg) (x2 : Opnd) (x3 : Bool) : RoundTrip.Statement (.max x0 x1 x2 x3) := by
  intro h f hf
  cases x2 <;> cases x3 <;> (cases hf; first | rfl | simp +decide [decodeFields, Fields.scalar, f8, f12, f16, fFn, Fields.only8, orBad, encAlu, encBranch, encOff, Fields.alu, Fields.set, Fields.opnd, Fields.bitCount, Fields.bitField, Fields.branch, Fields.off])
theorem RoundTrip.minn (x0 : Reg) (x1 : Reg) (x2 : Opnd) (x3 : Bool) : RoundTrip.Statement (.minn x0 x1 x2 x3) := by
  intro h f hf
  cases x2 <;> cases x3 <;> (cases hf; first | rfl | simp +decide [decodeFields, Fields.scalar, f8, f12, f16, fFn, Fields.only8, orBad, encAlu, encBranch, encOff, Fields.alu, Fields.set, Fields.opnd, Fields.bitCount, Fields.bitField, Fields.branch, Fields.off])
theorem RoundTrip.maxn (x0 : Reg) (x1 : Reg) (x2 : Opnd) (x3 : Bool) : RoundTrip.Statement (.maxn x0 x1 x2 x3) := by
  intro h f hf
  cases x2 <;> cases x3 <;> (cases hf; first | rfl | simp +decide [decodeFields, Fields.scalar, f8, f12, f16, fFn, Fields.only8, orBad, encAlu, encBranch, encOff, Fields.alu, Fields.set, Fields.opnd, Fields.bitCount, Fields.bitField, Fields.branch, Fields.off])
theorem RoundTrip.setEq (x0 : Reg) (x1 : Reg) (x2 : Opnd) (x3 : Bool) : RoundTrip.Statement (.setEq x0 x1 x2 x3) := by
  intro h f hf
  cases x2 <;> cases x3 <;> (cases hf; first | rfl | simp +decide [decodeFields, Fields.scalar, f8, f12, f16, fFn, Fields.only8, orBad, encAlu, encBranch, encOff, Fields.alu, Fields.set, Fields.opnd, Fields.bitCount, Fields.bitField, Fields.branch, Fields.off])
theorem RoundTrip.setNe (x0 : Reg) (x1 : Reg) (x2 : Opnd) (x3 : Bool) : RoundTrip.Statement (.setNe x0 x1 x2 x3) := by
  intro h f hf
  cases x2 <;> cases x3 <;> (cases hf; first | rfl | simp +decide [decodeFields, Fields.scalar, f8, f12, f16, fFn, Fields.only8, orBad, encAlu, encBranch, encOff, Fields.alu, Fields.set, Fields.opnd, Fields.bitCount, Fields.bitField, Fields.branch, Fields.off])
theorem RoundTrip.setLt (x0 : Reg) (x1 : Reg) (x2 : Opnd) (x3 : Bool) : RoundTrip.Statement (.setLt x0 x1 x2 x3) := by
  intro h f hf
  cases x2 <;> cases x3 <;> (cases hf; first | rfl | simp +decide [decodeFields, Fields.scalar, f8, f12, f16, fFn, Fields.only8, orBad, encAlu, encBranch, encOff, Fields.alu, Fields.set, Fields.opnd, Fields.bitCount, Fields.bitField, Fields.branch, Fields.off])
theorem RoundTrip.setGe (x0 : Reg) (x1 : Reg) (x2 : Opnd) (x3 : Bool) : RoundTrip.Statement (.setGe x0 x1 x2 x3) := by
  intro h f hf
  cases x2 <;> cases x3 <;> (cases hf; first | rfl | simp +decide [decodeFields, Fields.scalar, f8, f12, f16, fFn, Fields.only8, orBad, encAlu, encBranch, encOff, Fields.alu, Fields.set, Fields.opnd, Fields.bitCount, Fields.bitField, Fields.branch, Fields.off])
theorem RoundTrip.setLtn (x0 : Reg) (x1 : Reg) (x2 : Opnd) (x3 : Bool) : RoundTrip.Statement (.setLtn x0 x1 x2 x3) := by
  intro h f hf
  cases x2 <;> cases x3 <;> (cases hf; first | rfl | simp +decide [decodeFields, Fields.scalar, f8, f12, f16, fFn, Fields.only8, orBad, encAlu, encBranch, encOff, Fields.alu, Fields.set, Fields.opnd, Fields.bitCount, Fields.bitField, Fields.branch, Fields.off])
theorem RoundTrip.setGen (x0 : Reg) (x1 : Reg) (x2 : Opnd) (x3 : Bool) : RoundTrip.Statement (.setGen x0 x1 x2 x3) := by
  intro h f hf
  cases x2 <;> cases x3 <;> (cases hf; first | rfl | simp +decide [decodeFields, Fields.scalar, f8, f12, f16, fFn, Fields.only8, orBad, encAlu, encBranch, encOff, Fields.alu, Fields.set, Fields.opnd, Fields.bitCount, Fields.bitField, Fields.branch, Fields.off])
theorem RoundTrip.clz (x0 : Reg) (x1 : Reg) (x2 : Bool) : RoundTrip.Statement (.clz x0 x1 x2) := by
  intro h f hf
  cases x2 <;> (cases hf; first | rfl | simp +decide [decodeFields, Fields.scalar, f8, f12, f16, fFn, Fields.only8, orBad, encAlu, encBranch, encOff, Fields.alu, Fields.set, Fields.opnd, Fields.bitCount, Fields.bitField, Fields.branch, Fields.off])
theorem RoundTrip.ctz (x0 : Reg) (x1 : Reg) (x2 : Bool) : RoundTrip.Statement (.ctz x0 x1 x2) := by
  intro h f hf
  cases x2 <;> (cases hf; first | rfl | simp +decide [decodeFields, Fields.scalar, f8, f12, f16, fFn, Fields.only8, orBad, encAlu, encBranch, encOff, Fields.alu, Fields.set, Fields.opnd, Fields.bitCount, Fields.bitField, Fields.branch, Fields.off])
theorem RoundTrip.popc (x0 : Reg) (x1 : Reg) (x2 : Bool) : RoundTrip.Statement (.popc x0 x1 x2) := by
  intro h f hf
  cases x2 <;> (cases hf; first | rfl | simp +decide [decodeFields, Fields.scalar, f8, f12, f16, fFn, Fields.only8, orBad, encAlu, encBranch, encOff, Fields.alu, Fields.set, Fields.opnd, Fields.bitCount, Fields.bitField, Fields.branch, Fields.off])
theorem RoundTrip.ext (x0 : Reg) (x1 : Reg) (x2 : BitVec 6) (x3 : BitVec 6) (x4 : Bool) : RoundTrip.Statement (.ext x0 x1 x2 x3 x4) := by
  intro h f hf
  cases x4 <;> (cases hf; simp [Instr.wf] at h; simp +decide [decodeFields, Fields.scalar, f8, f12, f16, fFn, Fields.only8, orBad, encAlu, encBranch, encOff, Fields.alu, Fields.set, Fields.opnd, Fields.bitCount, Fields.bitField, Fields.branch, Fields.off]; omega)
theorem RoundTrip.extn (x0 : Reg) (x1 : Reg) (x2 : BitVec 6) (x3 : BitVec 6) (x4 : Bool) : RoundTrip.Statement (.extn x0 x1 x2 x3 x4) := by
  intro h f hf
  cases x4 <;> (cases hf; simp [Instr.wf] at h; simp +decide [decodeFields, Fields.scalar, f8, f12, f16, fFn, Fields.only8, orBad, encAlu, encBranch, encOff, Fields.alu, Fields.set, Fields.opnd, Fields.bitCount, Fields.bitField, Fields.branch, Fields.off]; omega)
theorem RoundTrip.ins (x0 : Reg) (x1 : Reg) (x2 : BitVec 6) (x3 : BitVec 6) (x4 : Bool) : RoundTrip.Statement (.ins x0 x1 x2 x3 x4) := by
  intro h f hf
  cases x4 <;> (cases hf; simp [Instr.wf] at h; simp +decide [decodeFields, Fields.scalar, f8, f12, f16, fFn, Fields.only8, orBad, encAlu, encBranch, encOff, Fields.alu, Fields.set, Fields.opnd, Fields.bitCount, Fields.bitField, Fields.branch, Fields.off]; omega)
theorem RoundTrip.li (x0 : Reg) (x1 : Imm) : RoundTrip.Statement (.li x0 x1) := by
  intro h f hf
  cases x1 <;> (cases hf; first | rfl | simp +decide [decodeFields, Fields.scalar, f8, f12, f16, fFn, Fields.only8, orBad, encAlu, encBranch, encOff, Fields.alu, Fields.set, Fields.opnd, Fields.bitCount, Fields.bitField, Fields.branch, Fields.off])
theorem RoundTrip.la (x0 : Reg) (x1 : Off) : RoundTrip.Statement (.la x0 x1) := by
  intro h f hf
  cases x1 <;> (cases hf; first | rfl | simp +decide [decodeFields, Fields.scalar, f8, f12, f16, fFn, Fields.only8, orBad, encAlu, encBranch, encOff, Fields.alu, Fields.set, Fields.opnd, Fields.bitCount, Fields.bitField, Fields.branch, Fields.off])
theorem RoundTrip.beq (x0 : Reg) (x1 : Cmp) (x2 : BitVec 20) : RoundTrip.Statement (.beq x0 x1 x2) := by
  intro h f hf
  cases x1 <;> (cases hf; first | rfl | simp +decide [decodeFields, Fields.scalar, f8, f12, f16, fFn, Fields.only8, orBad, encAlu, encBranch, encOff, Fields.alu, Fields.set, Fields.opnd, Fields.bitCount, Fields.bitField, Fields.branch, Fields.off])
theorem RoundTrip.bne (x0 : Reg) (x1 : Cmp) (x2 : BitVec 20) : RoundTrip.Statement (.bne x0 x1 x2) := by
  intro h f hf
  cases x1 <;> (cases hf; first | rfl | simp +decide [decodeFields, Fields.scalar, f8, f12, f16, fFn, Fields.only8, orBad, encAlu, encBranch, encOff, Fields.alu, Fields.set, Fields.opnd, Fields.bitCount, Fields.bitField, Fields.branch, Fields.off])
theorem RoundTrip.blt (x0 : Reg) (x1 : Cmp) (x2 : BitVec 20) : RoundTrip.Statement (.blt x0 x1 x2) := by
  intro h f hf
  cases x1 <;> (cases hf; first | rfl | simp +decide [decodeFields, Fields.scalar, f8, f12, f16, fFn, Fields.only8, orBad, encAlu, encBranch, encOff, Fields.alu, Fields.set, Fields.opnd, Fields.bitCount, Fields.bitField, Fields.branch, Fields.off])
theorem RoundTrip.bge (x0 : Reg) (x1 : Cmp) (x2 : BitVec 20) : RoundTrip.Statement (.bge x0 x1 x2) := by
  intro h f hf
  cases x1 <;> (cases hf; first | rfl | simp +decide [decodeFields, Fields.scalar, f8, f12, f16, fFn, Fields.only8, orBad, encAlu, encBranch, encOff, Fields.alu, Fields.set, Fields.opnd, Fields.bitCount, Fields.bitField, Fields.branch, Fields.off])
theorem RoundTrip.bltn (x0 : Reg) (x1 : Cmp) (x2 : BitVec 20) : RoundTrip.Statement (.bltn x0 x1 x2) := by
  intro h f hf
  cases x1 <;> (cases hf; first | rfl | simp +decide [decodeFields, Fields.scalar, f8, f12, f16, fFn, Fields.only8, orBad, encAlu, encBranch, encOff, Fields.alu, Fields.set, Fields.opnd, Fields.bitCount, Fields.bitField, Fields.branch, Fields.off])
theorem RoundTrip.bgen (x0 : Reg) (x1 : Cmp) (x2 : BitVec 20) : RoundTrip.Statement (.bgen x0 x1 x2) := by
  intro h f hf
  cases x1 <;> (cases hf; first | rfl | simp +decide [decodeFields, Fields.scalar, f8, f12, f16, fFn, Fields.only8, orBad, encAlu, encBranch, encOff, Fields.alu, Fields.set, Fields.opnd, Fields.bitCount, Fields.bitField, Fields.branch, Fields.off])
theorem RoundTrip.bz (x0 : Reg) (x1 : BitVec 20) : RoundTrip.Statement (.bz x0 x1) := by
  intro h f hf
  (cases hf; first | rfl | simp +decide [decodeFields, Fields.scalar, f8, f12, f16, fFn, Fields.only8, orBad, encAlu, encBranch, encOff, Fields.alu, Fields.set, Fields.opnd, Fields.bitCount, Fields.bitField, Fields.branch, Fields.off])
theorem RoundTrip.bnz (x0 : Reg) (x1 : BitVec 20) : RoundTrip.Statement (.bnz x0 x1) := by
  intro h f hf
  (cases hf; first | rfl | simp +decide [decodeFields, Fields.scalar, f8, f12, f16, fFn, Fields.only8, orBad, encAlu, encBranch, encOff, Fields.alu, Fields.set, Fields.opnd, Fields.bitCount, Fields.bitField, Fields.branch, Fields.off])
theorem RoundTrip.j (x0 : Off) : RoundTrip.Statement (.j x0) := by
  intro h f hf
  cases x0 <;> (cases hf; first | rfl | simp +decide [decodeFields, Fields.scalar, f8, f12, f16, fFn, Fields.only8, orBad, encAlu, encBranch, encOff, Fields.alu, Fields.set, Fields.opnd, Fields.bitCount, Fields.bitField, Fields.branch, Fields.off])
theorem RoundTrip.call (x0 : Reg) (x1 : Off) : RoundTrip.Statement (.call x0 x1) := by
  intro h f hf
  cases x1 <;> (cases hf; first | rfl | simp +decide [decodeFields, Fields.scalar, f8, f12, f16, fFn, Fields.only8, orBad, encAlu, encBranch, encOff, Fields.alu, Fields.set, Fields.opnd, Fields.bitCount, Fields.bitField, Fields.branch, Fields.off])
theorem RoundTrip.jr (x0 : Reg) (x1 : BitVec 20) : RoundTrip.Statement (.jr x0 x1) := by
  intro h f hf
  (cases hf; first | rfl | simp +decide [decodeFields, Fields.scalar, f8, f12, f16, fFn, Fields.only8, orBad, encAlu, encBranch, encOff, Fields.alu, Fields.set, Fields.opnd, Fields.bitCount, Fields.bitField, Fields.branch, Fields.off])
theorem RoundTrip.callr (x0 : Reg) (x1 : Reg) (x2 : BitVec 20) : RoundTrip.Statement (.callr x0 x1 x2) := by
  intro h f hf
  (cases hf; first | rfl | simp +decide [decodeFields, Fields.scalar, f8, f12, f16, fFn, Fields.only8, orBad, encAlu, encBranch, encOff, Fields.alu, Fields.set, Fields.opnd, Fields.bitCount, Fields.bitField, Fields.branch, Fields.off])
theorem RoundTrip.ld (x0 : Reg) (x1 : Reg) (x2 : AForm) (x3 : Size) (x4 : Bool) (x5 : LdOrd) : RoundTrip.Statement (.ld x0 x1 x2 x3 x4 x5) := by
  intro h f hf
  cases x2 <;> cases x3 <;> cases x4 <;> cases x5 <;> first | (cases hf; first | rfl | (simp +decide [decodeFields, Fields.mem, f8, f12, f16, fFn, Fields.only8, orBad, encMem, encAmo, encAmox, Fields.memory, Fields.aform, Fields.atomic, Fields.z, StOrd.code, stOrdOf2, LdOrd.code, ldOrdOf2, Scope.code, scopeOf2, Rm.code, rmOf2, MmFmt.code, fmtOf3, Size.code, sizeOf2]; done)) | nomatch h
theorem RoundTrip.st (x0 : Reg) (x1 : AForm) (x2 : Reg) (x3 : Size) (x4 : StOrd) : RoundTrip.Statement (.st x0 x1 x2 x3 x4) := by
  intro h f hf
  cases x1 <;> cases x3 <;> cases x4 <;> (cases hf; first | rfl | simp +decide [decodeFields, Fields.mem, f8, f12, f16, fFn, Fields.only8, orBad, encMem, encAmo, encAmox, Fields.memory, Fields.aform, Fields.atomic, Fields.z, StOrd.code, stOrdOf2, LdOrd.code, ldOrdOf2, Scope.code, scopeOf2, Rm.code, rmOf2, MmFmt.code, fmtOf3, Size.code, sizeOf2])
theorem RoundTrip.push (x0 : Reg) (x1 : AForm) (x2 : Reg) (x3 : Reg) (x4 : Size) : RoundTrip.Statement (.push x0 x1 x2 x3 x4) := by
  intro h f hf
  cases x1 <;> cases x4 <;> (cases hf; first | rfl | simp +decide [decodeFields, Fields.mem, f8, f12, f16, fFn, Fields.only8, orBad, encMem, encAmo, encAmox, Fields.memory, Fields.aform, Fields.atomic, Fields.z, StOrd.code, stOrdOf2, LdOrd.code, ldOrdOf2, Scope.code, scopeOf2, Rm.code, rmOf2, MmFmt.code, fmtOf3, Size.code, sizeOf2])
theorem RoundTrip.pushl (x0 : Reg) (x1 : AForm) (x2 : Reg) : RoundTrip.Statement (.pushl x0 x1 x2) := by
  intro h f hf
  cases x1 <;> (cases hf; first | rfl | simp +decide [decodeFields, Fields.mem, f8, f12, f16, fFn, Fields.only8, orBad, encMem, encAmo, encAmox, Fields.memory, Fields.aform, Fields.atomic, Fields.z, StOrd.code, stOrdOf2, LdOrd.code, ldOrdOf2, Scope.code, scopeOf2, Rm.code, rmOf2, MmFmt.code, fmtOf3, Size.code, sizeOf2])
theorem RoundTrip.ldl (x0 : Reg) (x1 : Reg) (x2 : AForm) (x3 : Size) (x4 : Bool) : RoundTrip.Statement (.ldl x0 x1 x2 x3 x4) := by
  intro h f hf
  cases x2 <;> cases x3 <;> cases x4 <;> first | (cases hf; first | rfl | (simp +decide [decodeFields, Fields.mem, f8, f12, f16, fFn, Fields.only8, orBad, encMem, encAmo, encAmox, Fields.memory, Fields.aform, Fields.atomic, Fields.z, StOrd.code, stOrdOf2, LdOrd.code, ldOrdOf2, Scope.code, scopeOf2, Rm.code, rmOf2, MmFmt.code, fmtOf3, Size.code, sizeOf2]; done)) | nomatch h
theorem RoundTrip.stl (x0 : Reg) (x1 : AForm) (x2 : Reg) (x3 : Size) : RoundTrip.Statement (.stl x0 x1 x2 x3) := by
  intro h f hf
  cases x1 <;> cases x3 <;> (cases hf; first | rfl | simp +decide [decodeFields, Fields.mem, f8, f12, f16, fFn, Fields.only8, orBad, encMem, encAmo, encAmox, Fields.memory, Fields.aform, Fields.atomic, Fields.z, StOrd.code, stOrdOf2, LdOrd.code, ldOrdOf2, Scope.code, scopeOf2, Rm.code, rmOf2, MmFmt.code, fmtOf3, Size.code, sizeOf2])
theorem RoundTrip.ldx (x0 : Reg) (x1 : Reg) (x2 : Reg) (x3 : BitVec 20) (x4 : Size) (x5 : Bool) : RoundTrip.Statement (.ldx x0 x1 x2 x3 x4 x5) := by
  intro h f hf
  cases x4 <;> cases x5 <;> first | (cases hf; first | rfl | (simp +decide [decodeFields, Fields.mem, f8, f12, f16, fFn, Fields.only8, orBad, encMem, encAmo, encAmox, Fields.memory, Fields.aform, Fields.atomic, Fields.z, StOrd.code, stOrdOf2, LdOrd.code, ldOrdOf2, Scope.code, scopeOf2, Rm.code, rmOf2, MmFmt.code, fmtOf3, Size.code, sizeOf2]; done)) | nomatch h
theorem RoundTrip.stx (x0 : Reg) (x1 : Reg) (x2 : Reg) (x3 : BitVec 20) (x4 : Size) : RoundTrip.Statement (.stx x0 x1 x2 x3 x4) := by
  intro h f hf
  cases x4 <;> (cases hf; first | rfl | simp +decide [decodeFields, Fields.mem, f8, f12, f16, fFn, Fields.only8, orBad, encMem, encAmo, encAmox, Fields.memory, Fields.aform, Fields.atomic, Fields.z, StOrd.code, stOrdOf2, LdOrd.code, ldOrdOf2, Scope.code, scopeOf2, Rm.code, rmOf2, MmFmt.code, fmtOf3, Size.code, sizeOf2])
theorem RoundTrip.amoxAdd (x0 : Reg) (x1 : Reg) (x2 : Reg) (x3 : Reg) (x4 : AtOrd) (x5 : Bool) : RoundTrip.Statement (.amoxAdd x0 x1 x2 x3 x4 x5) := by
  intro h f hf
  cases x4 <;> cases x5 <;> (cases hf; first | rfl | simp +decide [decodeFields, Fields.mem, f8, f12, f16, fFn, Fields.only8, orBad, encMem, encAmo, encAmox, Fields.memory, Fields.aform, Fields.atomic, Fields.z, StOrd.code, stOrdOf2, LdOrd.code, ldOrdOf2, Scope.code, scopeOf2, Rm.code, rmOf2, MmFmt.code, fmtOf3, Size.code, sizeOf2])
theorem RoundTrip.amoxAnd (x0 : Reg) (x1 : Reg) (x2 : Reg) (x3 : Reg) (x4 : AtOrd) (x5 : Bool) : RoundTrip.Statement (.amoxAnd x0 x1 x2 x3 x4 x5) := by
  intro h f hf
  cases x4 <;> cases x5 <;> (cases hf; first | rfl | simp +decide [decodeFields, Fields.mem, f8, f12, f16, fFn, Fields.only8, orBad, encMem, encAmo, encAmox, Fields.memory, Fields.aform, Fields.atomic, Fields.z, StOrd.code, stOrdOf2, LdOrd.code, ldOrdOf2, Scope.code, scopeOf2, Rm.code, rmOf2, MmFmt.code, fmtOf3, Size.code, sizeOf2])
theorem RoundTrip.amoxOr (x0 : Reg) (x1 : Reg) (x2 : Reg) (x3 : Reg) (x4 : AtOrd) (x5 : Bool) : RoundTrip.Statement (.amoxOr x0 x1 x2 x3 x4 x5) := by
  intro h f hf
  cases x4 <;> cases x5 <;> (cases hf; first | rfl | simp +decide [decodeFields, Fields.mem, f8, f12, f16, fFn, Fields.only8, orBad, encMem, encAmo, encAmox, Fields.memory, Fields.aform, Fields.atomic, Fields.z, StOrd.code, stOrdOf2, LdOrd.code, ldOrdOf2, Scope.code, scopeOf2, Rm.code, rmOf2, MmFmt.code, fmtOf3, Size.code, sizeOf2])
theorem RoundTrip.amoxXor (x0 : Reg) (x1 : Reg) (x2 : Reg) (x3 : Reg) (x4 : AtOrd) (x5 : Bool) : RoundTrip.Statement (.amoxXor x0 x1 x2 x3 x4 x5) := by
  intro h f hf
  cases x4 <;> cases x5 <;> (cases hf; first | rfl | simp +decide [decodeFields, Fields.mem, f8, f12, f16, fFn, Fields.only8, orBad, encMem, encAmo, encAmox, Fields.memory, Fields.aform, Fields.atomic, Fields.z, StOrd.code, stOrdOf2, LdOrd.code, ldOrdOf2, Scope.code, scopeOf2, Rm.code, rmOf2, MmFmt.code, fmtOf3, Size.code, sizeOf2])
theorem RoundTrip.amoxMin (x0 : Reg) (x1 : Reg) (x2 : Reg) (x3 : Reg) (x4 : AtOrd) (x5 : Bool) : RoundTrip.Statement (.amoxMin x0 x1 x2 x3 x4 x5) := by
  intro h f hf
  cases x4 <;> cases x5 <;> (cases hf; first | rfl | simp +decide [decodeFields, Fields.mem, f8, f12, f16, fFn, Fields.only8, orBad, encMem, encAmo, encAmox, Fields.memory, Fields.aform, Fields.atomic, Fields.z, StOrd.code, stOrdOf2, LdOrd.code, ldOrdOf2, Scope.code, scopeOf2, Rm.code, rmOf2, MmFmt.code, fmtOf3, Size.code, sizeOf2])
theorem RoundTrip.amoxMax (x0 : Reg) (x1 : Reg) (x2 : Reg) (x3 : Reg) (x4 : AtOrd) (x5 : Bool) : RoundTrip.Statement (.amoxMax x0 x1 x2 x3 x4 x5) := by
  intro h f hf
  cases x4 <;> cases x5 <;> (cases hf; first | rfl | simp +decide [decodeFields, Fields.mem, f8, f12, f16, fFn, Fields.only8, orBad, encMem, encAmo, encAmox, Fields.memory, Fields.aform, Fields.atomic, Fields.z, StOrd.code, stOrdOf2, LdOrd.code, ldOrdOf2, Scope.code, scopeOf2, Rm.code, rmOf2, MmFmt.code, fmtOf3, Size.code, sizeOf2])
theorem RoundTrip.amoxMinn (x0 : Reg) (x1 : Reg) (x2 : Reg) (x3 : Reg) (x4 : AtOrd) (x5 : Bool) : RoundTrip.Statement (.amoxMinn x0 x1 x2 x3 x4 x5) := by
  intro h f hf
  cases x4 <;> cases x5 <;> (cases hf; first | rfl | simp +decide [decodeFields, Fields.mem, f8, f12, f16, fFn, Fields.only8, orBad, encMem, encAmo, encAmox, Fields.memory, Fields.aform, Fields.atomic, Fields.z, StOrd.code, stOrdOf2, LdOrd.code, ldOrdOf2, Scope.code, scopeOf2, Rm.code, rmOf2, MmFmt.code, fmtOf3, Size.code, sizeOf2])
theorem RoundTrip.amoxMaxn (x0 : Reg) (x1 : Reg) (x2 : Reg) (x3 : Reg) (x4 : AtOrd) (x5 : Bool) : RoundTrip.Statement (.amoxMaxn x0 x1 x2 x3 x4 x5) := by
  intro h f hf
  cases x4 <;> cases x5 <;> (cases hf; first | rfl | simp +decide [decodeFields, Fields.mem, f8, f12, f16, fFn, Fields.only8, orBad, encMem, encAmo, encAmox, Fields.memory, Fields.aform, Fields.atomic, Fields.z, StOrd.code, stOrdOf2, LdOrd.code, ldOrdOf2, Scope.code, scopeOf2, Rm.code, rmOf2, MmFmt.code, fmtOf3, Size.code, sizeOf2])
theorem RoundTrip.amoxSwap (x0 : Reg) (x1 : Reg) (x2 : Reg) (x3 : Reg) (x4 : AtOrd) (x5 : Bool) : RoundTrip.Statement (.amoxSwap x0 x1 x2 x3 x4 x5) := by
  intro h f hf
  cases x4 <;> cases x5 <;> (cases hf; first | rfl | simp +decide [decodeFields, Fields.mem, f8, f12, f16, fFn, Fields.only8, orBad, encMem, encAmo, encAmox, Fields.memory, Fields.aform, Fields.atomic, Fields.z, StOrd.code, stOrdOf2, LdOrd.code, ldOrdOf2, Scope.code, scopeOf2, Rm.code, rmOf2, MmFmt.code, fmtOf3, Size.code, sizeOf2])
theorem RoundTrip.amoxCas (x0 : Reg) (x1 : Reg) (x2 : Reg) (x3 : Reg) (x4 : Reg) (x5 : AtOrd) (x6 : Bool) : RoundTrip.Statement (.amoxCas x0 x1 x2 x3 x4 x5 x6) := by
  intro h f hf
  cases x5 <;> cases x6 <;> (cases hf; first | rfl | simp +decide [decodeFields, Fields.mem, f8, f12, f16, fFn, Fields.only8, orBad, encMem, encAmo, encAmox, Fields.memory, Fields.aform, Fields.atomic, Fields.z, StOrd.code, stOrdOf2, LdOrd.code, ldOrdOf2, Scope.code, scopeOf2, Rm.code, rmOf2, MmFmt.code, fmtOf3, Size.code, sizeOf2])
theorem RoundTrip.amoxFadd (x0 : Reg) (x1 : Reg) (x2 : Reg) (x3 : Reg) (x4 : AtOrd) : RoundTrip.Statement (.amoxFadd x0 x1 x2 x3 x4) := by
  intro h f hf
  cases x4 <;> (cases hf; first | rfl | simp +decide [decodeFields, Fields.mem, f8, f12, f16, fFn, Fields.only8, orBad, encMem, encAmo, encAmox, Fields.memory, Fields.aform, Fields.atomic, Fields.z, StOrd.code, stOrdOf2, LdOrd.code, ldOrdOf2, Scope.code, scopeOf2, Rm.code, rmOf2, MmFmt.code, fmtOf3, Size.code, sizeOf2])
theorem RoundTrip.amoxFaddBf16 (x0 : Reg) (x1 : Reg) (x2 : Reg) (x3 : Reg) (x4 : AtOrd) : RoundTrip.Statement (.amoxFaddBf16 x0 x1 x2 x3 x4) := by
  intro h f hf
  cases x4 <;> (cases hf; first | rfl | simp +decide [decodeFields, Fields.mem, f8, f12, f16, fFn, Fields.only8, orBad, encMem, encAmo, encAmox, Fields.memory, Fields.aform, Fields.atomic, Fields.z, StOrd.code, stOrdOf2, LdOrd.code, ldOrdOf2, Scope.code, scopeOf2, Rm.code, rmOf2, MmFmt.code, fmtOf3, Size.code, sizeOf2])
theorem RoundTrip.amoAdd (x0 : Reg) (x1 : Reg) (x2 : Reg) (x3 : AtOrd) (x4 : Bool) : RoundTrip.Statement (.amoAdd x0 x1 x2 x3 x4) := by
  intro h f hf
  cases x3 <;> cases x4 <;> (cases hf; first | rfl | simp +decide [decodeFields, Fields.mem, f8, f12, f16, fFn, Fields.only8, orBad, encMem, encAmo, encAmox, Fields.memory, Fields.aform, Fields.atomic, Fields.z, StOrd.code, stOrdOf2, LdOrd.code, ldOrdOf2, Scope.code, scopeOf2, Rm.code, rmOf2, MmFmt.code, fmtOf3, Size.code, sizeOf2])
theorem RoundTrip.amoAnd (x0 : Reg) (x1 : Reg) (x2 : Reg) (x3 : AtOrd) (x4 : Bool) : RoundTrip.Statement (.amoAnd x0 x1 x2 x3 x4) := by
  intro h f hf
  cases x3 <;> cases x4 <;> (cases hf; first | rfl | simp +decide [decodeFields, Fields.mem, f8, f12, f16, fFn, Fields.only8, orBad, encMem, encAmo, encAmox, Fields.memory, Fields.aform, Fields.atomic, Fields.z, StOrd.code, stOrdOf2, LdOrd.code, ldOrdOf2, Scope.code, scopeOf2, Rm.code, rmOf2, MmFmt.code, fmtOf3, Size.code, sizeOf2])
theorem RoundTrip.amoOr (x0 : Reg) (x1 : Reg) (x2 : Reg) (x3 : AtOrd) (x4 : Bool) : RoundTrip.Statement (.amoOr x0 x1 x2 x3 x4) := by
  intro h f hf
  cases x3 <;> cases x4 <;> (cases hf; first | rfl | simp +decide [decodeFields, Fields.mem, f8, f12, f16, fFn, Fields.only8, orBad, encMem, encAmo, encAmox, Fields.memory, Fields.aform, Fields.atomic, Fields.z, StOrd.code, stOrdOf2, LdOrd.code, ldOrdOf2, Scope.code, scopeOf2, Rm.code, rmOf2, MmFmt.code, fmtOf3, Size.code, sizeOf2])
theorem RoundTrip.amoXor (x0 : Reg) (x1 : Reg) (x2 : Reg) (x3 : AtOrd) (x4 : Bool) : RoundTrip.Statement (.amoXor x0 x1 x2 x3 x4) := by
  intro h f hf
  cases x3 <;> cases x4 <;> (cases hf; first | rfl | simp +decide [decodeFields, Fields.mem, f8, f12, f16, fFn, Fields.only8, orBad, encMem, encAmo, encAmox, Fields.memory, Fields.aform, Fields.atomic, Fields.z, StOrd.code, stOrdOf2, LdOrd.code, ldOrdOf2, Scope.code, scopeOf2, Rm.code, rmOf2, MmFmt.code, fmtOf3, Size.code, sizeOf2])
theorem RoundTrip.amoMin (x0 : Reg) (x1 : Reg) (x2 : Reg) (x3 : AtOrd) (x4 : Bool) : RoundTrip.Statement (.amoMin x0 x1 x2 x3 x4) := by
  intro h f hf
  cases x3 <;> cases x4 <;> (cases hf; first | rfl | simp +decide [decodeFields, Fields.mem, f8, f12, f16, fFn, Fields.only8, orBad, encMem, encAmo, encAmox, Fields.memory, Fields.aform, Fields.atomic, Fields.z, StOrd.code, stOrdOf2, LdOrd.code, ldOrdOf2, Scope.code, scopeOf2, Rm.code, rmOf2, MmFmt.code, fmtOf3, Size.code, sizeOf2])
theorem RoundTrip.amoMax (x0 : Reg) (x1 : Reg) (x2 : Reg) (x3 : AtOrd) (x4 : Bool) : RoundTrip.Statement (.amoMax x0 x1 x2 x3 x4) := by
  intro h f hf
  cases x3 <;> cases x4 <;> (cases hf; first | rfl | simp +decide [decodeFields, Fields.mem, f8, f12, f16, fFn, Fields.only8, orBad, encMem, encAmo, encAmox, Fields.memory, Fields.aform, Fields.atomic, Fields.z, StOrd.code, stOrdOf2, LdOrd.code, ldOrdOf2, Scope.code, scopeOf2, Rm.code, rmOf2, MmFmt.code, fmtOf3, Size.code, sizeOf2])
theorem RoundTrip.amoMinn (x0 : Reg) (x1 : Reg) (x2 : Reg) (x3 : AtOrd) (x4 : Bool) : RoundTrip.Statement (.amoMinn x0 x1 x2 x3 x4) := by
  intro h f hf
  cases x3 <;> cases x4 <;> (cases hf; first | rfl | simp +decide [decodeFields, Fields.mem, f8, f12, f16, fFn, Fields.only8, orBad, encMem, encAmo, encAmox, Fields.memory, Fields.aform, Fields.atomic, Fields.z, StOrd.code, stOrdOf2, LdOrd.code, ldOrdOf2, Scope.code, scopeOf2, Rm.code, rmOf2, MmFmt.code, fmtOf3, Size.code, sizeOf2])
theorem RoundTrip.amoMaxn (x0 : Reg) (x1 : Reg) (x2 : Reg) (x3 : AtOrd) (x4 : Bool) : RoundTrip.Statement (.amoMaxn x0 x1 x2 x3 x4) := by
  intro h f hf
  cases x3 <;> cases x4 <;> (cases hf; first | rfl | simp +decide [decodeFields, Fields.mem, f8, f12, f16, fFn, Fields.only8, orBad, encMem, encAmo, encAmox, Fields.memory, Fields.aform, Fields.atomic, Fields.z, StOrd.code, stOrdOf2, LdOrd.code, ldOrdOf2, Scope.code, scopeOf2, Rm.code, rmOf2, MmFmt.code, fmtOf3, Size.code, sizeOf2])
theorem RoundTrip.amoSwap (x0 : Reg) (x1 : Reg) (x2 : Reg) (x3 : AtOrd) (x4 : Bool) : RoundTrip.Statement (.amoSwap x0 x1 x2 x3 x4) := by
  intro h f hf
  cases x3 <;> cases x4 <;> (cases hf; first | rfl | simp +decide [decodeFields, Fields.mem, f8, f12, f16, fFn, Fields.only8, orBad, encMem, encAmo, encAmox, Fields.memory, Fields.aform, Fields.atomic, Fields.z, StOrd.code, stOrdOf2, LdOrd.code, ldOrdOf2, Scope.code, scopeOf2, Rm.code, rmOf2, MmFmt.code, fmtOf3, Size.code, sizeOf2])
theorem RoundTrip.amoCas (x0 : Reg) (x1 : Reg) (x2 : Reg) (x3 : Reg) (x4 : AtOrd) (x5 : Bool) : RoundTrip.Statement (.amoCas x0 x1 x2 x3 x4 x5) := by
  intro h f hf
  cases x4 <;> cases x5 <;> (cases hf; first | rfl | simp +decide [decodeFields, Fields.mem, f8, f12, f16, fFn, Fields.only8, orBad, encMem, encAmo, encAmox, Fields.memory, Fields.aform, Fields.atomic, Fields.z, StOrd.code, stOrdOf2, LdOrd.code, ldOrdOf2, Scope.code, scopeOf2, Rm.code, rmOf2, MmFmt.code, fmtOf3, Size.code, sizeOf2])
theorem RoundTrip.amoFadd (x0 : Reg) (x1 : Reg) (x2 : Reg) (x3 : AtOrd) : RoundTrip.Statement (.amoFadd x0 x1 x2 x3) := by
  intro h f hf
  cases x3 <;> (cases hf; first | rfl | simp +decide [decodeFields, Fields.mem, f8, f12, f16, fFn, Fields.only8, orBad, encMem, encAmo, encAmox, Fields.memory, Fields.aform, Fields.atomic, Fields.z, StOrd.code, stOrdOf2, LdOrd.code, ldOrdOf2, Scope.code, scopeOf2, Rm.code, rmOf2, MmFmt.code, fmtOf3, Size.code, sizeOf2])
theorem RoundTrip.amoFaddBf16 (x0 : Reg) (x1 : Reg) (x2 : Reg) (x3 : AtOrd) : RoundTrip.Statement (.amoFaddBf16 x0 x1 x2 x3) := by
  intro h f hf
  cases x3 <;> (cases hf; first | rfl | simp +decide [decodeFields, Fields.mem, f8, f12, f16, fFn, Fields.only8, orBad, encMem, encAmo, encAmox, Fields.memory, Fields.aform, Fields.atomic, Fields.z, StOrd.code, stOrdOf2, LdOrd.code, ldOrdOf2, Scope.code, scopeOf2, Rm.code, rmOf2, MmFmt.code, fmtOf3, Size.code, sizeOf2])
theorem RoundTrip.lr (x0 : Reg) (x1 : Reg) (x2 : Bool) (x3 : Bool) : RoundTrip.Statement (.lr x0 x1 x2 x3) := by
  intro h f hf
  cases x2 <;> cases x3 <;> (cases hf; first | rfl | simp +decide [decodeFields, Fields.mem, f8, f12, f16, fFn, Fields.only8, orBad, encMem, encAmo, encAmox, Fields.memory, Fields.aform, Fields.atomic, Fields.z, StOrd.code, stOrdOf2, LdOrd.code, ldOrdOf2, Scope.code, scopeOf2, Rm.code, rmOf2, MmFmt.code, fmtOf3, Size.code, sizeOf2])
theorem RoundTrip.sc (x0 : Reg) (x1 : Reg) (x2 : Reg) (x3 : Bool) (x4 : Bool) : RoundTrip.Statement (.sc x0 x1 x2 x3 x4) := by
  intro h f hf
  cases x3 <;> cases x4 <;> (cases hf; first | rfl | simp +decide [decodeFields, Fields.mem, f8, f12, f16, fFn, Fields.only8, orBad, encMem, encAmo, encAmox, Fields.memory, Fields.aform, Fields.atomic, Fields.z, StOrd.code, stOrdOf2, LdOrd.code, ldOrdOf2, Scope.code, scopeOf2, Rm.code, rmOf2, MmFmt.code, fmtOf3, Size.code, sizeOf2])
theorem RoundTrip.waitrs (x0 : Reg) : RoundTrip.Statement (.waitrs x0) := by
  intro h f hf
  (cases hf; first | rfl | simp +decide [decodeFields, Fields.mem, f8, f12, f16, fFn, Fields.only8, orBad, encMem, encAmo, encAmox, Fields.memory, Fields.aform, Fields.atomic, Fields.z, StOrd.code, stOrdOf2, LdOrd.code, ldOrdOf2, Scope.code, scopeOf2, Rm.code, rmOf2, MmFmt.code, fmtOf3, Size.code, sizeOf2])
theorem RoundTrip.fence (x0 : Scope) (x1 : BitVec 6) (x2 : BitVec 6) : RoundTrip.Statement (.fence x0 x1 x2) := by
  intro h f hf
  cases x0 <;> (cases hf; simp [Instr.wf] at h; simp +decide [decodeFields, Fields.mem, f8, f12, f16, fFn, Fields.only8, orBad, encMem, encAmo, encAmox, Fields.memory, Fields.aform, Fields.atomic, Fields.z, StOrd.code, stOrdOf2, LdOrd.code, ldOrdOf2, Scope.code, scopeOf2, Rm.code, rmOf2, MmFmt.code, fmtOf3, Size.code, sizeOf2, h])
theorem RoundTrip.waita (x0 : Reg) (x1 : Reg) (x2 : WaitCmp) (x3 : Bool) : RoundTrip.Statement (.waita x0 x1 x2 x3) := by
  intro h f hf
  cases x2 <;> cases x3 <;> (cases hf; first | rfl | simp +decide [decodeFields, Fields.mem, f8, f12, f16, fFn, Fields.only8, orBad, encMem, encAmo, encAmox, Fields.memory, Fields.aform, Fields.atomic, Fields.z, StOrd.code, stOrdOf2, LdOrd.code, ldOrdOf2, Scope.code, scopeOf2, Rm.code, rmOf2, MmFmt.code, fmtOf3, Size.code, sizeOf2])
theorem RoundTrip.clPref (x0 : Reg) (x1 : Off) (x2 : Bool) : RoundTrip.Statement (.clPref x0 x1 x2) := by
  intro h f hf
  cases x1 <;> cases x2 <;> (cases hf; first | rfl | simp +decide [decodeFields, Fields.resource, f8, f12, f16, fFn, Fields.only8, orBad, encOff, encAlt, Fields.off, Fields.altN, Fields.z])
theorem RoundTrip.clFlush (x0 : Reg) (x1 : Off) : RoundTrip.Statement (.clFlush x0 x1) := by
  intro h f hf
  cases x1 <;> (cases hf; first | rfl | simp +decide [decodeFields, Fields.resource, f8, f12, f16, fFn, Fields.only8, orBad, encOff, encAlt, Fields.off, Fields.altN, Fields.z])
theorem RoundTrip.clInv (x0 : Reg) (x1 : Off) (x2 : Bool) : RoundTrip.Statement (.clInv x0 x1 x2) := by
  intro h f hf
  cases x1 <;> cases x2 <;> (cases hf; first | rfl | simp +decide [decodeFields, Fields.resource, f8, f12, f16, fFn, Fields.only8, orBad, encOff, encAlt, Fields.off, Fields.altN, Fields.z])
theorem RoundTrip.clZero (x0 : Reg) (x1 : Off) : RoundTrip.Statement (.clZero x0 x1) := by
  intro h f hf
  cases x1 <;> (cases hf; first | rfl | simp +decide [decodeFields, Fields.resource, f8, f12, f16, fFn, Fields.only8, orBad, encOff, encAlt, Fields.off, Fields.altN, Fields.z])
theorem RoundTrip.rgnDefine (x0 : Reg) (x1 : Reg) (x2 : Reg) : RoundTrip.Statement (.rgnDefine x0 x1 x2) := by
  intro h f hf
  (cases hf; first | rfl | simp +decide [decodeFields, Fields.resource, f8, f12, f16, fFn, Fields.only8, orBad, encOff, encAlt, Fields.off, Fields.altN, Fields.z])
theorem RoundTrip.rgnToSw (x0 : Reg) (x1 : Reg) (x2 : Reg) : RoundTrip.Statement (.rgnToSw x0 x1 x2) := by
  intro h f hf
  (cases hf; first | rfl | simp +decide [decodeFields, Fields.resource, f8, f12, f16, fFn, Fields.only8, orBad, encOff, encAlt, Fields.off, Fields.altN, Fields.z])
theorem RoundTrip.rgnFlush (x0 : Reg) (x1 : Reg) (x2 : Reg) : RoundTrip.Statement (.rgnFlush x0 x1 x2) := by
  intro h f hf
  (cases hf; first | rfl | simp +decide [decodeFields, Fields.resource, f8, f12, f16, fFn, Fields.only8, orBad, encOff, encAlt, Fields.off, Fields.altN, Fields.z])
theorem RoundTrip.rgnToCoherent (x0 : Reg) (x1 : Reg) (x2 : Reg) : RoundTrip.Statement (.rgnToCoherent x0 x1 x2) := by
  intro h f hf
  (cases hf; first | rfl | simp +decide [decodeFields, Fields.resource, f8, f12, f16, fFn, Fields.only8, orBad, encOff, encAlt, Fields.off, Fields.altN, Fields.z])
theorem RoundTrip.altOpen (x0 : Reg) : RoundTrip.Statement (.altOpen x0) := by
  intro h f hf
  (cases hf; first | rfl | simp +decide [decodeFields, Fields.resource, f8, f12, f16, fFn, Fields.only8, orBad, encOff, encAlt, Fields.off, Fields.altN, Fields.z])
theorem RoundTrip.altTake (x0 : Reg) (x1 : Reg) (x2 : AltN) : RoundTrip.Statement (.altTake x0 x1 x2) := by
  intro h f hf
  cases x2 <;> (cases hf; first | rfl | simp +decide [decodeFields, Fields.resource, f8, f12, f16, fFn, Fields.only8, orBad, encOff, encAlt, Fields.off, Fields.altN, Fields.z])
theorem RoundTrip.altGive (x0 : Reg) (x1 : Reg) (x2 : AltN) : RoundTrip.Statement (.altGive x0 x1 x2) := by
  intro h f hf
  cases x2 <;> (cases hf; first | rfl | simp +decide [decodeFields, Fields.resource, f8, f12, f16, fFn, Fields.only8, orBad, encOff, encAlt, Fields.off, Fields.altN, Fields.z])
theorem RoundTrip.altRead (x0 : Reg) (x1 : Reg) : RoundTrip.Statement (.altRead x0 x1) := by
  intro h f hf
  (cases hf; first | rfl | simp +decide [decodeFields, Fields.resource, f8, f12, f16, fFn, Fields.only8, orBad, encOff, encAlt, Fields.off, Fields.altN, Fields.z])
theorem RoundTrip.altClose (x0 : Reg) (x1 : Reg) : RoundTrip.Statement (.altClose x0 x1) := by
  intro h f hf
  (cases hf; first | rfl | simp +decide [decodeFields, Fields.resource, f8, f12, f16, fFn, Fields.only8, orBad, encOff, encAlt, Fields.off, Fields.altN, Fields.z])
theorem RoundTrip.taskPush (x0 : Reg) (x1 : Reg) (x2 : Reg) : RoundTrip.Statement (.taskPush x0 x1 x2) := by
  intro h f hf
  (cases hf; first | rfl | simp +decide [decodeFields, Fields.resource, f8, f12, f16, fFn, Fields.only8, orBad, encOff, encAlt, Fields.off, Fields.altN, Fields.z])
theorem RoundTrip.sheaf (x0 : Reg) (x1 : Reg) (x2 : Reg) : RoundTrip.Statement (.sheaf x0 x1 x2) := by
  intro h f hf
  (cases hf; first | rfl | simp +decide [decodeFields, Fields.resource, f8, f12, f16, fFn, Fields.only8, orBad, encOff, encAlt, Fields.off, Fields.altN, Fields.z])
theorem RoundTrip.join (x0 : Reg) : RoundTrip.Statement (.join x0) := by
  intro h f hf
  (cases hf; first | rfl | simp +decide [decodeFields, Fields.resource, f8, f12, f16, fFn, Fields.only8, orBad, encOff, encAlt, Fields.off, Fields.altN, Fields.z])
theorem RoundTrip.trig : RoundTrip.Statement .trig := by
  intro h f hf
  (cases hf; first | rfl | simp +decide [decodeFields, Fields.resource, f8, f12, f16, fFn, Fields.only8, orBad, encOff, encAlt, Fields.off, Fields.altN, Fields.z])
theorem RoundTrip.retire : RoundTrip.Statement .retire := by
  intro h f hf
  (cases hf; first | rfl | simp +decide [decodeFields, Fields.resource, f8, f12, f16, fFn, Fields.only8, orBad, encOff, encAlt, Fields.off, Fields.altN, Fields.z])
theorem RoundTrip.yield : RoundTrip.Statement .yield := by
  intro h f hf
  (cases hf; first | rfl | simp +decide [decodeFields, Fields.resource, f8, f12, f16, fFn, Fields.only8, orBad, encOff, encAlt, Fields.off, Fields.altN, Fields.z])
theorem RoundTrip.spawn (x0 : Reg) (x1 : Reg) (x2 : Reg) (x3 : Reg) (x4 : Bool) : RoundTrip.Statement (.spawn x0 x1 x2 x3 x4) := by
  intro h f hf
  cases x4 <;> (cases hf; first | rfl | simp +decide [decodeFields, Fields.resource, f8, f12, f16, fFn, Fields.only8, orBad, encOff, encAlt, Fields.off, Fields.altN, Fields.z])
theorem RoundTrip.send (x0 : Reg) (x1 : Reg) (x2 : Reg) : RoundTrip.Statement (.send x0 x1 x2) := by
  intro h f hf
  (cases hf; first | rfl | simp +decide [decodeFields, Fields.resource, f8, f12, f16, fFn, Fields.only8, orBad, encOff, encAlt, Fields.off, Fields.altN, Fields.z])
theorem RoundTrip.bind (x0 : Reg) (x1 : Reg) (x2 : Reg) : RoundTrip.Statement (.bind x0 x1 x2) := by
  intro h f hf
  (cases hf; first | rfl | simp +decide [decodeFields, Fields.resource, f8, f12, f16, fFn, Fields.only8, orBad, encOff, encAlt, Fields.off, Fields.altN, Fields.z])
theorem RoundTrip.unbind (x0 : Reg) (x1 : Reg) : RoundTrip.Statement (.unbind x0 x1) := by
  intro h f hf
  (cases hf; first | rfl | simp +decide [decodeFields, Fields.resource, f8, f12, f16, fFn, Fields.only8, orBad, encOff, encAlt, Fields.off, Fields.altN, Fields.z])
theorem RoundTrip.wake (x0 : Reg) (x1 : Reg) (x2 : Reg) : RoundTrip.Statement (.wake x0 x1 x2) := by
  intro h f hf
  (cases hf; first | rfl | simp +decide [decodeFields, Fields.resource, f8, f12, f16, fFn, Fields.only8, orBad, encOff, encAlt, Fields.off, Fields.altN, Fields.z])
theorem RoundTrip.sleep (x0 : Reg) : RoundTrip.Statement (.sleep x0) := by
  intro h f hf
  (cases hf; first | rfl | simp +decide [decodeFields, Fields.resource, f8, f12, f16, fFn, Fields.only8, orBad, encOff, encAlt, Fields.off, Fields.altN, Fields.z])
theorem RoundTrip.cpG2l (x0 : CpArgs) : RoundTrip.Statement (.cpG2l x0) := by
  intro h f hf
  obtain ⟨d, a, b, c, sc, sat, rm, fl, cv, srct, dstt, scale, v⟩ := x0
  cases sc <;> cases sat <;> cases rm <;> cases fl <;> cases cv <;> (cases hf; first | rfl | simp +decide [decodeFields, Fields.vector, f8, f12, f16, fFn, Fields.only8, orBad, v1, v2, v3, encShift, vCc, vRed, encCopy, Fields.copy, Fields.v1, Fields.v2, Fields.v3, Fields.vshift, Fields.vred, Fields.z, StOrd.code, stOrdOf2, LdOrd.code, ldOrdOf2, Scope.code, scopeOf2, Rm.code, rmOf2, MmFmt.code, fmtOf3, Size.code, sizeOf2, slot_lt, unit_lt, unit_le])
theorem RoundTrip.cpL2g (x0 : CpArgs) : RoundTrip.Statement (.cpL2g x0) := by
  intro h f hf
  obtain ⟨d, a, b, c, sc, sat, rm, fl, cv, srct, dstt, scale, v⟩ := x0
  cases sc <;> cases sat <;> cases rm <;> cases fl <;> cases cv <;> (cases hf; first | rfl | simp +decide [decodeFields, Fields.vector, f8, f12, f16, fFn, Fields.only8, orBad, v1, v2, v3, encShift, vCc, vRed, encCopy, Fields.copy, Fields.v1, Fields.v2, Fields.v3, Fields.vshift, Fields.vred, Fields.z, StOrd.code, stOrdOf2, LdOrd.code, ldOrdOf2, Scope.code, scopeOf2, Rm.code, rmOf2, MmFmt.code, fmtOf3, Size.code, sizeOf2, slot_lt, unit_lt, unit_le])
theorem RoundTrip.cpL2l (x0 : CpArgs) : RoundTrip.Statement (.cpL2l x0) := by
  intro h f hf
  obtain ⟨d, a, b, c, sc, sat, rm, fl, cv, srct, dstt, scale, v⟩ := x0
  cases sc <;> cases sat <;> cases rm <;> cases fl <;> cases cv <;> (cases hf; first | rfl | simp +decide [decodeFields, Fields.vector, f8, f12, f16, fFn, Fields.only8, orBad, v1, v2, v3, encShift, vCc, vRed, encCopy, Fields.copy, Fields.v1, Fields.v2, Fields.v3, Fields.vshift, Fields.vred, Fields.z, StOrd.code, stOrdOf2, LdOrd.code, ldOrdOf2, Scope.code, scopeOf2, Rm.code, rmOf2, MmFmt.code, fmtOf3, Size.code, sizeOf2, slot_lt, unit_lt, unit_le])
theorem RoundTrip.cpG2g (x0 : CpArgs) : RoundTrip.Statement (.cpG2g x0) := by
  intro h f hf
  obtain ⟨d, a, b, c, sc, sat, rm, fl, cv, srct, dstt, scale, v⟩ := x0
  cases sc <;> cases sat <;> cases rm <;> cases fl <;> cases cv <;> (cases hf; first | rfl | simp +decide [decodeFields, Fields.vector, f8, f12, f16, fFn, Fields.only8, orBad, v1, v2, v3, encShift, vCc, vRed, encCopy, Fields.copy, Fields.v1, Fields.v2, Fields.v3, Fields.vshift, Fields.vred, Fields.z, StOrd.code, stOrdOf2, LdOrd.code, ldOrdOf2, Scope.code, scopeOf2, Rm.code, rmOf2, MmFmt.code, fmtOf3, Size.code, sizeOf2, slot_lt, unit_lt, unit_le])
theorem RoundTrip.cpWait (x0 : Reg) : RoundTrip.Statement (.cpWait x0) := by
  intro h f hf
  (cases hf; first | rfl | simp +decide [decodeFields, Fields.vector, f8, f12, f16, fFn, Fields.only8, orBad, v1, v2, v3, encShift, vCc, vRed, encCopy, Fields.copy, Fields.v1, Fields.v2, Fields.v3, Fields.vshift, Fields.vred, Fields.z, StOrd.code, stOrdOf2, LdOrd.code, ldOrdOf2, Scope.code, scopeOf2, Rm.code, rmOf2, MmFmt.code, fmtOf3, Size.code, sizeOf2, slot_lt, unit_lt, unit_le])
theorem RoundTrip.vSets (x0 : Slot) (x1 : Reg) (x2 : BitVec 20) : RoundTrip.Statement (.vSets x0 x1 x2) := by
  intro h f hf
  (cases hf; first | rfl | simp +decide [decodeFields, Fields.vector, f8, f12, f16, fFn, Fields.only8, orBad, v1, v2, v3, encShift, vCc, vRed, encCopy, Fields.copy, Fields.v1, Fields.v2, Fields.v3, Fields.vshift, Fields.vred, Fields.z, StOrd.code, stOrdOf2, LdOrd.code, ldOrdOf2, Scope.code, scopeOf2, Rm.code, rmOf2, MmFmt.code, fmtOf3, Size.code, sizeOf2, slot_lt, unit_lt, unit_le])
theorem RoundTrip.vSetsBase (x0 : Slot) (x1 : Reg) : RoundTrip.Statement (.vSetsBase x0 x1) := by
  intro h f hf
  (cases hf; first | rfl | simp +decide [decodeFields, Fields.vector, f8, f12, f16, fFn, Fields.only8, orBad, v1, v2, v3, encShift, vCc, vRed, encCopy, Fields.copy, Fields.v1, Fields.v2, Fields.v3, Fields.vshift, Fields.vred, Fields.z, StOrd.code, stOrdOf2, LdOrd.code, ldOrdOf2, Scope.code, scopeOf2, Rm.code, rmOf2, MmFmt.code, fmtOf3, Size.code, sizeOf2, slot_lt, unit_lt, unit_le])
theorem RoundTrip.vGets (x0 : Slot) (x1 : Reg) (x2 : BitVec 20) : RoundTrip.Statement (.vGets x0 x1 x2) := by
  intro h f hf
  (cases hf; first | rfl | simp +decide [decodeFields, Fields.vector, f8, f12, f16, fFn, Fields.only8, orBad, v1, v2, v3, encShift, vCc, vRed, encCopy, Fields.copy, Fields.v1, Fields.v2, Fields.v3, Fields.vshift, Fields.vred, Fields.z, StOrd.code, stOrdOf2, LdOrd.code, ldOrdOf2, Scope.code, scopeOf2, Rm.code, rmOf2, MmFmt.code, fmtOf3, Size.code, sizeOf2, slot_lt, unit_lt, unit_le])
theorem RoundTrip.vAdd (x0 : Slot) (x1 : Slot) (x2 : Slot) : RoundTrip.Statement (.vAdd x0 x1 x2) := by
  intro h f hf
  (cases hf; first | rfl | simp +decide [decodeFields, Fields.vector, f8, f12, f16, fFn, Fields.only8, orBad, v1, v2, v3, encShift, vCc, vRed, encCopy, Fields.copy, Fields.v1, Fields.v2, Fields.v3, Fields.vshift, Fields.vred, Fields.z, StOrd.code, stOrdOf2, LdOrd.code, ldOrdOf2, Scope.code, scopeOf2, Rm.code, rmOf2, MmFmt.code, fmtOf3, Size.code, sizeOf2, slot_lt, unit_lt, unit_le])
theorem RoundTrip.vSub (x0 : Slot) (x1 : Slot) (x2 : Slot) : RoundTrip.Statement (.vSub x0 x1 x2) := by
  intro h f hf
  (cases hf; first | rfl | simp +decide [decodeFields, Fields.vector, f8, f12, f16, fFn, Fields.only8, orBad, v1, v2, v3, encShift, vCc, vRed, encCopy, Fields.copy, Fields.v1, Fields.v2, Fields.v3, Fields.vshift, Fields.vred, Fields.z, StOrd.code, stOrdOf2, LdOrd.code, ldOrdOf2, Scope.code, scopeOf2, Rm.code, rmOf2, MmFmt.code, fmtOf3, Size.code, sizeOf2, slot_lt, unit_lt, unit_le])
theorem RoundTrip.vMul (x0 : Slot) (x1 : Slot) (x2 : Slot) : RoundTrip.Statement (.vMul x0 x1 x2) := by
  intro h f hf
  (cases hf; first | rfl | simp +decide [decodeFields, Fields.vector, f8, f12, f16, fFn, Fields.only8, orBad, v1, v2, v3, encShift, vCc, vRed, encCopy, Fields.copy, Fields.v1, Fields.v2, Fields.v3, Fields.vshift, Fields.vred, Fields.z, StOrd.code, stOrdOf2, LdOrd.code, ldOrdOf2, Scope.code, scopeOf2, Rm.code, rmOf2, MmFmt.code, fmtOf3, Size.code, sizeOf2, slot_lt, unit_lt, unit_le])
theorem RoundTrip.vFma (x0 : Slot) (x1 : Slot) (x2 : Slot) (x3 : Slot) : RoundTrip.Statement (.vFma x0 x1 x2 x3) := by
  intro h f hf
  (cases hf; first | rfl | simp +decide [decodeFields, Fields.vector, f8, f12, f16, fFn, Fields.only8, orBad, v1, v2, v3, encShift, vCc, vRed, encCopy, Fields.copy, Fields.v1, Fields.v2, Fields.v3, Fields.vshift, Fields.vred, Fields.z, StOrd.code, stOrdOf2, LdOrd.code, ldOrdOf2, Scope.code, scopeOf2, Rm.code, rmOf2, MmFmt.code, fmtOf3, Size.code, sizeOf2, slot_lt, unit_lt, unit_le])
theorem RoundTrip.vMin (x0 : Slot) (x1 : Slot) (x2 : Slot) : RoundTrip.Statement (.vMin x0 x1 x2) := by
  intro h f hf
  (cases hf; first | rfl | simp +decide [decodeFields, Fields.vector, f8, f12, f16, fFn, Fields.only8, orBad, v1, v2, v3, encShift, vCc, vRed, encCopy, Fields.copy, Fields.v1, Fields.v2, Fields.v3, Fields.vshift, Fields.vred, Fields.z, StOrd.code, stOrdOf2, LdOrd.code, ldOrdOf2, Scope.code, scopeOf2, Rm.code, rmOf2, MmFmt.code, fmtOf3, Size.code, sizeOf2, slot_lt, unit_lt, unit_le])
theorem RoundTrip.vMax (x0 : Slot) (x1 : Slot) (x2 : Slot) : RoundTrip.Statement (.vMax x0 x1 x2) := by
  intro h f hf
  (cases hf; first | rfl | simp +decide [decodeFields, Fields.vector, f8, f12, f16, fFn, Fields.only8, orBad, v1, v2, v3, encShift, vCc, vRed, encCopy, Fields.copy, Fields.v1, Fields.v2, Fields.v3, Fields.vshift, Fields.vred, Fields.z, StOrd.code, stOrdOf2, LdOrd.code, ldOrdOf2, Scope.code, scopeOf2, Rm.code, rmOf2, MmFmt.code, fmtOf3, Size.code, sizeOf2, slot_lt, unit_lt, unit_le])
theorem RoundTrip.vAbs (x0 : Slot) (x1 : Slot) : RoundTrip.Statement (.vAbs x0 x1) := by
  intro h f hf
  (cases hf; first | rfl | simp +decide [decodeFields, Fields.vector, f8, f12, f16, fFn, Fields.only8, orBad, v1, v2, v3, encShift, vCc, vRed, encCopy, Fields.copy, Fields.v1, Fields.v2, Fields.v3, Fields.vshift, Fields.vred, Fields.z, StOrd.code, stOrdOf2, LdOrd.code, ldOrdOf2, Scope.code, scopeOf2, Rm.code, rmOf2, MmFmt.code, fmtOf3, Size.code, sizeOf2, slot_lt, unit_lt, unit_le])
theorem RoundTrip.vNeg (x0 : Slot) (x1 : Slot) : RoundTrip.Statement (.vNeg x0 x1) := by
  intro h f hf
  (cases hf; first | rfl | simp +decide [decodeFields, Fields.vector, f8, f12, f16, fFn, Fields.only8, orBad, v1, v2, v3, encShift, vCc, vRed, encCopy, Fields.copy, Fields.v1, Fields.v2, Fields.v3, Fields.vshift, Fields.vred, Fields.z, StOrd.code, stOrdOf2, LdOrd.code, ldOrdOf2, Scope.code, scopeOf2, Rm.code, rmOf2, MmFmt.code, fmtOf3, Size.code, sizeOf2, slot_lt, unit_lt, unit_le])
theorem RoundTrip.vAnd (x0 : Slot) (x1 : Slot) (x2 : Slot) : RoundTrip.Statement (.vAnd x0 x1 x2) := by
  intro h f hf
  (cases hf; first | rfl | simp +decide [decodeFields, Fields.vector, f8, f12, f16, fFn, Fields.only8, orBad, v1, v2, v3, encShift, vCc, vRed, encCopy, Fields.copy, Fields.v1, Fields.v2, Fields.v3, Fields.vshift, Fields.vred, Fields.z, StOrd.code, stOrdOf2, LdOrd.code, ldOrdOf2, Scope.code, scopeOf2, Rm.code, rmOf2, MmFmt.code, fmtOf3, Size.code, sizeOf2, slot_lt, unit_lt, unit_le])
theorem RoundTrip.vOr (x0 : Slot) (x1 : Slot) (x2 : Slot) : RoundTrip.Statement (.vOr x0 x1 x2) := by
  intro h f hf
  (cases hf; first | rfl | simp +decide [decodeFields, Fields.vector, f8, f12, f16, fFn, Fields.only8, orBad, v1, v2, v3, encShift, vCc, vRed, encCopy, Fields.copy, Fields.v1, Fields.v2, Fields.v3, Fields.vshift, Fields.vred, Fields.z, StOrd.code, stOrdOf2, LdOrd.code, ldOrdOf2, Scope.code, scopeOf2, Rm.code, rmOf2, MmFmt.code, fmtOf3, Size.code, sizeOf2, slot_lt, unit_lt, unit_le])
theorem RoundTrip.vXor (x0 : Slot) (x1 : Slot) (x2 : Slot) : RoundTrip.Statement (.vXor x0 x1 x2) := by
  intro h f hf
  (cases hf; first | rfl | simp +decide [decodeFields, Fields.vector, f8, f12, f16, fFn, Fields.only8, orBad, v1, v2, v3, encShift, vCc, vRed, encCopy, Fields.copy, Fields.v1, Fields.v2, Fields.v3, Fields.vshift, Fields.vred, Fields.z, StOrd.code, stOrdOf2, LdOrd.code, ldOrdOf2, Scope.code, scopeOf2, Rm.code, rmOf2, MmFmt.code, fmtOf3, Size.code, sizeOf2, slot_lt, unit_lt, unit_le])
theorem RoundTrip.vShl (x0 : Slot) (x1 : Slot) (x2 : VShift) : RoundTrip.Statement (.vShl x0 x1 x2) := by
  intro h f hf
  cases x2 <;> (cases hf; first | rfl | simp +decide [decodeFields, Fields.vector, f8, f12, f16, fFn, Fields.only8, orBad, v1, v2, v3, encShift, vCc, vRed, encCopy, Fields.copy, Fields.v1, Fields.v2, Fields.v3, Fields.vshift, Fields.vred, Fields.z, StOrd.code, stOrdOf2, LdOrd.code, ldOrdOf2, Scope.code, scopeOf2, Rm.code, rmOf2, MmFmt.code, fmtOf3, Size.code, sizeOf2, slot_lt, unit_lt, unit_le])
theorem RoundTrip.vShr (x0 : Slot) (x1 : Slot) (x2 : VShift) : RoundTrip.Statement (.vShr x0 x1 x2) := by
  intro h f hf
  cases x2 <;> (cases hf; first | rfl | simp +decide [decodeFields, Fields.vector, f8, f12, f16, fFn, Fields.only8, orBad, v1, v2, v3, encShift, vCc, vRed, encCopy, Fields.copy, Fields.v1, Fields.v2, Fields.v3, Fields.vshift, Fields.vred, Fields.z, StOrd.code, stOrdOf2, LdOrd.code, ldOrdOf2, Scope.code, scopeOf2, Rm.code, rmOf2, MmFmt.code, fmtOf3, Size.code, sizeOf2, slot_lt, unit_lt, unit_le])
theorem RoundTrip.vCmpEq (x0 : Slot) (x1 : Slot) (x2 : Slot) : RoundTrip.Statement (.vCmpEq x0 x1 x2) := by
  intro h f hf
  (cases hf; first | rfl | simp +decide [decodeFields, Fields.vector, f8, f12, f16, fFn, Fields.only8, orBad, v1, v2, v3, encShift, vCc, vRed, encCopy, Fields.copy, Fields.v1, Fields.v2, Fields.v3, Fields.vshift, Fields.vred, Fields.z, StOrd.code, stOrdOf2, LdOrd.code, ldOrdOf2, Scope.code, scopeOf2, Rm.code, rmOf2, MmFmt.code, fmtOf3, Size.code, sizeOf2, slot_lt, unit_lt, unit_le])
theorem RoundTrip.vCmpNe (x0 : Slot) (x1 : Slot) (x2 : Slot) : RoundTrip.Statement (.vCmpNe x0 x1 x2) := by
  intro h f hf
  (cases hf; first | rfl | simp +decide [decodeFields, Fields.vector, f8, f12, f16, fFn, Fields.only8, orBad, v1, v2, v3, encShift, vCc, vRed, encCopy, Fields.copy, Fields.v1, Fields.v2, Fields.v3, Fields.vshift, Fields.vred, Fields.z, StOrd.code, stOrdOf2, LdOrd.code, ldOrdOf2, Scope.code, scopeOf2, Rm.code, rmOf2, MmFmt.code, fmtOf3, Size.code, sizeOf2, slot_lt, unit_lt, unit_le])
theorem RoundTrip.vCmpLt (x0 : Slot) (x1 : Slot) (x2 : Slot) : RoundTrip.Statement (.vCmpLt x0 x1 x2) := by
  intro h f hf
  (cases hf; first | rfl | simp +decide [decodeFields, Fields.vector, f8, f12, f16, fFn, Fields.only8, orBad, v1, v2, v3, encShift, vCc, vRed, encCopy, Fields.copy, Fields.v1, Fields.v2, Fields.v3, Fields.vshift, Fields.vred, Fields.z, StOrd.code, stOrdOf2, LdOrd.code, ldOrdOf2, Scope.code, scopeOf2, Rm.code, rmOf2, MmFmt.code, fmtOf3, Size.code, sizeOf2, slot_lt, unit_lt, unit_le])
theorem RoundTrip.vCmpGe (x0 : Slot) (x1 : Slot) (x2 : Slot) : RoundTrip.Statement (.vCmpGe x0 x1 x2) := by
  intro h f hf
  (cases hf; first | rfl | simp +decide [decodeFields, Fields.vector, f8, f12, f16, fFn, Fields.only8, orBad, v1, v2, v3, encShift, vCc, vRed, encCopy, Fields.copy, Fields.v1, Fields.v2, Fields.v3, Fields.vshift, Fields.vred, Fields.z, StOrd.code, stOrdOf2, LdOrd.code, ldOrdOf2, Scope.code, scopeOf2, Rm.code, rmOf2, MmFmt.code, fmtOf3, Size.code, sizeOf2, slot_lt, unit_lt, unit_le])
theorem RoundTrip.vSel (x0 : Slot) (x1 : Slot) (x2 : Slot) (x3 : Slot) : RoundTrip.Statement (.vSel x0 x1 x2 x3) := by
  intro h f hf
  (cases hf; first | rfl | simp +decide [decodeFields, Fields.vector, f8, f12, f16, fFn, Fields.only8, orBad, v1, v2, v3, encShift, vCc, vRed, encCopy, Fields.copy, Fields.v1, Fields.v2, Fields.v3, Fields.vshift, Fields.vred, Fields.z, StOrd.code, stOrdOf2, LdOrd.code, ldOrdOf2, Scope.code, scopeOf2, Rm.code, rmOf2, MmFmt.code, fmtOf3, Size.code, sizeOf2, slot_lt, unit_lt, unit_le])
theorem RoundTrip.vCvt (x0 : Slot) (x1 : Slot) (x2 : Rm) (x3 : Bool) : RoundTrip.Statement (.vCvt x0 x1 x2 x3) := by
  intro h f hf
  cases x2 <;> cases x3 <;> (cases hf; first | rfl | simp +decide [decodeFields, Fields.vector, f8, f12, f16, fFn, Fields.only8, orBad, v1, v2, v3, encShift, vCc, vRed, encCopy, Fields.copy, Fields.v1, Fields.v2, Fields.v3, Fields.vshift, Fields.vred, Fields.z, StOrd.code, stOrdOf2, LdOrd.code, ldOrdOf2, Scope.code, scopeOf2, Rm.code, rmOf2, MmFmt.code, fmtOf3, Size.code, sizeOf2, slot_lt, unit_lt, unit_le])
theorem RoundTrip.vRsum (x0 : Slot) (x1 : Slot) (x2 : BitVec 2) : RoundTrip.Statement (.vRsum x0 x1 x2) := by
  intro h f hf
  (cases hf; first | rfl | simp +decide [decodeFields, Fields.vector, f8, f12, f16, fFn, Fields.only8, orBad, v1, v2, v3, encShift, vCc, vRed, encCopy, Fields.copy, Fields.v1, Fields.v2, Fields.v3, Fields.vshift, Fields.vred, Fields.z, StOrd.code, stOrdOf2, LdOrd.code, ldOrdOf2, Scope.code, scopeOf2, Rm.code, rmOf2, MmFmt.code, fmtOf3, Size.code, sizeOf2, slot_lt, unit_lt, unit_le])
theorem RoundTrip.vRmax (x0 : Slot) (x1 : Slot) (x2 : BitVec 2) : RoundTrip.Statement (.vRmax x0 x1 x2) := by
  intro h f hf
  (cases hf; first | rfl | simp +decide [decodeFields, Fields.vector, f8, f12, f16, fFn, Fields.only8, orBad, v1, v2, v3, encShift, vCc, vRed, encCopy, Fields.copy, Fields.v1, Fields.v2, Fields.v3, Fields.vshift, Fields.vred, Fields.z, StOrd.code, stOrdOf2, LdOrd.code, ldOrdOf2, Scope.code, scopeOf2, Rm.code, rmOf2, MmFmt.code, fmtOf3, Size.code, sizeOf2, slot_lt, unit_lt, unit_le])
theorem RoundTrip.vRmin (x0 : Slot) (x1 : Slot) (x2 : BitVec 2) : RoundTrip.Statement (.vRmin x0 x1 x2) := by
  intro h f hf
  (cases hf; first | rfl | simp +decide [decodeFields, Fields.vector, f8, f12, f16, fFn, Fields.only8, orBad, v1, v2, v3, encShift, vCc, vRed, encCopy, Fields.copy, Fields.v1, Fields.v2, Fields.v3, Fields.vshift, Fields.vred, Fields.z, StOrd.code, stOrdOf2, LdOrd.code, ldOrdOf2, Scope.code, scopeOf2, Rm.code, rmOf2, MmFmt.code, fmtOf3, Size.code, sizeOf2, slot_lt, unit_lt, unit_le])
theorem RoundTrip.vExp2 (x0 : Slot) (x1 : Slot) : RoundTrip.Statement (.vExp2 x0 x1) := by
  intro h f hf
  (cases hf; first | rfl | simp +decide [decodeFields, Fields.vector, f8, f12, f16, fFn, Fields.only8, orBad, v1, v2, v3, encShift, vCc, vRed, encCopy, Fields.copy, Fields.v1, Fields.v2, Fields.v3, Fields.vshift, Fields.vred, Fields.z, StOrd.code, stOrdOf2, LdOrd.code, ldOrdOf2, Scope.code, scopeOf2, Rm.code, rmOf2, MmFmt.code, fmtOf3, Size.code, sizeOf2, slot_lt, unit_lt, unit_le])
theorem RoundTrip.vRcp (x0 : Slot) (x1 : Slot) : RoundTrip.Statement (.vRcp x0 x1) := by
  intro h f hf
  (cases hf; first | rfl | simp +decide [decodeFields, Fields.vector, f8, f12, f16, fFn, Fields.only8, orBad, v1, v2, v3, encShift, vCc, vRed, encCopy, Fields.copy, Fields.v1, Fields.v2, Fields.v3, Fields.vshift, Fields.vred, Fields.z, StOrd.code, stOrdOf2, LdOrd.code, ldOrdOf2, Scope.code, scopeOf2, Rm.code, rmOf2, MmFmt.code, fmtOf3, Size.code, sizeOf2, slot_lt, unit_lt, unit_le])
theorem RoundTrip.vRsqrt (x0 : Slot) (x1 : Slot) : RoundTrip.Statement (.vRsqrt x0 x1) := by
  intro h f hf
  (cases hf; first | rfl | simp +decide [decodeFields, Fields.vector, f8, f12, f16, fFn, Fields.only8, orBad, v1, v2, v3, encShift, vCc, vRed, encCopy, Fields.copy, Fields.v1, Fields.v2, Fields.v3, Fields.vshift, Fields.vred, Fields.z, StOrd.code, stOrdOf2, LdOrd.code, ldOrdOf2, Scope.code, scopeOf2, Rm.code, rmOf2, MmFmt.code, fmtOf3, Size.code, sizeOf2, slot_lt, unit_lt, unit_le])
theorem RoundTrip.vBcast (x0 : Slot) (x1 : RegOrW2) : RoundTrip.Statement (.vBcast x0 x1) := by
  intro h f hf
  cases x1 <;> (cases hf; first | rfl | simp +decide [decodeFields, Fields.vector, f8, f12, f16, fFn, Fields.only8, orBad, v1, v2, v3, encShift, vCc, vRed, encCopy, Fields.copy, Fields.v1, Fields.v2, Fields.v3, Fields.vshift, Fields.vred, Fields.z, StOrd.code, stOrdOf2, LdOrd.code, ldOrdOf2, Scope.code, scopeOf2, Rm.code, rmOf2, MmFmt.code, fmtOf3, Size.code, sizeOf2, slot_lt, unit_lt, unit_le])
theorem RoundTrip.vQmax (x0 : Slot) (x1 : Slot) (x2 : Reg) (x3 : BitVec 4) : RoundTrip.Statement (.vQmax x0 x1 x2 x3) := by
  intro h f hf
  (cases hf; first | rfl | simp +decide [decodeFields, Fields.vector, f8, f12, f16, fFn, Fields.only8, orBad, v1, v2, v3, encShift, vCc, vRed, encCopy, Fields.copy, Fields.v1, Fields.v2, Fields.v3, Fields.vshift, Fields.vred, Fields.z, StOrd.code, stOrdOf2, LdOrd.code, ldOrdOf2, Scope.code, scopeOf2, Rm.code, rmOf2, MmFmt.code, fmtOf3, Size.code, sizeOf2, slot_lt, unit_lt, unit_le])
theorem RoundTrip.vQcvt (x0 : Slot) (x1 : Slot) (x2 : Slot) (x3 : Rm) (x4 : Bool) : RoundTrip.Statement (.vQcvt x0 x1 x2 x3 x4) := by
  intro h f hf
  cases x3 <;> cases x4 <;> (cases hf; first | rfl | simp +decide [decodeFields, Fields.vector, f8, f12, f16, fFn, Fields.only8, orBad, v1, v2, v3, encShift, vCc, vRed, encCopy, Fields.copy, Fields.v1, Fields.v2, Fields.v3, Fields.vshift, Fields.vred, Fields.z, StOrd.code, stOrdOf2, LdOrd.code, ldOrdOf2, Scope.code, scopeOf2, Rm.code, rmOf2, MmFmt.code, fmtOf3, Size.code, sizeOf2, slot_lt, unit_lt, unit_le])
theorem RoundTrip.vrep (x0 : RegOrW2) (x1 : BitVec 4) (x2 : BitVec 4) (x3 : BitVec 4) (x4 : BitVec 4) (x5 : BitVec 4) : RoundTrip.Statement (.vrep x0 x1 x2 x3 x4 x5) := by
  intro h f hf
  cases x0 <;> (cases hf; first | rfl | simp +decide [decodeFields, Fields.vector, f8, f12, f16, fFn, Fields.only8, orBad, v1, v2, v3, encShift, vCc, vRed, encCopy, Fields.copy, Fields.v1, Fields.v2, Fields.v3, Fields.vshift, Fields.vred, Fields.z, StOrd.code, stOrdOf2, LdOrd.code, ldOrdOf2, Scope.code, scopeOf2, Rm.code, rmOf2, MmFmt.code, fmtOf3, Size.code, sizeOf2, slot_lt, unit_lt, unit_le])
theorem RoundTrip.vwait : RoundTrip.Statement .vwait := by
  intro h f hf
  (cases hf; first | rfl | simp +decide [decodeFields, Fields.vector, f8, f12, f16, fFn, Fields.only8, orBad, v1, v2, v3, encShift, vCc, vRed, encCopy, Fields.copy, Fields.v1, Fields.v2, Fields.v3, Fields.vshift, Fields.vred, Fields.z, StOrd.code, stOrdOf2, LdOrd.code, ldOrdOf2, Scope.code, scopeOf2, Rm.code, rmOf2, MmFmt.code, fmtOf3, Size.code, sizeOf2, slot_lt, unit_lt, unit_le])
theorem RoundTrip.vMov (x0 : Slot) (x1 : Slot) : RoundTrip.Statement (.vMov x0 x1) := by
  intro h f hf
  (cases hf; first | rfl | simp +decide [decodeFields, Fields.vector, f8, f12, f16, fFn, Fields.only8, orBad, v1, v2, v3, encShift, vCc, vRed, encCopy, Fields.copy, Fields.v1, Fields.v2, Fields.v3, Fields.vshift, Fields.vred, Fields.z, StOrd.code, stOrdOf2, LdOrd.code, ldOrdOf2, Scope.code, scopeOf2, Rm.code, rmOf2, MmFmt.code, fmtOf3, Size.code, sizeOf2, slot_lt, unit_lt, unit_le])
theorem RoundTrip.mmLoadw (x0 : Unit2) (x1 : Slot) : RoundTrip.Statement (.mmLoadw x0 x1) := by
  intro h f hf
  (cases hf; first | rfl | simp +decide [decodeFields, Fields.mill, f8, f12, f16, fFn, Fields.only8, orBad, Fields.z, StOrd.code, stOrdOf2, LdOrd.code, ldOrdOf2, Scope.code, scopeOf2, Rm.code, rmOf2, MmFmt.code, fmtOf3, Size.code, sizeOf2, slot_lt, unit_lt, unit_le])
theorem RoundTrip.mmGather (x0 : Slot) (x1 : Slot) : RoundTrip.Statement (.mmGather x0 x1) := by
  intro h f hf
  (cases hf; first | rfl | simp +decide [decodeFields, Fields.mill, f8, f12, f16, fFn, Fields.only8, orBad, Fields.z, StOrd.code, stOrdOf2, LdOrd.code, ldOrdOf2, Scope.code, scopeOf2, Rm.code, rmOf2, MmFmt.code, fmtOf3, Size.code, sizeOf2, slot_lt, unit_lt, unit_le])
theorem RoundTrip.mmRun (x0 : Unit2) (x1 : Unit2) (x2 : Slot) (x3 : MmFmt) : RoundTrip.Statement (.mmRun x0 x1 x2 x3) := by
  intro h f hf
  cases x3 <;> (cases hf; first | rfl | simp +decide [decodeFields, Fields.mill, f8, f12, f16, fFn, Fields.only8, orBad, Fields.z, StOrd.code, stOrdOf2, LdOrd.code, ldOrdOf2, Scope.code, scopeOf2, Rm.code, rmOf2, MmFmt.code, fmtOf3, Size.code, sizeOf2, slot_lt, unit_lt, unit_le])
theorem RoundTrip.mmAccz (x0 : Unit2) : RoundTrip.Statement (.mmAccz x0) := by
  intro h f hf
  (cases hf; first | rfl | simp +decide [decodeFields, Fields.mill, f8, f12, f16, fFn, Fields.only8, orBad, Fields.z, StOrd.code, stOrdOf2, LdOrd.code, ldOrdOf2, Scope.code, scopeOf2, Rm.code, rmOf2, MmFmt.code, fmtOf3, Size.code, sizeOf2, slot_lt, unit_lt, unit_le])
theorem RoundTrip.mmDrain (x0 : Unit2) (x1 : Slot) (x2 : DrainTo) : RoundTrip.Statement (.mmDrain x0 x1 x2) := by
  intro h f hf
  cases x2 <;> (cases hf; first | rfl | simp +decide [decodeFields, Fields.mill, f8, f12, f16, fFn, Fields.only8, orBad, Fields.z, StOrd.code, stOrdOf2, LdOrd.code, ldOrdOf2, Scope.code, scopeOf2, Rm.code, rmOf2, MmFmt.code, fmtOf3, Size.code, sizeOf2, slot_lt, unit_lt, unit_le])
theorem RoundTrip.mmWait (x0 : Option Unit2) : RoundTrip.Statement (.mmWait x0) := by
  intro h f hf
  cases x0 <;> (cases hf; first | rfl | simp +decide [decodeFields, Fields.mill, f8, f12, f16, fFn, Fields.only8, orBad, Fields.z, StOrd.code, stOrdOf2, LdOrd.code, ldOrdOf2, Scope.code, scopeOf2, Rm.code, rmOf2, MmFmt.code, fmtOf3, Size.code, sizeOf2, slot_lt, unit_lt, unit_le])
theorem RoundTrip.mmClaim (x0 : Reg) (x1 : Unit2) : RoundTrip.Statement (.mmClaim x0 x1) := by
  intro h f hf
  (cases hf; first | rfl | simp +decide [decodeFields, Fields.mill, f8, f12, f16, fFn, Fields.only8, orBad, Fields.z, StOrd.code, stOrdOf2, LdOrd.code, ldOrdOf2, Scope.code, scopeOf2, Rm.code, rmOf2, MmFmt.code, fmtOf3, Size.code, sizeOf2, slot_lt, unit_lt, unit_le])
theorem RoundTrip.mmRelease (x0 : Reg) (x1 : Unit2) : RoundTrip.Statement (.mmRelease x0 x1) := by
  intro h f hf
  (cases hf; first | rfl | simp +decide [decodeFields, Fields.mill, f8, f12, f16, fFn, Fields.only8, orBad, Fields.z, StOrd.code, stOrdOf2, LdOrd.code, ldOrdOf2, Scope.code, scopeOf2, Rm.code, rmOf2, MmFmt.code, fmtOf3, Size.code, sizeOf2, slot_lt, unit_lt, unit_le])
theorem RoundTrip.mmSetWeight (x0 : Reg) (x1 : Reg) : RoundTrip.Statement (.mmSetWeight x0 x1) := by
  intro h f hf
  (cases hf; first | rfl | simp +decide [decodeFields, Fields.mill, f8, f12, f16, fFn, Fields.only8, orBad, Fields.z, StOrd.code, stOrdOf2, LdOrd.code, ldOrdOf2, Scope.code, scopeOf2, Rm.code, rmOf2, MmFmt.code, fmtOf3, Size.code, sizeOf2, slot_lt, unit_lt, unit_le])
theorem RoundTrip.mmStat (x0 : Reg) : RoundTrip.Statement (.mmStat x0) := by
  intro h f hf
  (cases hf; first | rfl | simp +decide [decodeFields, Fields.mill, f8, f12, f16, fFn, Fields.only8, orBad, Fields.z, StOrd.code, stOrdOf2, LdOrd.code, ldOrdOf2, Scope.code, scopeOf2, Rm.code, rmOf2, MmFmt.code, fmtOf3, Size.code, sizeOf2, slot_lt, unit_lt, unit_le])
theorem RoundTrip.threadReady (x0 : Nat) : RoundTrip.Statement (.threadReady x0) :=
  fun h => nomatch h
theorem RoundTrip.asyncTrapTake (x0 : Nat) : RoundTrip.Statement (.asyncTrapTake x0) :=
  fun h => nomatch h
theorem RoundTrip.timer (x0 : Nat) : RoundTrip.Statement (.timer x0) :=
  fun h => nomatch h
theorem RoundTrip.coreGate (x0 : Nat) : RoundTrip.Statement (.coreGate x0) :=
  fun h => nomatch h
theorem RoundTrip.coreUngate (x0 : Nat) : RoundTrip.Statement (.coreUngate x0) :=
  fun h => nomatch h
theorem RoundTrip.queueEntryFreed (x0 : Nat) (x1 : QueueKind) : RoundTrip.Statement (.queueEntryFreed x0 x1) :=
  fun h => nomatch h
theorem RoundTrip.porterExecute (x0 : Nat) (x1 : Bool) (x2 : Bool) : RoundTrip.Statement (.porterExecute x0 x1 x2) :=
  fun h => nomatch h
theorem RoundTrip.seqEntryComplete (x0 : Nat) (x1 : Option Nat) : RoundTrip.Statement (.seqEntryComplete x0 x1) :=
  fun h => nomatch h
theorem RoundTrip.qmaxDelivery (x0 : Nat) : RoundTrip.Statement (.qmaxDelivery x0) :=
  fun h => nomatch h
theorem RoundTrip.millRunGrant (x0 : Nat) : RoundTrip.Statement (.millRunGrant x0) :=
  fun h => nomatch h
theorem RoundTrip.millRunComplete (x0 : Nat) : RoundTrip.Statement (.millRunComplete x0) :=
  fun h => nomatch h
theorem RoundTrip.millLoadwExec (x0 : Nat) (x1 : Option Nat) : RoundTrip.Statement (.millLoadwExec x0 x1) :=
  fun h => nomatch h
theorem RoundTrip.millGatherExec (x0 : Nat) (x1 : Option Nat) : RoundTrip.Statement (.millGatherExec x0 x1) :=
  fun h => nomatch h
theorem RoundTrip.millAcczExec (x0 : Nat) : RoundTrip.Statement (.millAcczExec x0) :=
  fun h => nomatch h
theorem RoundTrip.millDrainExec (x0 : Nat) (x1 : Option Nat) : RoundTrip.Statement (.millDrainExec x0 x1) :=
  fun h => nomatch h
theorem RoundTrip.millDrainWake (x0 : Nat) : RoundTrip.Statement (.millDrainWake x0) :=
  fun h => nomatch h
theorem RoundTrip.storeAck (x0 : Nat) : RoundTrip.Statement (.storeAck x0) :=
  fun h => nomatch h
theorem RoundTrip.homeStore (x0 : Nat) : RoundTrip.Statement (.homeStore x0) :=
  fun h => nomatch h
theorem RoundTrip.homeFill (x0 : Nat) (x1 : Option Nat) (x2 : Bool) : RoundTrip.Statement (.homeFill x0 x1 x2) :=
  fun h => nomatch h
theorem RoundTrip.homeAtomic (x0 : Nat) (x1 : Bool) (x2 : Bool) : RoundTrip.Statement (.homeAtomic x0 x1 x2) :=
  fun h => nomatch h
theorem RoundTrip.homePush (x0 : Nat) : RoundTrip.Statement (.homePush x0) :=
  fun h => nomatch h
theorem RoundTrip.l1Update (x0 : Nat) : RoundTrip.Statement (.l1Update x0) :=
  fun h => nomatch h
theorem RoundTrip.l1PushOffer (x0 : Nat) : RoundTrip.Statement (.l1PushOffer x0) :=
  fun h => nomatch h
theorem RoundTrip.l1Invalidation (x0 : Nat) : RoundTrip.Statement (.l1Invalidation x0) :=
  fun h => nomatch h
theorem RoundTrip.l1DiscoveryProbe (x0 : Nat) : RoundTrip.Statement (.l1DiscoveryProbe x0) :=
  fun h => nomatch h
theorem RoundTrip.agentRead (x0 : Nat) (x1 : Nat) : RoundTrip.Statement (.agentRead x0 x1) :=
  fun h => nomatch h
theorem RoundTrip.agentWrite (x0 : Nat) (x1 : Nat) (x2 : Nat) (x3 : Line) : RoundTrip.Statement (.agentWrite x0 x1 x2 x3) :=
  fun h => nomatch h
theorem RoundTrip.agentInvalidation (x0 : Nat) : RoundTrip.Statement (.agentInvalidation x0) :=
  fun h => nomatch h
theorem RoundTrip.waitaWake (x0 : Nat) : RoundTrip.Statement (.waitaWake x0) :=
  fun h => nomatch h
theorem RoundTrip.waitaReread (x0 : Nat) : RoundTrip.Statement (.waitaReread x0) :=
  fun h => nomatch h
theorem RoundTrip.migrationDepart (x0 : Nat) : RoundTrip.Statement (.migrationDepart x0) :=
  fun h => nomatch h
theorem RoundTrip.migrationPlace (x0 : Nat) : RoundTrip.Statement (.migrationPlace x0) :=
  fun h => nomatch h
theorem RoundTrip.slotAllot (x0 : Nat) (x1 : Nat) : RoundTrip.Statement (.slotAllot x0 x1) :=
  fun h => nomatch h
theorem RoundTrip.spawnArrival (x0 : Nat) : RoundTrip.Statement (.spawnArrival x0) :=
  fun h => nomatch h
theorem RoundTrip.slotFreeNotice (x0 : Nat) : RoundTrip.Statement (.slotFreeNotice x0) :=
  fun h => nomatch h
theorem RoundTrip.recordStage (x0 : Nat) : RoundTrip.Statement (.recordStage x0) :=
  fun h => nomatch h
theorem RoundTrip.dieQueueRequest (x0 : Nat) : RoundTrip.Statement (.dieQueueRequest x0) :=
  fun h => nomatch h
theorem RoundTrip.footprintFillDone (x0 : Nat) (x1 : Nat) : RoundTrip.Statement (.footprintFillDone x0 x1) :=
  fun h => nomatch h
theorem RoundTrip.footprintFillFault (x0 : Nat) (x1 : Nat) : RoundTrip.Statement (.footprintFillFault x0 x1) :=
  fun h => nomatch h
theorem RoundTrip.dispatch (x0 : Nat) (x1 : Nat) : RoundTrip.Statement (.dispatch x0 x1) :=
  fun h => nomatch h
theorem RoundTrip.overflowReturn (x0 : Nat) : RoundTrip.Statement (.overflowReturn x0) :=
  fun h => nomatch h
theorem RoundTrip.sheafExpand (x0 : Nat) : RoundTrip.Statement (.sheafExpand x0) :=
  fun h => nomatch h
theorem RoundTrip.postboxArrival (x0 : Nat) : RoundTrip.Statement (.postboxArrival x0) :=
  fun h => nomatch h
theorem RoundTrip.doorbellStore (x0 : Nat) (x1 : Word) : RoundTrip.Statement (.doorbellStore x0 x1) :=
  fun h => nomatch h
theorem RoundTrip.copyExecute (x0 : Nat) (x1 : Option Nat) : RoundTrip.Statement (.copyExecute x0 x1) :=
  fun h => nomatch h
theorem RoundTrip.reservationHit (x0 : Nat) : RoundTrip.Statement (.reservationHit x0) :=
  fun h => nomatch h
theorem RoundTrip.wakeDeliver (x0 : Nat) : RoundTrip.Statement (.wakeDeliver x0) :=
  fun h => nomatch h
theorem RoundTrip.dirWakeArrival (x0 : Nat) : RoundTrip.Statement (.dirWakeArrival x0) :=
  fun h => nomatch h
theorem RoundTrip.dirHitArrival (x0 : Nat) : RoundTrip.Statement (.dirHitArrival x0) :=
  fun h => nomatch h
theorem RoundTrip.dirDeedlateArrival (x0 : Nat) : RoundTrip.Statement (.dirDeedlateArrival x0) :=
  fun h => nomatch h
theorem RoundTrip.dirAbsentRequest (x0 : Nat) : RoundTrip.Statement (.dirAbsentRequest x0) :=
  fun h => nomatch h
theorem RoundTrip.dirRestoreRequest (x0 : Nat) : RoundTrip.Statement (.dirRestoreRequest x0) :=
  fun h => nomatch h
theorem RoundTrip.cdcmdAlloc (x0 : Nat) (x1 : Nat) : RoundTrip.Statement (.cdcmdAlloc x0 x1) :=
  fun h => nomatch h
theorem RoundTrip.cdcmdRelease (x0 : Nat) (x1 : Nat) : RoundTrip.Statement (.cdcmdRelease x0 x1) :=
  fun h => nomatch h
theorem RoundTrip.cdcmdQuery (x0 : Nat) (x1 : Nat) : RoundTrip.Statement (.cdcmdQuery x0 x1) :=
  fun h => nomatch h
theorem RoundTrip.deedlateReport (x0 : Nat) : RoundTrip.Statement (.deedlateReport x0) :=
  fun h => nomatch h
theorem RoundTrip.altHomeTake (x0 : Nat) : RoundTrip.Statement (.altHomeTake x0) :=
  fun h => nomatch h
theorem RoundTrip.altHomeJoin (x0 : Nat) : RoundTrip.Statement (.altHomeJoin x0) :=
  fun h => nomatch h
theorem RoundTrip.altHomeReturn (x0 : Nat) : RoundTrip.Statement (.altHomeReturn x0) :=
  fun h => nomatch h
theorem RoundTrip.altHomeRead (x0 : Nat) : RoundTrip.Statement (.altHomeRead x0) :=
  fun h => nomatch h
theorem RoundTrip.altHomeLeave (x0 : Nat) : RoundTrip.Statement (.altHomeLeave x0) :=
  fun h => nomatch h
theorem RoundTrip.rollOffer (x0 : Nat) : RoundTrip.Statement (.rollOffer x0) :=
  fun h => nomatch h
theorem RoundTrip.rollAccept (x0 : Nat) : RoundTrip.Statement (.rollAccept x0) :=
  fun h => nomatch h
theorem RoundTrip.rollLend (x0 : Nat) : RoundTrip.Statement (.rollLend x0) :=
  fun h => nomatch h
theorem RoundTrip.rollRecall (x0 : Nat) : RoundTrip.Statement (.rollRecall x0) :=
  fun h => nomatch h
theorem RoundTrip.rollReturn (x0 : Nat) : RoundTrip.Statement (.rollReturn x0) :=
  fun h => nomatch h
theorem RoundTrip.rollQuery (x0 : Nat) : RoundTrip.Statement (.rollQuery x0) :=
  fun h => nomatch h
theorem RoundTrip.deedExpiry (x0 : Nat) : RoundTrip.Statement (.deedExpiry x0) :=
  fun h => nomatch h
theorem RoundTrip.dpcmdOffer (x0 : Nat) (x1 : Nat) (x2 : Nat) (x3 : Nat) : RoundTrip.Statement (.dpcmdOffer x0 x1 x2 x3) :=
  fun h => nomatch h
theorem RoundTrip.dpcmdAccept (x0 : Nat) (x1 : Nat) (x2 : Nat) (x3 : Nat) : RoundTrip.Statement (.dpcmdAccept x0 x1 x2 x3) :=
  fun h => nomatch h
theorem RoundTrip.dpcmdLend (x0 : Nat) (x1 : Nat) (x2 : Nat) (x3 : Nat) (x4 : Nat) : RoundTrip.Statement (.dpcmdLend x0 x1 x2 x3 x4) :=
  fun h => nomatch h
theorem RoundTrip.dpcmdRecall (x0 : Nat) (x1 : Nat) (x2 : Nat) (x3 : Nat) : RoundTrip.Statement (.dpcmdRecall x0 x1 x2 x3) :=
  fun h => nomatch h
theorem RoundTrip.dpcmdReturn (x0 : Nat) (x1 : Nat) (x2 : Nat) (x3 : Nat) : RoundTrip.Statement (.dpcmdReturn x0 x1 x2 x3) :=
  fun h => nomatch h
theorem RoundTrip.dpcmdQuery (x0 : Nat) (x1 : Nat) (x2 : Nat) (x3 : Nat) : RoundTrip.Statement (.dpcmdQuery x0 x1 x2 x3) :=
  fun h => nomatch h
theorem RoundTrip.dpevtailWrite (x0 : Nat) (x1 : Nat) : RoundTrip.Statement (.dpevtailWrite x0 x1) :=
  fun h => nomatch h
theorem RoundTrip.sdcmdAll (x0 : Nat) : RoundTrip.Statement (.sdcmdAll x0) :=
  fun h => nomatch h
theorem RoundTrip.sdcmdAsid (x0 : Nat) (x1 : Nat) : RoundTrip.Statement (.sdcmdAsid x0 x1) :=
  fun h => nomatch h
theorem RoundTrip.sdcmdPageAsid (x0 : Nat) (x1 : Nat) (x2 : Nat) : RoundTrip.Statement (.sdcmdPageAsid x0 x1 x2) :=
  fun h => nomatch h
theorem RoundTrip.sdcmdPage (x0 : Nat) (x1 : Nat) : RoundTrip.Statement (.sdcmdPage x0 x1) :=
  fun h => nomatch h
theorem RoundTrip.sdcmdPasid (x0 : Nat) (x1 : Nat) : RoundTrip.Statement (.sdcmdPasid x0 x1) :=
  fun h => nomatch h
theorem RoundTrip.sdcmdRead (x0 : Nat) : RoundTrip.Statement (.sdcmdRead x0) :=
  fun h => nomatch h
theorem RoundTrip.shootdownComplete (x0 : Nat) : RoundTrip.Statement (.shootdownComplete x0) :=
  fun h => nomatch h
theorem RoundTrip.granbinCarve (x0 : Nat) (x1 : Nat) : RoundTrip.Statement (.granbinCarve x0 x1) :=
  fun h => nomatch h
theorem RoundTrip.granbinUncarve (x0 : Nat) (x1 : Nat) : RoundTrip.Statement (.granbinUncarve x0 x1) :=
  fun h => nomatch h
theorem RoundTrip.granbinBusyClear (x0 : Nat) : RoundTrip.Statement (.granbinBusyClear x0) :=
  fun h => nomatch h
theorem RoundTrip.linkctlWrite (x0 : Nat) (x1 : Word) : RoundTrip.Statement (.linkctlWrite x0 x1) :=
  fun h => nomatch h
theorem RoundTrip.linkSleep (x0 : Nat) (x1 : LinkId) : RoundTrip.Statement (.linkSleep x0 x1) :=
  fun h => nomatch h
theorem RoundTrip.linkWake (x0 : Nat) (x1 : LinkId) : RoundTrip.Statement (.linkWake x0 x1) :=
  fun h => nomatch h
theorem RoundTrip.linkCheckWake (x0 : Nat) (x1 : LinkId) : RoundTrip.Statement (.linkCheckWake x0 x1) :=
  fun h => nomatch h
theorem RoundTrip.linkTimeout (x0 : Nat) (x1 : LinkId) : RoundTrip.Statement (.linkTimeout x0 x1) :=
  fun h => nomatch h
theorem RoundTrip.dieLoss (x0 : Nat) : RoundTrip.Statement (.dieLoss x0) :=
  fun h => nomatch h
theorem RoundTrip.reeveEpoch (x0 : Nat) (x1 : Nat) (x2 : Nat) (x3 : Nat) : RoundTrip.Statement (.reeveEpoch x0 x1 x2 x3) :=
  fun h => nomatch h
theorem RoundTrip.clockRelockEnd (x0 : Nat) : RoundTrip.Statement (.clockRelockEnd x0) :=
  fun h => nomatch h
theorem RoundTrip.relockFlit (x0 : Nat) (x1 : LinkId) : RoundTrip.Statement (.relockFlit x0 x1) :=
  fun h => nomatch h
theorem RoundTrip.linkRead (x0 : Nat) (x1 : Nat) (x2 : Nat) (x3 : Nat) (x4 : Nat) : RoundTrip.Statement (.linkRead x0 x1 x2 x3 x4) :=
  fun h => nomatch h
theorem RoundTrip.linkWrite (x0 : Nat) (x1 : Nat) (x2 : Nat) (x3 : Line) (x4 : Nat) (x5 : Nat) : RoundTrip.Statement (.linkWrite x0 x1 x2 x3 x4 x5) :=
  fun h => nomatch h
theorem RoundTrip.linkAtomic (x0 : Nat) (x1 : Nat) (x2 : Nat) (x3 : Bool) (x4 : Word) (x5 : Word) (x6 : Nat) (x7 : Nat) : RoundTrip.Statement (.linkAtomic x0 x1 x2 x3 x4 x5 x6 x7) :=
  fun h => nomatch h
theorem RoundTrip.windowStore (x0 : Nat) (x1 : Nat) (x2 : BitVec 32) : RoundTrip.Statement (.windowStore x0 x1 x2) :=
  fun h => nomatch h
theorem RoundTrip.windowAdd (x0 : Nat) (x1 : Nat) (x2 : BitVec 32) : RoundTrip.Statement (.windowAdd x0 x1 x2) :=
  fun h => nomatch h
theorem RoundTrip.mergedAdd (x0 : Nat) (x1 : Nat) : RoundTrip.Statement (.mergedAdd x0 x1) :=
  fun h => nomatch h
theorem RoundTrip.linkCompletion (x0 : Nat) (x1 : ComplStat) (x2 : Word) : RoundTrip.Statement (.linkCompletion x0 x1 x2) :=
  fun h => nomatch h
theorem RoundTrip.keySetChange (x0 : Nat) (x1 : StreamKey) : RoundTrip.Statement (.keySetChange x0 x1) :=
  fun h => nomatch h
theorem RoundTrip.ideMacFailure (x0 : Nat) (x1 : Nat) : RoundTrip.Statement (.ideMacFailure x0 x1) :=
  fun h => nomatch h
theorem RoundTrip.rdwinWrite (x0 : Nat) (x1 : Nat) (x2 : Word) : RoundTrip.Statement (.rdwinWrite x0 x1 x2) :=
  fun h => nomatch h
theorem RoundTrip.romStatus (x0 : Nat) (x1 : Nat) (x2 : Nat) (x3 : BitVec 32) : RoundTrip.Statement (.romStatus x0 x1 x2 x3) :=
  fun h => nomatch h
theorem RoundTrip.romBegin (x0 : Nat) (x1 : Nat) (x2 : Nat) (x3 : BitVec 16) (x4 : Option Nat) (x5 : Word) : RoundTrip.Statement (.romBegin x0 x1 x2 x3 x4 x5) :=
  fun h => nomatch h
theorem RoundTrip.romLoad (x0 : Nat) (x1 : Nat) (x2 : Nat) (x3 : Nat) (x4 : Nat) (x5 : BitVec 384) (x6 : Bool) : RoundTrip.Statement (.romLoad x0 x1 x2 x3 x4 x5 x6) :=
  fun h => nomatch h
theorem RoundTrip.romSwitch (x0 : Nat) (x1 : Nat) (x2 : Nat) (x3 : Nat) (x4 : Nat) (x5 : BitVec 384) (x6 : Bool) : RoundTrip.Statement (.romSwitch x0 x1 x2 x3 x4 x5 x6) :=
  fun h => nomatch h
theorem RoundTrip.switchActivate (x0 : Nat) : RoundTrip.Statement (.switchActivate x0) :=
  fun h => nomatch h
theorem RoundTrip.switchTimeout (x0 : Nat) : RoundTrip.Statement (.switchTimeout x0) :=
  fun h => nomatch h
theorem RoundTrip.romAssign (x0 : Nat) (x1 : Nat) (x2 : Nat) (x3 : Nat) (x4 : Nat) (x5 : Nat) : RoundTrip.Statement (.romAssign x0 x1 x2 x3 x4 x5) :=
  fun h => nomatch h
theorem RoundTrip.romRelease (x0 : Nat) (x1 : Nat) (x2 : Nat) (x3 : Nat) (x4 : Nat) (x5 : Domain) : RoundTrip.Statement (.romRelease x0 x1 x2 x3 x4 x5) :=
  fun h => nomatch h
theorem RoundTrip.romUnlock (x0 : Nat) (x1 : Nat) (x2 : Nat) (x3 : BitVec 384) (x4 : BitVec 32) (x5 : Bool) (x6 : Bool) : RoundTrip.Statement (.romUnlock x0 x1 x2 x3 x4 x5 x6) :=
  fun h => nomatch h
theorem RoundTrip.dbgbrkWrite (x0 : Nat) (x1 : BitVec 256) : RoundTrip.Statement (.dbgbrkWrite x0 x1) :=
  fun h => nomatch h
theorem RoundTrip.powerOn (x0 : Word) (x1 : Option Nat) : RoundTrip.Statement (.powerOn x0 x1) :=
  fun h => nomatch h
theorem RoundTrip.coldReset : RoundTrip.Statement .coldReset :=
  fun h => nomatch h
theorem RoundTrip.warmReset : RoundTrip.Statement .warmReset :=
  fun h => nomatch h
theorem RoundTrip.getVersion (x0 : Nat) : RoundTrip.Statement (.getVersion x0) :=
  fun h => nomatch h
theorem RoundTrip.getCapabilities (x0 : Nat) : RoundTrip.Statement (.getCapabilities x0) :=
  fun h => nomatch h
theorem RoundTrip.negotiateAlgorithms (x0 : Nat) : RoundTrip.Statement (.negotiateAlgorithms x0) :=
  fun h => nomatch h
theorem RoundTrip.getDigests (x0 : Nat) : RoundTrip.Statement (.getDigests x0) :=
  fun h => nomatch h
theorem RoundTrip.getCertificate (x0 : Nat) : RoundTrip.Statement (.getCertificate x0) :=
  fun h => nomatch h
theorem RoundTrip.challenge (x0 : Nat) : RoundTrip.Statement (.challenge x0) :=
  fun h => nomatch h
theorem RoundTrip.getMeasurements (x0 : Nat) (x1 : Nat) : RoundTrip.Statement (.getMeasurements x0 x1) :=
  fun h => nomatch h
theorem RoundTrip.keyExchange (x0 : Nat) : RoundTrip.Statement (.keyExchange x0) :=
  fun h => nomatch h
theorem RoundTrip.finish (x0 : Nat) : RoundTrip.Statement (.finish x0) :=
  fun h => nomatch h
theorem RoundTrip.keyUpdate (x0 : Nat) : RoundTrip.Statement (.keyUpdate x0) :=
  fun h => nomatch h
theorem RoundTrip.endSession (x0 : Nat) : RoundTrip.Statement (.endSession x0) :=
  fun h => nomatch h
theorem RoundTrip.ideKmQuery (x0 : Nat) : RoundTrip.Statement (.ideKmQuery x0) :=
  fun h => nomatch h
theorem RoundTrip.keyProg (x0 : Nat) (x1 : StreamKey) (x2 : BitVec 256) : RoundTrip.Statement (.keyProg x0 x1 x2) :=
  fun h => nomatch h
theorem RoundTrip.kSetGo (x0 : Nat) (x1 : StreamKey) : RoundTrip.Statement (.kSetGo x0 x1) :=
  fun h => nomatch h
theorem RoundTrip.kSetStop (x0 : Nat) (x1 : StreamKey) : RoundTrip.Statement (.kSetStop x0 x1) :=
  fun h => nomatch h
theorem RoundTrip.registerWrite (x0 : Domain) (x1 : Nat) (x2 : Nat) (x3 : Nat) (x4 : Word) : RoundTrip.Statement (.registerWrite x0 x1 x2 x3 x4) :=
  fun h => nomatch h
theorem RoundTrip.unassignedEncoding (x0 : BitVec 32) : RoundTrip.Statement (.unassignedEncoding x0) :=
  fun h => nomatch h
theorem RoundTrip.fetchFault (x0 : FetchCause) (x1 : Word) : RoundTrip.Statement (.fetchFault x0 x1) :=
  fun h => nomatch h
theorem RoundTrip.completionTimeout (x0 : Nat) : RoundTrip.Statement (.completionTimeout x0) :=
  fun h => nomatch h
theorem RoundTrip.hostPortCompletion (x0 : Nat) (x1 : ComplStat) (x2 : Word) : RoundTrip.Statement (.hostPortCompletion x0 x1 x2) :=
  fun h => nomatch h
theorem RoundTrip.regionRequest (x0 : Nat) : RoundTrip.Statement (.regionRequest x0) :=
  fun h => nomatch h
theorem RoundTrip.regionChangeDone (x0 : Nat) (x1 : Nat) : RoundTrip.Statement (.regionChangeDone x0 x1) :=
  fun h => nomatch h
theorem RoundTrip.genShootdownDone (x0 : Nat) : RoundTrip.Statement (.genShootdownDone x0) :=
  fun h => nomatch h
theorem RoundTrip.altCensusProbe (x0 : Nat) : RoundTrip.Statement (.altCensusProbe x0) :=
  fun h => nomatch h
theorem RoundTrip.watchEndNotice (x0 : Nat) : RoundTrip.Statement (.watchEndNotice x0) :=
  fun h => nomatch h
theorem RoundTrip.powerOff : RoundTrip.Statement .powerOff :=
  fun h => nomatch h

end Sys2Proof.Laws
end

