-- ==== Sys2Proof/Laws/Rounding.lean ====
section
/-! SUPPORT. Rounding to FP32: a finite code decodes to its value, and every result is rounded to the nearest code, ties to
even (R68, R75 to R77, R80 to R82). -/

namespace Sys2Proof.Machine

/-! ### The nearest code -/

/-- The nearest multiple of a unit beats every other, and ties only where the multiple is even. -/
theorem multiple_nearest (U N r : Nat) (hU : 0 < U) (h1 : 2 * (r * U) ≤ 2 * N + U) (h2 : 2 * N ≤ 2 * (r * U) + U)
    (tie : (2 * (r * U) = 2 * N + U ∨ 2 * N = 2 * (r * U) + U) → r % 2 = 0) (j : Int) :
    (((r * U : Nat) : Int) - N).natAbs ≤ (j * U - N).natAbs
      ∧ ((((r * U : Nat) : Int) - N).natAbs = (j * U - N).natAbs → j = r ∨ r % 2 = 0) := by
  rcases Int.lt_trichotomy j r with h | h | h
  · have : (j + 1) * U ≤ (r : Int) * U := Int.mul_le_mul_of_nonneg_right (by omega) (by omega)
    have e : (j + 1) * (U : Int) = j * U + U := by rw [Int.add_mul, Int.one_mul]
    have er : ((r * U : Nat) : Int) = (r : Int) * U := by simp
    generalize (r * U : Nat) = R at *
    omega
  · subst h
    have er : ((r * U : Nat) : Int) = (r : Int) * U := by simp
    rw [er]; exact ⟨Nat.le_refl _, fun _ => .inl rfl⟩
  · have : ((r : Int) + 1) * U ≤ j * U := Int.mul_le_mul_of_nonneg_right (by omega) (by omega)
    have e : ((r : Int) + 1) * (U : Int) = r * U + U := by rw [Int.add_mul, Int.one_mul]
    have er : ((r * U : Nat) : Int) = (r : Int) * U := by simp
    generalize (r * U : Nat) = R at *
    omega

/-- A finite code's value is a multiple of 2^q, or lies below 2^23 × 2^q. -/
theorem fp32Value_grid (w q : Nat) :
    (∃ j : Int, fp32Value w = j * ((2 ^ q : Nat) : Int)) ∨ (0 < q ∧ (fp32Value w).natAbs < 2 ^ 23 * 2 ^ q) := by
  unfold fp32Value
  dsimp only
  generalize hv : (if w / 2 ^ 23 % 256 = 0 then w % 2 ^ 23 else (2 ^ 23 + w % 2 ^ 23) * 2 ^ (w / 2 ^ 23 % 256 - 1)) = v
  have key : (∃ j, v = j * 2 ^ q) ∨ (0 < q ∧ v < 2 ^ 23 * 2 ^ q) := by
    have hm : w % 2 ^ 23 < 2 ^ 23 := Nat.mod_lt _ (by decide)
    split at hv
    · rcases Nat.eq_zero_or_pos q with rfl | hq
      · left; exact ⟨v, by omega⟩
      · right; refine ⟨hq, ?_⟩
        have : 0 < 2 ^ q := Nat.two_pow_pos q
        subst hv
        exact Nat.lt_of_lt_of_le hm (Nat.le_mul_of_pos_right _ this)
    · generalize w / 2 ^ 23 % 256 - 1 = k at hv
      rcases Nat.lt_or_ge k q with h | h
      · right; refine ⟨by omega, ?_⟩
        obtain ⟨c, rfl⟩ : ∃ c, q = k + 1 + c := ⟨q - k - 1, by omega⟩
        subst hv
        calc (2 ^ 23 + w % 2 ^ 23) * 2 ^ k < (2 ^ 23 * 2) * 2 ^ k := Nat.mul_lt_mul_of_pos_right (by omega) (Nat.two_pow_pos k)
          _ = 2 ^ 23 * 2 ^ (k + 1) := by rw [Nat.mul_assoc, Nat.mul_comm 2 (2 ^ k), ← Nat.pow_succ]
          _ ≤ 2 ^ 23 * 2 ^ (k + 1 + c) := Nat.mul_le_mul_left _ (Nat.pow_le_pow_right (by decide) (by omega))
      · left
        obtain ⟨c, rfl⟩ : ∃ c, k = q + c := ⟨k - q, by omega⟩
        exact ⟨(2 ^ 23 + w % 2 ^ 23) * 2 ^ c, by rw [← hv, Nat.pow_add, Nat.mul_comm (2 ^ q), Nat.mul_assoc]⟩
  split
  · rcases key with ⟨j, rfl⟩ | ⟨h, k⟩
    · left; exact ⟨-j, by rw [Int.neg_mul]; simp⟩
    · right; exact ⟨h, by simpa using k⟩
  · rcases key with ⟨j, rfl⟩ | ⟨h, k⟩
    · left; exact ⟨j, by simp⟩
    · right; exact ⟨h, by simpa using k⟩


/-- A magnitude rounded to a grid of 2^q units, as a code: what its parts say. -/
theorem rounds_core (z q r N D : Nat) (neg : Bool) (hD : 0 < D) (hN : 0 < N)
    (h1 : 2 * (r * (2 ^ q * D)) ≤ 2 * N + 2 ^ q * D) (h2 : 2 * N ≤ 2 * (r * (2 ^ q * D)) + 2 ^ q * D)
    (tie : (2 * (r * (2 ^ q * D)) = 2 * N + 2 ^ q * D ∨ 2 * N = 2 * (r * (2 ^ q * D)) + 2 ^ q * D) → r % 2 = 0)
    (hn : 0 < q → 2 ^ 23 * (2 ^ q * D) ≤ N) (hz : z % 2 = r % 2) (hf : fp32Finite z)
    (hv : fp32Value z = if neg then -((r * 2 ^ q : Nat) : Int) else ((r * 2 ^ q : Nat) : Int))
    (hs : 2 ^ 31 ≤ z ↔ neg = true) (small : N < (2 ^ 25 - 1) * 2 ^ 252 * D) :
    RoundsTo z (if neg then -(N : Int) else N) D := by
  have hab : (if neg then -(N : Int) else N).natAbs = N := by cases neg <;> simp
  unfold RoundsTo
  rw [hab, if_neg (by omega)]
  refine ⟨hf, ?_, fun w _ => ?_⟩
  · rw [hs]; cases neg <;> simp <;> omega
  have hU : 0 < 2 ^ q * D := Nat.mul_pos (Nat.two_pow_pos q) hD
  have near := multiple_nearest (2 ^ q * D) N r hU h1 h2 tie
  -- the claim for a magnitude `y`, whatever the sign
  have claim : ∀ y : Int, ((∃ j : Int, y = j * ((2 ^ q : Nat) : Int)) ∨ (0 < q ∧ y < ((2 ^ 23 * 2 ^ q : Nat) : Int))) →
      (((r * 2 ^ q : Nat) : Int) * D - N).natAbs ≤ (y * D - N).natAbs
        ∧ ((((r * 2 ^ q : Nat) : Int) * D - N).natAbs = (y * D - N).natAbs → y = ((r * 2 ^ q : Nat) : Int) ∨ r % 2 = 0) := by
    have er : ((r * 2 ^ q : Nat) : Int) * D = ((r * (2 ^ q * D) : Nat) : Int) := by rw [← Nat.mul_assoc]; simp
    rw [er]
    rintro y (⟨j, rfl⟩ | ⟨hq, hy⟩)
    · have e : j * ((2 ^ q : Nat) : Int) * D = j * ((2 ^ q * D : Nat) : Int) := by rw [Int.mul_assoc]; simp
      rw [e]
      obtain ⟨a, b⟩ := near j
      refine ⟨a, fun h => ?_⟩
      rcases b h with h | h
      · left; rw [h]; simp
      · exact .inr h
    · obtain ⟨a, -⟩ := near ((2 ^ 23 : Nat) : Int)
      have e : ((2 ^ 23 : Nat) : Int) * ((2 ^ q * D : Nat) : Int) = ((2 ^ 23 * (2 ^ q * D) : Nat) : Int) := by simp
      rw [e] at a
      have hyd : y * D < ((2 ^ 23 * (2 ^ q * D) : Nat) : Int) := by
        have : y * D < ((2 ^ 23 * 2 ^ q : Nat) : Int) * D := Int.mul_lt_mul_of_pos_right hy (by omega)
        rwa [← Int.natCast_mul, Nat.mul_assoc] at this
      have := hn hq
      omega
  have grid := fp32Value_grid w q
  rw [hv, hz]
  cases neg with
  | false =>
    simp only [Bool.false_eq_true, if_false]
    refine claim _ (grid.imp id fun h => ⟨h.1, by omega⟩)
  | true =>
    simp only [if_true]
    have c := claim (-fp32Value w) (by
      rcases grid with ⟨j, h⟩ | h
      · left; exact ⟨-j, by rw [h, Int.neg_mul]⟩
      · right; exact ⟨h.1, by omega⟩)
    have e1 : (-((r * 2 ^ q : Nat) : Int) * D - -(N : Int)).natAbs = (((r * 2 ^ q : Nat) : Int) * D - N).natAbs := by
      rw [Int.neg_mul]; omega
    have e2 : (fp32Value w * D - -(N : Int)).natAbs = (-fp32Value w * D - N).natAbs := by
      rw [Int.neg_mul]; omega
    rw [e1, e2]
    refine ⟨c.1, fun h => (c.2 h).imp (fun h => by omega) id⟩

/-- The code of a rounded magnitude `r` on the grid of 2^q units: exponent and fraction put together (R68). -/
abbrev packed (q r : Nat) : Nat :=
  if r < 2 ^ 23 then r else if r = 2 ^ 24 then (q + 2) * 2 ^ 23 else (q + 1) * 2 ^ 23 + (r - 2 ^ 23)

/-- The value of a packed code is the rounded magnitude on its grid. -/
theorem packed_value (q r s : Nat) (hr : r ≤ 2 ^ 24) (hq : 0 < q → 2 ^ 23 ≤ r) (hx : packed q r < 0x7F80_0000)
    (hs : s = 0 ∨ s = 2 ^ 31) :
    fp32Finite (s + packed q r) ∧ (s + packed q r) % 2 = r % 2 ∧ (2 ^ 31 ≤ s + packed q r ↔ s = 2 ^ 31)
      ∧ fp32Value (s + packed q r) = if s = 2 ^ 31 then -((r * 2 ^ q : Nat) : Int) else ((r * 2 ^ q : Nat) : Int) := by
  generalize hp : packed q r = x at *
  have hfin : fp32Finite (s + x) := by unfold fp32Finite; omega
  have hpar : (s + x) % 2 = r % 2 := by
    unfold packed at hp; split at hp
    · omega
    · split at hp <;> omega
  refine ⟨hfin, hpar, by omega, ?_⟩
  have hsig : (s + x) / 2 ^ 31 % 2 = 1 ↔ s = 2 ^ 31 := by omega
  have hmag : (if (s + x) / 2 ^ 23 % 256 = 0 then (s + x) % 2 ^ 23 else (2 ^ 23 + (s + x) % 2 ^ 23) * 2 ^ ((s + x) / 2 ^ 23 % 256 - 1))
      = r * 2 ^ q := by
    unfold packed at hp
    split at hp
    · have : q = 0 := by omega
      subst this
      rw [if_pos (by omega)]; omega
    · split at hp
      · rename_i h
        have e1 : (s + x) / 2 ^ 23 % 256 = q + 2 := by omega
        have e2 : (s + x) % 2 ^ 23 = 0 := by omega
        rw [e1, e2, if_neg (by omega), h]
        have : q + 2 - 1 = q + 1 := by omega
        rw [this, Nat.pow_succ 2 q, Nat.add_zero, Nat.mul_comm (2 ^ q), ← Nat.mul_assoc,
          show (2 : Nat) ^ 24 = 2 ^ 23 * 2 from Nat.pow_succ 2 23]
      · have e1 : (s + x) / 2 ^ 23 % 256 = q + 1 := by omega
        have e2 : (s + x) % 2 ^ 23 = r - 2 ^ 23 := by omega
        rw [e1, e2, if_neg (by omega)]
        have : 2 ^ 23 + (r - 2 ^ 23) = r := by omega
        rw [this]; rfl
  unfold fp32Value
  simp only [hmag]
  by_cases h : s = 2 ^ 31
  · rw [if_pos (hsig.2 h), if_pos h]
  · rw [if_neg (fun k => h (hsig.1 k)), if_neg h]

/-- The grid of a magnitude m × 2^e in FP32, as a power of two of 2^-149 units. -/
abbrev gridOf (m : Nat) (e : Int) : Nat := (max ((m.log2 : Int) + e - 23) (-149) + 149).toNat

/-- The magnitude rounded on its grid. -/
abbrev onGrid (m : Nat) (e : Int) : Nat :=
  let q := max ((m.log2 : Int) + e - 23) (-149)
  if e ≥ q then m * 2 ^ (e - q).toNat else roundShift m (q - e).toNat .rne false

/-- To nearest even the sign plays no part. -/
theorem roundShift_rne (m d : Nat) (neg : Bool) : roundShift m d .rne neg = roundShift m d .rne false := rfl

/-- Rounding to FP32 in terms of the grid (R75, R76). -/
theorem round_fp32 (neg : Bool) (m : Nat) (e : Int) (hm : m ≠ 0) :
    fp32.round .rne false (.fin neg m e) =
      (if neg then 2 ^ 31 else 0) +
        (if 0x7F7F_FFFF < packed (gridOf m e) (onGrid m e) then 0x7F80_0000 else packed (gridOf m e) (onGrid m e)) := by
  have hq : (max ((m.log2 : Int) + e - ((23 : Nat) : Int)) (1 - ((127 : Nat) : Int) - ((23 : Nat) : Int)))
      = max ((m.log2 : Int) + e - 23) (-149) := by congr 1
  unfold Fmt.round
  dsimp only [fp32, Fmt.overflow]
  rw [if_neg hm, hq]
  generalize hQ : max ((m.log2 : Int) + e - 23) (-149) = q
  have hq0 : -149 ≤ q := by omega
  have e1 : (q + 1 - (1 - ((127 : Nat) : Int) - ((23 : Nat) : Int)) + 1).toNat = (q + 149).toNat + 2 := by omega
  have e2 : (q - (1 - ((127 : Nat) : Int) - ((23 : Nat) : Int)) + 1).toNat = (q + 149).toNat + 1 := by omega
  rw [e1, e2]
  have hr : (if e ≥ q then m * 2 ^ (e - q).toNat else roundShift m (q - e).toNat .rne neg) = onGrid m e := by
    unfold onGrid; rw [hQ]; rfl
  have hg : (q + 149).toNat = gridOf m e := by unfold gridOf; rw [hQ]
  rw [hr, hg]
  change (if packed (gridOf m e) (onGrid m e) > 0x7F7F_FFFF then (if neg then 2 ^ 31 else 0) + 0x7F7F_FFFF + 1
    else if packed (gridOf m e) (onGrid m e) = 0 ∧ (!true) = true then 0
    else (if neg then 2 ^ 31 else 0) + packed (gridOf m e) (onGrid m e)) = _
  generalize packed (gridOf m e) (onGrid m e) = x
  simp only [Bool.not_true, Bool.false_eq_true, and_false, if_false, gt_iff_lt]
  split <;> rfl

/-- What the grid says of the rounded magnitude: it has at most 24 bits, all of them above the lowest grid. -/
theorem onGrid_bounds (m : Nat) (e : Int) (hm : m ≠ 0) :
    onGrid m e ≤ 2 ^ 24 ∧ (0 < gridOf m e → 2 ^ 23 ≤ onGrid m e) := by
  have lo : 2 ^ m.log2 ≤ m := Nat.log2_self_le hm
  have hi : m < 2 ^ (m.log2 + 1) := Nat.lt_log2_self
  unfold onGrid gridOf
  dsimp only
  generalize hQ : max ((m.log2 : Int) + e - 23) (-149) = q
  generalize m.log2 = l at *
  split
  · rename_i h
    obtain ⟨k, hk⟩ : ∃ k : Nat, e = q + k := ⟨(e - q).toNat, by omega⟩
    have hk' : (e - q).toNat = k := by omega
    rw [hk']
    constructor
    · have : l + k ≤ 23 := by omega
      have : m * 2 ^ k < 2 ^ (l + 1) * 2 ^ k := Nat.mul_lt_mul_of_pos_right hi (Nat.two_pow_pos k)
      rw [← Nat.pow_add] at this
      exact Nat.le_of_lt (Nat.lt_of_lt_of_le this (Nat.pow_le_pow_right (by decide) (by omega)))
    · intro h0
      have h1 : l + k = 23 := by omega
      have : 2 ^ l * 2 ^ k ≤ m * 2 ^ k := Nat.mul_le_mul_right _ lo
      rwa [← Nat.pow_add, h1] at this
  · obtain ⟨k, hk⟩ : ∃ k : Nat, q = e + k := ⟨(q - e).toNat, by omega⟩
    have hk' : (q - e).toNat = k := by omega
    rw [hk']
    have hb : roundShift m k .rne false = m / 2 ^ k ∨ roundShift m k .rne false = m / 2 ^ k + 1 := by
      unfold roundShift; dsimp only; split
      · exact .inr rfl
      · exact .inl rfl
    have h2 : m / 2 ^ k < 2 ^ 24 := by
      rw [Nat.div_lt_iff_lt_mul (Nat.two_pow_pos k), ← Nat.pow_add]
      exact Nat.lt_of_lt_of_le hi (Nat.pow_le_pow_right (by decide) (by omega))
    refine ⟨by omega, fun h0 => ?_⟩
    have h1 : l = 23 + k := by omega
    have : 2 ^ 23 ≤ m / 2 ^ k := by
      rw [Nat.le_div_iff_mul_le (Nat.two_pow_pos k), ← Nat.pow_add, ← h1]; exact lo
    omega

/-- Division by 2^j rounded to nearest even (R75). -/
theorem roundShift_near (m j : Nat) :
    2 * (roundShift m j .rne false * 2 ^ j) ≤ 2 * m + 2 ^ j ∧ 2 * m ≤ 2 * (roundShift m j .rne false * 2 ^ j) + 2 ^ j
      ∧ ((2 * (roundShift m j .rne false * 2 ^ j) = 2 * m + 2 ^ j ∨ 2 * m = 2 * (roundShift m j .rne false * 2 ^ j) + 2 ^ j)
        → roundShift m j .rne false % 2 = 0) := by
  have hd : m = m / 2 ^ j * 2 ^ j + m % 2 ^ j := by rw [Nat.mul_comm]; exact (Nat.div_add_mod m (2 ^ j)).symm
  have hl : m % 2 ^ j < 2 ^ j := Nat.mod_lt _ (Nat.two_pow_pos j)
  unfold roundShift
  dsimp only
  generalize m / 2 ^ j = q at *
  generalize m % 2 ^ j = r at *
  generalize 2 ^ j = u at *
  subst hd
  by_cases h : 2 * r > u ∨ (2 * r = u ∧ q % 2 = 1)
  · have : (decide (2 * r > u) || (decide (2 * r = u) && decide (q % 2 = 1))) = true := by simpa using h
    rw [if_pos this, Nat.add_mul]
    omega
  · have : ¬ (decide (2 * r > u) || (decide (2 * r = u) && decide (q % 2 = 1))) = true := by simpa using h
    rw [if_neg this]
    omega

/-- Rounding to FP32 (R75, R76): a finite value m × 2^e rounds to the nearest code of any n / d that its grid rounds as it does. -/
theorem round_rounds (neg : Bool) (m : Nat) (e : Int) (N D : Nat) (hm : m ≠ 0) (hD : 0 < D) (hN : 0 < N)
    (h1 : 2 * (onGrid m e * (2 ^ gridOf m e * D)) ≤ 2 * N + 2 ^ gridOf m e * D)
    (h2 : 2 * N ≤ 2 * (onGrid m e * (2 ^ gridOf m e * D)) + 2 ^ gridOf m e * D)
    (tie : (2 * (onGrid m e * (2 ^ gridOf m e * D)) = 2 * N + 2 ^ gridOf m e * D
      ∨ 2 * N = 2 * (onGrid m e * (2 ^ gridOf m e * D)) + 2 ^ gridOf m e * D) → onGrid m e % 2 = 0)
    (hn : 0 < gridOf m e → 2 ^ 23 * (2 ^ gridOf m e * D) ≤ N) :
    RoundsTo (fp32.round .rne false (.fin neg m e)) (if neg then -(N : Int) else N) D := by
  rw [round_fp32 neg m e hm]
  obtain ⟨hr, hq⟩ := onGrid_bounds m e hm
  generalize gridOf m e = q at *
  generalize onGrid m e = r at *
  by_cases hx : 0x7F7F_FFFF < packed q r
  · -- overflow
    rw [if_pos hx]
    have big : (2 ^ 25 - 1) * 2 ^ 252 * D ≤ N := by
      have c : (q = 253 ∧ r = 2 ^ 24) ∨ 254 ≤ q := by
        unfold packed at hx; split at hx
        · omega
        · split at hx <;> omega
      rcases c with ⟨rfl, rfl⟩ | c
      · have : (2 : Nat) ^ 253 * D = 2 * (2 ^ 252 * D) := by
          rw [show (2 : Nat) ^ 253 = 2 * 2 ^ 252 from Nat.pow_succ', Nat.mul_assoc]
        rw [this] at h1
        rw [Nat.mul_assoc]
        generalize 2 ^ 252 * D = u at *
        omega
      · have h3 := hn (by omega)
        have : (2 : Nat) ^ 254 * D ≤ 2 ^ q * D := Nat.mul_le_mul_right _ (Nat.pow_le_pow_right (by decide) c)
        have e : (2 : Nat) ^ 254 * D = 4 * (2 ^ 252 * D) := by
          rw [show (2 : Nat) ^ 254 = 4 * 2 ^ 252 from Nat.pow_add 2 2 252, Nat.mul_assoc]
        rw [e] at this
        rw [Nat.mul_assoc]
        generalize 2 ^ 252 * D = u at *
        omega
    unfold RoundsTo
    have hab : (if neg then -(N : Int) else N).natAbs = N := by cases neg <;> simp
    rw [hab, if_pos big]
    cases neg <;> simp <;> omega
  · rw [if_neg hx]
    have hx' : packed q r < 0x7F80_0000 := by omega
    have small : N < (2 ^ 25 - 1) * 2 ^ 252 * D := by
      have c : (q = 253 ∧ r < 2 ^ 24) ∨ q ≤ 252 := by
        unfold packed at hx'; split at hx'
        · rename_i h
          rcases Nat.eq_zero_or_pos q with h0 | h0
          · omega
          · have := hq h0; omega
        · split at hx' <;> omega
      rw [Nat.mul_assoc]
      rcases c with ⟨rfl, c⟩ | c
      · have : (2 : Nat) ^ 253 * D = 2 * (2 ^ 252 * D) := by
          rw [show (2 : Nat) ^ 253 = 2 * 2 ^ 252 from Nat.pow_succ', Nat.mul_assoc]
        rw [this] at h2 tie
        have hu : 0 < 2 ^ 252 * D := Nat.mul_pos (Nat.two_pow_pos _) hD
        generalize 2 ^ 252 * D = u at *
        have hru : r * (2 * u) ≤ (2 ^ 24 - 1) * (2 * u) := Nat.mul_le_mul_right _ (by omega)
        rcases Nat.lt_or_ge r (2 ^ 24 - 1) with h | h
        · have : r * (2 * u) ≤ (2 ^ 24 - 2) * (2 * u) := Nat.mul_le_mul_right _ (by omega)
          omega
        · have : r = 2 ^ 24 - 1 := by omega
          subst this
          omega
      · have hu : 2 ^ q * D ≤ 2 ^ 252 * D := Nat.mul_le_mul_right _ (Nat.pow_le_pow_right (by decide) c)
        have h3 : r * (2 ^ q * D) ≤ 2 ^ 24 * (2 ^ 252 * D) := Nat.mul_le_mul hr hu
        have hp : 0 < 2 ^ 252 * D := Nat.mul_pos (Nat.two_pow_pos _) hD
        generalize 2 ^ 252 * D = u at *
        omega
    obtain ⟨a, b, c, d⟩ := packed_value q r (if neg then 2 ^ 31 else 0) hr hq hx' (by cases neg <;> simp)
    refine rounds_core _ q r N D neg hD hN h1 h2 tie hn b a ?_ ?_ small
    · rw [d]; cases neg <;> simp
    · rw [c]; cases neg <;> simp

/-- An exact value: the nearest code (R75, R76). -/
theorem round_exact (neg : Bool) (m : Nat) (e : Int) (k : Nat) (hm : m ≠ 0) (hk : 0 ≤ e + 149 + k) :
    RoundsTo (fp32.round .rne false (.fin neg m e))
      (if neg then -((m * 2 ^ (e + 149 + k).toNat : Nat) : Int) else ((m * 2 ^ (e + 149 + k).toNat : Nat) : Int)) (2 ^ k) := by
  have hN : 0 < m * 2 ^ (e + 149 + k).toNat := Nat.mul_pos (Nat.pos_of_ne_zero hm) (Nat.two_pow_pos _)
  have lo : 2 ^ m.log2 ≤ m := Nat.log2_self_le hm
  have hn : 0 < gridOf m e → 2 ^ 23 * (2 ^ gridOf m e * 2 ^ k) ≤ m * 2 ^ (e + 149 + k).toNat := by
    intro h
    have : 2 ^ m.log2 * 2 ^ (e + 149 + k).toNat ≤ m * 2 ^ (e + 149 + k).toNat := Nat.mul_le_mul_right _ lo
    rw [← Nat.pow_add] at this ⊢
    rw [← Nat.pow_add]
    rwa [show 23 + (gridOf m e + k) = m.log2 + (e + 149 + k).toNat by unfold gridOf at *; omega]
  by_cases he : e ≥ max ((m.log2 : Int) + e - 23) (-149)
  · have hr : onGrid m e * (2 ^ gridOf m e * 2 ^ k) = m * 2 ^ (e + 149 + k).toNat := by
      unfold onGrid gridOf; dsimp only
      rw [if_pos he, ← Nat.pow_add, Nat.mul_assoc, ← Nat.pow_add]
      congr 2; omega
    refine round_rounds neg m e _ _ hm (Nat.two_pow_pos k) hN ?_ ?_ ?_ hn <;> rw [hr] <;> have := Nat.two_pow_pos (gridOf m e) <;>
      have := Nat.mul_pos this (Nat.two_pow_pos k) <;> omega
  · obtain ⟨j, hj⟩ : ∃ j : Nat, max ((m.log2 : Int) + e - 23) (-149) = e + j := ⟨(max ((m.log2 : Int) + e - 23) (-149) - e).toNat, by omega⟩
    have hr : onGrid m e = roundShift m j .rne false := by
      unfold onGrid; dsimp only; rw [if_neg he, hj]; congr 1; omega
    -- u: the weight of the lowest bit of m
    have hu : 2 ^ gridOf m e * 2 ^ k = 2 ^ j * 2 ^ (e + 149 + k).toNat := by
      unfold gridOf; rw [← Nat.pow_add, ← Nat.pow_add, hj]; congr 1; omega
    have near := roundShift_near m j
    have hup := Nat.two_pow_pos (e + 149 + k).toNat
    refine round_rounds neg m e _ _ hm (Nat.two_pow_pos k) hN ?_ ?_ ?_ hn <;> rw [hr, hu] <;>
      generalize roundShift m j .rne false = r at * <;> generalize 2 ^ (e + 149 + k).toNat = u at *
    · have := Nat.mul_le_mul_right u near.1
      simp only [Nat.add_mul, Nat.mul_assoc] at this ⊢; omega
    · have := Nat.mul_le_mul_right u near.2.1
      simp only [Nat.add_mul, Nat.mul_assoc] at this ⊢; omega
    · intro h
      apply near.2.2
      rcases h with h | h
      · left; apply Nat.eq_of_mul_eq_mul_right hup
        simp only [Nat.add_mul, Nat.mul_assoc] at h ⊢; omega
      · right; apply Nat.eq_of_mul_eq_mul_right hup
        simp only [Nat.add_mul, Nat.mul_assoc] at h ⊢; omega


/-! ### Values of codes, and operations on them -/

/-- The exact value of a finite number, in units of 2^-149 / 2^k, where it is a whole number of them. -/
abbrev scaledBy (k : Nat) (neg : Bool) (m : Nat) (e : Int) : Int := signed neg m * ((2 ^ (e + 149 + k).toNat : Nat) : Int)

/-! ### Values -/

theorem decode_fp32_eq (z : Nat) : fp32.decode z =
    if z % 2 ^ 31 > 0x7F7F_FFFF then
      (if (true && decide (z % 2 ^ 31 = 0x7F80_0000)) = true then .inf (decide (z / 2 ^ 31 % 2 = 1)) else .nan)
    else if z % 2 ^ 31 / 2 ^ 23 = 0 then .fin (decide (z / 2 ^ 31 % 2 = 1)) (z % 2 ^ 31 % 2 ^ 23) (1 - ((127 : Nat) : Int) - ((23 : Nat) : Int))
    else .fin (decide (z / 2 ^ 31 % 2 = 1)) (2 ^ 23 + z % 2 ^ 31 % 2 ^ 23) (((z % 2 ^ 31 / 2 ^ 23 : Nat) : Int) - ((127 : Nat) : Int) - ((23 : Nat) : Int)) := rfl

/-- A finite code is its sign, and its magnitude a whole number of units of 2^-149 (R68). -/
theorem decode_fp32 (z : Nat) (h : fp32Finite z) :
    ∃ m j : Nat, fp32.decode z = .fin (decide (2 ^ 31 ≤ z)) m ((j : Int) - 149)
      ∧ fp32Value z = signed (decide (2 ^ 31 ≤ z)) (m * 2 ^ j) := by
  obtain ⟨hz, hf⟩ := h
  have hs : decide (z / 2 ^ 31 % 2 = 1) = decide (2 ^ 31 ≤ z) := by
    by_cases h : 2 ^ 31 ≤ z
    · rw [decide_eq_true h, decide_eq_true (by omega)]
    · rw [decide_eq_false h, decide_eq_false (by omega)]
  have he : z % 2 ^ 31 / 2 ^ 23 = z / 2 ^ 23 % 256 := by omega
  have hm : z % 2 ^ 31 % 2 ^ 23 = z % 2 ^ 23 := by omega
  have ht : ¬ z % 2 ^ 31 > 0x7F7F_FFFF := by omega
  have hv : ∀ v : Nat, (if z / 2 ^ 31 % 2 = 1 then -(v : Int) else v) = signed (decide (2 ^ 31 ≤ z)) v := by
    intro v; rw [← hs]; unfold signed; by_cases h : z / 2 ^ 31 % 2 = 1
    · rw [if_pos h, if_pos (decide_eq_true h)]
    · rw [if_neg h, if_neg (fun c => h (of_decide_eq_true c))]
  rw [decode_fp32_eq, if_neg ht, hs, he, hm]
  unfold fp32Value
  dsimp only
  split
  · exact ⟨z % 2 ^ 23, 0, by congr 1, by rw [hv]; simp⟩
  · refine ⟨2 ^ 23 + z % 2 ^ 23, z / 2 ^ 23 % 256 - 1, by congr 1; omega, by rw [hv]⟩

theorem decode_nan (z : Nat) (h : fp32Nan z) : fp32.decode z = .nan := by
  obtain ⟨hz, h1, h2⟩ := h
  rw [decode_fp32_eq, if_pos (by omega), if_neg (by simp; omega)]

theorem signed_mul (n : Bool) (m j : Nat) : signed n (m * j) = signed n m * (j : Int) := by
  cases n <;> simp [signed, Int.neg_mul]

/-- A whole number of units, rounded. -/
theorem round_ofInt (i e : Int) (z : Bool) (k : Nat) (hk : 0 ≤ e + 149 + k) :
    (i ≠ 0 → RoundsTo (fp32.round .rne false (ofInt i e z)) (i * ((2 ^ (e + 149 + k).toNat : Nat) : Int)) (2 ^ k))
    ∧ (i = 0 → fp32.round .rne false (ofInt i e z) = if z then 2 ^ 31 else 0) := by
  constructor
  · intro hi
    have := round_exact (decide (i < 0)) i.natAbs e k (by omega) hk
    rw [ofInt, if_neg hi]
    have e1 : (if decide (i < 0) = true then -((i.natAbs * 2 ^ (e + 149 + k).toNat : Nat) : Int) else ((i.natAbs * 2 ^ (e + 149 + k).toNat : Nat) : Int))
        = i * ((2 ^ (e + 149 + k).toNat : Nat) : Int) := by
      by_cases h : i < 0
      · have : (i.natAbs : Int) = -i := by omega
        simp only [h, decide_true, if_true, Int.natCast_mul, this, Int.neg_mul, Int.neg_neg]
      · have : (i.natAbs : Int) = i := by omega
        simp only [h, decide_false, Bool.false_eq_true, if_false, Int.natCast_mul, this]
    rwa [e1] at this
  · rintro rfl
    cases z <;> rfl

/-- The rounded sum of two exact finite values. -/
theorem round_add (n1 n2 : Bool) (m1 m2 : Nat) (e1 e2 : Int) (k : Nat) (h1 : 0 ≤ e1 + 149 + k) (h2 : 0 ≤ e2 + 149 + k) :
    let N := scaledBy k n1 m1 e1 + scaledBy k n2 m2 e2
    let z := fp32.round .rne false ((Num.fin n1 m1 e1).add (.fin n2 m2 e2))
    (N ≠ 0 → RoundsTo z N (2 ^ k)) ∧ (N = 0 → z = if n1 && n2 then 2 ^ 31 else 0) := by
  dsimp only [Num.add]
  have w : ∀ (x e : Int), min e1 e2 ≤ e → x * 2 ^ (e - min e1 e2).toNat * ((2 ^ (min e1 e2 + 149 + k).toNat : Nat) : Int)
      = x * ((2 ^ (e + 149 + k).toNat : Nat) : Int) := by
    intro x e he
    have : ((2 ^ (e + 149 + k).toNat : Nat) : Int) = 2 ^ (e - min e1 e2).toNat * ((2 ^ (min e1 e2 + 149 + k).toNat : Nat) : Int) := by
      rw [show (e + 149 + k).toNat = (e - min e1 e2).toNat + (min e1 e2 + 149 + k).toNat by omega, Nat.pow_add]
      simp
    rw [this, Int.mul_assoc]
  have s : (signed n1 m1 * 2 ^ (e1 - min e1 e2).toNat + signed n2 m2 * 2 ^ (e2 - min e1 e2).toNat)
      * ((2 ^ (min e1 e2 + 149 + k).toNat : Nat) : Int) = scaledBy k n1 m1 e1 + scaledBy k n2 m2 e2 := by
    rw [Int.add_mul, w _ _ (by omega), w _ _ (by omega)]
  have hp : ((2 ^ (min e1 e2 + 149 + k).toNat : Nat) : Int) ≠ 0 := by
    have := Nat.two_pow_pos (min e1 e2 + 149 + k).toNat; omega
  have r := round_ofInt (signed n1 m1 * 2 ^ (e1 - min e1 e2).toNat + signed n2 m2 * 2 ^ (e2 - min e1 e2).toNat) (min e1 e2) (n1 && n2) k (by omega)
  rw [s] at r
  refine ⟨fun hN => r.1 fun h => hN ?_, fun hN => r.2 ?_⟩
  · rw [← s, h, Int.zero_mul]
  · rw [hN] at s
    exact (Int.mul_eq_zero.1 s).resolve_right hp

/-- The rounded exact product. -/
theorem round_fin (n : Bool) (m : Nat) (e : Int) (k : Nat) (hk : 0 ≤ e + 149 + k) :
    let z := fp32.round .rne false (.fin n m e)
    (scaledBy k n m e ≠ 0 → RoundsTo z (scaledBy k n m e) (2 ^ k)) ∧ (scaledBy k n m e = 0 → z = if n then 2 ^ 31 else 0) := by
  have hp := Nat.two_pow_pos (e + 149 + k).toNat
  by_cases hm : m = 0
  · subst hm
    refine ⟨fun h => absurd ?_ h, fun _ => by cases n <;> rfl⟩
    cases n <;> simp [scaledBy, signed]
  · refine ⟨fun _ => ?_, fun h => ?_⟩
    · have := round_exact n m e k hm hk
      have e1 : (if n = true then -((m * 2 ^ (e + 149 + k).toNat : Nat) : Int) else ((m * 2 ^ (e + 149 + k).toNat : Nat) : Int)) = scaledBy k n m e := by
        cases n <;> simp [scaledBy, signed, Int.neg_mul]
      rwa [e1] at this
    · exfalso
      rcases Int.mul_eq_zero.1 h with h | h
      · cases n <;> simp [signed] at h <;> omega
      · omega


theorem scaled_value (k : Nat) (n : Bool) (m j : Nat) : scaledBy k n m ((j : Int) - 149) = signed n (m * 2 ^ j) * ((2 ^ k : Nat) : Int) := by
  unfold scaledBy
  rw [show ((j : Int) - 149 + 149 + k).toNat = j + k by omega, Nat.pow_add, signed_mul, Int.natCast_mul, Int.mul_assoc]

theorem signed_not (n : Bool) (m : Nat) : signed (!n) m = -signed n m := by cases n <;> simp [signed]

/-! ### The operations of FP32 codes (R80 to R82, R87) -/

theorem fp_add (x y : Nat) (hx : fp32Finite x) (hy : fp32Finite y) :
    FpIs (fp32.round .rne false ((fp32.decode x).add (fp32.decode y))) (fp32Value x + fp32Value y) 1
      (decide (2 ^ 31 ≤ x) && decide (2 ^ 31 ≤ y)) := by
  obtain ⟨m1, j1, e1, v1⟩ := decode_fp32 x hx
  obtain ⟨m2, j2, e2, v2⟩ := decode_fp32 y hy
  have r := round_add (decide (2 ^ 31 ≤ x)) (decide (2 ^ 31 ≤ y)) m1 m2 ((j1 : Int) - 149) ((j2 : Int) - 149) 0 (by omega) (by omega)
  simp only [scaled_value, Nat.pow_zero, Int.natCast_one, Int.mul_one] at r
  rw [e1, e2, v1, v2]
  exact r

theorem fp_sub (x y : Nat) (hx : fp32Finite x) (hy : fp32Finite y) :
    FpIs (fp32.round .rne false ((fp32.decode x).add (fp32.decode y).neg)) (fp32Value x - fp32Value y) 1
      (decide (2 ^ 31 ≤ x) && !decide (2 ^ 31 ≤ y)) := by
  obtain ⟨m1, j1, e1, v1⟩ := decode_fp32 x hx
  obtain ⟨m2, j2, e2, v2⟩ := decode_fp32 y hy
  have r := round_add (decide (2 ^ 31 ≤ x)) (!decide (2 ^ 31 ≤ y)) m1 m2 ((j1 : Int) - 149) ((j2 : Int) - 149) 0 (by omega) (by omega)
  simp only [scaled_value, Nat.pow_zero, Int.natCast_one, Int.mul_one, signed_not] at r
  rw [e1, e2, v1, v2]
  exact r

/-- The exact product in units of 2^-298. -/
theorem scaled_product (x y : Bool) (m1 m2 j1 j2 : Nat) :
    scaledBy 149 (x != y) (m1 * m2) ((j1 : Int) - 149 + ((j2 : Int) - 149)) = signed x (m1 * 2 ^ j1) * signed y (m2 * 2 ^ j2) := by
  unfold scaledBy
  rw [show ((j1 : Int) - 149 + ((j2 : Int) - 149) + 149 + ((149 : Nat) : Int)).toNat = j1 + j2 by omega, ← signed_mul]
  have h : m1 * m2 * 2 ^ (j1 + j2) = m1 * 2 ^ j1 * (m2 * 2 ^ j2) := by
    rw [Nat.pow_add]; simp only [Nat.mul_assoc, Nat.mul_left_comm]
  rw [h]
  generalize m1 * 2 ^ j1 = a
  generalize m2 * 2 ^ j2 = b
  cases x <;> cases y <;> simp [signed, Int.neg_mul, Int.mul_neg]

theorem fp_mul (x y : Nat) (hx : fp32Finite x) (hy : fp32Finite y) :
    FpIs (fp32.round .rne false ((fp32.decode x).mul (fp32.decode y))) (fp32Value x * fp32Value y) (2 ^ 149)
      (decide (2 ^ 31 ≤ x) != decide (2 ^ 31 ≤ y)) := by
  obtain ⟨m1, j1, e1, v1⟩ := decode_fp32 x hx
  obtain ⟨m2, j2, e2, v2⟩ := decode_fp32 y hy
  have r := round_fin (decide (2 ^ 31 ≤ x) != decide (2 ^ 31 ≤ y)) (m1 * m2) ((j1 : Int) - 149 + ((j2 : Int) - 149)) 149 (by omega)
  simp only [scaled_product] at r
  rw [e1, e2, v1, v2]
  exact r

theorem fp_fma (x y w : Nat) (hx : fp32Finite x) (hy : fp32Finite y) (hw : fp32Finite w) :
    FpIs (fp32.round .rne false ((fp32.decode x).fma (fp32.decode y) (fp32.decode w)))
      (fp32Value x * fp32Value y + fp32Value w * ((2 ^ 149 : Nat) : Int)) (2 ^ 149)
      ((decide (2 ^ 31 ≤ x) != decide (2 ^ 31 ≤ y)) && decide (2 ^ 31 ≤ w)) := by
  obtain ⟨m1, j1, e1, v1⟩ := decode_fp32 x hx
  obtain ⟨m2, j2, e2, v2⟩ := decode_fp32 y hy
  obtain ⟨m3, j3, e3, v3⟩ := decode_fp32 w hw
  have r := round_add (decide (2 ^ 31 ≤ x) != decide (2 ^ 31 ≤ y)) (decide (2 ^ 31 ≤ w)) (m1 * m2) m3
    ((j1 : Int) - 149 + ((j2 : Int) - 149)) ((j3 : Int) - 149) 149 (by omega) (by omega)
  simp only [scaled_product, scaled_value] at r
  rw [e1, e2, e3, v1, v2, v3]
  exact r

/-- The rounded reciprocal (R82): a quotient known to 100 bits and more, with half a unit for a remainder, rounds as the exact
one does. -/
theorem round_rcp (n : Bool) (m j : Nat) (hm : m ≠ 0) :
    RoundsTo (fp32.round .rne false (Num.fin n m ((j : Int) - 149)).rcp) (if n then -((2 ^ 298 : Nat) : Int) else ((2 ^ 298 : Nat) : Int))
      (m * 2 ^ j) := by
  have hmp : 0 < m := Nat.pos_of_ne_zero hm
  have lo : 2 ^ m.log2 ≤ m := Nat.log2_self_le hm
  have hi : m < 2 ^ (m.log2 + 1) := Nat.lt_log2_self
  generalize hk : m.log2 + 100 = k
  have hdm : m * (2 ^ k / m) + 2 ^ k % m = 2 ^ k := Nat.div_add_mod _ _
  have hrem : 2 ^ k % m < m := Nat.mod_lt _ hmp
  have hq99 : 2 ^ 99 ≤ 2 ^ k / m := by
    rw [Nat.le_div_iff_mul_le hmp, ← hk]
    calc 2 ^ 99 * m ≤ 2 ^ 99 * 2 ^ (m.log2 + 1) := Nat.mul_le_mul_left _ (Nat.le_of_lt hi)
      _ = 2 ^ (m.log2 + 100) := by rw [← Nat.pow_add]; congr 1; omega
  -- every case: a magnitude m', exponent e', of which p / (m × 2^c) is the exact value
  have main : ∀ (m' c : Nat) (e' : Int), 2 ^ 99 ≤ m' → e' = 149 - (j : Int) - c →
      (∀ d : Nat, 76 ≤ d → let r := roundShift m' d .rne false
        2 * (r * 2 ^ d) * m ≤ 2 * 2 ^ c + 2 ^ d * m ∧ 2 * 2 ^ c ≤ 2 * (r * 2 ^ d) * m + 2 ^ d * m
          ∧ ((2 * (r * 2 ^ d) * m = 2 * 2 ^ c + 2 ^ d * m ∨ 2 * 2 ^ c = 2 * (r * 2 ^ d) * m + 2 ^ d * m) → r % 2 = 0)
          ∧ (2 ^ (23 + d) ≤ m' → 2 ^ (23 + d) * m ≤ 2 ^ c)) →
      RoundsTo (fp32.round .rne false (.fin n m' e')) (if n then -((2 ^ 298 : Nat) : Int) else ((2 ^ 298 : Nat) : Int)) (m * 2 ^ j) := by
    intro m' c e' h99 he' hd
    have hl : 99 ≤ m'.log2 := (Nat.le_log2 (by omega)).2 h99
    obtain ⟨d, hqd⟩ : ∃ d : Nat, max ((m'.log2 : Int) + e' - 23) (-149) = e' + d :=
      ⟨(max ((m'.log2 : Int) + e' - 23) (-149) - e').toNat, by omega⟩
    have hd77 : 76 ≤ d := by omega
    have hr : onGrid m' e' = roundShift m' d .rne false := by
      unfold onGrid; dsimp only; rw [if_neg (by omega), hqd]; congr 1; omega
    have hg : gridOf m' e' + (j + c) = d + 298 := by unfold gridOf; rw [hqd]; omega
    have hu : 2 ^ gridOf m' e' * (m * 2 ^ j) * 2 ^ c = 2 ^ d * m * 2 ^ 298 := by
      have : 2 ^ gridOf m' e' * 2 ^ j * 2 ^ c = 2 ^ d * 2 ^ 298 := by
        rw [← Nat.pow_add, ← Nat.pow_add, Nat.add_assoc, hg, Nat.pow_add]
      calc 2 ^ gridOf m' e' * (m * 2 ^ j) * 2 ^ c = m * (2 ^ gridOf m' e' * 2 ^ j * 2 ^ c) := by
            simp only [Nat.mul_assoc, Nat.mul_left_comm]
        _ = 2 ^ d * m * 2 ^ 298 := by rw [this, ← Nat.mul_assoc, Nat.mul_comm m]
    obtain ⟨a1, a2, a3, a4⟩ := hd d hd77
    have hcp := Nat.two_pow_pos c
    have hlog : 2 ^ m'.log2 ≤ m' := Nat.log2_self_le (by omega)
    have hgl : 0 < gridOf m' e' → m'.log2 = 23 + d := by unfold gridOf; rw [hqd]; omega
    have hN : 0 < (2 : Nat) ^ 298 := Nat.two_pow_pos 298
    clear hg
    generalize (2 : Nat) ^ 298 = N at *
    have e1 : ∀ r, 2 * (r * (2 ^ gridOf m' e' * (m * 2 ^ j))) * 2 ^ c = 2 * (r * 2 ^ d) * m * N := by
      intro r
      calc 2 * (r * (2 ^ gridOf m' e' * (m * 2 ^ j))) * 2 ^ c = 2 * r * (2 ^ gridOf m' e' * (m * 2 ^ j) * 2 ^ c) := by
            simp only [Nat.mul_assoc]
        _ = _ := by rw [hu]; simp only [Nat.mul_assoc]
    have e2 : 2 * N * 2 ^ c = 2 * 2 ^ c * N := by rw [Nat.mul_assoc, Nat.mul_comm N, ← Nat.mul_assoc]
    have hup : 0 < m * 2 ^ j := Nat.mul_pos hmp (Nat.two_pow_pos j)
    refine round_rounds n m' e' N (m * 2 ^ j) (by omega) hup hN ?_ ?_ ?_ ?_
    all_goals try rw [hr]
    all_goals generalize roundShift m' d .rne false = r at *
    · apply Nat.le_of_mul_le_mul_right _ hcp
      rw [Nat.add_mul, e1, e2, hu, ← Nat.add_mul]
      exact Nat.mul_le_mul_right N a1
    · apply Nat.le_of_mul_le_mul_right _ hcp
      rw [Nat.add_mul, e1, e2, hu, ← Nat.add_mul]
      exact Nat.mul_le_mul_right N a2
    · intro h
      apply a3
      rcases h with h | h
      · left
        apply Nat.eq_of_mul_eq_mul_right hN
        rw [Nat.add_mul, ← e1, ← e2, ← hu, ← Nat.add_mul, h]
      · right
        apply Nat.eq_of_mul_eq_mul_right hN
        rw [Nat.add_mul, ← e1, ← e2, ← hu, ← Nat.add_mul, h]
    · intro h
      rw [hgl h] at hlog
      apply Nat.le_of_mul_le_mul_right _ hcp
      calc 2 ^ 23 * (2 ^ gridOf m' e' * (m * 2 ^ j)) * 2 ^ c = 2 ^ 23 * (2 ^ gridOf m' e' * (m * 2 ^ j) * 2 ^ c) := by rw [Nat.mul_assoc]
        _ = 2 ^ (23 + d) * m * N := by rw [hu, Nat.pow_add]; simp only [Nat.mul_assoc]
        _ ≤ 2 ^ c * N := Nat.mul_le_mul_right N (a4 hlog)
        _ = _ := Nat.mul_comm _ _
  unfold Num.rcp
  dsimp only
  rw [if_neg hm, hk]
  unfold sticky
  generalize 2 ^ k / m = q at *
  generalize 2 ^ k % m = t at *
  split
  · -- the quotient is exact
    rename_i ht
    have ht : t = 0 := by simpa using ht
    refine main q k _ hq99 (by omega) fun d hd => ?_
    obtain ⟨b1, b2, b3⟩ := roundShift_near q d
    dsimp only
    have hqm : q * m = 2 ^ k := by rw [Nat.mul_comm]; omega
    rw [← hqm]
    generalize roundShift q d .rne false = r at *
    generalize r * 2 ^ d = a at *
    refine ⟨?_, ?_, ?_, ?_⟩
    · have := Nat.mul_le_mul_right m b1; rwa [Nat.add_mul, Nat.mul_assoc 2 q m] at this
    · have := Nat.mul_le_mul_right m b2; rwa [Nat.add_mul, Nat.mul_assoc 2 q m] at this
    · intro h
      apply b3
      rcases h with h | h
      · left; apply Nat.eq_of_mul_eq_mul_right hmp; rw [Nat.add_mul, Nat.mul_assoc 2 q m, h]
      · right; apply Nat.eq_of_mul_eq_mul_right hmp; rw [Nat.add_mul, Nat.mul_assoc 2 q m, h]
    · exact fun h => Nat.mul_le_mul_right m h
  · rename_i ht
    have ht : 0 < t := Nat.pos_of_ne_zero (by simpa using ht)
    refine main (2 * q + 1) (k + 1) _ (by omega) (by omega) fun d hd => ?_
    obtain ⟨b1, b2, -⟩ := roundShift_near (2 * q + 1) d
    dsimp only
    obtain ⟨w, hw⟩ : ∃ w, 2 ^ d = 4 * w := ⟨2 ^ (d - 2), by rw [show d = 2 + (d - 2) by omega, Nat.pow_add]; simp⟩
    have hp : 2 ^ (k + 1) = 2 * (q * m) + 2 * t := by rw [Nat.pow_succ, ← hdm, Nat.mul_comm m q]; omega
    have h23 : 2 ^ (23 + d) = 4 * (2 ^ 23 * w) := by rw [Nat.pow_add, hw]; simp only [Nat.mul_left_comm]
    rw [hp, h23]
    generalize roundShift (2 * q + 1) d .rne false = r at *
    have hw4 : r * 2 ^ d = 4 * (r * w) := by rw [hw, Nat.mul_left_comm]
    rw [hw4] at b1 b2 ⊢
    rw [hw] at b1 b2 ⊢
    generalize r * w = a at *
    have c1 : 2 * (4 * a) ≤ 4 * q + 4 * w := by omega
    have c2 : 4 * q + 4 ≤ 2 * (4 * a) + 4 * w := by omega
    have d1 := Nat.mul_le_mul_right m c1
    have d2 := Nat.mul_le_mul_right m c2
    rw [Nat.add_mul, Nat.mul_assoc 4 q m] at d1
    rw [Nat.add_mul, Nat.add_mul, Nat.mul_assoc 4 q m] at d2
    refine ⟨by omega, by omega, fun h => by omega, fun h => ?_⟩
    have c3 : 4 * (2 ^ 23 * w) ≤ 2 * q := by omega
    have d3 := Nat.mul_le_mul_right m c3
    rw [Nat.mul_assoc 2 q m] at d3
    omega

/-- V.RCP of a finite nonzero code: 2^298 units of 2^-149 over the operand's units (R82). -/
theorem fp_rcp (x : Nat) (hx : fp32Finite x) (h0 : fp32Value x ≠ 0) :
    RoundsTo (fp32.round .rne false (fp32.decode x).rcp)
      (if 2 ^ 31 ≤ x then -((2 ^ 298 : Nat) : Int) else ((2 ^ 298 : Nat) : Int)) (fp32Value x).natAbs := by
  obtain ⟨m, j, e, v⟩ := decode_fp32 x hx
  rw [e, v]
  rw [v] at h0
  have hm : m ≠ 0 := by
    rintro rfl; apply h0; cases decide (2 ^ 31 ≤ x) <;> simp [signed]
  have hab : (signed (decide (2 ^ 31 ≤ x)) (m * 2 ^ j)).natAbs = m * 2 ^ j := by
    generalize m * 2 ^ j = a
    cases decide (2 ^ 31 ≤ x) <;> simp only [signed] <;> omega
  rw [hab]
  have := round_rcp (decide (2 ^ 31 ≤ x)) m j hm
  simpa only [decide_eq_true_eq] using this

/-- Scaled to one exponent, values compare as they are. -/
theorem num_lt (n1 n2 : Bool) (m1 m2 : Nat) (e1 e2 : Int) (k : Nat) (h1 : 0 ≤ e1 + 149 + k) (h2 : 0 ≤ e2 + 149 + k) :
    (Num.fin n1 m1 e1).lt (.fin n2 m2 e2) = decide (scaledBy k n1 m1 e1 < scaledBy k n2 m2 e2) := by
  unfold Num.lt scaledBy
  dsimp only
  obtain ⟨g, hg⟩ : ∃ g : Nat, min e1 e2 + 149 + k = g := ⟨(min e1 e2 + 149 + k).toNat, by omega⟩
  have a1 : (e1 + 149 + k).toNat = (e1 - min e1 e2).toNat + g := by omega
  have a2 : (e2 + 149 + k).toNat = (e2 - min e1 e2).toNat + g := by omega
  rw [a1, a2, Nat.pow_add, Nat.pow_add, Int.natCast_mul, Int.natCast_mul, ← Int.mul_assoc, ← Int.mul_assoc]
  have hp : (0 : Int) < ((2 ^ g : Nat) : Int) := by have := Nat.two_pow_pos g; omega
  rw [decide_eq_decide]
  constructor
  · intro h
    have := Int.mul_lt_mul_of_pos_right h hp
    simpa using this
  · intro h
    have := Int.lt_of_mul_lt_mul_right h (Int.le_of_lt hp)
    simpa using this

/-- Comparison of finite codes is comparison of their values (R81). -/
theorem fp_lt (x y : Nat) (hx : fp32Finite x) (hy : fp32Finite y) :
    (fp32.decode x).lt (fp32.decode y) = decide (fp32Value x < fp32Value y) := by
  obtain ⟨m1, j1, e1, v1⟩ := decode_fp32 x hx
  obtain ⟨m2, j2, e2, v2⟩ := decode_fp32 y hy
  rw [e1, e2, v1, v2, num_lt _ _ _ _ _ _ 0 (by omega) (by omega)]
  simp only [scaled_value, Nat.pow_zero, Int.natCast_one, Int.mul_one]

/-- A finite code rounds to its own value. -/
theorem fp_self (x : Nat) (hx : fp32Finite x) :
    FpIs (fp32.round .rne false (fp32.decode x)) (fp32Value x) 1 (decide (2 ^ 31 ≤ x)) := by
  obtain ⟨m1, j1, e1, v1⟩ := decode_fp32 x hx
  have r := round_fin (decide (2 ^ 31 ≤ x)) m1 ((j1 : Int) - 149) 0 (by omega)
  simp only [scaled_value, Nat.pow_zero, Int.natCast_one, Int.mul_one] at r
  rw [e1, v1]
  exact r

theorem fp_neg (x : Nat) (hx : fp32Finite x) :
    FpIs (fp32.round .rne false (fp32.decode x).neg) (-fp32Value x) 1 (!decide (2 ^ 31 ≤ x)) := by
  obtain ⟨m1, j1, e1, v1⟩ := decode_fp32 x hx
  have r := round_fin (!decide (2 ^ 31 ≤ x)) m1 ((j1 : Int) - 149) 0 (by omega)
  simp only [scaled_value, Nat.pow_zero, Int.natCast_one, Int.mul_one, signed_not] at r
  rw [e1, v1]
  exact r

theorem fp_abs (x : Nat) (hx : fp32Finite x) :
    FpIs (fp32.round .rne false (fp32.decode x).abs) (fp32Value x).natAbs 1 false := by
  obtain ⟨m1, j1, e1, v1⟩ := decode_fp32 x hx
  have r := round_fin false m1 ((j1 : Int) - 149) 0 (by omega)
  simp only [scaled_value, Nat.pow_zero, Int.natCast_one, Int.mul_one] at r
  rw [e1, v1]
  have h : ∀ (b : Bool) (a : Nat), ((signed b a).natAbs : Int) = signed false a := by
    intro b a; cases b <;> simp [signed]
  rw [h]
  exact r

/-- An I32 code converts to the nearest FP32 code (R78). -/
theorem fp_cvt (x : Nat) : FpIs (fp32.round .rne false (decodeElem 0xC x 0)) (intOf 0xC x * ((2 ^ 149 : Nat) : Int)) 1 false := by
  have r := round_fin (decide (intOf 0xC x < 0)) (intOf 0xC x).natAbs 0 0 (by omega)
  have hs : signed (decide (intOf 0xC x < 0)) (intOf 0xC x).natAbs = intOf 0xC x := by
    unfold signed; split <;> rename_i h <;> simp at h <;> omega
  have e : scaledBy 0 (decide (intOf 0xC x < 0)) (intOf 0xC x).natAbs 0 = intOf 0xC x * ((2 ^ 149 : Nat) : Int) := by
    unfold scaledBy; rw [hs]; rfl
  rw [e] at r
  refine ⟨r.1, fun h => ?_⟩
  have h0 : intOf 0xC x = 0 := by
    rcases Int.mul_eq_zero.1 h with h | h
    · exact h
    · simp at h
  have := r.2 h
  rw [h0] at this
  simp only [Int.lt_irrefl, decide_false, Bool.false_eq_true, if_false] at this
  show fp32.round .rne false (.fin (decide (intOf 0xC x < 0)) (intOf 0xC x).natAbs 0) = _
  rw [h0]
  exact this

/-- A value whose rounding stays finite is rounded alike with saturation. -/
theorem round_sat (x : Num) (h : fp32Finite (fp32.round .rne false x)) : fp32.round .rne true x = fp32.round .rne false x := by
  have key : ∀ (n : Bool) (r t : Nat), fp32Finite (if r > fp32.top then fp32.overflow .rne false n else t) →
      (if r > fp32.top then fp32.overflow .rne true n else t) = if r > fp32.top then fp32.overflow .rne false n else t := by
    intro n r t
    split
    · intro h; exfalso; revert h; cases n <;> decide
    · exact fun _ => rfl
  revert h
  cases x with
  | nan => exact fun _ => rfl
  | inf n => cases n <;> decide
  | fin n m e =>
    unfold Fmt.round
    dsimp only
    by_cases h : m = 0
    · rw [if_pos h, if_pos h]; exact fun _ => rfl
    · rw [if_neg h, if_neg h]; exact key _ _ _

/-- V.CVT of an I32 element to FP32, with and without saturation (R78, R162). -/
theorem fp_convert (x : Nat) (sat : Bool) :
    FpIs (convert 0xC 0 x 0 .rne sat) (intOf 0xC x * ((2 ^ 149 : Nat) : Int)) 1 false := by
  have h := fp_cvt x
  have e : ∀ b, convert 0xC 0 x 0 .rne b = fp32.round .rne b (decodeElem 0xC x 0) := fun _ => rfl
  rw [e]
  cases sat
  · exact h
  · rw [round_sat]
    · exact h
    · by_cases h0 : intOf 0xC x * ((2 ^ 149 : Nat) : Int) = 0
      · rw [h.2 h0]; decide
      · have r := h.1 h0
        unfold RoundsTo at r
        rw [if_neg] at r
        · exact r.1
        · have : (intOf 0xC x).natAbs ≤ 2 ^ 32 := by
            have h32 : typeBits 0xC = 32 := rfl
            unfold intOf; rw [h32]; dsimp only; split <;> omega
          rw [Int.natAbs_mul, Int.natAbs_natCast, Nat.not_le, Nat.mul_one]
          calc _ ≤ 2 ^ 32 * 2 ^ 149 := Nat.mul_le_mul_right _ this
            _ < _ := by decide
end Sys2Proof.Machine
end

