-- ==== Sys2Proof/Laws/Sums.lean ====
section
/-! SUPPORT. Sums, extremes, roots and conversions of FP32 codes: what a reduction, a group of a BF16 run, V.RSQRT, V.EXP2 of
a whole number and V.CVT to an integer give (R78, R82 to R84). -/

namespace Sys2Proof.Machine

/-! ### Codes come back -/

/-- A result of rounding is finite, an infinity or the canonical NaN. -/
theorem round_codes (x : Num) :
    fp32Finite (fp32.round .rne false x) ∨ fp32.round .rne false x = 0x7F80_0000 ∨ fp32.round .rne false x = 0xFF80_0000
      ∨ fp32.round .rne false x = 0x7FC0_0000 := by
  cases x with
  | nan => exact .inr (.inr (.inr rfl))
  | inf n => cases n
             · exact .inr (.inl rfl)
             · exact .inr (.inr (.inl rfl))
  | fin n m e =>
    by_cases h : m = 0
    · subst h; left
      have : fp32.round .rne false (.fin n 0 e) = if n then 2 ^ 31 else 0 := rfl
      rw [this]; cases n <;> exact ⟨by decide, by decide⟩
    · rw [round_fp32 n m e h]
      obtain ⟨hr, hq⟩ := onGrid_bounds m e h
      generalize gridOf m e = q at *
      generalize onGrid m e = r at *
      by_cases hx : 0x7F7F_FFFF < packed q r
      · rw [if_pos hx]; cases n
        · exact .inr (.inl rfl)
        · exact .inr (.inr (.inl rfl))
      · rw [if_neg hx]; left
        have := packed_value q r (if n then 2 ^ 31 else 0) hr hq (by omega) (by cases n <;> simp)
        exact this.1

/-- A finite code rounds to itself. -/
theorem round_decode_fin (z : Nat) (h : fp32Finite z) : fp32.round .rne false (fp32.decode z) = z := by
  obtain ⟨hz, hf⟩ := h
  have hs : (if decide (z / 2 ^ 31 % 2 = 1) = true then 2 ^ 31 else 0) = z / 2 ^ 31 * 2 ^ 31 := by
    by_cases h : z / 2 ^ 31 % 2 = 1
    · rw [if_pos (by simpa using h)]; omega
    · rw [if_neg (by simpa using h)]; omega
  rw [decode_fp32_eq, if_neg (by omega)]
  split
  · rename_i he
    by_cases hm : z % 2 ^ 31 % 2 ^ 23 = 0
    · rw [hm]
      show (if decide (z / 2 ^ 31 % 2 = 1) = true then 2 ^ 31 else 0) = z
      rw [hs]; omega
    · rw [round_fp32 _ _ _ hm, hs]
      have hl : (z % 2 ^ 31 % 2 ^ 23).log2 < 23 := (Nat.log2_lt hm).2 (Nat.mod_lt _ (by decide))
      have hg : gridOf (z % 2 ^ 31 % 2 ^ 23) (1 - ((127 : Nat) : Int) - ((23 : Nat) : Int)) = 0 := by unfold gridOf; omega
      have ho : onGrid (z % 2 ^ 31 % 2 ^ 23) (1 - ((127 : Nat) : Int) - ((23 : Nat) : Int)) = z % 2 ^ 31 % 2 ^ 23 := by
        unfold onGrid; dsimp only
        have : max (((z % 2 ^ 31 % 2 ^ 23).log2 : Int) + (1 - ((127 : Nat) : Int) - ((23 : Nat) : Int)) - 23) (-149) = -149 := by omega
        rw [this, if_pos (by omega)]
        show _ * 2 ^ 0 = _
        omega
      rw [hg, ho]
      unfold packed
      rw [if_pos (Nat.mod_lt _ (by decide)), if_neg (by omega)]
      omega
  · rename_i he
    generalize hE : z % 2 ^ 31 / 2 ^ 23 = E at *
    have hm0 : 2 ^ 23 + z % 2 ^ 31 % 2 ^ 23 ≠ 0 := by omega
    rw [round_fp32 _ _ _ hm0, hs]
    have hl : (2 ^ 23 + z % 2 ^ 31 % 2 ^ 23).log2 = 23 := by rw [Nat.log2_eq_iff hm0]; omega
    have hg : gridOf (2 ^ 23 + z % 2 ^ 31 % 2 ^ 23) ((E : Int) - ((127 : Nat) : Int) - ((23 : Nat) : Int)) = E - 1 := by
      unfold gridOf; rw [hl]; omega
    have ho : onGrid (2 ^ 23 + z % 2 ^ 31 % 2 ^ 23) ((E : Int) - ((127 : Nat) : Int) - ((23 : Nat) : Int))
        = 2 ^ 23 + z % 2 ^ 31 % 2 ^ 23 := by
      unfold onGrid; dsimp only; rw [hl]
      have : max (((23 : Nat) : Int) + ((E : Int) - ((127 : Nat) : Int) - ((23 : Nat) : Int)) - 23) (-149) = (E : Int) - 150 := by omega
      rw [this, if_pos (by omega), show ((E : Int) - ((127 : Nat) : Int) - ((23 : Nat) : Int) - ((E : Int) - 150)).toNat = 0 by omega]
      omega
    rw [hg, ho]
    have hp : packed (E - 1) (2 ^ 23 + z % 2 ^ 31 % 2 ^ 23) = E * 2 ^ 23 + z % 2 ^ 31 % 2 ^ 23 := by
      unfold packed
      rw [if_neg (by omega), if_neg (by omega)]
      omega
    rw [hp, if_neg (by omega)]
    omega

/-- So does every result of rounding. -/
theorem round_twice (x : Num) : fp32.round .rne false (fp32.decode (fp32.round .rne false x)) = fp32.round .rne false x := by
  rcases round_codes x with h | h | h | h
  · exact round_decode_fin _ h
  all_goals rw [h]; decide

/-! ### Reductions (R83, R163) -/

/-- V.RSUM's chain of partial sums: each is the one before plus the next element, rounded once; the last is the result. -/
theorem sum_chain (l : List Nat) (a : Nat) (ha : fp32.round .rne false (fp32.decode a) = a) (hl : ∀ y ∈ l, fp32Finite y) :
    ∃ p : Nat → Nat, p 0 = a
      ∧ l.foldl (fun p x => fp32.round .rne false ((fp32.decode p).add (fp32.decode x))) a = p l.length
      ∧ fp32.round .rne false (fp32.decode (p l.length)) = p l.length
      ∧ ∀ i y, l[i]? = some y → fp32Finite (p i) →
        FpIs (p (i + 1)) (fp32Value (p i) + fp32Value y) 1 (decide (2 ^ 31 ≤ p i) && decide (2 ^ 31 ≤ y)) := by
  induction l generalizing a with
  | nil => exact ⟨fun _ => a, rfl, rfl, ha, fun i y h => by simp at h⟩
  | cons x l ih =>
    obtain ⟨p, h0, h1, h2, h3⟩ := ih (fp32.round .rne false ((fp32.decode a).add (fp32.decode x))) (round_twice _)
      (fun y hy => hl y (List.mem_cons_of_mem _ hy))
    refine ⟨fun i => if i = 0 then a else p (i - 1), rfl, ?_, ?_, ?_⟩
    · simpa using h1
    · simpa using h2
    · intro i y hi hf
      cases i with
      | zero =>
        simp only [List.getElem?_cons_zero, Option.some.injEq] at hi
        subst hi
        simp only [if_true, Nat.zero_add, Nat.one_ne_zero, if_false, Nat.sub_self, h0] at hf ⊢
        exact fp_add a x hf (hl x (List.mem_cons_self ..))
      | succ i =>
        simp only [Nat.add_one_ne_zero, if_false, Nat.add_sub_cancel] at hf ⊢
        rw [List.getElem?_cons_succ] at hi
        exact h3 i y hi hf

theorem CodeLe.refl (x : Nat) : CodeLe x x := .inr ⟨rfl, id⟩

theorem CodeLe.trans {x y z : Nat} (h : CodeLe x y) (k : CodeLe y z) : CodeLe x z := by
  unfold CodeLe at *
  rcases h with h | ⟨h, h'⟩ <;> rcases k with k | ⟨k, k'⟩
  · left; omega
  · left; omega
  · left; omega
  · right; exact ⟨by omega, fun c => h' (k' c)⟩

theorem decode_isNan (x : Nat) (hx : fp32Finite x) : (fp32.decode x).isNan = false := by
  obtain ⟨m, j, e, -⟩ := decode_fp32 x hx; rw [e]; rfl

theorem decode_isNeg (x : Nat) (hx : fp32Finite x) : (fp32.decode x).isNeg = decide (2 ^ 31 ≤ x) := by
  obtain ⟨m, j, e, -⟩ := decode_fp32 x hx; rw [e]; rfl

/-- The greater of two finite codes is one of them, with both at or below it. -/
theorem max_code (x y : Nat) (hx : fp32Finite x) (hy : fp32Finite y) :
    ∃ z, (z = x ∨ z = y) ∧ (fp32.decode x).max (fp32.decode y) = fp32.decode z ∧ CodeLe x z ∧ CodeLe y z := by
  unfold Num.max
  rw [decode_isNan x hx, decode_isNan y hy, fp_lt x y hx hy, fp_lt y x hy hx, decode_isNeg x hx]
  simp only [Bool.false_eq_true, if_false, decide_eq_true_eq]
  unfold CodeLe
  split
  · exact ⟨y, .inr rfl, rfl, by omega, by omega⟩
  · split
    · exact ⟨x, .inl rfl, rfl, by omega, by omega⟩
    · split
      · exact ⟨y, .inr rfl, rfl, by omega, by omega⟩
      · exact ⟨x, .inl rfl, rfl, by omega, by omega⟩

/-- The lesser of two finite codes likewise. -/
theorem min_code (x y : Nat) (hx : fp32Finite x) (hy : fp32Finite y) :
    ∃ z, (z = x ∨ z = y) ∧ (fp32.decode x).min (fp32.decode y) = fp32.decode z ∧ CodeLe z x ∧ CodeLe z y := by
  unfold Num.min
  rw [decode_isNan x hx, decode_isNan y hy, fp_lt x y hx hy, fp_lt y x hy hx, decode_isNeg x hx]
  simp only [Bool.false_eq_true, if_false, decide_eq_true_eq]
  unfold CodeLe
  split
  · exact ⟨x, .inl rfl, rfl, by omega, by omega⟩
  · split
    · exact ⟨y, .inr rfl, rfl, by omega, by omega⟩
    · split
      · exact ⟨x, .inl rfl, rfl, by omega, by omega⟩
      · exact ⟨y, .inr rfl, rfl, by omega, by omega⟩

/-- V.RMAX over finite codes gives one of them, with every other at or below it. -/
theorem fold_max (l : List Nat) (a : Nat) (ha : fp32Finite a) (hl : ∀ y ∈ l, fp32Finite y) :
    ∃ z, z ∈ a :: l ∧ l.foldl (fun p x => p.max (fp32.decode x)) (fp32.decode a) = fp32.decode z ∧ ∀ y ∈ a :: l, CodeLe y z := by
  induction l generalizing a with
  | nil => exact ⟨a, by simp, rfl, fun y hy => by simp at hy; subst hy; exact .refl _⟩
  | cons x l ih =>
    have hx := hl x (List.mem_cons_self ..)
    obtain ⟨w, hw, e, ka, kx⟩ := max_code a x ha hx
    have hwf : fp32Finite w := by rcases hw with rfl | rfl <;> assumption
    obtain ⟨z, hz, e2, k⟩ := ih w hwf (fun y hy => hl y (List.mem_cons_of_mem _ hy))
    refine ⟨z, ?_, by rw [List.foldl_cons, e]; exact e2, ?_⟩
    · rcases List.mem_cons.1 hz with rfl | hz
      · rcases hw with rfl | rfl <;> simp
      · exact List.mem_cons_of_mem _ (List.mem_cons_of_mem _ hz)
    · have kw := k w (List.mem_cons_self ..)
      intro y hy
      rcases List.mem_cons.1 hy with rfl | hy
      · exact ka.trans kw
      · rcases List.mem_cons.1 hy with rfl | hy
        · exact kx.trans kw
        · exact k y (List.mem_cons_of_mem _ hy)

/-- V.RMIN likewise. -/
theorem fold_min (l : List Nat) (a : Nat) (ha : fp32Finite a) (hl : ∀ y ∈ l, fp32Finite y) :
    ∃ z, z ∈ a :: l ∧ l.foldl (fun p x => p.min (fp32.decode x)) (fp32.decode a) = fp32.decode z ∧ ∀ y ∈ a :: l, CodeLe z y := by
  induction l generalizing a with
  | nil => exact ⟨a, by simp, rfl, fun y hy => by simp at hy; subst hy; exact .refl _⟩
  | cons x l ih =>
    have hx := hl x (List.mem_cons_self ..)
    obtain ⟨w, hw, e, ka, kx⟩ := min_code a x ha hx
    have hwf : fp32Finite w := by rcases hw with rfl | rfl <;> assumption
    obtain ⟨z, hz, e2, k⟩ := ih w hwf (fun y hy => hl y (List.mem_cons_of_mem _ hy))
    refine ⟨z, ?_, by rw [List.foldl_cons, e]; exact e2, ?_⟩
    · rcases List.mem_cons.1 hz with rfl | hz
      · rcases hw with rfl | rfl <;> simp
      · exact List.mem_cons_of_mem _ (List.mem_cons_of_mem _ hz)
    · have kw := k w (List.mem_cons_self ..)
      intro y hy
      rcases List.mem_cons.1 hy with rfl | hy
      · exact kw.trans ka
      · rcases List.mem_cons.1 hy with rfl | hy
        · exact kw.trans kx
        · exact k y (List.mem_cons_of_mem _ hy)

/-- V.RSUM of finite FP32 elements: the chain's last sum. The first partial sum is the first element (log 30). -/
theorem reduce_sum (d a : Slot) (k : BitVec 2) (x : Nat → Nat) (tag : Nat → BitVec 16) (n : Nat) (h : 0 < n)
    (hf : ∀ i, i < n → fp32Finite (x i)) :
    ∃ p : Nat → Nat, p 0 = x 0 ∧ reduce (.vRsum d a k) 0 ((List.range n).map fun i => ⟨0, x i, tag i⟩) = p (n - 1)
      ∧ ∀ i, i + 1 < n → fp32Finite (p i) →
        FpIs (p (i + 1)) (fp32Value (p i) + fp32Value (x (i + 1))) 1 (decide (2 ^ 31 ≤ p i) && decide (2 ^ 31 ≤ x (i + 1))) := by
  obtain ⟨n, rfl⟩ : ∃ m, n = m + 1 := ⟨n - 1, by omega⟩
  have h0 := round_decode_fin _ (hf 0 (by omega))
  obtain ⟨p, e0, e1, e2, e3⟩ := sum_chain ((List.range n).map fun i => x (i + 1)) (x 0) h0 (by
    intro y hy
    obtain ⟨i, hi, rfl⟩ := List.mem_map.1 hy
    exact hf _ (by simp at hi; omega))
  refine ⟨p, e0, ?_, fun i hi hp => e3 i _ (by simp [List.getElem?_range (show i < n by omega)]) hp⟩
  rw [List.range_succ_eq_map, List.map_cons, List.map_map]
  show fp32.round .rne false (fp32.decode (List.foldl (fun p (e : Elem) => fp32.round .rne false ((fp32.decode p).add e.num))
    (fp32.round .rne false (fp32.decode (x 0))) _)) = _
  rw [h0, List.foldl_map]
  rw [List.foldl_map] at e1
  rw [List.length_map, List.length_range] at e1 e2
  rw [Nat.add_sub_cancel]
  refine Eq.trans ?_ e2
  rw [← e1]; rfl

/-- V.RMAX and V.RMIN of finite FP32 elements give one of them, the greatest or the least. -/
theorem reduce_extreme (d a : Slot) (k : BitVec 2) (x : Nat → Nat) (tag : Nat → BitVec 16) (n : Nat) (h : 0 < n)
    (hf : ∀ i, i < n → fp32Finite (x i)) :
    (∃ i, i < n ∧ reduce (.vRmax d a k) 0 ((List.range n).map fun i => ⟨0, x i, tag i⟩) = x i ∧ ∀ j, j < n → CodeLe (x j) (x i))
    ∧ ∃ i, i < n ∧ reduce (.vRmin d a k) 0 ((List.range n).map fun i => ⟨0, x i, tag i⟩) = x i ∧ ∀ j, j < n → CodeLe (x i) (x j) := by
  obtain ⟨n, rfl⟩ : ∃ m, n = m + 1 := ⟨n - 1, by omega⟩
  have hl : ∀ y ∈ (List.range n).map (fun i => x (i + 1)), fp32Finite y := by
    intro y hy
    obtain ⟨i, hi, rfl⟩ := List.mem_map.1 hy
    exact hf _ (by simp at hi; omega)
  have at' : ∀ z, z ∈ x 0 :: (List.range n).map (fun i => x (i + 1)) ↔ ∃ i, i < n + 1 ∧ z = x i := by
    intro z
    rw [List.mem_cons, List.mem_map]
    constructor
    · rintro (rfl | ⟨i, hi, rfl⟩)
      · exact ⟨0, by omega, rfl⟩
      · exact ⟨i + 1, by simp at hi; omega, rfl⟩
    · rintro ⟨i, hi, rfl⟩
      cases i with
      | zero => exact .inl rfl
      | succ i => exact .inr ⟨i, by simp; omega, rfl⟩
  rw [List.range_succ_eq_map, List.map_cons, List.map_map]
  constructor
  · obtain ⟨z, hz, e, hk⟩ := fold_max _ (x 0) (hf 0 (by omega)) hl
    obtain ⟨i, hi, rfl⟩ := (at' z).1 hz
    refine ⟨i, hi, ?_, fun j hj => hk _ ((at' _).2 ⟨j, hj, rfl⟩)⟩
    rw [List.foldl_map] at e
    refine Eq.trans ?_ (round_decode_fin _ (hf i hi))
    rw [← e]
    show fp32.round .rne false (List.foldl (fun p (e : Elem) => p.max e.num) (fp32.decode (x 0)) _) = _
    rw [List.foldl_map]; rfl
  · obtain ⟨z, hz, e, hk⟩ := fold_min _ (x 0) (hf 0 (by omega)) hl
    obtain ⟨i, hi, rfl⟩ := (at' z).1 hz
    refine ⟨i, hi, ?_, fun j hj => hk _ ((at' _).2 ⟨j, hj, rfl⟩)⟩
    rw [List.foldl_map] at e
    refine Eq.trans ?_ (round_decode_fin _ (hf i hi))
    rw [← e]
    show fp32.round .rne false (List.foldl (fun p (e : Elem) => p.min e.num) (fp32.decode (x 0)) _) = _
    rw [List.foldl_map]; rfl

/-! ### Values known to lie between two neighbours (R82) -/

/-- A magnitude between r and r + 1 units of 2^e, known to 99 bits and more and kept as r + 1/2, rounds as the exact one
does: here (r + t / m) × 2^a / 2^b units of 2^-149. -/
theorem round_between (n : Bool) (r t m a b : Nat) (e : Int) (h99 : 2 ^ 99 ≤ r) (ht : 0 < t) (htm : t < m)
    (he : e + 149 + b = a) :
    RoundsTo (fp32.round .rne false (.fin n (2 * r + 1) (e - 1)))
      (if n then -(((r * m + t) * 2 ^ a : Nat) : Int) else (((r * m + t) * 2 ^ a : Nat) : Int)) (m * 2 ^ b) := by
  have hmp : 0 < m := by omega
  have hl : 99 ≤ (2 * r + 1).log2 := (Nat.le_log2 (by omega)).2 (by omega)
  have hlog : 2 ^ (2 * r + 1).log2 ≤ 2 * r + 1 := Nat.log2_self_le (by omega)
  obtain ⟨d, hqd⟩ : ∃ d : Nat, max (((2 * r + 1).log2 : Int) + (e - 1) - 23) (-149) = e - 1 + d :=
    ⟨(max (((2 * r + 1).log2 : Int) + (e - 1) - 23) (-149) - (e - 1)).toNat, by omega⟩
  have hd : 76 ≤ d := by omega
  have hr : onGrid (2 * r + 1) (e - 1) = roundShift (2 * r + 1) d .rne false := by
    unfold onGrid; dsimp only; rw [if_neg (by omega), hqd]; congr 1; omega
  have hg : gridOf (2 * r + 1) (e - 1) + b + 1 = d + a := by unfold gridOf; rw [hqd]; omega
  have hgl : 0 < gridOf (2 * r + 1) (e - 1) → (2 * r + 1).log2 = 23 + d := by unfold gridOf; rw [hqd]; omega
  have hu : 2 * (2 ^ gridOf (2 * r + 1) (e - 1) * (m * 2 ^ b)) = 2 ^ d * m * 2 ^ a := by
    have : 2 ^ gridOf (2 * r + 1) (e - 1) * 2 ^ b * 2 = 2 ^ d * 2 ^ a := by
      rw [← Nat.pow_add, ← Nat.pow_succ, Nat.succ_eq_add_one, hg, Nat.pow_add]
    calc 2 * (2 ^ gridOf (2 * r + 1) (e - 1) * (m * 2 ^ b)) = m * (2 ^ gridOf (2 * r + 1) (e - 1) * 2 ^ b * 2) := by
          simp only [Nat.mul_assoc, Nat.mul_left_comm, Nat.mul_comm]
      _ = 2 ^ d * m * 2 ^ a := by rw [this, ← Nat.mul_assoc, Nat.mul_comm m]
  obtain ⟨b1, b2, -⟩ := roundShift_near (2 * r + 1) d
  obtain ⟨w, hw⟩ : ∃ w, 2 ^ d = 4 * w := ⟨2 ^ (d - 2), by rw [show d = 2 + (d - 2) by omega, Nat.pow_add]; simp⟩
  have hA := Nat.two_pow_pos a
  have h23 : 2 ^ (23 + d) = 4 * (2 ^ 23 * w) := by rw [Nat.pow_add, hw]; simp only [Nat.mul_left_comm]
  have hN : 0 < (r * m + t) * 2 ^ a := Nat.mul_pos (by omega) hA
  refine round_rounds n (2 * r + 1) (e - 1) _ (m * 2 ^ b) (by omega) (Nat.mul_pos hmp (Nat.two_pow_pos b)) hN ?_ ?_ ?_ ?_
  all_goals try rw [hr]
  all_goals try (intro h0; have h5 := hgl h0; rw [h5, h23] at hlog)
  all_goals generalize 2 ^ gridOf (2 * r + 1) (e - 1) * (m * 2 ^ b) = U at *
  all_goals rw [hw] at hu b1 b2
  all_goals generalize 2 ^ a = A at *
  all_goals generalize roundShift (2 * r + 1) d .rne false = R at *
  all_goals clear hr hqd hg hgl
  -- the two bounds times m and A
  all_goals rw [show R * (4 * w) = 4 * (R * w) by rw [Nat.mul_left_comm]] at b1 b2
  all_goals have hRU : 2 * (R * U) = 4 * (R * w) * m * A := by
              calc 2 * (R * U) = R * (2 * U) := by rw [Nat.mul_left_comm]
                _ = _ := by rw [hu]; simp only [Nat.mul_assoc, Nat.mul_left_comm]
  all_goals generalize R * w = c at *
  all_goals generalize R * U = V at *
  all_goals have c1 : 8 * c ≤ 4 * r + 4 * w := by omega
  all_goals have c2 : 4 * r + 4 ≤ 8 * c + 4 * w := by omega
  all_goals have d1 := Nat.mul_le_mul_right A (Nat.mul_le_mul_right m c1)
  all_goals have d2 := Nat.mul_le_mul_right A (Nat.mul_le_mul_right m c2)
  all_goals have e1 : t * A < m * A := Nat.mul_lt_mul_of_pos_right htm hA
  all_goals have e2 : 0 < t * A := Nat.mul_pos ht hA
  all_goals simp only [Nat.add_mul, Nat.mul_assoc] at d1 d2 hRU hu ⊢
  · omega
  · omega
  · omega
  · have c3 : 4 * (2 ^ 23 * w) ≤ 2 * r := by omega
    have d3 := Nat.mul_le_mul_right A (Nat.mul_le_mul_right m c3)
    simp only [Nat.mul_assoc] at d3
    omega

/-- Such a rounded magnitude is on the nearer side of every other code's midpoint with it: no midpoint lies between r and
r + 1 units. -/
theorem round_mid (r a b : Nat) (e : Int) (h99 : 2 ^ 99 ≤ r) (he : e + 149 + b = a)
    (small : (r + 1) * 2 ^ a ≤ (2 ^ 25 - 1) * 2 ^ 252 * 2 ^ b) :
    let z := fp32.round .rne false (.fin false (2 * r + 1) (e - 1))
    fp32Finite z ∧ z < 2 ^ 31 ∧ ∀ w, fp32Finite w →
      (fp32Value z < fp32Value w → ((2 * (r + 1) * 2 ^ a : Nat) : Int) ≤ (fp32Value z + fp32Value w) * ((2 ^ b : Nat) : Int))
      ∧ (fp32Value w < fp32Value z → (fp32Value z + fp32Value w) * ((2 ^ b : Nat) : Int) ≤ ((2 * r * 2 ^ a : Nat) : Int)) := by
  dsimp only
  generalize hz : fp32.round .rne false (.fin false (2 * r + 1) (e - 1)) = z
  have hA := Nat.two_pow_pos a
  have all : ∀ t m : Nat, 0 < t → t < m → fp32Finite z ∧ z < 2 ^ 31 ∧ ∀ w, fp32Finite w →
      (fp32Value z * ((m * 2 ^ b : Nat) : Int) - (((r * m + t) * 2 ^ a : Nat) : Int)).natAbs
        ≤ (fp32Value w * ((m * 2 ^ b : Nat) : Int) - (((r * m + t) * 2 ^ a : Nat) : Int)).natAbs := by
    intro t m ht htm
    have h := round_between false r t m a b e h99 ht htm he
    rw [hz] at h
    simp only [Bool.false_eq_true, if_false] at h
    unfold RoundsTo at h
    rw [if_neg] at h
    · exact ⟨h.1, by have := h.2.1; omega, fun w hw => (h.2.2 w hw).1⟩
    · rw [Int.natAbs_natCast]
      have h1 : (r * m + t) * 2 ^ a < (r + 1) * m * 2 ^ a := Nat.mul_lt_mul_of_pos_right (by rw [Nat.add_mul]; omega) hA
      have h2 := Nat.mul_le_mul_left m small
      have h3 : (r + 1) * m * 2 ^ a = m * ((r + 1) * 2 ^ a) := by rw [Nat.mul_comm (r + 1) m, Nat.mul_assoc]
      have h4 : (2 ^ 25 - 1) * 2 ^ 252 * (m * 2 ^ b) = m * ((2 ^ 25 - 1) * 2 ^ 252 * 2 ^ b) := by
        simp only [Nat.mul_left_comm]
      rw [h4]; omega
  obtain ⟨hf, hp, -⟩ := all 1 2 (by omega) (by omega)
  refine ⟨hf, hp, fun w hw => ?_⟩
  -- the exact point may be as near to either end as one likes
  have key : ∀ t m : Nat, 0 < t → t < m →
      (fp32Value z < fp32Value w → 2 * (((r * m + t) * 2 ^ a : Nat) : Int) ≤ (fp32Value z + fp32Value w) * ((2 ^ b : Nat) : Int) * m)
      ∧ (fp32Value w < fp32Value z → (fp32Value z + fp32Value w) * ((2 ^ b : Nat) : Int) * m ≤ 2 * (((r * m + t) * 2 ^ a : Nat) : Int)) := by
    intro t m ht htm
    have h := (all t m ht htm).2.2 w hw
    have hD : (0 : Int) < ((m * 2 ^ b : Nat) : Int) := by
      have := Nat.mul_pos (show 0 < m by omega) (Nat.two_pow_pos b); omega
    have e0 : (fp32Value z + fp32Value w) * ((2 ^ b : Nat) : Int) * m
        = fp32Value z * ((m * 2 ^ b : Nat) : Int) + fp32Value w * ((m * 2 ^ b : Nat) : Int) := by
      rw [← Int.add_mul, Int.mul_assoc, ← Int.natCast_mul, Nat.mul_comm (2 ^ b) m]
    rw [e0]
    have mono : ∀ x y : Int, x < y → x * ((m * 2 ^ b : Nat) : Int) < y * ((m * 2 ^ b : Nat) : Int) :=
      fun x y hxy => Int.mul_lt_mul_of_pos_right hxy hD
    constructor
    · intro hlt
      have := mono _ _ hlt
      generalize fp32Value z * ((m * 2 ^ b : Nat) : Int) = p at *
      generalize fp32Value w * ((m * 2 ^ b : Nat) : Int) = q at *
      omega
    · intro hlt
      have := mono _ _ hlt
      generalize fp32Value z * ((m * 2 ^ b : Nat) : Int) = p at *
      generalize fp32Value w * ((m * 2 ^ b : Nat) : Int) = q at *
      omega
  generalize (fp32Value z + fp32Value w) * ((2 ^ b : Nat) : Int) = V at *
  constructor
  · intro hlt
    have := (key (2 * 2 ^ a + 1) (2 * 2 ^ a + 2) (by omega) (by omega)).1 hlt
    rw [Nat.mul_assoc 2]
    have e1 : (r * (2 * 2 ^ a + 2) + (2 * 2 ^ a + 1)) * 2 ^ a = (r + 1) * 2 ^ a * (2 * 2 ^ a + 2) - 2 ^ a := by
      have : (r * (2 * 2 ^ a + 2) + (2 * 2 ^ a + 1)) * 2 ^ a + 2 ^ a = (r + 1) * 2 ^ a * (2 * 2 ^ a + 2) := by
        generalize 2 ^ a = A
        calc _ = (r * (2 * A + 2) + (2 * A + 1) + 1) * A := (Nat.succ_mul _ _).symm
          _ = ((r + 1) * (2 * A + 2)) * A := by rw [Nat.add_mul r 1, Nat.one_mul]; rfl
          _ = _ := by rw [Nat.mul_assoc, Nat.mul_comm (2 * A + 2), ← Nat.mul_assoc]
      omega
    rw [e1] at this
    have hle : 2 ^ a ≤ (r + 1) * 2 ^ a * (2 * 2 ^ a + 2) := by
      calc 2 ^ a = 2 ^ a * 1 := by omega
        _ ≤ 2 ^ a * ((r + 1) * (2 * 2 ^ a + 2)) := Nat.mul_le_mul_left _ (Nat.mul_pos (by omega) (by omega))
        _ = _ := by simp only [Nat.mul_assoc, Nat.mul_left_comm]
    generalize (r + 1) * 2 ^ a = X at *
    generalize 2 ^ a = A at *
    by_cases hc : ((2 * X : Nat) : Int) ≤ V
    · exact hc
    · exfalso
      have hVm : V * ((2 * A + 2 : Nat) : Int) ≤ (((2 * X : Nat) : Int) - 1) * ((2 * A + 2 : Nat) : Int) :=
        Int.mul_le_mul_of_nonneg_right (by omega) (by omega)
      rw [Int.sub_mul, Int.one_mul] at hVm
      have e2 : ((2 * X : Nat) : Int) * ((2 * A + 2 : Nat) : Int) = 2 * ((X * (2 * A + 2) : Nat) : Int) := by
        rw [← Int.natCast_mul, Nat.mul_assoc]; omega
      rw [e2] at hVm
      generalize X * (2 * A + 2) = Y at *
      generalize V * ((2 * A + 2 : Nat) : Int) = W at *
      omega
  · intro hlt
    have := (key 1 (2 * 2 ^ a + 2) (by omega) (by omega)).2 hlt
    rw [Nat.mul_assoc 2]
    have e1 : (r * (2 * 2 ^ a + 2) + 1) * 2 ^ a = r * 2 ^ a * (2 * 2 ^ a + 2) + 2 ^ a := by
      rw [Nat.succ_mul, Nat.mul_assoc, Nat.mul_comm (2 * 2 ^ a + 2), ← Nat.mul_assoc]
    rw [e1] at this
    generalize r * 2 ^ a = X at *
    generalize 2 ^ a = A at *
    by_cases hc : V ≤ ((2 * X : Nat) : Int)
    · exact hc
    · exfalso
      have hVm : (((2 * X : Nat) : Int) + 1) * ((2 * A + 2 : Nat) : Int) ≤ V * ((2 * A + 2 : Nat) : Int) :=
        Int.mul_le_mul_of_nonneg_right (by omega) (by omega)
      rw [Int.add_mul, Int.one_mul] at hVm
      have e2 : ((2 * X : Nat) : Int) * ((2 * A + 2 : Nat) : Int) = 2 * ((X * (2 * A + 2) : Nat) : Int) := by
        rw [← Int.natCast_mul, Nat.mul_assoc]; omega
      rw [e2] at hVm
      generalize X * (2 * A + 2) = Y at *
      generalize V * ((2 * A + 2 : Nat) : Int) = W at *
      omega

/-! ### V.RSQRT (R82) -/

/-- The root by bits: the greatest r + (less than 2^b) whose square is not above n. -/
theorem isqrtFrom_spec (n b : Nat) : ∀ r, r * r ≤ n → n < (r + 2 ^ b) * (r + 2 ^ b) →
    isqrtFrom n r b * isqrtFrom n r b ≤ n ∧ n < (isqrtFrom n r b + 1) * (isqrtFrom n r b + 1) := by
  induction b with
  | zero => intro r h1 h2; exact ⟨h1, h2⟩
  | succ b ih =>
    intro r h1 h2
    unfold isqrtFrom
    dsimp only
    have e : r + 2 ^ (b + 1) = r + 2 ^ b + 2 ^ b := by rw [Nat.pow_succ]; omega
    split
    · rename_i h
      exact ih _ h (by rwa [← e])
    · rename_i h
      exact ih _ h1 (by omega)

theorem isqrt_spec (n : Nat) : isqrt n * isqrt n ≤ n ∧ n < (isqrt n + 1) * (isqrt n + 1) := by
  refine isqrtFrom_spec n _ 0 (by omega) ?_
  rw [Nat.zero_add, ← Nat.pow_add]
  exact Nat.lt_of_lt_of_le Nat.lt_log2_self (Nat.pow_le_pow_right (by decide) (by omega))

/-- The operand with an even exponent: x = M × 4^h / 2 units, and the root known to k bits after M's own. -/
theorem rsqrt_even (m j : Nat) (hm : m ≠ 0) : ∃ M h : Nat, M ≠ 0 ∧ M * 4 ^ h = 2 * (m * 2 ^ j) ∧
    (Num.fin false m ((j : Int) - 149)).rsqrt =
      let k := M.log2 / 2 + 100
      let r := isqrt (2 ^ (2 * k) / M)
      sticky false r (75 - (h : Int) - k) (r * r * M = 2 ^ (2 * k)) := by
  unfold Num.rsqrt
  dsimp only
  rw [if_neg hm, if_neg (by simp)]
  have h4 : ∀ h, (4 : Nat) ^ h = 2 ^ (2 * h) := fun h => by rw [Nat.pow_mul]
  by_cases he : ((j : Int) - 149) % 2 = 0
  · rw [if_pos he, if_pos he]
    refine ⟨m, (j + 1) / 2, hm, ?_, ?_⟩
    · rw [h4, show 2 * ((j + 1) / 2) = j + 1 by omega, Nat.pow_succ]
      simp only [Nat.mul_left_comm, Nat.mul_comm]
    · rw [show -(((j : Int) - 149) / 2) = 75 - (((j + 1) / 2 : Nat) : Int) - 0 + 0 - 0 by omega]
      congr 1
      omega
  · rw [if_neg he, if_neg he]
    refine ⟨2 * m, j / 2, by omega, ?_, ?_⟩
    · rw [h4, show 2 * (j / 2) = j by omega, Nat.mul_assoc]
    · rw [show -(((j : Int) - 149 - 1) / 2) = 75 - ((j / 2 : Nat) : Int) by omega]

/-- The rounded root of the reciprocal: on the nearer side of every other code's midpoint with it. Squared, and in units of
2^-149, 1 ÷ √x at or below (z + w) / 2 reads 2^449 ≤ (z + w)² x. -/
theorem round_rsqrt (m j : Nat) (hm : m ≠ 0) :
    let z := fp32.round .rne false (Num.fin false m ((j : Int) - 149)).rsqrt
    fp32Finite z ∧ z < 2 ^ 31 ∧ ∀ w, fp32Finite w →
      (fp32Value z < fp32Value w →
        ((2 ^ 449 : Nat) : Int) ≤ (fp32Value z + fp32Value w) * (fp32Value z + fp32Value w) * ((m * 2 ^ j : Nat) : Int))
      ∧ (0 ≤ fp32Value w → fp32Value w < fp32Value z →
        (fp32Value z + fp32Value w) * (fp32Value z + fp32Value w) * ((m * 2 ^ j : Nat) : Int) ≤ ((2 ^ 449 : Nat) : Int)) := by
  obtain ⟨M, h, hM, hMX, hrs⟩ := rsqrt_even m j hm
  dsimp only at hrs ⊢
  rw [hrs]
  generalize hk : M.log2 / 2 + 100 = k at *
  obtain ⟨s1, s2⟩ := isqrt_spec (2 ^ (2 * k) / M)
  generalize isqrt (2 ^ (2 * k) / M) = r at *
  have hMp : 0 < M := Nat.pos_of_ne_zero hM
  have lo : r * r * M ≤ 2 ^ (2 * k) := (Nat.le_div_iff_mul_le hMp).1 s1
  have hi : 2 ^ (2 * k) < (r + 1) * (r + 1) * M := (Nat.div_lt_iff_lt_mul hMp).1 s2
  have hr99 : 2 ^ 99 ≤ r := by
    have hMl : M < 2 ^ (M.log2 + 1) := Nat.lt_log2_self
    have c1 : 2 ^ 198 * M ≤ 2 ^ (2 * k) :=
      calc 2 ^ 198 * M ≤ 2 ^ 198 * 2 ^ (M.log2 + 1) := Nat.mul_le_mul_left _ (Nat.le_of_lt hMl)
        _ = 2 ^ (198 + (M.log2 + 1)) := (Nat.pow_add ..).symm
        _ ≤ 2 ^ (2 * k) := Nat.pow_le_pow_right (by decide) (by omega)
    have c2 : 2 ^ 198 < (r + 1) * (r + 1) := Nat.lt_of_mul_lt_mul_right (Nat.lt_of_le_of_lt c1 hi)
    rcases Nat.lt_or_ge r (2 ^ 99) with c | c
    · exfalso
      have : (r + 1) * (r + 1) ≤ 2 ^ 99 * 2 ^ 99 := Nat.mul_le_mul c c
      rw [← Nat.pow_add] at this
      omega
    · exact c
  have hrk : r ≤ 2 ^ k := by
    rcases Nat.lt_or_ge (2 ^ k) r with c | c
    · exfalso
      have c1 : 2 ^ k * 2 ^ k < r * r := Nat.mul_lt_mul_of_lt_of_le c (Nat.le_of_lt c) (by omega)
      have c2 : r * r ≤ r * r * M := Nat.le_mul_of_pos_right _ hMp
      rw [← Nat.pow_add, ← Nat.two_mul] at c1
      omega
    · exact c
  have h4 : ∀ c : Nat, (2 : Nat) ^ c * 2 ^ c = 2 ^ (2 * c) := fun c => by rw [← Nat.pow_add, Nat.two_mul]
  -- the root lies from `u` to `v`, and so do no midpoints
  obtain ⟨u, v, hu, hv, hz⟩ : ∃ u v : Nat, u * u * M ≤ 2 ^ (2 * k) ∧ 2 ^ (2 * k) ≤ v * v * M ∧
      let z := fp32.round .rne false (sticky false r (75 - (h : Int) - k) (r * r * M = 2 ^ (2 * k)))
      fp32Finite z ∧ z < 2 ^ 31 ∧ ∀ w, fp32Finite w →
        (fp32Value z < fp32Value w → ((2 * v * 2 ^ 224 : Nat) : Int) ≤ (fp32Value z + fp32Value w) * ((2 ^ (h + k) : Nat) : Int))
        ∧ (fp32Value w < fp32Value z → (fp32Value z + fp32Value w) * ((2 ^ (h + k) : Nat) : Int) ≤ ((2 * u * 2 ^ 224 : Nat) : Int)) := by
    have hb : ∀ x, x ≤ 2 ^ k + 1 → x * 2 ^ 224 < (2 ^ 25 - 1) * 2 ^ 252 * 2 ^ (h + k) := by
      intro x hx
      have c1 : 2 ^ k ≤ 2 ^ (h + k) := Nat.pow_le_pow_right (by decide) (by omega)
      have c2 : 0 < 2 ^ k := Nat.two_pow_pos k
      have c3 : x * 2 ^ 224 ≤ (2 * 2 ^ (h + k)) * 2 ^ 224 := Nat.mul_le_mul_right _ (by omega)
      have c4 : (2 * 2 ^ (h + k)) * 2 ^ 224 = 2 ^ 225 * 2 ^ (h + k) := by
        rw [Nat.mul_comm 2, Nat.mul_assoc, ← Nat.pow_succ', Nat.mul_comm]
      have c5 : 2 ^ 225 * 2 ^ (h + k) < (2 ^ 25 - 1) * 2 ^ 252 * 2 ^ (h + k) :=
        Nat.mul_lt_mul_of_pos_right (by decide) (Nat.two_pow_pos _)
      omega
    unfold sticky
    by_cases ex : r * r * M = 2 ^ (2 * k)
    · refine ⟨r, r, by omega, by omega, ?_⟩
      rw [if_pos (by simpa using ex)]
      have R := round_exact false r (75 - (h : Int) - k) (h + k) (by omega) (by omega)
      rw [show (75 - (h : Int) - k + 149 + ((h + k : Nat) : Int)).toNat = 224 by omega] at R
      simp only [Bool.false_eq_true, if_false] at R
      generalize fp32.round .rne false (.fin false r (75 - (h : Int) - k)) = z at *
      unfold RoundsTo at R
      rw [Int.natAbs_natCast, if_neg (by have := hb r (by omega); omega)] at R
      refine ⟨R.1, by have := R.2.1; omega, fun w hw => ?_⟩
      have N := (R.2.2 w hw).1
      have hD : (0 : Int) < ((2 ^ (h + k) : Nat) : Int) := by have := Nat.two_pow_pos (h + k); omega
      have mono : ∀ x y : Int, x < y → x * ((2 ^ (h + k) : Nat) : Int) < y * ((2 ^ (h + k) : Nat) : Int) :=
        fun x y hxy => Int.mul_lt_mul_of_pos_right hxy hD
      rw [Int.add_mul, Nat.mul_assoc 2]
      obtain ⟨A, hA⟩ : ∃ A, r * 2 ^ 224 = A := ⟨_, rfl⟩
      rw [hA] at N ⊢
      constructor
      · intro c
        have := mono _ _ c
        generalize fp32Value z * ((2 ^ (h + k) : Nat) : Int) = p at *
        generalize fp32Value w * ((2 ^ (h + k) : Nat) : Int) = q at *
        omega
      · intro c
        have := mono _ _ c
        generalize fp32Value z * ((2 ^ (h + k) : Nat) : Int) = p at *
        generalize fp32Value w * ((2 ^ (h + k) : Nat) : Int) = q at *
        omega
    · refine ⟨r, r + 1, lo, Nat.le_of_lt hi, ?_⟩
      rw [if_neg (by simpa using ex)]
      exact round_mid r 224 (h + k) _ hr99 (by omega) (Nat.le_of_lt (hb _ (by omega)))
  dsimp only at hz
  generalize fp32.round .rne false (sticky false r (75 - (h : Int) - k) (r * r * M = 2 ^ (2 * k))) = z at *
  refine ⟨hz.1, hz.2.1, fun w hw => ?_⟩
  obtain ⟨g1, g2⟩ := hz.2.2 w hw
  have hz0 : 0 ≤ fp32Value z := by
    have h0 : ¬ z / 2 ^ 31 % 2 = 1 := by have := hz.2.1; omega
    unfold fp32Value; dsimp only; rw [if_neg h0]; omega
  have h44 : (4 : Nat) ^ h = 2 ^ (2 * h) := by rw [Nat.pow_mul]
  have sq : ∀ y : Nat, y * 2 ^ (h + k) * (y * 2 ^ (h + k)) * M = 2 * (y * y * (m * 2 ^ j)) * 2 ^ (2 * k) := by
    intro y
    have c1 : (2 : Nat) ^ (h + k) * 2 ^ (h + k) = 4 ^ h * 2 ^ (2 * k) := by rw [h4, h44, ← Nat.pow_add]; congr 1; omega
    calc _ = y * y * ((2 ^ (h + k) * 2 ^ (h + k)) * M) := by simp only [Nat.mul_assoc, Nat.mul_left_comm]
      _ = y * y * ((M * 4 ^ h) * 2 ^ (2 * k)) := by rw [c1]; simp only [Nat.mul_assoc, Nat.mul_left_comm, Nat.mul_comm]
      _ = _ := by rw [hMX]; simp only [Nat.mul_assoc, Nat.mul_left_comm]
  have sc : ∀ y : Nat, 2 * y * 2 ^ 224 * (2 * y * 2 ^ 224) * M = 2 * 2 ^ 449 * (y * y * M) := by
    intro y
    have pw : ∀ a b : Nat, a + a + 1 = b → 2 * (2 ^ a * 2 ^ a) = 2 ^ b := by
      rintro a _ rfl; rw [← Nat.pow_add, Nat.pow_succ, Nat.mul_comm]
    calc _ = 2 * (2 * (2 ^ 224 * 2 ^ 224)) * (y * y * M) := by simp only [Nat.mul_assoc, Nat.mul_left_comm]
      _ = 2 * 2 ^ 449 * (y * y * M) := by rw [pw 224 449 rfl]
  have hkp := Nat.two_pow_pos (2 * k)
  constructor
  · intro c
    obtain ⟨y, hy⟩ : ∃ y : Nat, fp32Value z + fp32Value w = y := ⟨(fp32Value z + fp32Value w).toNat, by omega⟩
    have g := g1 c
    rw [hy] at g ⊢
    have g' : 2 * v * 2 ^ 224 ≤ y * 2 ^ (h + k) := by rw [← Int.natCast_mul] at g; exact Int.ofNat_le.1 g
    have g2 := Nat.mul_le_mul_right M (Nat.mul_le_mul g' g')
    rw [sq, sc] at g2
    have g3 : 2 * 2 ^ 449 * 2 ^ (2 * k) ≤ 2 * (y * y * (m * 2 ^ j)) * 2 ^ (2 * k) :=
      Nat.le_trans (Nat.mul_le_mul_left _ hv) g2
    have g4 := Nat.le_of_mul_le_mul_right g3 hkp
    rw [← Int.natCast_mul, ← Int.natCast_mul]
    exact Int.ofNat_le.2 (Nat.le_of_mul_le_mul_left g4 (by decide))
  · intro hw0 c
    obtain ⟨y, hy⟩ : ∃ y : Nat, fp32Value z + fp32Value w = y := ⟨(fp32Value z + fp32Value w).toNat, by omega⟩
    have g := g2 c
    rw [hy] at g ⊢
    have g' : y * 2 ^ (h + k) ≤ 2 * u * 2 ^ 224 := by rw [← Int.natCast_mul] at g; exact Int.ofNat_le.1 g
    have g2 := Nat.mul_le_mul_right M (Nat.mul_le_mul g' g')
    rw [sq, sc] at g2
    have g3 : 2 * (y * y * (m * 2 ^ j)) * 2 ^ (2 * k) ≤ 2 * 2 ^ 449 * 2 ^ (2 * k) :=
      Nat.le_trans g2 (Nat.mul_le_mul_left _ hu)
    have g4 := Nat.le_of_mul_le_mul_right g3 hkp
    rw [← Int.natCast_mul, ← Int.natCast_mul]
    exact Int.ofNat_le.2 (Nat.le_of_mul_le_mul_left g4 (by decide))

/-- The sign of a value is its code's. -/
theorem value_sign (n : Bool) (a : Nat) : (signed n a = 0 ↔ a = 0) ∧ (signed n a < 0 ↔ n = true ∧ a ≠ 0) := by
  cases n <;> simp [signed] <;> omega

theorem signed_natAbs (n : Bool) (a : Nat) : (signed n a).natAbs = a := by unfold signed; split <;> omega

/-- V.RSQRT of a finite code (R82). -/
theorem fp_rsqrt (x : Nat) (hx : fp32Finite x) :
    let q := fp32.round .rne false (fp32.decode x).rsqrt
    (fp32Value x = 0 → q = if 2 ^ 31 ≤ x then 0xFF80_0000 else 0x7F80_0000) ∧ (fp32Value x < 0 → q = 0x7FC0_0000)
    ∧ (0 < fp32Value x → fp32Finite q ∧ q < 2 ^ 31 ∧ ∀ w, fp32Finite w →
      (fp32Value q < fp32Value w → ((2 ^ 449 : Nat) : Int) ≤ (fp32Value q + fp32Value w) * (fp32Value q + fp32Value w) * fp32Value x)
      ∧ (0 ≤ fp32Value w → fp32Value w < fp32Value q →
        (fp32Value q + fp32Value w) * (fp32Value q + fp32Value w) * fp32Value x ≤ ((2 ^ 449 : Nat) : Int))) := by
  obtain ⟨m, j, e, v⟩ := decode_fp32 x hx
  dsimp only
  rw [e, v]
  have hj := Nat.two_pow_pos j
  obtain ⟨z1, z2⟩ := value_sign (decide (2 ^ 31 ≤ x)) (m * 2 ^ j)
  refine ⟨fun h => ?_, fun h => ?_, fun h => ?_⟩
  · have hm : m = 0 := by rcases Nat.mul_eq_zero.1 (z1.1 h) with h | h <;> omega
    subst hm
    show fp32.round .rne false (.inf (decide (2 ^ 31 ≤ x))) = _
    by_cases hn : 2 ^ 31 ≤ x
    · rw [if_pos hn, decide_eq_true hn]; decide
    · rw [if_neg hn, decide_eq_false hn]; decide
  · obtain ⟨hn, ha⟩ := z2.1 h
    have hm : m ≠ 0 := by rintro rfl; simp at ha
    unfold Num.rsqrt
    dsimp only
    rw [if_neg hm, if_pos hn]; rfl
  · have hm : m ≠ 0 := by rintro rfl; rw [Nat.zero_mul] at h; revert h; cases decide (2 ^ 31 ≤ x) <;> simp [signed]
    have hn : decide (2 ^ 31 ≤ x) = false := by
      cases hd : decide (2 ^ 31 ≤ x)
      · rfl
      · rw [hd] at h; simp only [signed, if_true] at h; omega
    rw [hn]
    exact round_rsqrt m j hm

/-! ### V.EXP2 of a whole number (R82) -/

/-- A power of two as a code. -/
theorem round_pow2 (i : Int) :
    let q := fp32.round .rne false (.fin false 1 i)
    (128 ≤ i → q = 0x7F80_0000) ∧ (i < -149 → q = 0)
    ∧ (-149 ≤ i → i < 128 → fp32Finite q ∧ q < 2 ^ 31 ∧ fp32Value q = ((2 ^ (i + 149).toNat : Nat) : Int)) := by
  dsimp only
  rw [round_fp32 false 1 i (by decide)]
  simp only [Bool.false_eq_true, if_false, Nat.zero_add]
  have hl : (1 : Nat).log2 = 0 := by decide
  by_cases c : -126 ≤ i
  · have hg : gridOf 1 i = (i + 126).toNat := by unfold gridOf; rw [hl]; omega
    have ho : onGrid 1 i = 2 ^ 23 := by
      unfold onGrid; dsimp only; rw [hl]
      have : max (((0 : Nat) : Int) + i - 23) (-149) = i - 23 := by omega
      rw [this, if_pos (by omega), Nat.one_mul, show (i - (i - 23)).toNat = 23 by omega]
    have hp : packed (gridOf 1 i) (onGrid 1 i) = (i + 127).toNat * 2 ^ 23 := by
      rw [hg, ho]; unfold packed; rw [if_neg (by decide), if_neg (by decide)]; omega
    have hb := packed_value (gridOf 1 i) (onGrid 1 i) 0
    rw [hp] at hb ⊢
    refine ⟨fun h => by rw [if_pos (by omega)], fun h => by omega, fun _ h => ?_⟩
    rw [if_neg (by omega)]
    obtain ⟨a, -, b, d⟩ := hb (by rw [ho]; decide) (by rw [ho]; exact fun _ => Nat.le_refl _) (by omega) (.inl rfl)
    rw [Nat.zero_add] at a b d
    refine ⟨a, by omega, ?_⟩
    rw [d, if_neg (by decide), hg, ho, ← Nat.pow_add]
    congr 3; omega
  · have hg : gridOf 1 i = 0 := by unfold gridOf; rw [hl]; omega
    have ho : onGrid 1 i = if -149 ≤ i then 2 ^ (i + 149).toNat else 0 := by
      unfold onGrid; dsimp only; rw [hl]
      have : max (((0 : Nat) : Int) + i - 23) (-149) = -149 := by omega
      rw [this]
      by_cases h : -149 ≤ i
      · rw [if_pos h, if_pos h, Nat.one_mul, show i - -149 = i + 149 by omega]
      · rw [if_neg h, if_neg h]
        obtain ⟨d, hd⟩ : ∃ d, (-149 - i).toNat = d + 1 := ⟨(-149 - i).toNat - 1, by omega⟩
        rw [hd]
        unfold roundShift
        dsimp only
        have h1 : 1 < 2 ^ (d + 1) := by rw [Nat.pow_succ]; have := Nat.two_pow_pos d; omega
        rw [Nat.div_eq_of_lt h1, Nat.mod_eq_of_lt h1]
        rw [if_neg]
        rw [Bool.or_eq_true, Bool.and_eq_true, decide_eq_true_eq, decide_eq_true_eq, decide_eq_true_eq]
        omega
    have hlt : ∀ h : -149 ≤ i, 2 ^ (i + 149).toNat ≤ 2 ^ 22 := fun h => Nat.pow_le_pow_right (by decide) (by omega)
    refine ⟨fun h => by omega, fun h => ?_, fun h _ => ?_⟩
    · have h0 : packed (gridOf 1 i) (onGrid 1 i) = 0 := by rw [hg, ho, if_neg (show ¬ -149 ≤ i by omega)]; decide
      rw [h0]; decide
    · have hb := packed_value 0 (2 ^ (i + 149).toNat) 0 (by have := hlt h; omega) (fun h => absurd h (by decide))
      have hp : packed 0 (2 ^ (i + 149).toNat) = 2 ^ (i + 149).toNat := by
        unfold packed; rw [if_pos (by have := hlt h; omega)]
      rw [hg, ho, if_pos h]
      rw [hp] at hb ⊢
      have := hlt h
      rw [if_neg (by omega)]
      obtain ⟨a, -, b, d⟩ := hb (by omega) (.inl rfl)
      rw [Nat.zero_add] at a b d
      refine ⟨a, by omega, ?_⟩
      rw [d, if_neg (by decide), Nat.pow_zero, Nat.mul_one]

/-- V.EXP2 of a finite whole number. -/
theorem fp_exp2 (x : Nat) (hx : fp32Finite x) (i : Int) (hi : fp32Value x = i * ((2 ^ 149 : Nat) : Int)) :
    let q := fp32.round .rne false (fp32.decode x).exp2
    (128 ≤ i → q = 0x7F80_0000) ∧ (i < -149 → q = 0)
    ∧ (-149 ≤ i → i < 128 → fp32Finite q ∧ q < 2 ^ 31 ∧ fp32Value q = ((2 ^ (i + 149).toNat : Nat) : Int)) := by
  obtain ⟨m, j, e, v⟩ := decode_fp32 x hx
  rw [v] at hi
  rw [e]
  generalize decide (2 ^ 31 ≤ x) = n at *
  unfold Num.exp2
  dsimp only
  obtain ⟨z1, z2⟩ := value_sign n (m * 2 ^ j)
  have hj := Nat.two_pow_pos j
  have hU : (0 : Int) < ((2 ^ 149 : Nat) : Int) := by have := Nat.two_pow_pos 149; omega
  by_cases hm : m = 0
  · rw [if_pos hm]
    have : i = 0 := by
      rw [z1.2 (by rw [hm, Nat.zero_mul])] at hi
      rcases Int.mul_eq_zero.1 hi.symm with h | h <;> omega
    subst this
    exact round_pow2 0
  · rw [if_neg hm]
    have habs : m * 2 ^ j = i.natAbs * 2 ^ 149 := by
      have := congrArg Int.natAbs hi
      rw [Int.natAbs_mul, Int.natAbs_natCast] at this
      rw [← this, signed_natAbs]
    have hi0 : i.natAbs ≠ 0 := by
      intro h; rw [h, Nat.zero_mul] at habs
      rcases Nat.mul_eq_zero.1 habs with h | h <;> omega
    have lo : 2 ^ m.log2 ≤ m := Nat.log2_self_le hm
    have hi2 : m < 2 ^ (m.log2 + 1) := Nat.lt_log2_self
    have sgn : i < 0 ↔ n = true := by
      rw [hi] at z2
      constructor
      · intro h; exact (z2.1 (Int.mul_neg_of_neg_of_pos h hU)).1
      · intro h
        have := z2.2 ⟨h, by intro c; rcases Nat.mul_eq_zero.1 c with h | h <;> omega⟩
        rcases Int.lt_trichotomy i 0 with c | c | c
        · exact c
        · subst c; simp at hi0
        · have := Int.mul_pos c hU; omega
    -- the magnitude's own exponent
    have big : 149 ≤ m.log2 + j := by
      have : 2 ^ 149 < 2 ^ (m.log2 + 1 + j) := by
        rw [Nat.pow_add]
        calc 2 ^ 149 ≤ i.natAbs * 2 ^ 149 := Nat.le_mul_of_pos_left _ (by omega)
          _ = m * 2 ^ j := habs.symm
          _ < _ := Nat.mul_lt_mul_of_pos_right hi2 hj
      have := (Nat.pow_lt_pow_iff_right (by decide : 1 < 2)).1 this
      omega
    by_cases c : (m.log2 : Int) + ((j : Int) - 149) ≥ 8
    · rw [if_pos c]
      have h256 : 256 ≤ i.natAbs := by
        have c1 : 2 ^ 8 * 2 ^ 149 ≤ i.natAbs * 2 ^ 149 := by
          rw [← habs, ← Nat.pow_add]
          calc 2 ^ (8 + 149) ≤ 2 ^ (m.log2 + j) := Nat.pow_le_pow_right (by decide) (by omega)
            _ = 2 ^ m.log2 * 2 ^ j := Nat.pow_add ..
            _ ≤ _ := Nat.mul_le_mul_right _ lo
        have := Nat.le_of_mul_le_mul_right c1 (Nat.two_pow_pos 149)
        omega
      by_cases hn : n = true
      · have := sgn.2 hn
        rw [if_pos hn]
        exact ⟨fun h => by omega, fun _ => (round_pow2 (-1000)).2.1 (by decide), fun h => by omega⟩
      · have : ¬ i < 0 := fun h => hn (sgn.1 h)
        rw [if_neg hn]
        exact ⟨fun _ => (round_pow2 1000).1 (by decide), fun h => by omega, fun _ h => by omega⟩
    · rw [if_neg c, if_neg (by omega)]
      have ex : signed n m * 2 ^ ((j : Int) - 149).toNat = i * 2 ^ (-((j : Int) - 149)).toNat := by
        have e1 : signed n m * 2 ^ ((j : Int) - 149).toNat * 2 ^ (min j 149) = i * 2 ^ (-((j : Int) - 149)).toNat * 2 ^ (min j 149) := by
          rw [Int.mul_assoc, Int.mul_assoc, ← Int.pow_add, ← Int.pow_add, show ((j : Int) - 149).toNat + min j 149 = j by omega,
            show (-((j : Int) - 149)).toNat + min j 149 = 149 by omega]
          rw [signed_mul] at hi
          simpa using hi
        exact Int.eq_of_mul_eq_mul_right (by have := Int.pow_pos (n := 2) (m := min j 149) (by decide); omega) e1
      rw [ex]
      generalize (-((j : Int) - 149)).toNat = k
      have hk : (0 : Int) < 2 ^ k := Int.pow_pos (by decide)
      rw [Int.mul_ediv_cancel _ (by omega), Int.mul_emod_left, if_pos (show Int.toNat 0 = 0 from rfl)]
      exact round_pow2 i

/-! ### Conversions to integers (R75, R78) -/

/-- A fraction in lower terms rounds alike. -/
theorem roundedInt_mul (rm : Rm) (V U c : Int) (hc : 0 < c) : roundedInt rm (V * c) (U * c) = roundedInt rm V U := by
  have d : ∀ W : Int, W * c / (U * c) = W / U := fun W => Int.mul_ediv_mul_of_pos_left _ _ hc
  have m : V * c % (U * c) = V % U * c := by
    rw [Int.mul_comm V, Int.mul_comm U, Int.mul_emod_mul_of_pos _ _ hc, Int.mul_comm]
  cases rm with
  | rtz => exact Int.mul_tdiv_mul_of_pos_left _ _ hc
  | rdn => exact d V
  | rup => show -(-(V * c) / (U * c)) = -(-V / U); rw [← Int.neg_mul, d]
  | rne =>
    unfold roundedInt
    dsimp only
    rw [d, m]
    have e1 : 2 * (V % U * c) < U * c ↔ 2 * (V % U) < U := by
      rw [← Int.mul_assoc]
      exact ⟨fun h => Int.lt_of_mul_lt_mul_right h (by omega), fun h => Int.mul_lt_mul_of_pos_right h hc⟩
    have e2 : 2 * (V % U * c) = U * c ↔ 2 * (V % U) = U := by
      rw [← Int.mul_assoc]
      exact ⟨fun h => Int.eq_of_mul_eq_mul_right (by omega) h, fun h => by rw [h]⟩
    simp only [e1, e2]

/-- A whole number rounds to itself. -/
theorem roundedInt_one (rm : Rm) (V : Int) : roundedInt rm V 1 = V := by
  cases rm <;> simp [roundedInt]

/-- Division by 2^d rounded by mode is the rounded fraction. -/
theorem roundShift_int (m d : Nat) (rm : Rm) (n : Bool) :
    signed n (roundShift m d rm n) = roundedInt rm (signed n m) ((2 ^ d : Nat) : Int) := by
  have hd : m = m / 2 ^ d * 2 ^ d + m % 2 ^ d := by rw [Nat.mul_comm]; exact (Nat.div_add_mod m (2 ^ d)).symm
  have hl : m % 2 ^ d < 2 ^ d := Nat.mod_lt _ (Nat.two_pow_pos d)
  unfold roundShift
  dsimp only
  generalize m / 2 ^ d = q at *
  generalize m % 2 ^ d = r at *
  generalize 2 ^ d = u at *
  subst hd
  -- quotient and remainder of the signed number
  have hp : ((q * u + r : Nat) : Int) / (u : Int) = q ∧ ((q * u + r : Nat) : Int) % (u : Int) = r := by
    rw [← Int.natCast_ediv, ← Int.natCast_emod, Nat.mul_comm, Nat.mul_add_div (by omega), Nat.mul_add_mod, Nat.div_eq_of_lt hl, Nat.mod_eq_of_lt hl]
    exact ⟨by omega, rfl⟩
  have hn : -((q * u + r : Nat) : Int) / (u : Int) = (if r = 0 then -(q : Int) else -(q : Int) - 1)
      ∧ -((q * u + r : Nat) : Int) % (u : Int) = (if r = 0 then 0 else (u : Int) - r) := by
    by_cases h : r = 0
    · subst h
      rw [if_pos rfl, if_pos rfl]
      have : -((q * u + 0 : Nat) : Int) = -(q : Int) * u := by rw [Int.neg_mul]; simp
      rw [this]
      exact ⟨Int.mul_ediv_cancel _ (by omega), Int.mul_emod_left ..⟩
    · rw [if_neg h, if_neg h]
      have e : -((q * u + r : Nat) : Int) = ((u : Int) - r) + (-(q : Int) - 1) * u := by
        rw [Int.sub_mul, Int.neg_mul, Int.one_mul]; push_cast; omega
      rw [e]
      refine ⟨?_, ?_⟩
      · rw [Int.add_mul_ediv_right _ _ (by omega), Int.ediv_eq_zero_of_lt (by omega) (by omega)]; omega
      · rw [Int.add_mul_emod_self_right]; exact Int.emod_eq_of_lt (by omega) (by omega)
  have ht : ((q * u + r : Nat) : Int).tdiv (u : Int) = q := by
    rw [Int.tdiv_eq_ediv_of_nonneg (by omega)]; exact hp.1
  cases n with
  | false =>
    simp only [signed, Bool.false_eq_true, if_false, Bool.false_and, Bool.not_false, Bool.true_and]
    cases rm with
    | rtz => simp only [roundedInt, ht]; rfl
    | rdn => simp only [roundedInt, hp.1]; rfl
    | rup =>
      simp only [roundedInt, hn.1]
      by_cases h0 : r = 0 <;> simp [h0] <;> omega
    | rne =>
      simp only [roundedInt, hp.1, hp.2]
      by_cases c : 2 * r > u ∨ (2 * r = u ∧ q % 2 = 1)
      · rw [if_pos (by simpa using c), if_neg (by omega)]; omega
      · rw [if_neg (by simpa using c), if_pos (by omega)]
  | true =>
    simp only [signed, if_true, Bool.not_true, Bool.true_and, Bool.false_and]
    cases rm with
    | rtz => simp only [roundedInt, Int.neg_tdiv, ht]; rfl
    | rdn =>
      simp only [roundedInt, hn.1]
      by_cases h0 : r = 0 <;> simp [h0] <;> omega
    | rup => simp only [roundedInt, Int.neg_neg, hp.1]; rfl
    | rne =>
      simp only [roundedInt, hn.1, hn.2]
      by_cases c : 2 * r > u ∨ (2 * r = u ∧ q % 2 = 1)
      · rw [if_pos (by simpa using c)]
        split <;> split <;> omega
      · rw [if_neg (by simpa using c)]
        split <;> split <;> omega

/-- Saturation to I32. -/
theorem satInt_i32 (i : Int) : satInt 0xC i = (BitVec.ofInt 32 (max (-(2 ^ 31)) (min (2 ^ 31 - 1) i))).toNat := by
  rw [BitVec.toNat_ofInt]; rfl

/-- V.CVT of a finite FP32 element to I32: rounded to an integer by its mode, then saturated, with .sat and without (R78). -/
theorem fp_int (x : Nat) (hx : fp32Finite x) (rm : Rm) (sat : Bool) :
    convert 0 0xC x 0 rm sat
      = (BitVec.ofInt 32 (max (-(2 ^ 31)) (min (2 ^ 31 - 1) (roundedInt rm (fp32Value x) ((2 ^ 149 : Nat) : Int))))).toNat := by
  obtain ⟨m, j, e, v⟩ := decode_fp32 x hx
  have hc : convert 0 0xC x 0 rm sat = match (fp32.decode x).toInt rm with | some i => satInt 0xC i | none => 0 := rfl
  rw [hc, e, v, ← satInt_i32]
  generalize decide (2 ^ 31 ≤ x) = n
  unfold Num.toInt
  dsimp only
  by_cases c : (j : Int) - 149 ≥ 0
  · obtain ⟨t, rfl⟩ : ∃ t, j = t + 149 := ⟨j - 149, by omega⟩
    have hr : roundedInt rm (signed n (m * 2 ^ (t + 149))) ((2 ^ 149 : Nat) : Int) = signed n (m * 2 ^ t) := by
      have e1 : signed n (m * 2 ^ (t + 149)) = signed n (m * 2 ^ t) * ((2 ^ 149 : Nat) : Int) := by
        rw [Nat.pow_add, ← Nat.mul_assoc, signed_mul]
      have e2 := roundedInt_mul rm (signed n (m * 2 ^ t)) 1 ((2 ^ 149 : Nat) : Int) (by have := Nat.two_pow_pos 149; omega)
      rw [Int.one_mul] at e2
      rw [e1, e2, roundedInt_one]
    rw [if_pos c, hr, show ((t + 149 : Nat) : Int) - 149 = t by omega]
    dsimp only
    rcases Nat.lt_or_ge 100 t with h | h
    · rw [show (min (t : Int) 100).toNat = 100 by omega, satInt_i32, satInt_i32]
      by_cases hm : m = 0
      · subst hm; rw [Nat.zero_mul, Nat.zero_mul]
      · have a1 : 2 ^ 100 ≤ m * 2 ^ 100 := Nat.le_mul_of_pos_left _ (by omega)
        have a2 : 2 ^ 100 ≤ m * 2 ^ t := Nat.le_trans (Nat.pow_le_pow_right (by decide) (by omega)) (Nat.le_mul_of_pos_left _ (by omega))
        generalize m * 2 ^ 100 = y1 at *
        generalize m * 2 ^ t = y2 at *
        congr 2
        cases n <;> simp only [signed, if_true, Bool.false_eq_true, if_false] <;> omega
    · rw [show (min (t : Int) 100).toNat = t by omega]
  · obtain ⟨d, hd⟩ : ∃ d, 149 = j + d := ⟨149 - j, by omega⟩
    rw [if_neg c, show (-((j : Int) - 149)).toNat = d by omega]
    dsimp only
    rw [roundShift_int]
    have e1 : ((2 ^ 149 : Nat) : Int) = ((2 ^ d : Nat) : Int) * ((2 ^ j : Nat) : Int) := by
      rw [hd, Nat.pow_add, Int.natCast_mul, Int.mul_comm]
    rw [e1, signed_mul, roundedInt_mul _ _ _ _ (by have := Nat.two_pow_pos j; omega)]

/-- A NaN converts to 0. -/
theorem nan_int (x : Nat) (hx : fp32Nan x) (rm : Rm) (sat : Bool) : convert 0 0xC x 0 rm sat = 0 := by
  have hc : convert 0 0xC x 0 rm sat = match (fp32.decode x).toInt rm with | some i => satInt 0xC i | none => 0 := rfl
  rw [hc, decode_nan x hx]; rfl

/-! ### A group of a BF16 run (R84) -/

/-- A sum of two exact finite values is exact and finite. -/
theorem add_fin (n1 n2 : Bool) (m1 m2 : Nat) (e1 e2 : Int) (k : Nat) (h1 : 0 ≤ e1 + 149 + k) (h2 : 0 ≤ e2 + 149 + k) :
    ∃ n m e, (Num.fin n1 m1 e1).add (.fin n2 m2 e2) = .fin n m e ∧ 0 ≤ e + 149 + k
      ∧ scaledBy k n m e = scaledBy k n1 m1 e1 + scaledBy k n2 m2 e2 := by
  dsimp only [Num.add]
  have w : ∀ (x e : Int), min e1 e2 ≤ e → x * 2 ^ (e - min e1 e2).toNat * ((2 ^ (min e1 e2 + 149 + k).toNat : Nat) : Int)
      = x * ((2 ^ (e + 149 + k).toNat : Nat) : Int) := by
    intro x e he
    have : ((2 ^ (e + 149 + k).toNat : Nat) : Int) = 2 ^ (e - min e1 e2).toNat * ((2 ^ (min e1 e2 + 149 + k).toNat : Nat) : Int) := by
      rw [show (e + 149 + k).toNat = (e - min e1 e2).toNat + (min e1 e2 + 149 + k).toNat by omega, Nat.pow_add]
      simp
    rw [this, Int.mul_assoc]
  have s : (signed n1 m1 * 2 ^ (e1 - min e1 e2).toNat + signed n2 m2 * 2 ^ (e2 - min e1 e2).toNat)
      * ((2 ^ (min e1 e2 + 149 + k).toNat : Nat) : Int) = scaledBy k n1 m1 e1 + scaledBy k n2 m2 e2 := by
    rw [Int.add_mul, w _ _ (by omega), w _ _ (by omega)]
  rw [← s]
  generalize signed n1 m1 * 2 ^ (e1 - min e1 e2).toNat + signed n2 m2 * 2 ^ (e2 - min e1 e2).toNat = i
  unfold ofInt
  split
  · rename_i h
    refine ⟨_, _, _, rfl, by omega, ?_⟩
    subst h
    unfold scaledBy
    cases n1 && n2 <;> simp [signed]
  · refine ⟨_, _, _, rfl, by omega, ?_⟩
    unfold scaledBy
    congr 1
    unfold signed
    split <;> rename_i h <;> simp at h <;> omega

/-- A BF16 code has the value of the FP32 code that it heads (R68). -/
theorem decode_bf16 (c : Nat) (h : fp32Finite (c * 2 ^ 16)) :
    ∃ n m e, bf16.decode c = .fin n m e ∧ 0 ≤ e + 149 ∧ scaledBy 0 n m e = fp32Value (c * 2 ^ 16) := by
  obtain ⟨hz, hf⟩ := h
  have he : c * 2 ^ 16 / 2 ^ 23 % 256 = c / 2 ^ 7 % 256 := by omega
  have hm : c * 2 ^ 16 % 2 ^ 23 = c % 2 ^ 7 * 2 ^ 16 := by omega
  have hs : c * 2 ^ 16 / 2 ^ 31 % 2 = c / 2 ^ 15 % 2 := by omega
  have hd : bf16.decode c =
      if c % 2 ^ 15 > 0x7F7F then (if (true && decide (c % 2 ^ 15 = 0x7F80)) = true then .inf (decide (c / 2 ^ 15 % 2 = 1)) else .nan)
      else if c % 2 ^ 15 / 2 ^ 7 = 0 then .fin (decide (c / 2 ^ 15 % 2 = 1)) (c % 2 ^ 15 % 2 ^ 7) (1 - ((127 : Nat) : Int) - ((7 : Nat) : Int))
      else .fin (decide (c / 2 ^ 15 % 2 = 1)) (2 ^ 7 + c % 2 ^ 15 % 2 ^ 7) (((c % 2 ^ 15 / 2 ^ 7 : Nat) : Int) - ((127 : Nat) : Int) - ((7 : Nat) : Int)) := rfl
  have sg : ∀ v : Nat, (if c / 2 ^ 15 % 2 = 1 then -(v : Int) else v) = signed (decide (c / 2 ^ 15 % 2 = 1)) v := by
    intro v; unfold signed; by_cases h : c / 2 ^ 15 % 2 = 1
    · rw [if_pos h, if_pos (decide_eq_true h)]
    · rw [if_neg h, if_neg (fun c => h (of_decide_eq_true c))]
  rw [he] at hf
  have e1 : c % 2 ^ 15 / 2 ^ 7 = c / 2 ^ 7 % 256 := by omega
  have e2 : c % 2 ^ 15 % 2 ^ 7 = c % 2 ^ 7 := by omega
  rw [hd, if_neg (by omega), e1, e2]
  unfold fp32Value
  dsimp only
  rw [he, hm, hs, sg]
  split
  · refine ⟨_, _, _, rfl, by omega, ?_⟩
    unfold scaledBy
    rw [show (1 - ((127 : Nat) : Int) - ((7 : Nat) : Int) + 149 + ((0 : Nat) : Int)).toNat = 16 by omega, ← signed_mul]
  · rename_i h0
    refine ⟨_, _, _, rfl, by omega, ?_⟩
    unfold scaledBy
    rw [show (((c / 2 ^ 7 % 256 : Nat) : Int) - ((127 : Nat) : Int) - ((7 : Nat) : Int) + 149 + ((0 : Nat) : Int)).toNat
      = 16 + (c / 2 ^ 7 % 256 - 1) by omega, ← signed_mul, Nat.pow_add, ← Nat.mul_assoc]
    congr 2; omega

/-- The exact sum of products of finite values. -/
theorem sum_products (f g : Nat → Num) (u v : Nat → Int) (n : Nat)
    (hf : ∀ k, k < n → ∃ b m e, f k = .fin b m e ∧ 0 ≤ e + 149 ∧ scaledBy 0 b m e = u k)
    (hg : ∀ k, k < n → ∃ b m e, g k = .fin b m e ∧ 0 ≤ e + 149 ∧ scaledBy 0 b m e = v k) :
    ∃ b m e, (List.range n).foldl (fun (a : Num) k => a.add ((f k).mul (g k))) (.fin true 0 0) = .fin b m e
      ∧ 0 ≤ e + 149 + 149 ∧ scaledBy 149 b m e = ((List.range n).map fun k => u k * v k).sum := by
  induction n with
  | zero => exact ⟨true, 0, 0, rfl, by omega, by simp [scaledBy, signed]⟩
  | succ n ih =>
    obtain ⟨b, m, e, h1, h2, h3⟩ := ih (fun k hk => hf k (by omega)) (fun k hk => hg k (by omega))
    obtain ⟨b1, m1, e1, p1, p2, p3⟩ := hf n (by omega)
    obtain ⟨b2, m2, e2, q1, q2, q3⟩ := hg n (by omega)
    rw [List.range_succ, List.foldl_append, h1, List.map_append, List.sum_append, ← h3]
    simp only [List.foldl_cons, List.foldl_nil, List.map_cons, List.map_nil, List.sum_cons, List.sum_nil, Int.add_zero]
    rw [p1, q1, ← p3, ← q3]
    have hp : scaledBy 149 (b1 != b2) (m1 * m2) (e1 + e2) = scaledBy 0 b1 m1 e1 * scaledBy 0 b2 m2 e2 := by
      have := scaled_product b1 b2 m1 m2 (e1 + 149).toNat (e2 + 149).toNat
      rw [show (((e1 + 149).toNat : Nat) : Int) - 149 = e1 by omega, show (((e2 + 149).toNat : Nat) : Int) - 149 = e2 by omega] at this
      rw [this, signed_mul, signed_mul]
      unfold scaledBy
      congr 5 <;> omega
    obtain ⟨b', m', e', r1, r2, r3⟩ := add_fin b (b1 != b2) m (m1 * m2) e (e1 + e2) 149 (by omega) (by omega)
    exact ⟨b', m', e', r1, r2, by rw [r3, hp]⟩

/-- One group of a run of BF16 weights and activations, all of them finite and the accumulator too (R84). -/
theorem group_bf16 (col row : Row) (old g : Nat) (ho : fp32Finite old)
    (hw : ∀ k, k < 32 → fp32Finite (bfCode col.1 (32 * g + k))) (ha : ∀ k, k < 32 → fp32Finite (bfCode row.1 (32 * g + k))) :
    GroupOf old (groupFp 2 2 col row old g)
      ((List.range 32).map fun k => fp32Value (bfCode col.1 (32 * g + k)) * fp32Value (bfCode row.1 (32 * g + k))).sum := by
  obtain ⟨b, m, e, h1, h2, h3⟩ := sum_products (fun k => rowNum 2 col (32 * g + k)) (fun k => rowNum 2 row (32 * g + k))
    (fun k => fp32Value (bfCode col.1 (32 * g + k))) (fun k => fp32Value (bfCode row.1 (32 * g + k))) 32
    (fun k hk => decode_bf16 _ (hw k hk)) (fun k hk => decode_bf16 _ (ha k hk))
  obtain ⟨m1, j1, e1, v1⟩ := decode_fp32 old ho
  unfold groupFp GroupOf
  dsimp only
  rw [h1, ← h3, v1]
  refine ⟨fp32.round .rne false ((fp32.decode old).add (.fin b m e)), ?_, ?_, rfl⟩
  · rw [e1]
    have r := round_add (decide (2 ^ 31 ≤ old)) b m1 m ((j1 : Int) - 149) e 149 (by omega) h2
    simp only [scaled_value] at r
    exact r.1
  · rw [e1]
    have r := round_add (decide (2 ^ 31 ≤ old)) b m1 m ((j1 : Int) - 149) e 149 (by omega) h2
    simp only [scaled_value] at r
    intro h
    rw [r.2 h]; split <;> rfl

end Sys2Proof.Machine
end

