-- ==== Sys2Proof/Tests/Slice0.lean ====
section
/-! SUPPORT. Words written out from the spec, ill-formed terms, single steps on small states, and a witness for the hypotheses
of every obligation. -/

open Sys2Proof Sys2Proof.Machine

namespace Sys2Proof.Tests

set_option Elab.async false

/-! ### Words of the spec -/

/-- Words of the spec: R30, R63 and the encodings of chapters 2, 4 and 7. -/
theorem test_scalar_words_decode :
    decodeList [0x00208C41, 0] = .ok (.add 3 1 (.reg 2) false)
    ∧ decodeList [0x00090C41, 0x003FFFFB] = .ok (.add 3 18 (.i20 0xFFFFB) true)
    ∧ decodeList [0x00021045, 0x00300001] = .ok (.sub 4 4 (.i20 1) true)
    ∧ decodeList [0x01131459, 0] = .ok (.divn 5 6 (.reg 17) false)
    ∧ decodeList [0x00090C69, 0x00200000] = .ok (.or 3 18 (.i20 0) false)
    ∧ decodeList [0x0001086D, 0x002FFFFF] = .ok (.xor 2 2 (.i20 0xFFFFF) false)
    ∧ decodeList [0x00018899, 0x01200064] = .ok (.setLtn 2 3 (.i20 100) false)
    ∧ decodeList [0x00041CA9, 0x0000010C] = .ok (.ext 7 8 12 4 false)
    ∧ decodeList [0x000084AD, 0x00000240] = .ok (.extn 1 1 0 9 false)
    ∧ decodeList [0x000014B7, 0, 0x9ABCDEF0, 0x12345678] = .ok (.li 5 (.i64 0x123456789ABCDEF0))
    ∧ decodeList [0x000024BA, 0, 0x00010000] = .ok (.la 9 (.s32 0x10000)) := by
  refine ⟨?_, ?_, ?_, ?_, ?_, ?_, ?_, ?_, ?_, ?_, ?_⟩ <;> rfl

/-- The encoder gives the same words back. -/
theorem test_scalar_words_encode :
    encode (.add 3 1 (.reg 2) false) = [0x00208C41, 0]
    ∧ encode (.add 3 18 (.i20 0xFFFFB) true) = [0x00090C41, 0x003FFFFB]
    ∧ encode (.sub 4 4 (.i20 1) true) = [0x00021045, 0x00300001]
    ∧ encode (.divn 5 6 (.reg 17) false) = [0x01131459, 0]
    ∧ encode (.or 3 18 (.i20 0) false) = [0x00090C69, 0x00200000]
    ∧ encode (.xor 2 2 (.i20 0xFFFFF) false) = [0x0001086D, 0x002FFFFF]
    ∧ encode (.setLtn 2 3 (.i20 100) false) = [0x00018899, 0x01200064]
    ∧ encode (.ext 7 8 12 4 false) = [0x00041CA9, 0x0000010C]
    ∧ encode (.extn 1 1 0 9 false) = [0x000084AD, 0x00000240]
    ∧ encode (.li 5 (.i64 0x123456789ABCDEF0)) = [0x000014B7, 0, 0x9ABCDEF0, 0x12345678]
    ∧ encode (.la 9 (.s32 0x10000)) = [0x000024BA, 0, 0x00010000] := by
  refine ⟨?_, ?_, ?_, ?_, ?_, ?_, ?_, ?_, ?_, ?_, ?_⟩ <;> rfl

/-- Words of the spec: R33, R63 and the encodings of chapters 4 and 7. -/
theorem test_branches_words_decode :
    decodeList [0x004280C9, 0x000FFFFA] = .ok (.blt 5 (.reg 4) 0xFFFFA)
    ∧ decodeList [0x000080D2, 8, 0x000003E8] = .ok (.bltn 1 (.i32 1000) 8)
    ∧ decodeList [0x00003CE5, 0x000FFFF0] = .ok (.call 15 (.s20 0xFFFF0))
    ∧ decodeList [0x000780E9, 0] = .ok (.jr 15 0) := by
  refine ⟨?_, ?_, ?_, ?_⟩ <;> rfl

/-- The encoder gives the same words back. -/
theorem test_branches_words_encode :
    encode (.blt 5 (.reg 4) 0xFFFFA) = [0x004280C9, 0x000FFFFA]
    ∧ encode (.bltn 1 (.i32 1000) 8) = [0x000080D2, 8, 0x000003E8]
    ∧ encode (.call 15 (.s20 0xFFFF0)) = [0x00003CE5, 0x000FFFF0]
    ∧ encode (.jr 15 0) = [0x000780E9, 0] := by
  refine ⟨?_, ?_, ?_, ?_⟩ <;> rfl

/-- Words of the spec: R115, R298, R309, R310, R312 and the encodings of chapters 19 and 20. -/
theorem test_control_words_decode :
    decodeList [0x0FAD0000] = .ok (.pad)
    ∧ decodeList [0x00000005, 0] = .ok (.nop)
    ∧ decodeList [0x0000000D, 5] = .ok (.trap 5)
    ∧ decodeList [0x00000011, 0] = .ok (.rtt)
    ∧ decodeList [0x00002015, 0x00000011] = .ok (.srr 8 0x011)
    ∧ decodeList [0x00048019, 0x00000012] = .ok (.srw 9 0x012)
    ∧ decodeList [0x0000801D, 0x00100000] = .ok (.ctxSave 1 0 true)
    ∧ decodeList [0x00038021, 0] = .ok (.ctxLoad 7 0 false)
    ∧ decodeList [0x00003025, 0] = .ok (.rdcyc 12)
    ∧ decodeList [0x00002C29, 0] = .ok (.rdref 11)
    ∧ decodeList [0x0000842D, 0] = .ok (.tmrSet 1 1) := by
  refine ⟨?_, ?_, ?_, ?_, ?_, ?_, ?_, ?_, ?_, ?_, ?_⟩ <;> rfl

/-- The encoder gives the same words back. -/
theorem test_control_words_encode :
    encode (.pad) = [0x0FAD0000]
    ∧ encode (.nop) = [0x00000005, 0]
    ∧ encode (.trap 5) = [0x0000000D, 5]
    ∧ encode (.rtt) = [0x00000011, 0]
    ∧ encode (.srr 8 0x011) = [0x00002015, 0x00000011]
    ∧ encode (.srw 9 0x012) = [0x00048019, 0x00000012]
    ∧ encode (.ctxSave 1 0 true) = [0x0000801D, 0x00100000]
    ∧ encode (.ctxLoad 7 0 false) = [0x00038021, 0]
    ∧ encode (.rdcyc 12) = [0x00003025, 0]
    ∧ encode (.rdref 11) = [0x00002C29, 0]
    ∧ encode (.tmrSet 1 1) = [0x0000842D, 0] := by
  refine ⟨?_, ?_, ?_, ?_, ?_, ?_, ?_, ?_, ?_, ?_, ?_⟩ <;> rfl

/-- Words of the spec: R32, R251 to R254 and the encodings of chapters 2, 11 and 21. -/
theorem test_memory_words_decode :
    decodeList [0x00009101, 0x00E00040] = .ok (.ld 4 1 (.d20 0x40) .w true .acq)
    ∧ decodeList [0x00311101, 0x02300003] = .ok (.ld 4 2 (.idx 3 3) .d false .plain)
    ∧ decodeList [0x00008105, 0x10300008] = .ok (.st 1 (.d20 8) 2 .d .plain)
    ∧ decodeList [0x00050105, 0x59300000] = .ok (.st 10 (.d20 0) 11 .d .rel)
    ∧ decodeList [0x00022509, 0x30300008] = .ok (.push 4 (.d20 8) 6 9 .d)
    ∧ decodeList [0x0002250D, 0] = .ok (.pushl 4 (.d20 0) 9)
    ∧ decodeList [0x0002014D, 0] = .ok (.clZero 4 (.s20 0))
    ∧ decodeList [0x00010149, 0x00100080] = .ok (.clInv 2 (.s20 128) true) := by
  refine ⟨?_, ?_, ?_, ?_, ?_, ?_, ?_, ?_⟩ <;> rfl

/-- The encoder gives the same words back. -/
theorem test_memory_words_encode :
    encode (.ld 4 1 (.d20 0x40) .w true .acq) = [0x00009101, 0x00E00040]
    ∧ encode (.ld 4 2 (.idx 3 3) .d false .plain) = [0x00311101, 0x02300003]
    ∧ encode (.st 1 (.d20 8) 2 .d .plain) = [0x00008105, 0x10300008]
    ∧ encode (.st 10 (.d20 0) 11 .d .rel) = [0x00050105, 0x59300000]
    ∧ encode (.push 4 (.d20 8) 6 9 .d) = [0x00022509, 0x30300008]
    ∧ encode (.pushl 4 (.d20 0) 9) = [0x0002250D, 0]
    ∧ encode (.clZero 4 (.s20 0)) = [0x0002014D, 0]
    ∧ encode (.clInv 2 (.s20 128) true) = [0x00010149, 0x00100080] := by
  refine ⟨?_, ?_, ?_, ?_, ?_, ?_, ?_, ?_⟩ <;> rfl

/-- Words of the spec: R132, R157, R158 and the encodings of chapter 8. -/
theorem test_local_words_decode :
    decodeList [0x00009D11, 0x00300000] = .ok (.ldl 7 1 (.d20 0) .d false)
    ∧ decodeList [0x00010115, 0x28200008] = .ok (.stl 2 (.d20 8) 5 .w)
    ∧ decodeList [0x00911119, 0x00300010] = .ok (.ldx 4 2 9 16 .d false)
    ∧ decodeList [0x00911521, 0x39900000] = .ok (.amoxAdd 5 2 9 7 .ar true)
    ∧ decodeList [0x12911521, 0x38100006] = .ok (.amoxCas 5 2 9 7 6 .plain true) := by
  refine ⟨?_, ?_, ?_, ?_, ?_⟩ <;> rfl

/-- The encoder gives the same words back. -/
theorem test_local_words_encode :
    encode (.ldl 7 1 (.d20 0) .d false) = [0x00009D11, 0x00300000]
    ∧ encode (.stl 2 (.d20 8) 5 .w) = [0x00010115, 0x28200008]
    ∧ encode (.ldx 4 2 9 16 .d false) = [0x00911119, 0x00300010]
    ∧ encode (.amoxAdd 5 2 9 7 .ar true) = [0x00911521, 0x39900000]
    ∧ encode (.amoxCas 5 2 9 7 6 .plain true) = [0x12911521, 0x38100006] := by
  refine ⟨?_, ?_, ?_, ?_, ?_⟩ <;> rfl

/-- Words of the spec: R100, R293 to R298 and the encodings of chapters 6 and 13. -/
theorem test_atomics_words_decode :
    decodeList [0x00008D25, 0x10100000] = .ok (.amoAdd 3 1 2 .plain true)
    ∧ decodeList [0x12009525, 0x39900006] = .ok (.amoCas 5 1 7 6 .ar true)
    ∧ decodeList [0x14008D25, 0x11000000] = .ok (.amoFadd 3 1 2 .rel)
    ∧ decodeList [0x00009129, 0x00900000] = .ok (.lr 4 1 true true)
    ∧ decodeList [0x0000952D, 0x30100000] = .ok (.sc 5 1 6 false true)
    ∧ decodeList [0x00000D31, 0] = .ok (.waitrs 3)
    ∧ decodeList [0x00000135, 0x00000303] = .ok (.fence .dev 3 3)
    ∧ decodeList [0x00000135, 0x02000402] = .ok (.fence .core 2 4)
    ∧ decodeList [0x00000135, 0x04001020] = .ok (.fence .sys 32 16)
    ∧ decodeList [0x00008D39, 0x00200000] = .ok (.waita 3 1 (.i20 0) false)
    ∧ decodeList [0x00208D39, 0] = .ok (.waita 3 1 (.reg 2) false) := by
  refine ⟨?_, ?_, ?_, ?_, ?_, ?_, ?_, ?_, ?_, ?_, ?_⟩ <;> rfl

/-- The encoder gives the same words back. -/
theorem test_atomics_words_encode :
    encode (.amoAdd 3 1 2 .plain true) = [0x00008D25, 0x10100000]
    ∧ encode (.amoCas 5 1 7 6 .ar true) = [0x12009525, 0x39900006]
    ∧ encode (.amoFadd 3 1 2 .rel) = [0x14008D25, 0x11000000]
    ∧ encode (.lr 4 1 true true) = [0x00009129, 0x00900000]
    ∧ encode (.sc 5 1 6 false true) = [0x0000952D, 0x30100000]
    ∧ encode (.waitrs 3) = [0x00000D31, 0]
    ∧ encode (.fence .dev 3 3) = [0x00000135, 0x00000303]
    ∧ encode (.fence .core 2 4) = [0x00000135, 0x02000402]
    ∧ encode (.fence .sys 32 16) = [0x00000135, 0x04001020]
    ∧ encode (.waita 3 1 (.i20 0) false) = [0x00008D39, 0x00200000]
    ∧ encode (.waita 3 1 (.reg 2) false) = [0x00208D39, 0] := by
  refine ⟨?_, ?_, ?_, ?_, ?_, ?_, ?_, ?_, ?_, ?_, ?_⟩ <;> rfl

/-- Words of the spec: R261 and the encodings of chapter 12. -/
theorem test_allotments_words_decode :
    decodeList [0x00008155, 0] = .ok (.altOpen 1)
    ∧ decodeList [0x00008D59, 0x00200001] = .ok (.altTake 3 1 (.i20 1))
    ∧ decodeList [0x00708D59, 0] = .ok (.altTake 3 1 (.reg 7))
    ∧ decodeList [0x00008D5A, 0, 0x001E8480] = .ok (.altTake 3 1 (.i32 2000000))
    ∧ decodeList [0x0000915D, 0x00200001] = .ok (.altGive 4 1 (.i20 1))
    ∧ decodeList [0x00009561, 0] = .ok (.altRead 5 1)
    ∧ decodeList [0x00009965, 0] = .ok (.altClose 6 1) := by
  refine ⟨?_, ?_, ?_, ?_, ?_, ?_, ?_⟩ <;> rfl

/-- The encoder gives the same words back. -/
theorem test_allotments_words_encode :
    encode (.altOpen 1) = [0x00008155, 0]
    ∧ encode (.altTake 3 1 (.i20 1)) = [0x00008D59, 0x00200001]
    ∧ encode (.altTake 3 1 (.reg 7)) = [0x00708D59, 0]
    ∧ encode (.altTake 3 1 (.i32 2000000)) = [0x00008D5A, 0, 0x001E8480]
    ∧ encode (.altGive 4 1 (.i20 1)) = [0x0000915D, 0x00200001]
    ∧ encode (.altRead 5 1) = [0x00009561, 0]
    ∧ encode (.altClose 6 1) = [0x00009965, 0] := by
  refine ⟨?_, ?_, ?_, ?_, ?_, ?_, ?_⟩ <;> rfl

/-- Words of the spec: R201 to R214 and the encodings of chapters 10 and 20. -/
theorem test_tasks_words_decode :
    decodeList [0x00208D81, 0] = .ok (.taskPush 3 1 2)
    ∧ decodeList [0x00208D85, 0] = .ok (.sheaf 3 1 2)
    ∧ decodeList [0x00060189, 0] = .ok (.join 12)
    ∧ decodeList [0x00208D99, 0x20100000] = .ok (.spawn 3 1 2 4 true)
    ∧ decodeList [0x00208D9D, 0] = .ok (.send 3 1 2)
    ∧ decodeList [0x00008DA5, 0] = .ok (.unbind 3 1)
    ∧ decodeList [0x009419A9, 0] = .ok (.wake 6 8 9)
    ∧ decodeList [0x00000DAD, 0] = .ok (.sleep 3)
    ∧ decodeList [0x00000195, 0] = .ok (.yield) := by
  refine ⟨?_, ?_, ?_, ?_, ?_, ?_, ?_, ?_, ?_⟩ <;> rfl

/-- The encoder gives the same words back. -/
theorem test_tasks_words_encode :
    encode (.taskPush 3 1 2) = [0x00208D81, 0]
    ∧ encode (.sheaf 3 1 2) = [0x00208D85, 0]
    ∧ encode (.join 12) = [0x00060189, 0]
    ∧ encode (.spawn 3 1 2 4 true) = [0x00208D99, 0x20100000]
    ∧ encode (.send 3 1 2) = [0x00208D9D, 0]
    ∧ encode (.unbind 3 1) = [0x00008DA5, 0]
    ∧ encode (.wake 6 8 9) = [0x009419A9, 0]
    ∧ encode (.sleep 3) = [0x00000DAD, 0]
    ∧ encode (.yield) = [0x00000195, 0] := by
  refine ⟨?_, ?_, ?_, ?_, ?_, ?_, ?_, ?_, ?_⟩ <;> rfl

/-- Words of the spec: R216 and the encodings of chapter 10. -/
theorem test_copies_words_decode :
    decodeList [0x002095C3, 0x20200000, 1, 0] = .ok (.cpG2l { d := 5, a := 1, b := 2, c := 4, scope := .dev, sat := false, rm := .rne, flag := true, conv := false, srct := 0, dstt := 0, scale := 0, value := 1 })
    ∧ decodeList [0x002095C7, 0x21210E82, 7, 0] = .ok (.cpL2g { d := 5, a := 1, b := 2, c := 4, scope := .dev, sat := true, rm := .rne, flag := true, conv := true, srct := 2, dstt := 3, scale := 0x82, value := 7 }) := by
  refine ⟨?_, ?_⟩ <;> rfl

/-- The encoder gives the same words back. -/
theorem test_copies_words_encode :
    encode (.cpG2l { d := 5, a := 1, b := 2, c := 4, scope := .dev, sat := false, rm := .rne, flag := true, conv := false, srct := 0, dstt := 0, scale := 0, value := 1 }) = [0x002095C3, 0x20200000, 1, 0]
    ∧ encode (.cpL2g { d := 5, a := 1, b := 2, c := 4, scope := .dev, sat := true, rm := .rne, flag := true, conv := true, srct := 2, dstt := 3, scale := 0x82, value := 7 }) = [0x002095C7, 0x21210E82, 7, 0] := by
  refine ⟨?_, ?_⟩ <;> rfl

/-- Words of the spec: R150, R159, R165 and the encodings of chapter 8. -/
theorem test_vectors_words_decode :
    decodeList [0x00402209, 0] = .ok (.vAdd 8 0 4)
    ∧ decodeList [0x00508A65, 3] = .ok (.vQmax 2 1 5 3)
    ∧ decodeList [0x0000026E, 0x00000111, 4] = .ok (.vrep (.i32 4) 0 1 1 1 0)
    ∧ decodeList [0x0001826D, 0x00010011] = .ok (.vrep (.reg 3) 1 1 1 0 0)
    ∧ decodeList [0x00000271, 0] = .ok (.vwait) := by
  refine ⟨?_, ?_, ?_, ?_, ?_⟩ <;> rfl

/-- The encoder gives the same words back. -/
theorem test_vectors_words_encode :
    encode (.vAdd 8 0 4) = [0x00402209, 0]
    ∧ encode (.vQmax 2 1 5 3) = [0x00508A65, 3]
    ∧ encode (.vrep (.i32 4) 0 1 1 1 0) = [0x0000026E, 0x00000111, 4]
    ∧ encode (.vrep (.reg 3) 1 1 1 0 0) = [0x0001826D, 0x00010011]
    ∧ encode (.vwait) = [0x00000271, 0] := by
  refine ⟨?_, ?_, ?_, ?_, ?_⟩ <;> rfl

/-- Words of the spec: R175, R179, R185 to R190 and the encodings of chapter 9. -/
theorem test_mill_words_decode :
    decodeList [0x00010281, 0] = .ok (.mmLoadw 0 2)
    ∧ decodeList [0x00018681, 0] = .ok (.mmLoadw 1 3)
    ∧ decodeList [0x00029285, 0] = .ok (.mmGather 4 5)
    ∧ decodeList [0x00400289, 0x00100000] = .ok (.mmRun 0 0 4 .e4m3)
    ∧ decodeList [0x00400689, 0x00300000] = .ok (.mmRun 1 0 4 .e2m1)
    ∧ decodeList [0x0000068D, 0] = .ok (.mmAccz 1)
    ∧ decodeList [0x00830291, 0x48200000] = .ok (.mmDrain 0 6 (.wake 8 9))
    ∧ decodeList [0x00000295, 0] = .ok (.mmWait (some 0))
    ∧ decodeList [0x00000295, 0x00100000] = .ok (.mmWait none)
    ∧ decodeList [0x00100E99, 0] = .ok (.mmClaim 3 1)
    ∧ decodeList [0x00100E99, 1] = .ok (.mmRelease 3 1)
    ∧ decodeList [0x00038E99, 2] = .ok (.mmSetWeight 3 7)
    ∧ decodeList [0x0000129D, 0] = .ok (.mmStat 4) := by
  refine ⟨?_, ?_, ?_, ?_, ?_, ?_, ?_, ?_, ?_, ?_, ?_, ?_, ?_⟩ <;> rfl

/-- The encoder gives the same words back. -/
theorem test_mill_words_encode :
    encode (.mmLoadw 0 2) = [0x00010281, 0]
    ∧ encode (.mmLoadw 1 3) = [0x00018681, 0]
    ∧ encode (.mmGather 4 5) = [0x00029285, 0]
    ∧ encode (.mmRun 0 0 4 .e4m3) = [0x00400289, 0x00100000]
    ∧ encode (.mmRun 1 0 4 .e2m1) = [0x00400689, 0x00300000]
    ∧ encode (.mmAccz 1) = [0x0000068D, 0]
    ∧ encode (.mmDrain 0 6 (.wake 8 9)) = [0x00830291, 0x48200000]
    ∧ encode (.mmWait (some 0)) = [0x00000295, 0]
    ∧ encode (.mmWait none) = [0x00000295, 0x00100000]
    ∧ encode (.mmClaim 3 1) = [0x00100E99, 0]
    ∧ encode (.mmRelease 3 1) = [0x00100E99, 1]
    ∧ encode (.mmSetWeight 3 7) = [0x00038E99, 2]
    ∧ encode (.mmStat 4) = [0x0000129D, 0] := by
  refine ⟨?_, ?_, ?_, ?_, ?_, ?_, ?_, ?_, ?_, ?_, ?_, ?_, ?_⟩ <;> rfl

/-- Words of the spec: R255, R329 and the encodings of chapters 15 and 21. -/
theorem test_deeds_words_decode :
    decodeList [0x00008C31, 0] = .ok (.deedOffer 3 1)
    ∧ decodeList [0x02008C31, 0] = .ok (.deedAccept 3 1)
    ∧ decodeList [0x04008C31, 2] = .ok (.deedLend 3 1 2)
    ∧ decodeList [0x06008C31, 0] = .ok (.deedRecall 3 1)
    ∧ decodeList [0x08053831, 0] = .ok (.deedReturn 14 10)
    ∧ decodeList [0x0A009031, 0] = .ok (.deedQuery 4 1) := by
  refine ⟨?_, ?_, ?_, ?_, ?_, ?_⟩ <;> rfl

/-- The encoder gives the same words back. -/
theorem test_deeds_words_encode :
    encode (.deedOffer 3 1) = [0x00008C31, 0]
    ∧ encode (.deedAccept 3 1) = [0x02008C31, 0]
    ∧ encode (.deedLend 3 1 2) = [0x04008C31, 2]
    ∧ encode (.deedRecall 3 1) = [0x06008C31, 0]
    ∧ encode (.deedReturn 14 10) = [0x08053831, 0]
    ∧ encode (.deedQuery 4 1) = [0x0A009031, 0] := by
  refine ⟨?_, ?_, ?_, ?_, ?_, ?_⟩ <;> rfl

/-- Words of the spec: R358 to R363 and the encodings of chapter 16. -/
theorem test_seal_words_decode :
    decodeList [0x00208C35, 0] = .ok (.sealHash 3 1 2 0)
    ∧ decodeList [0x04008C35, 0x20000000] = .ok (.sealSign 3 1 4 0)
    ∧ decodeList [0x0C001435, 0] = .ok (.sealRand 5)
    ∧ decodeList [0x0E008C35, 5] = .ok (.sealExtend 3 1 5) := by
  refine ⟨?_, ?_, ?_, ?_⟩ <;> rfl

/-- The encoder gives the same words back. -/
theorem test_seal_words_encode :
    encode (.sealHash 3 1 2 0) = [0x00208C35, 0]
    ∧ encode (.sealSign 3 1 4 0) = [0x04008C35, 0x20000000]
    ∧ encode (.sealRand 5) = [0x0C001435, 0]
    ∧ encode (.sealExtend 3 1 5) = [0x0E008C35, 5] := by
  refine ⟨?_, ?_, ?_, ?_⟩ <;> rfl

/-! ### Ill-formed terms -/

/-- A doubleword takes no sign (R32). -/
theorem test_sign_of_doubleword_refused :
    Instr.wf (.ld 1 2 (.d20 0) .d true .plain) = false ∧ Instr.wf (.ldl 1 2 (.d20 0) .d true) = false
      ∧ Instr.wf (.ldx 1 2 3 0 .d true) = false := by decide

/-- A field that ends above its width (R127). -/
theorem test_field_beyond_width_refused :
    Instr.wf (.ext 1 2 60 4 false) = false ∧ Instr.wf (.extn 1 2 31 1 true) = false ∧ Instr.wf (.ins 1 2 63 1 false) = false
      ∧ Instr.wf (.ext 1 2 60 3 false) = true := by decide

/-- A FENCE with an empty set (R298). -/
theorem test_empty_fence_refused :
    Instr.wf (.fence .dev 0 1) = false ∧ Instr.wf (.fence .dev 1 0) = false := by decide

/-- An event has no words. -/
theorem test_event_refused : Instr.wf .coldReset = false ∧ encode .coldReset = [] := by decide

/-- Words that no instruction has: SCOPE 3 of FENCE, a Z with a doubleword, an unassigned major, a shape slot above 15
(R28, R32, R36, R298). -/
theorem test_unassigned_words_refused :
    decodeList [0x00000135, 0x06000303] = .error .badField ∧ decodeList [0x00009101, 0x00F00040] = .error .badField
      ∧ decodeList [0x00000001, 0] = .error .unassignedMajor ∧ decodeList [0x00404209, 0] = .error .badField := by
  refine ⟨?_, ?_, ?_, ?_⟩ <;> rfl

/-! ### Small states -/

/-- Thread 0 in kernel mode at 0x1000 on core 0, untranslated: g1 = 0x2000, g2 = 7, g3 = 3. -/
abbrev t0 : Thread := { core := 0, slot := 0, run := .ready, priv := .kernel, pc := 0x1000, g := [(1, 0x2000), (2, 7), (3, 3)] }

/-- A package with that thread alone, frame 2 the accelerator's, and the doubleword at 0x2000 holding 0x1122334455667788. -/
abbrev st : State :=
  { threads := [(0, some t0)], roll := [(2, some { owner := .acc })]
    mem := writeN [] 0x2000 8 0x1122334455667788 }

/-- The same with something else in the thread. -/
abbrev stWith (f : Thread → Thread) : State := { st with threads := [(0, some (f t0))] }

/-- The next state of an outcome. -/
def next (r : Result) : Option State := match r with | .next t => some t | _ => none

/-- A state without dies that are lost, relocking or asleep, and with nothing under way, is at rest. -/
theorem calm_of {s : State} (h : s.prompt = true ∧ s.msgs = [] ∧ s.txns = [] ∧ s.regs = [] ∧ s.altHomes = [] ∧ s.dir = []
    ∧ s.l2 = [] ∧ (∀ p ∈ s.dies, (p.2.getD {}).lost = false ∧ (p.2.getD {}).alone = false ∧ (p.2.getD {}).relock = none ∧
      (p.2.getD {}).linkH.st = 0 ∧ (p.2.getD {}).linkV.st = 0)) :
    s.Calm := by
  obtain ⟨a, b, c, d, e, f, l, g⟩ := h
  refine ⟨a, b, c, d, e, f, l, fun k => ?_⟩
  unfold State.die
  rcases mget_mem none s.dies k with h | h
  · rw [h]
    exact ⟨rfl, rfl, rfl, rfl, rfl⟩
  · exact g _ h

theorem witness_Calm : st.Calm := calm_of (by decide)

/-! ### Hypotheses of the obligations that something meets -/

theorem witness_EncodingRoundTrip : Instr.wf (.extn 1 1 0 9 false) = true := by decide

theorem witness_DecodingFollowsTables :
    ((0x00000104 : BitVec 32).extractLsb' 0 2 = 0 ∧ (0x00000104 : BitVec 32) ≠ 0x0FAD0000)
      ∧ ((0xA8 : Nat) ≤ (fieldsOf 0x000002A1 0 0 0).maj.toNat)
      ∧ (fieldsOf 0x02208C41 0 0 0).fn ≠ 0 ∧ (fieldsOf 0x02208C41 0 0 0).maj.toNat ∉ [0x0C, 0x0D, 0x48, 0x49] := by decide

/-- Code of 8 bytes (`add g3, g1, g2`) at 0x2000. -/
abbrev stCode : State := { stWith (fun t => { t with pc := 0x2000 }) with mem := writeN [] 0x2000 8 0x00208C41, sched := [.core 0] }

theorem witness_FetchReadsMemory :
    stCode.translate 0 0x2000 .fetch = (.ok 0x2000 .cacheable, stCode) ∧ stCode.cut (dieOf (stCode.thr 0).core) (homeDie 0x2000) = false
      ∧ stCode.granted (stCode.domainOf 0) 0x2000 = true ∧ mget none (stCode.core (stCode.thr 0).core).icache (0x2000 / 128) = none
      ∧ stCode.entryFrame (0x2000 / 128 * 128) = none ∧ stCode.entryFrame (0x2000 / 128 * 128 + 127) = none
      ∧ stCode.flawed false (0x2000 / 128 * 128) 128 = false
      ∧ lenBytes (wordOfBytes (readBytes stCode.mem 0x2000 4)) = 8 ∧ decode (readBytes stCode.mem 0x2000 8) = .ok (.add 3 1 (.reg 2) false) := by
  refine ⟨by decide +kernel, by decide +kernel, by decide +kernel, by decide +kernel, by decide +kernel, by decide +kernel,
    by decide +kernel, by decide +kernel, rfl⟩

/-- The next mover of the state is core 0, whose thread 0 fetches the add. -/
theorem witness_StepRunsDecoded :
    let s0 : State := { stCode.begin with sched := [] }
    let s1 := (s0.cycleCore 0).beginIssue 0 0 0
    s0.dead (dieOf 0) = false ∧ s0.halted (dieOf 0) = false ∧ (s0.core 0).gated = false
      ∧ s0.pick 0 = some 0 ∧ s0.occupant 0 0 = some 0 ∧ s0.timerDue 0 = false ∧ s0.atPad 0 = false ∧ s0.asyncDue 0 = none
      ∧ (s1.fetch 0 (s1.thr 0).pc).1 = .ok (.add 3 1 (.reg 2) false) 8 0x00208C41 ∧ (s1.fetch 0 (s1.thr 0).pc).2.met = false
      ∧ privCheck (s1.fetch 0 (s1.thr 0).pc).2 (.add 3 1 (.reg 2) false) = none
      ∧ (needsOrigin (.add 3 1 (.reg 2) false) && ((s1.fetch 0 (s1.thr 0).pc).2.thr 0).away) = false := by
  decide +kernel

theorem witness_StepRunsDecoded_picked :
    let s := { stCode with sched := [] }
    s.powered = true ∧ (s.begin.calls.all fun x => !changes x s.begin) = true ∧ s.begin.nextCore = some 0
      ∧ (s.core 0).spent < s.tickCycles 0 := by
  decide +kernel

/-- That step runs it: g3 = g1 + g2. -/
theorem test_step_runs_add :
    (next (step stCode)).map (fun t => (mget 0 (t.thr 0).g 3, (t.thr 0).pc)) = some (0x2007, 0x2008) := by
  decide +kernel

theorem witness_StopsOnlyWithoutSupply : st.powered = true ∧ ({ st with powered := false } : State).powered = false
    ∧ ({ st with powered := false } : State).sched = [] := by decide

theorem witness_StepKeepsInv : stCode.Inv ∧ ∃ t, step stCode = .next t := by
  refine ⟨⟨by decide +kernel, by decide +kernel⟩, ?_⟩
  have h : (match step stCode with | .next _ => true | _ => false) = true := by decide +kernel
  revert h
  cases step stCode <;> simp

theorem witness_AluValues : naturalOf true 7 ≠ 0 := by decide

theorem witness_DividesComplete : naturalOf true (st.opnd st.cur (.reg 2)) ≠ 0 ∧ naturalOf true (st.opnd st.cur (.i64 0x100000000)) = 0 := by
  decide +kernel

theorem witness_ImmediatesAndBitsComplete : fieldOk 60 3 false = true ∧ fieldOk 0 31 true = true := by decide

theorem witness_JumpsComplete : (st.reg st.cur 1 + BitVec.signExtend 64 (4 : BitVec 20)).toNat % 4 = 0
    ∧ (st.reg st.cur 1 + BitVec.signExtend 64 (2 : BitVec 20)).toNat % 4 ≠ 0 := by decide +kernel

theorem witness_ControlCompletes : st.me.priv ≠ .user := by decide +kernel

/-- A user thread at level 2, both levels entered by delegation. -/
abbrev stUser : State :=
  stWith fun t => { t with priv := .user, lvl := 2, cause1 := 2 ^ 61, cause2 := 2 ^ 61 }

theorem witness_SystemRegistersComplete :
    (0x000 ∈ sysNumbers ∧ st.me.priv ≠ .user) ∧ (0x004 ∈ sysNumbers ∧ 1 ≤ stUser.me.lvl ∧ stUser.me.cause1.getLsbD 61 = true)
      ∧ (0x005 ∈ sysNumbers ∧ 2 ≤ stUser.me.lvl ∧ stUser.me.cause2.getLsbD 61 = true)
      ∧ (stWith fun t => { t with priv := .steward }).me.priv = .steward ∧ 0x013 ∉ sysNumbers ∧ stUser.me.priv = .user
      ∧ (∀ w ∈ [1, 0],
          let s := (st.onCore 0 fun x => { x with cmPend := [(w, 5)] }).onDie 0 fun x => { x with slPend := [(0, w, 5)] }
          (s.core 0).cmPend = [(w, 5)] ∧ (s.die (dieOf 0)).slPend = [(0, w, 5)] ∧ (s.core 0).cycle = 0) := by
  decide +kernel

theorem witness_TrapEntry : (st.thr 0).lvl < 2 ∧ (stUser.thr 0).lvl = 2 ∧ (0 : Nat) < ghostBase := by decide +kernel

theorem witness_SoftwareTrapsEnter : st.me.lvl < 2 ∧ st.broken st.me.core = false
    ∧ (match (st.fetch st.cur (st.after 8)).1 with | .ok .pad _ _ => false | _ => true) = true
    ∧ (st.fetch st.cur (st.after 8)).2.met = false
    ∧ (st.onDie 0 fun x => { x with debugOpen := true, dbgbrk := 1 }).broken st.me.core = true := by
  decide +kernel

theorem witness_RttReturns :
    (let x := (stWith fun t => { t with lvl := 1 }).me
     x.lvl = 1 ∧ (x.priv = .user → x.cause1.getLsbD 61 = true) ∧ x.pv1.code ≤ x.priv.code ∧ x.ret1.toNat % 4 = 0)
    ∧ (let x := stUser.me
       x.lvl = 2 ∧ (x.priv = .user → x.cause2.getLsbD 61 = true) ∧ x.pv2.code ≤ x.priv.code ∧ x.ret2.toNat % 4 = 0)
    ∧ (stWith fun t => { t with lvl := 1, ret1 := 2 }).me.ret1.toNat % 4 ≠ 0 ∧ (stWith fun t => { t with lvl := 2, ret2 := 2 }).me.ret2.toNat % 4 ≠ 0
    ∧ st.me.lvl = 0
    ∧ (let x := (stWith fun t => { t with lvl := 1, pv1 := .steward }).me; x.lvl = 1 ∧ x.priv.code < x.pv1.code)
    ∧ (let x := (stWith fun t => { t with lvl := 2, priv := .user }).me; x.lvl = 2 ∧ x.priv = .user ∧ x.cause2.getLsbD 61 = false) := by
  decide +kernel

theorem witness_PrivilegeChecked : st.cur = 0 ∧ (st.thr 0).priv.code < (needsPriv (.sealRand 5)).code
    ∧ stUser.cur = 0 ∧ (stUser.thr 0).priv = .user := by decide +kernel

theorem witness_MisalignedAccessTraps :
    (st.addr st.cur 1 (.d20 4)).toNat % Size.d.bytes ≠ 0 ∧ (st.reg st.cur 2).toNat % 8 ≠ 0 ∧ (st.reg st.cur 3).toNat % 4 ≠ 0
      ∧ (st.reg st.cur 1 + BitVec.signExtend 64 (4 : BitVec 20)).toNat % Size.d.bytes ≠ 0 := by decide +kernel

theorem witness_TranslationTouchesTlbs : ({} : Creds).atp.toNat / 2 ^ 60 = 0 := by decide +kernel

theorem witness_LoadsComplete :
    let s := st.setL1 0 64 (some { st := .d, data := 0x55 })
    ((s.addr s.cur 1 (.d20 0)).toNat % Size.d.bytes = 0
      ∧ s.locate s.cur (commonsRef (.ld 4 1 (.d20 0) .d false .plain)) (s.addr s.cur 1 (.d20 0)) .load = (.here 0x2000 .cacheable false, s)
      ∧ s.l1 (s.thr s.cur).core (0x2000 / 128) = some { st := .d, data := 0x55 } ∧ s.overlaps s.cur 0x2000 8 = [])
    ∧ (st.entryFrame 0x2000 = none ∧ st.entryFrame (0x2000 + 8 - 1) = none)
    ∧ st.locate st.cur (commonsRef (.ld 4 1 (.d20 0) .d false .acq)) (st.addr st.cur 1 (.d20 0)) .load = (.here 0x2000 .cacheable false, st)
      ∧ st.granted (st.domainOf st.cur) 0x2000 = true ∧ st.flawed false 0x2000 8 = false := by
  decide +kernel

/-- A thread of die 1 whose commons register g16 holds 0x2000, an address of die 0. -/
abbrev stAwayMem : State :=
  { st with
    threads := [(4096, some { t0 with core := 256, g := [] })], cores := [(256, some { c := [(0, 0x2000)] })], cur := 4096 }

/-- Core 0's copy of line 64, and a store of the thread to 0x2000 that is not acknowledged. -/
abbrev stOver : State :=
  (stWith fun t => { t with unacked := [{ id := 3, pa := 0x2000, size := 8 }] }).setL1 0 64 (some { st := .v, data := 0x55 })

/-- A software-managed region at 0, and a thread whose g1 is 0x2000, g5 a device register's address and g6 a system address. -/
abbrev stSoft : State :=
  { stWith (fun t => { t with g := t.g ++ [(4, 0x8000000000000020), (5, 0x10000030000), (6, 0x20000000000)] }) with
    dies := [(0, some { regions := [(0, 0xC000000000000000)] })] }

/-- A plain load of a line that no L1 holds: of the thread's own die, and, of the commons, of another. -/
theorem witness_LoadsComplete_fill :
    (st.locate 0 (commonsRef (.ld 4 1 (.d20 0) .d false .plain)) (st.addr 0 1 (.d20 0)) .load = (.here 0x2000 .cacheable false, st)
      ∧ (st.core 0).l1 = [] ∧ st.regionSt (0x2000 / 128 * 128) = 0 ∧ st.flawed false (0x2000 / 128 * 128) 128 = false
      ∧ st.granted (st.domainOf 0) 0x2000 = true)
    ∧ stAwayMem.locate 4096 (commonsRef (.ld 4 16 (.d20 0) .d false .plain)) (stAwayMem.addr 4096 16 (.d20 0)) .load
        = (.here 0x2000 .cacheable true, stAwayMem) := by
  decide +kernel

theorem witness_LoadsComplete_waits :
    stOver.locate 0 (commonsRef (.ld 4 1 (.d20 0) .d false .plain)) (stOver.addr 0 1 (.d20 0)) .load = (.here 0x2000 .cacheable false, stOver)
      ∧ stOver.l1 0 64 ≠ none ∧ stOver.overlaps 0 0x2000 8 = [3] := by
  decide +kernel

theorem witness_LoadsComplete_kinds :
    stSoft.locate 0 (commonsRef (.ld 4 1 (.d20 0) .d false .plain)) (stSoft.addr 0 1 (.d20 0)) .load = (.here 0x2000 .software false, stSoft)
      ∧ stSoft.flawed false (0x2000 / 128 * 128) 128 = false ∧ (stSoft.core 0).l1 = [] ∧ stSoft.regionSt (0x2000 / 128 * 128) = 0
      ∧ stSoft.granted (stSoft.domainOf 0) 0x2000 = true
      ∧ stSoft.locate 0 (commonsRef (.ld 4 5 (.d20 0) .d false .plain)) (stSoft.addr 0 5 (.d20 0)) .load = (.here 0x10000030000 .device false, stSoft)
      ∧ stSoft.heldBack 0 = [] ∧ stSoft.sdBusy 0x10000030000 = false
      ∧ stSoft.locate 0 (commonsRef (.ld 4 6 (.d20 0) .d false .plain)) (stSoft.addr 0 6 (.d20 0)) .load = (.here 0x20000000000 .system false, stSoft) := by
  decide +kernel

theorem witness_LoadsComplete_calm : stSoft.Calm ∧ st.Calm := ⟨calm_of (by decide), calm_of (by decide)⟩

/-- The same with a translated page of streaming memory. -/
abbrev stStream : State :=
  { stWith (fun t => { t with atp := 0xA000000000000000 }) with
    cores := [(0, some { tlb := [{ pasid := 0, asid := 0, glob := false, vpn := 2, level := 0, ppn := 2, perms := 0xCF, pbmt := 1, gen := 0 }] })] }

theorem witness_LoadsComplete_streaming :
    (stStream.locate 0 (commonsRef (.ld 4 1 (.d20 0) .d false .plain)) 0x2000 .load).1 = .here 0x2000 .streaming false
      ∧ stStream.granted (stStream.domainOf 0) 0x2000 = true := by
  decide +kernel

/-- g4 = a set of cores that is valid (bit 63) and names core 5. -/
abbrev stPush : State := stWith fun t => { t with g := t.g ++ [(4, 0x8000000000000020)] }

theorem witness_StoresSend :
    ((st.thr st.cur).unacked.length < 8 ∧ (st.addr 0 1 (.d20 8)).toNat % Size.d.bytes = 0 ∧ (st.thr 0).unacked = []
      ∧ st.locate 0 (commonsRef (.st 1 (.d20 8) 2 .d .rel)) (st.addr 0 1 (.d20 8)) .store = (.here 0x2008 .cacheable false, st))
    ∧ st.locate 0 (commonsRef (.clZero 1 (.s20 0))) (clAddr 1 (.s20 0) st) .store = (.here 0x2000 .cacheable false, st)
    ∧ ((stPush.reg 0 4).getLsbD 63 = true ∧ stPush.pushMask 0 (stPush.reg 0 4) = (.mask 0, stPush)
      ∧ stPush.locate 0 (commonsRef (.push 1 (.d20 0) 2 4 .d)) (stPush.addr 0 1 (.d20 0)) .store = (.here 0x2000 .cacheable false, stPush)
      ∧ stPush.locate 0 (commonsRef (.pushl 1 (.d20 0) 4)) (stPush.addr 0 1 (.d20 0)) .store = (.here 0x2000 .cacheable false, stPush)) := by
  decide +kernel

theorem witness_StoresSend_kinds :
    stSoft.windowFull 0 = false ∧ stSoft.pushMask 0 (stSoft.reg 0 4) = (.mask 0, stSoft) ∧ stSoft.heldBack 0 = []
      ∧ (∀ i ∈ [Instr.st 1 (.d20 0) 2 .d .plain, .st 1 (.d20 0) 2 .d .rel, .push 1 (.d20 0) 2 4 .d, .pushl 1 (.d20 0) 4, .clZero 1 (.s20 0)],
          stSoft.locate 0 (commonsRef i) (stSoft.addr 0 1 (.d20 0)) .store = (.here 0x2000 .software false, stSoft))
      ∧ ((stSoft.setL1 0 64 (some { st := .v, data := 1 })).locate 0 (commonsRef (.st 1 (.d20 0) 2 .d .plain)) 0x2000 .store).1 = .here 0x2000 .software false
      ∧ (stSoft.setL1 0 64 (some { st := .v, data := 1 })).l1 0 64 = some { st := .v, data := 1 }
      ∧ (∀ i ∈ [Instr.st 5 (.d20 0) 2 .d .plain, .push 5 (.d20 0) 2 4 .d, .pushl 5 (.d20 0) 4],
          stSoft.locate 0 (commonsRef i) (stSoft.addr 0 5 (.d20 0)) .store = (.here 0x10000030000 .device false, stSoft))
      ∧ stSoft.locate 0 (commonsRef (.clZero 5 (.s20 0))) (clAddr 5 (.s20 0) stSoft) .store = (.here 0x10000030000 .device false, stSoft)
      ∧ stSoft.locate 0 (commonsRef (.clZero 6 (.s20 0))) (clAddr 6 (.s20 0) stSoft) .store = (.here 0x20000000000 .system false, stSoft)
      ∧ stSoft.counterOpen 64 = false ∧ ({ stSoft with altHomes := [{ line := 64, used := 0 }] } : State).counterOpen 64 = true
      ∧ (∀ i ∈ [Instr.st 6 (.d20 0) 2 .d .plain, .push 6 (.d20 0) 2 4 .d, .pushl 6 (.d20 0) 4],
          stSoft.locate 0 (commonsRef i) (stSoft.addr 0 6 (.d20 0)) .store = (.here 0x20000000000 .system false, stSoft)) := by
  decide +kernel

/-- g4 points to a mask in memory, which no store of the thread is on its way to, or one is. -/
theorem witness_StoresSend_pointer :
    let s := stWith fun t => { t with g := t.g ++ [(4, 0x2020)] }
    let u := stWith fun t => { t with g := t.g ++ [(4, 0x2020)], unacked := [{ id := 3, pa := 0x2020, size := 8 }] }
    (s.reg 0 4).getLsbD 63 = false ∧ (s.reg 0 4).toNat % 32 = 0 ∧ (0x2024 : Word).toNat % 32 ≠ 0
      ∧ s.translate 0 (s.reg 0 4) .load = (.ok 0x2020 .cacheable, s) ∧ s.cut (dieOf (s.thr 0).core) (homeDie 0x2020) = false
      ∧ s.overlaps 0 0x2020 32 = [] ∧ s.granted (s.domainOf 0) 0x2020 = true ∧ s.flawed false 0x2020 32 = false
      ∧ u.translate 0 (u.reg 0 4) .load = (.ok 0x2020 .cacheable, u) ∧ u.overlaps 0 0x2020 32 = [3] := by
  decide +kernel

/-- A message to the slice of 0x2000, alone in flight. -/
abbrev stMsg (b : Body) : State := { st with msgs := [{ id := 0, src := .core 0, dst := .slice 0 0, body := b }], nextId := 1 }

/-- Thread 0 awaits a reply for register g5. -/
abbrev awaits (t : Thread) : Thread :=
  { t with run := .waiting, wait := .reply 0, cont := some { d := some 5, len := 8, size := 8, sign := false, va := 0x2000 } }

theorem witness_HomesServe :
    ((stMsg (.store 0 0x2000 8 9)).due 0 = some ⟨0, .core 0, .slice 0 0, [], .store 0 0x2000 8 9⟩
      ∧ ((stMsg (.store 0 0x2000 8 9)).dirOf (0x2000 / 128)).form ≠ .x ∧ (stMsg (.store 0 0x2000 8 9)).granted ((stMsg (.store 0 0x2000 8 9)).storeDom 0 0) 0x2000 = true
      ∧ (stMsg (.store 0 0x2000 8 9)).counterOpen (0x2000 / 128) = false ∧ st.l2 = [])
    ∧ (stMsg (.push 0 0x2000 (some (8, 9)) [5] true)).due 0 = some ⟨0, .core 0, .slice 0 0, [], .push 0 0x2000 (some (8, 9)) [5] true⟩
    ∧ (let s := (stMsg (.read 0 0x2000 8 .acquire)).onThr 0 awaits
       s.due 0 = some ⟨0, .core 0, .slice 0 0, [], .read 0 0x2000 8 .acquire⟩ ∧ ((s.thr 0).cont.bind (·.d)) = some 5
         ∧ s.granted (s.domainOf 0) 0x2000 = true ∧ s.flawed false 0x2000 8 = false)
    ∧ (stMsg (.ack 0 0)).due 0 = some ⟨0, .core 0, .slice 0 0, [], .ack 0 0⟩ := by
  decide +kernel

theorem witness_AtomicsComplete :
    st.granted (st.domainOf st.cur) 0x2000 = true ∧ (st.thr st.cur).unacked = [] ∧ (st.thr st.cur).gate = []
      ∧ (st.reg 0 1).toNat % 8 = 0
      ∧ st.locate 0 (commonsRef (.amoAdd 5 1 2 .ar true)) (st.reg 0 1) .store = (.here 0x2000 .cacheable false, st)
      ∧ st.locate 0 (commonsRef (.amoCas 5 1 2 3 .ar true)) (st.reg 0 1) .store = (.here 0x2000 .cacheable false, st)
      ∧ st.locate 0 (commonsRef (.amoFadd 5 1 2 .ar)) (st.reg 0 1) .store = (.here 0x2000 .cacheable false, st)
      ∧ st.l1 (st.thr 0).core (0x2000 / 128) = none ∧ st.flawed false 0x2000 4 = false ∧ st.flawed false 0x2000 8 = false := by
  decide +kernel

/-- Window 0 of I32 words at 0x40000000000, to which g6 points. -/
abbrev stAmoWin : State :=
  { stWith (fun t => { t with g := [(6, 0x40000000000)] }) with
    dies := [(0, some { rdwin := [(0, word (2 ^ 63 + 2 * 2 ^ 61 + 2 ^ 54 + 0x400_0000_0000))] })] }

theorem witness_AtomicsComplete_kinds :
    stSoft.locate 0 (commonsRef (.amoAdd 3 5 2 .ar true)) (stSoft.reg 0 5) .store = (.here 0x10000030000 .device false, stSoft)
      ∧ stSoft.locate 0 (commonsRef (.amoAdd 3 6 2 .ar true)) (stSoft.reg 0 6) .store = (.here 0x20000000000 .system false, stSoft)
      ∧ stSoft.windowFmt 0 0x20000000000 = none ∧ (stSoft.thr 0).unacked = []
      ∧ stAmoWin.windowFmt 0 0x40000000000 = some 2 ∧ windowTakes 2 .add 4 = true ∧ windowTakes 2 .swap 4 = false
      ∧ stAmoWin.windowFull 0 = false ∧ stAmoWin.heldBack 0 = []
      ∧ (∀ i ∈ [Instr.amoAdd 3 6 2 .ar false, .amoSwap 3 6 2 .ar false],
          stAmoWin.locate 0 (commonsRef i) (stAmoWin.reg 0 6) .store = (.here 0x40000000000 .system false, stAmoWin)) := by
  decide +kernel

/-- The translations after which an atomic, an LR and an SC trap. -/
theorem witness_AtomicsComplete_traps :
    (∀ va pa kind, (va, pa, kind) ∈ [((stSoft.reg 0 5), 0x10000030000, Kind.device), ((stSoft.reg 0 6), 0x20000000000, .system)] →
      ∀ acc ∈ [Acc.load, .store], stSoft.translate 0 va acc = (.ok pa kind, stSoft))
    ∧ stSoft.met = false ∧ ¬ AtFn.and ∈ [AtFn.add, .swap, .cas]
    ∧ stAmoWin.translate 0 (stAmoWin.reg 0 6) .store = (.ok 0x40000000000 .system, stAmoWin) ∧ stAmoWin.met = false
    ∧ (∀ d, stAmoWin.halted d = false) := by
  refine ⟨?_, by decide +kernel, by decide, by decide +kernel, by decide +kernel, fun d => ?_⟩
  · intro va pa kind h
    simp only [List.mem_cons, Prod.mk.injEq, List.not_mem_nil, or_false] at h
    rcases h with ⟨rfl, rfl, rfl⟩ | ⟨rfl, rfl, rfl⟩ <;> decide +kernel
  · simp only [State.halted, State.die, mget]
    split <;> rfl

theorem witness_AtomicsComplete_values :
    fp32Finite (0x3F800000 % 2 ^ 32) ∧ fp32Finite (0xFF7FFFFF % 2 ^ 32) ∧ fp32Nan (0x7FC00000 % 2 ^ 32) ∧ fp32Nan (0xFFFFFFFF % 2 ^ 32)
      ∧ ¬ fp32Finite 0x7F800000 ∧ ¬ fp32Nan 0x7F800000 := by
  decide +kernel

theorem witness_HomeAtomicPerforms :
    let s := (stMsg (.atomic 0 0x2000 (.atomic .add 8 1 0))).onThr 0 awaits
    s.due 0 = some ⟨0, .core 0, .slice 0 0, [], .atomic 0 0x2000 (.atomic .add 8 1 0)⟩ ∧ ((s.thr 0).cont.bind (·.d)) = some 5
      ∧ s.dirOf (0x2000 / 128) = {} ∧ s.regs = [] ∧ s.l2 = [] ∧ s.granted (s.domainOf 0) 0x2000 = true ∧ s.counterOpen (0x2000 / 128) = false
      ∧ s.flawed false 0x2000 8 = false := by
  decide +kernel

theorem witness_ReservationsComplete :
    (st.locate 0 (commonsRef (.lr 5 1 false true)) (st.reg 0 1) .load = (.here 0x2000 .cacheable false, st) ∧ st.flawed false 0x2000 8 = false)
    ∧ (st.locate 0 (commonsRef (.sc 5 1 2 false true)) (st.reg 0 1) .store = (.here 0x2000 .cacheable false, st) ∧ ¬ 0x2000 / 128 ∈ (st.thr 0).resv)
    ∧ (let s := { stWith (fun t => { t with resv := [64] }) with regs := [(0, 64)] }
       s.locate 0 (commonsRef (.sc 5 1 2 false true)) (s.reg 0 1) .store = (.here 0x2000 .cacheable false, s) ∧ 0x2000 / 128 ∈ (s.thr 0).resv
         ∧ s.regs = [(0, 0x2000 / 128)] ∧ (s.thr 0).gate = [])
    ∧ (stWith fun t => { t with hit := 2 }).me.hit ≠ 0 ∧ st.me.hit = 0 ∧ st.me.resv = [] := by
  decide +kernel

/-- An SC finds a fabric at rest but for its own registration. -/
theorem witness_ReservationsComplete_calm : ({ { stWith (fun t => { t with resv := [64] }) with regs := [(0, 64)] } with regs := [] } : State).Calm :=
  calm_of (by decide)

theorem witness_LocalAccessCompletes :
    ((st.addr 0 1 (.d20 0)).toNat % Size.d.bytes = 0 ∧ (st.addr 0 1 (.d20 0)).toNat ≤ 0x7FFFF ∧ st.flawed true (locKey (originOf 0) 0x2000) 8 = false)
    ∧ ({ st with flaws := [(true, 0x400)] } : State).flawed true (locKey (originOf 0) 0x2000) 8 = true
    ∧ (st.addr 0 1 (.d32 0x7FFF8)).toNat % Size.d.bytes = 0 ∧ 0x7FFFF < (st.addr 0 1 (.d32 0x7FFF8)).toNat := by
  decide +kernel

theorem witness_RemoteLocalCompletes :
    ((st.reg 0 2).toNat = 7 ∧ (7 : Nat) ≤ 1023 ∧ (st.core 7).porter = [] ∧ (st.thr 0).unacked = []
      ∧ (st.reg 0 1 + BitVec.signExtend 64 (8 : BitVec 20)).toNat % Size.d.bytes = 0
      ∧ (st.reg 0 1 + BitVec.signExtend 64 (8 : BitVec 20)).toNat ≤ 0x7FFFF ∧ st.flawed true (locKey 7 0x2008) 8 = false)
    ∧ (let s := (stWith fun t => { awaits t with cont := some { d := none, len := 8, size := 8, sign := false, va := 0 } }).onCore 7 fun x =>
         { x with porter := [{ thread := 0, off := 0x40, op := .store 8 5 }] }
       s.msgs = [] ∧ s.resting 7 = false ∧ (s.core 7).gated = false ∧ s.pick 7 = some 16
         ∧ (s.core 7).porter = [{ thread := 0, off := 0x40, op := .store 8 5 }] ∧ ((s.thr 0).cont.map (·.d)) = some none) := by
  decide +kernel

theorem witness_LineOpsComplete :
    st.translate 0 (clAddr 1 (.s20 0) st) .load = (.ok 0x2000 .cacheable, st) ∧ st.translate 0 (clAddr 1 (.s20 0) st) .flush = (.ok 0x2000 .cacheable, st)
      ∧ st.granted (st.domainOf 0) 0x2000 = true ∧ homeDie 0x2000 = dieOf (st.thr 0).core ∧ (st.core 0).l1 = []
      ∧ (st.die (homeDie 0x2000)).regions = [] ∧ st.overlaps 0 0x2000 128 = [] ∧ st.watchers 0 64 0x2000 128 = []
      ∧ (st.setL1 0 64 (some { st := .v, data := 1 })).l1 0 64 ≠ none ∧ st.binBusy 0x2000 = false ∧ st.flawed false 0x2000 128 = false
      ∧ st.l1 0 64 = none ∧ ({ st with prompt := false } : State).prompt = false ∧ homeDie 0x4000000000 ≠ dieOf 0
      ∧ stOver.translate 0 (clAddr 1 (.s20 0) stOver) .flush = (.ok 0x2000 .cacheable, stOver) ∧ stOver.overlaps 0 0x2000 128 = [3] := by
  decide +kernel

/-- Core 0 holds a C copy of line 64 of a software-managed region, or one with its low 8 bytes modified. -/
abbrev stOwn (m : Bool) : State :=
  stSoft.setL1 0 64 (some { st := if m then .m else .c, data := 0x55, dirty := if m then 0xFF else 0 })

theorem witness_LineOpsComplete_software :
    (∀ m ∈ [true, false], (stOwn m).translate 0 (clAddr 1 (.s20 0) (stOwn m)) .flush = (.ok 0x2000 .software, stOwn m)
      ∧ (stOwn m).granted ((stOwn m).domainOf 0) 0x2000 = true ∧ (stOwn m).granted .acc 0x2000 = true ∧ (stOwn m).binBusy 0x2000 = false)
    ∧ (stOwn true).l1 0 64 = some { st := .m, data := 0x55, dirty := 0xFF } ∧ (stOwn false).l1 0 64 = some { st := .c, data := 0x55 }
    ∧ ((stOwn true).thr 0).unacked = [] ∧ ((stOwn true).thr 0).gate = [] := by
  decide +kernel

/-- A write-back of line 64 by core 0 is under way, where the core's copy is C or gone. -/
theorem witness_LineOpsComplete_backs :
    ∀ l ∈ [some ({ st := .c, data := 0x55 } : L1Line), none],
      let s : State := { stSoft.setL1 0 64 l with msgs := [{ id := 0, src := .core 0, dst := .slice 0 0, body := .wback nobody 64 0 0 }], nextId := 1 }
      s.translate 0 (clAddr 1 (.s20 0) s) .flush = (.ok 0x2000 .software, s) ∧ s.granted (s.domainOf 0) 0x2000 = true
        ∧ s.l1 0 64 = l ∧ s.backsOf 0 64 ≠ [] ∧ (stSoft.setL1 0 64 l).backsOf 0 64 = [] := by
  decide +kernel

theorem witness_LineOpsComplete_calm : (stOwn true).Calm := calm_of (by decide +kernel)

theorem witness_FenceAndWaitComplete :
    (fenceRecord st 0 .dev 1 = [] ∧ (1 : BitVec 6) &&& 0b011101 ≠ 0) ∧ (2 : BitVec 6) &&& 0b011101 = 0
      ∧ (stStream.reg 0 1).toNat % 8 = 0
      ∧ (stStream.locate 0 (commonsRef (.waita 5 1 (.i20 0) false)) (stStream.reg 0 1) .load).1 = .here 0x2000 .streaming false
      ∧ stStream.granted (stStream.domainOf 0) 0x2000 = true
      ∧ word (readN stStream.mem 0x2000 8) ≠ 0 ∧ stStream.flawed false 0x2000 8 = false := by
  decide +kernel

/-- The thread has a store under way, which a FENCE awaits. -/
theorem witness_FenceAndWaitComplete_waits :
    fenceRecord stOver stOver.cur .dev 2 = [3] ∧ (2 : BitVec 6) ≠ 0 ∧ (1 : BitVec 6) &&& 0b011101 ≠ 0 := by
  decide +kernel

/-- A word that equals its comparand: of a line of the thread's die, not held, held in V and in D, and of another die's. -/
theorem witness_FenceAndWaitComplete_tracked :
    let at' := fun (s : State) (n a : Reg) => s.locate s.cur (commonsRef (.waita 5 a (.reg n) false)) (s.reg s.cur a) .load
    let z := fun (s : State) => ({ s with mem := [] } : State)
    (at' (z st) 4 1 = (.here 0x2000 .cacheable false, z st) ∧ word ((z st).homeRead 0x2000 8) = (z st).reg 0 4
      ∧ (z st).granted ((z st).domainOf 0) 0x2000 = true ∧ ((z st).core 0).l1 = [] ∧ (z st).regionSt (64 * 128) = 0)
    ∧ (∀ k ∈ [L1St.v, .d],
      let s := (z st).setL1 0 64 (some { st := k, data := 0 })
      at' s 4 1 = (.here 0x2000 .cacheable false, s) ∧ s.l1 0 64 = some { st := k, data := 0 })
    ∧ (at' (z stAwayMem) 4 16 = (.here 0x2000 .cacheable true, z stAwayMem)
      ∧ word ((z stAwayMem).homeRead 0x2000 8) = (z stAwayMem).reg 4096 4) := by
  decide +kernel

theorem witness_CoherenceMessagesApply :
    let s := (stMsg (.update 0 0x2000 8 9 0)).setL1 0 64 (some { st := .v, data := 1 })
    s.txns = [] ∧ s.due 0 = some ⟨0, .core 0, .slice 0 0, [], .update 0 0x2000 8 9 0⟩ ∧ s.l1 0 (0x2000 / 128) = some { st := .v, data := 1 }
      ∧ (stMsg (.offer 0 64 0)).due 0 = some ⟨0, .core 0, .slice 0 0, [], .offer 0 64 0⟩ ∧ st.granted .acc (64 * 128) = true
      ∧ st.mayHold 64 .d = true ∧ (st.core 0).l1 = [] ∧ (st.core 0).dCount < 64
      ∧ ({ stSoft with dies := [(0, some { regions := [(0, 0xE000000000000000)] })] } : State).mayHold 64 .d = false
      ∧ ((stMsg (.offer 0 64 0)).setL1 0 64 (some { st := .m, data := 1 })).l1 0 64 = some { st := .m, data := 1 }
      ∧ ({ st with roll := [] } : State).granted .acc (64 * 128) = false
      ∧ (stMsg (.inval 0 64 0)).due 0 = some ⟨0, .core 0, .slice 0 0, [], .inval 0 64 0⟩
      ∧ (stMsg (.probe 0 64 0)).due 0 = some ⟨0, .core 0, .slice 0 0, [], .probe 0 64 0⟩
      ∧ ((stMsg (.watchEnd 0 64)).due 0 = some ⟨0, .core 0, .slice 0 0, [], .watchEnd 0 64⟩ ∧ st.cores = [])
      ∧ (stMsg (.agentInval 1 64 0)).due 0 = some ⟨0, .core 0, .slice 0 0, [], .agentInval 1 64 0⟩ := by
  decide +kernel

/-- A probe, or an agent's invalidation, whose transaction awaits it with one more, or as the last. -/
theorem witness_CoherenceMessagesApply_txn :
    let m : Msg := { id := 7, src := .core 1, dst := .slice 0 0, body := .read 16 0x2000 8 .fill }
    ∀ k ∈ [(1 : Nat), 2],
      let x : Txn := { id := 3, line := 64, left := k, done := .again m }
      let y : Txn := { id := 3, line := 64, left := k, done := .ack 0 5 }
      (∀ held ∈ [true, false],
        let s : State := { (stMsg (.probe 0 64 3)).setL1 0 64 (if held then some { st := .v, data := 1 } else none) with txns := [x] }
        s.txns.find? (fun z => decide (z.id = 3)) = some x ∧ s.due 0 = some ⟨0, .core 0, .slice 0 0, [], .probe 0 64 3⟩ ∧ s.dir.length < 16)
      ∧ (let s : State := { stMsg (.agentInval 1 64 3) with txns := [y] }
         s.txns.find? (fun z => decide (z.id = 3)) = some y ∧ s.due 0 = some ⟨0, .core 0, .slice 0 0, [], .agentInval 1 64 3⟩) := by
  decide +kernel

/-- Frame 2 the host's. -/
abbrev stHost : State := { st with roll := [(2, some { owner := .host })] }

theorem witness_AgentsServed :
    stHost.agentReady 1 0x2000 = true ∧ stHost.granted .host 0x2000 = true ∧ st.agentReady 1 0x2000 = true ∧ st.granted .host 0x2000 = false
      ∧ 0x2000 % 128 + 8 ≤ 128 ∧ stHost.counterOpen (0x2000 / 128) = false ∧ agentFns[0]? ≠ none ∧ ((st.onDie 0 fun x => { x with dphead := 16 }).die (homeDie 0x2000)).ringFull = true
      ∧ stHost.flawed false (0x2000 / 128 * 128) 128 = false
      ∧ (let s : State := { stHost with flaws := [(false, 0x400)] }
         s.agentReady 1 0x2000 = true ∧ s.flawed false (0x2000 / 128 * 128) 128 = true ∧ s.flawed false 0x2000 8 = true) := by
  decide +kernel

theorem witness_BoundaryEventsApply :
    (let s := stWith fun t => { t with readyAt := 8 }
     (s.thr 0).run = .ready ∧ (s.thr 0).wait = .none ∧ (s.thr 0).unacked = [] ∧ (s.thr 0).readyAt ≠ 0
       ∧ (s.onCore 0 fun x => { x with cycle := 8 }).rested 0 = true ∧ s.rested 0 = false)
    ∧ (let s := stWith fun t => { t with readyAt := 8, run := .waiting, wait := .ops [3] }
       (s.thr 0).wait = .ops [3] ∧ s.openOps 0 = [] ∧ s.backOut 3 = false ∧ (s.thr 0).unacked = [] ∧ s.rested 0 = false)
    ∧ (let s : State := { stWith fun t => { t with tmr := 5 } with reft := 5 }
       (s.thr 0).run ≠ .free ∧ s.stopped 0 = false ∧ (s.thr 0).tmr ≠ 0 ∧ (s.thr 0).tmr.toNat ≤ s.reft)
    ∧ ((stWith fun t => { t with mchk := [0x2000] }).asyncDue 0 = some .mchk ∧ t0.lvl = 0)
    ∧ (let s := (State.reset.onCore 1 fun x => { x with idle := 16 })
       (s.core 1).gated = false ∧ 16 ≤ (s.core 1).idle ∧ s.quiet 1 = true)
    ∧ (let s := (st.onCore 0 fun x => { x with gated := true, idle := 6 })
       (s.core 0).gated = true ∧ 6 ≤ (s.core 0).idle ∧ s.stirs 0 = true) := by
  decide +kernel

theorem witness_BoundaryEventsApply_pending :
    ({ t0 with late := [1] } : Thread).late ≠ [] ∧ ({ t0 with lvl := 1 } : Thread).lvl ≠ 0
      ∧ ({ t0 with timPend := some 1 } : Thread).timPend.isSome = true ∧ ({ t0 with snap := some [] } : Thread).snap ≠ none := by decide

/-- Thread 0 watches the word at 0x2000 since tick 16, and it is tick 32. -/
abbrev stWatch : State :=
  { (stWith fun t => { awaits t with run := .sleeping, wait := .watch 0x2000 8 0 5 false false 16 }) with reft := 32 }

theorem witness_WaitEventsApply :
    (stWith fun t => { t with wait := .woken }).me.wait = .woken
    ∧ ((stWatch.thr 0).wait = .watch 0x2000 8 0 5 false false 16 ∧ ((stWatch.thr 0).cont.bind (·.d)) = some 5 ∧ 16 + 16 ≤ stWatch.reft
      ∧ stWatch.stopped 0 = false ∧ stWatch.cut (dieOf (stWatch.thr 0).core) (homeDie 0x2000) = false ∧ stWatch.busy (0x2000 / 128) = false
      ∧ stWatch.binBusy 0x2000 = false ∧ stWatch.linksOpen (dieOf (stWatch.thr 0).core) (homeDie 0x2000) = true ∧ stWatch.l2 = []
      ∧ (stWatch.dirOf (0x2000 / 128)).form ≠ .x ∧ stWatch.granted (stWatch.domainOf 0) 0x2000 = true ∧ word (stWatch.homeRead 0x2000 8) ≠ 0
      ∧ 0x2000 % 128 + 8 ≤ 128 ∧ stWatch.flawed false 0x2000 8 = false)
    ∧ (let s : State := { stWith (fun t => { t with resv := [64] }) with msgs := [⟨0, .slice 0 0, .core 0, [], .hit 0 1 none 0⟩] }
       s.due 0 = some ⟨0, .slice 0 0, .core 0, [], .hit 0 1 none 0⟩ ∧ s.txns = [] ∧ (s.thr 0).resv ≠ [] ∧ (s.thr 0).wait = .none
         ∧ (s.thr 0).core = 0)
    ∧ (stWith fun t => { t with resv := [64], wait := .resv 5 }).me.wait = .resv 5 := by
  decide +kernel

theorem witness_MigrationMoves :
    (let s := stWith fun t => { t with wait := .leaving 1 (some 5) }
     (s.thr 0).wait = .leaving 1 (some 5) ∧ (s.thr 0).unacked = [] ∧ s.cut (dieOf (s.thr 0).core) 1 = false ∧ s.canDepart 0 1 = true
       ∧ s.timerDue 0 = false ∧ s.asyncDue 0 = none ∧ s.stopped 0 = false ∧ (s.core (s.thr 0).core).notices = [])
    ∧ (let s : State := { stWith (fun t => { t with away := true, run := .waiting, wait := .transit }) with
         msgs := [⟨0, .core 256, .unit 0, [], .migrate 0 0 none⟩] }
       s.due 0 = some ⟨0, .core 256, .unit 0, [], .migrate 0 0 none⟩ ∧ 0 = dieOf (originOf 0)) := by
  decide +kernel

/-! ### Regions, the roll, allotments -/

/-- g2 = 3: entry 3 of die 0; g4 a new entry of 2 MiB at 0x4000_0000. -/
abbrev stRgn : State := stWith fun t => { t with g := [(1, 0x2000), (2, 3), (4, 0x8000000040000000)] }

theorem witness_RegionsComplete :
    (stRgn.me.priv ≠ .user ∧ (stRgn.reg 0 2).toNat ≤ 255 ∧ stRgn.cores = []
      ∧ rgnDefineTo stRgn.tagged 0 0 (stRgn.reg 0 4) = some 0x8000000040000000)
    ∧ rgnDefineTo st.tagged 0 0 (st.reg 0 2) = some 0 ∧ rgnDefineTo st.tagged 0 0xC000000000000000 (st.reg 0 2) = none
    ∧ rgnStarts 1 0x8000000040000000 = true ∧ rgnStarts 2 0xC000000040000000 = true ∧ rgnStarts 3 0xD000000040000000 = true
    ∧ (let s : State := { stRgn.onThr 0 awaits with msgs := [⟨0, .core 0, .unit 0, [], .region 0 0 3 0x8000000040000000 0⟩] }
       ((s.thr 0).cont.map fun k => (k.d, k.size)) = some (some 5, 8) ∧ s.due 0 = some ⟨0, .core 0, .unit 0, [], .region 0 0 3 0x8000000040000000 0⟩
         ∧ s.regionBusy 0 = false ∧ rgnDefineTo (s.drop 0) 0 (mget 0 (s.die 0).regions 3) 0x8000000040000000 = some 0x8000000040000000)
    ∧ (let x : Txn := { id := 0, line := rgnKey 0 3, left := 1, done := .region 0 0 3 1 }
       x.line = rgnKey 0 3 ∧ x.done = .region 0 0 3 1 ∧ x.left ≤ 1 ∧ st.halted 0 = false)
    ∧ (∀ op ∈ [1, 2, 3], rgnStarts op 0 = false) ∧ 255 < ((stWith fun t => { t with g := [(2, 256)] }).reg 0 2).toNat := by
  decide +kernel

/-- A change of the region of 0x2000 at its end: an agent holds a line of it, or a write-back of one is under way, or neither. -/
theorem witness_RegionsComplete_ends :
    let e : Word := 0xE000000000000000
    let s := fun (op : Nat) => ({ stRgn with
      dies := [(0, some { regions := [(3, e)] })], txns := [{ id := 0, line := rgnKey 0 3, left := 1, done := .region 0 0 3 op }] } : State)
    (s 1).rgnAgents e = [] ∧ ((s 1).setDir 64 { agents := [1] }).rgnAgents e ≠ []
      ∧ (s 2).rgnBacks e = false
      ∧ ({ s 2 with msgs := [{ id := 0, src := .core 0, dst := .slice 0 0, body := .wback nobody 64 0 0 }] } : State).rgnBacks e = true
      ∧ (∀ op ∈ [1, 2, 3], mget 0 ((s op).die 0).regions 3 = e) := by
  decide +kernel

/-- Frame 2 with an entry. -/
abbrev stDeed (e : Deed) : State := { st with roll := [(2, some e)] }

theorem witness_RollTransactions :
    (∀ e ∈ [{ owner := .acc }, { owner := .acc, state := 1, cpart := .host }, { owner := .acc, state := 2, cpart := .host },
        { owner := .host, state := 1, cpart := .acc }, { owner := .host, state := 2, cpart := .acc }],
      ¬ (((stDeed e).deed 2).state = 3 ∧ ((stDeed e).deed 2).due ≤ st.reft))
    ∧ ((stDeed { owner := .acc, exp := true, cpart := .host }).deed 2).state = 0 ∧ ((stDeed { owner := .host, exp := true, cpart := .acc }).deed 2).cpart = .acc
    ∧ ((stDeed { owner := .stew }).deed 2).owner ≠ .acc ∧ ((stDeed { owner := .stew }).deed 2).cpart ≠ .acc := by
  decide +kernel

theorem witness_DeedInstructionsComplete :
    (st.me.priv = .kernel ∧ (st.reg 0 1).toNat % 4096 = 0 ∧ st.rollFrame (st.reg 0 1).toNat = true ∧ (st.thr 0).unacked = []
      ∧ st.cut (dieOf st.me.core) (homeDie (st.reg 0 1).toNat) = false ∧ (stWith fun t => { t with priv := .steward }).me.priv = .steward
      ∧ (st.onDie 0 fun x => { x with lost := true }).cut (dieOf st.me.core) (homeDie (st.reg 0 1).toNat) = true)
    ∧ ((st.opnd 0 (.i64 0x10000000000)).toNat % 4096 = 0 ∧ st.rollFrame 0x10000000000 = false) ∧ (st.reg 0 2).toNat % 4096 ≠ 0 := by
  decide +kernel

theorem witness_RollEventsApply :
    (let s : State := { st.onThr 0 awaits with msgs := [⟨0, .core 0, .slice 0 0, [], .roll 0 .offer 2 .acc⟩] }
     s.due 0 = some ⟨0, .core 0, .slice 0 0, [], .roll 0 .offer 2 .acc⟩ ∧ s.prompt = true
       ∧ ((s.thr 0).cont.map fun k => (k.d, k.size)) = some (some 5, 8))
    ∧ st.rollFrame (2 * 4096) = true ∧ st.cut 1 (homeDie (2 * 4096)) = false ∧ st.linksOpen 1 (homeDie (st.entryAddr 2)) = true := by
  decide +kernel

theorem witness_RollUpkeepApplies :
    (((stDeed { owner := .acc, state := 3, cpart := .host, due := 0 }).deed 2).state = 3
      ∧ ((stDeed { owner := .acc, state := 3, cpart := .host, due := 0 }).deed 2).due ≤ st.reft)
    ∧ (stMsg (.genShoot 2 none)).due 0 = some ⟨0, .core 0, .slice 0 0, [], .genShoot 2 none⟩
    ∧ ((st.onDie 0 fun x => { x with sdq := [(0, 1)] }).die 0).sdq = [(0, 1)]
    ∧ (let s := st.onDie 0 fun x => { x with sdq := [(0, 1)] }; s.accessesDone 0 1 = true ∧ s.accessesDone 0 s.nextId = true)
    ∧ ((stMsg (.read 0 0x2000 8 .fill)).onDie 0 fun x => { x with sdq := [(0, 1)] }).accessesDone 0 1 = false ∧ (st.die 0).sdq = [] := by
  decide +kernel

/-- Core 0 holds an allotment entry of line 64 with 5 units. -/
abbrev stAlt : State := { st with cores := [(0, some { alt := [{ line := 64, count := 5 }] })] }

theorem witness_AltInstructionsComplete :
    ((stAlt.reg 0 1).toNat % 128 = 0 ∧ (stAlt.thr 0).unacked = [] ∧ (stAlt.altN 0 (.i20 5)).toNat = 5 ∧ (stAlt.altN 0 (.i20 0)).toNat = 0
      ∧ stAlt.locate 0 (commonsRef (.altTake 5 1 (.i20 5))) (stAlt.reg 0 1) .store = (.here 0x2000 .cacheable false, stAlt)
      ∧ stAlt.locate 0 (commonsRef (.altGive 5 1 (.i20 5))) (stAlt.reg 0 1) .store = (.here 0x2000 .cacheable false, stAlt)
      ∧ stAlt.locate 0 (commonsRef (.altClose 5 1)) (stAlt.reg 0 1) .store = (.here 0x2000 .cacheable false, stAlt)
      ∧ stAlt.locate 0 (commonsRef (.altOpen 1)) (stAlt.reg 0 1) .store = (.here 0x2000 .cacheable false, stAlt)
      ∧ (stAlt.core 0).altEntry 64 = some { line := 64, count := 5 })
    ∧ usesTable 0 64 = true
    ∧ (st.locate 0 (commonsRef (.altClose 5 1)) (st.reg 0 1) .store = (.here 0x2000 .cacheable false, st) ∧ (st.core 0).altEntry 64 = none
      ∧ st.altAny (Body.altTakes 0 64) = false)
    ∧ (st.altHomes = [] ∧ (st.core 0).alt = [] ∧ st.granted (st.domainOf 0) (64 * 128) = true
      ∧ st.locate 0 (commonsRef (.altOpen 1)) (st.reg 0 1) .store = (.here 0x2000 .cacheable false, st)
      ∧ st.locate 0 (commonsRef (.altRead 5 1)) (st.reg 0 1) .store = (.here 0x2000 .cacheable false, st)) := by
  decide +kernel

/-- The entry is frozen by a census, or its core's request is under way. -/
theorem witness_AltInstructionsComplete_frozen :
    ∀ e ∈ [({ line := 64, count := 5, frozen := true } : AltEntry), { line := 64, count := 5, asking := true }],
      let s : State := { st with cores := [(0, some { alt := [e] })] }
      (s.core 0).altEntry 64 = some e ∧ (e.frozen = true ∨ e.asking = true) ∧ (s.core 0).altq = []
        ∧ (∀ i ∈ [Instr.altTake 5 1 (.i20 5), .altGive 5 1 (.i20 5)],
            s.locate 0 (commonsRef i) (s.reg 0 1) .store = (.here 0x2000 .cacheable false, s)) := by
  decide +kernel

/-- The same with the counter open at home, 40 units in RESERVE. -/
abbrev stAltOpen : State := { stAlt with altHomes := [{ line := 64, used := 0 }], mem := writeN [] 0x2000 8 40 }

theorem witness_AltInstructionsComplete_home :
    stAltOpen.counterOpen 64 = true ∧ stAltOpen.granted (stAltOpen.domainOf 0) (64 * 128) = true ∧ stAltOpen.reserve 64 = 40
      ∧ stAltOpen.locate 0 (commonsRef (.altTake 5 1 (.i20 7))) (stAltOpen.reg 0 1) .store = (.here 0x2000 .cacheable false, stAltOpen)
      ∧ (5 : Nat) < (stAltOpen.altN 0 (.i20 7)).toNat ∧ (stAltOpen.altN 0 (.i20 7)).toNat ≤ 40 + 5 := by
  decide +kernel

theorem witness_AltInstructionsComplete_calm : ({ stAltOpen with altHomes := [] } : State).Calm ∧ ({ st with altHomes := [] } : State).Calm :=
  ⟨calm_of (by decide +kernel), calm_of (by decide)⟩

/-- A thread of die 1, which uses no table for a counter of die 0; its line is of the commons, so it does not migrate. -/
abbrev stAltFar : State :=
  { stAltOpen with
    threads := [(4096, some { t0 with core := 256, g := [] })], cores := [(256, some { c := [(0, 0x2000)] })], cur := 4096 }

theorem witness_AltInstructionsComplete_far :
    (stAltFar.reg 4096 16).toNat = 0x2000 ∧ usesTable 256 64 = false ∧ stAltFar.counterOpen 64 = true ∧ stAltFar.reserve 64 = 40
      ∧ stAltFar.granted (stAltFar.domainOf 4096) (64 * 128) = true
      ∧ (∀ i ∈ [Instr.altTake 5 16 (.i20 7), .altGive 5 16 (.i20 7), .altClose 5 16],
          stAltFar.locate 4096 (commonsRef i) (stAltFar.reg 4096 16) .store = (.here 0x2000 .cacheable true, stAltFar))
      ∧ 0 < (stAltFar.altN 4096 (.i20 7)).toNat ∧ (stAltFar.altN 4096 (.i20 7)).toNat ≤ 40 := by
  decide +kernel

/-- Line 64 with an open counter, 40 units in RESERVE, core 0's entry, and a request in flight that thread 0 awaits. -/
abbrev stAltHome (r : AltReq) : State :=
  { (stMsg (.alt 0 0 64 r)).onThr 0 awaits with
    altHomes := [{ line := 64, used := 0 }], mem := writeN [] 0x2000 8 40, cores := [(0, some { alt := [{ line := 64 }] })] }

theorem witness_AltHomesServe :
    (∀ r ∈ [AltReq.take 3 false, .take 41 false, .give 3, .leave 3 5, .left 5, .read, .join true],
      (stAltHome r).due 0 = some ⟨0, .core 0, .slice 0 0, [], .alt 0 0 64 r⟩ ∧ (stAltHome r).granted ((stAltHome r).domainOf 0) (64 * 128) = true
        ∧ (stAltHome r).flawed false (64 * 128) 128 = false ∧ (stAltHome r).counterOpen 64 = true ∧ (stAltHome r).reserve 64 = 40 ∧ (stAltHome r).otherHolders 64 none = []
        ∧ ((stAltHome r).core 0).altEntry 64 ≠ none
        ∧ ((stAltHome r).thr 0).cont.map (fun k => (k.d, k.size)) = some (some 5, 8))
    ∧ (0 : Nat) ≠ nobody ∧ usesTable 0 64 = true
    ∧ (let s : State := { stAltHome .read with msgs := [⟨0, .slice 0 0, .core 0, [], .census 64 0⟩], txns := [{ id := 1, line := 64, left := 1, done := .census 0 0 0 .read }] }
       s.due 0 = some ⟨0, .slice 0 0, .core 0, [], .census 64 0⟩ ∧ (s.msgs.all fun x => !x.returns 64 0) = true
         ∧ s.reserve 64 + s.heldBy 64 (s.otherHolders 64 none) < 2 ^ 64) := by
  decide +kernel

/-! ### Tasks, contexts, copies -/

/-- A record with CODE 0x3000 and JCOUNT 2 at 0x2000; g1 names it, g2 = 7, g4 = 0x2000. -/
abbrev stRec : State := { st with mem := writeN (writeN [] 0x2000 8 0x3000) 0x2018 8 2 }

/-- What a record's read answers, where it is not refused. -/
def found (r : Except (Cause × Word) (Nat × List Word) × State) : Option (Nat × List Word × State) :=
  match r with | (.ok (pa, ws), s) => some (pa, ws, s) | _ => none

/-- The record's words. -/
abbrev recWords : List Word := [0x3000, 0, 0, 2, 0, 0, 0, 0, 0, 0, 0, 0, 0, 0, 0, 0]

/-- A sheaf header at 0x2000: template 0x2080, COUNT 4, NF 1, FW0 8; group words at 0x2100. -/
abbrev stSheaf : State :=
  { st with mem := writeN (writeN (writeN (writeN (writeN [] 0x2000 8 0x2080) 0x2008 8 4) 0x2010 8 0x1000000008) 0x2040 8 0x2100) 0x2080 8 0x3000 }

abbrev sheafWords : List Word := [0x2080, 4, 0x1000000008, 0, 0, 0, 0, 0, 0x2100, 0, 0, 0, 0, 0, 0, 0]

/-- Thread 0 runs record 1 of that launch. -/
abbrev stTrig : State :=
  { stSheaf with
    threads := [(0, some { t0 with work := some { recVa := 0x2080, recPa := 0x2080, form := .expanded 0 0 9 1, words := [], plots := 0, offs := [], creds := { atp := 0, pasid := 0 }, prio := 0 } })]
    launches := [{ id := 9, hdrVa := 0x2000, hdrPa := 0x2000, tmplVa := 0x2080, tmplPa := 0x2080, creds := {}, target := 0 }] }

theorem witness_TaskLaunchesComplete :
    ((stRec.thr 0).unacked = [] ∧ (stRec.reg 0 1).toNat % 128 = 0 ∧ (stRec.reg 0 2).toNat = 7 ∧ found (stRec.readRec 0 (stRec.reg 0 1)) = some (0x2000, recWords, stRec)
      ∧ recPlots recWords ≤ 256 ∧ recPlots recWords ≤ (stRec.core 7).unreserved ∧ recQ recWords = false ∧ inPackage 0x2000 = true ∧ stRec.populated 0x2000 = true
      ∧ stRec.granted .acc 0x2000 = true ∧ (stRec.core 7).taskq.length < 32 ∧ (stRec.core 7).overq = [] ∧ sheafOk recWords = false ∧ stRec.ringFullFor (.die 1) (recPrio recWords) = false)
    ∧ (found (stSheaf.readRec 0 (stSheaf.reg 0 1)) = some (0x2000, sheafWords, stSheaf) ∧ sheafOk sheafWords = true
      ∧ found (stSheaf.readRec 0 (wordAt sheafWords 0)) = some (0x2080, [0x3000, 0, 0, 0, 0, 0, 0, 0, 0, 0, 0, 0, 0, 0, 0, 0], stSheaf))
    ∧ (stRec.translate 0 (stRec.reg 0 1) .store = (.ok 0x2000 .cacheable, stRec) ∧ (wordAt (stRec.words 0x2000) 3).toNat % 2 ^ 32 = 2
      ∧ stRec.granted (stRec.domainOf 0) 0x2000 = true ∧ stRec.flawed false 0x2000 128 = false)
    ∧ st.launchOf st.me = none
    ∧ (let l : Launch := { id := 9, hdrVa := 0x2000, hdrPa := 0x2000, tmplVa := 0x2080, tmplPa := 0x2080, creds := {}, target := 0 }
       stTrig.launchOf stTrig.me = some (l, 1) ∧ stTrig.groupPa l (stTrig.words 0x2000) (1 / shGroup (stTrig.words 0x2000)) = (some 0x2108, stTrig)
         ∧ inPackage (l.hdrPa + 96) = true ∧ stTrig.granted l.creds.domain (l.hdrPa + 96) = true
         ∧ (readN (writeN [] 0x2108 8 (2 ^ 63)) 0x2108 8).testBit 63 = true
         ∧ (readN stTrig.mem 0x2108 8).testBit 63 = false ∧ shGroups (stTrig.words 0x2000) ≠ 1) := by
  refine ⟨?_, ?_, ?_, ?_, ?_⟩ <;> decide +kernel

theorem witness_TaskLaunchesComplete_full :
    (let es : List QEntry := (List.range 48).map fun i => { id := i, recVa := 0, recPa := 0, creds := {}, prio := 0 }
     (stRec.onCore 7 fun x => { x with taskq := es.take 32, overq := es.drop 32 }).ringFullFor (.core 7) (recPrio recWords) = true)
    ∧ recQ [0, 0, 0, 0x8000000000000000] = true
    ∧ ((stWith fun t => { t with g := [(1, 0x2000), (2, 2000)] }).reg 0 2).toNat = 2000 := by
  decide +kernel

/-- A record in execution, as thread 0's work. -/
abbrev theWork (f : Form) : Work :=
  { recVa := 0x2000, recPa := 0x2000, form := f, words := recWords, plots := 3, offs := [], creds := {}, prio := 2 }

theorem witness_TaskContextsComplete :
    (st.unfinished 0 = [] ∧ st.launchOf st.me = none ∧ st.me.lvl = 0 ∧ st.me.work = none)
    ∧ (let s := stWith fun t => { t with work := some (theWork (.pooled 0 3)) }
       s.me.work = some (theWork (.pooled 0 3)) ∧ s.unfinished 0 = [] ∧ (s.core 0).taskq.length < 32 ∧ (s.core 0).overq = [])
    ∧ (let s := stWith fun t => { t with work := some (theWork .plain) }
       s.me.work = some (theWork .plain) ∧ s.unfinished 0 = [] ∧ inPackage (theWork .plain).recPa = true
         ∧ s.granted s.me.domain (theWork .plain).recPa = true)
    ∧ (stWith fun t => { t with lvl := 1 }).me.lvl ≠ 0
    ∧ (st.me.run = .ready ∧ st.me.wait = .none ∧ (st.reg 0 1).toNat % 4 = 0 ∧ (st.reg 0 2).toNat = 7 ∧ (st.die (dieOf 7)).migq = []
      ∧ st.freeSlot 7 = some 0)
    ∧ (let s : State := { st with threads := st.threads ++ (List.range 16).map fun k => (112 + k, some { (Thread.init (112 + k)) with run := .ready }) }
       s.freeSlot 7 = none)
    ∧ 16383 < ((stWith fun t => { t with g := [(1, 0x4000)] }).reg 0 1).toNat
    ∧ ((st.reg 0 2).toNat = 7 ∧ mget none st.posts 7 = none ∧ st.cores = [])
    ∧ (let x : Post := { recVa := 0x2000, recPa := 0x2000, creds := {} }
       let s : State := { stRec with posts := [(7, some x)], dies := [(0, some { poolsize := 4 })] }
       mget none s.posts 7 = some x ∧ s.me.priv ≠ .user ∧ s.granted x.creds.domain x.recPa = true ∧ (s.die (7 / 4096)).freeLine = some 0 ∧ inPackage x.recPa = true ∧ (7 : Nat) % 4096 ≠ 4095)
    ∧ (st.cut (dieOf st.me.core) (7 / 4096) = false ∧ (st.reg 0 1).toNat % 128 = 0
      ∧ found (stRec.readRec 0 (stRec.reg 0 1)) = some (0x2000, recWords, stRec))
    ∧ ((st.ctx 7).st = .free ∧ ((stWith fun t => { t with g := [(1, 0xFFF)] }).reg 0 1).toNat % 4096 = 4095)
    ∧ (let s : State := { stWith (fun t => t) with ctxs := [(7, { st := .resident, core := 1, slot := 0 })], threads := [(0, some t0), (16, some { t0 with core := 1, ctxnum := 0x8007, run := .sleeping, wait := .latch })] }
       (s.ctx 7).st = .resident ∧ (s.ctx 7).thread = 16 ∧ (s.thr 16).wait ≠ .transit ∧ (s.thr 16).ctx = some 7 ∧ (s.thr 16).wait = .latch
         ∧ (s.thr 16).core = (s.ctx 7).core)
    ∧ (let s : State := { st with ctxs := [(7, { st := .absent, size := 6 })] }
       (s.ctx 7).st = .absent ∧ (s.ctx 7).log.length < (s.ctx 7).cap)
    ∧ (stWith fun t => { t with latchV := true }).me.latchV = true ∧ st.me.latchV = false := by
  decide +kernel

/-- A queue entry for the record of `stRec`. -/
abbrev entry : QEntry := { id := 3, recVa := 0x2000, recPa := 0x2000, creds := {}, prio := 1, payload := 5 }

/-- A record of one 4 KiB footprint range that starts at 0x2080. -/
abbrev stFoot : State :=
  { st with mem := writeN (writeN (writeN [] 0x2000 8 0x3000) 0x2038 8 0x80) 0x2048 8 0x2080 }

theorem witness_TaskEventsApply :
    (let s : State := { stWith awaits with msgs := [⟨0, .core 0, .core 7, [], .spawn 0 7 0x3000 9 false⟩] }
     s.due 0 = some ⟨0, .core 0, .core 7, [], .spawn 0 7 0x3000 9 false⟩ ∧ ((s.thr 0).cont.map fun k => (k.d, k.size)) = some (some 5, 8)
       ∧ (s.die (dieOf 7)).migq = [] ∧ s.freeSlot 7 = some 0 ∧ (0 : Nat) ≠ 16 * 7 + 0)
    ∧ (let s := (stWith awaits).onCore 7 fun x => { x with owed := 1, notices := [0] }
       (s.core 7).owed = 0 + 1 ∧ (s.core 7).notices = [0])
    ∧ (let s := stFoot.onCore 7 fun x => { x with taskq := [entry] }
       (s.core 7).taskq = [entry] ∧ entry.prio ≤ 3 ∧ (s.core 7).staging = [] ∧ recPlots (s.entryWords entry) = 1
         ∧ recPlots (s.entryWords entry) ≤ (s.core 7).unreserved ∧ (s.core 7).place (s.entryWords entry) = some (1, [0, 0, 0, 0, 0, 0]))
    ∧ (let s := stRec.onDie 0 fun x => { x with dieq := [entry] }
       s.mayAsk 7 = true ∧ (s.die (dieOf 7)).dieq = [entry] ∧ (s.die (dieOf 7)).asks = [] ∧ recPlots (s.entryWords entry) = 0
         ∧ (s.core 7).place (s.entryWords entry) = some (0, [0, 0, 0, 0, 0, 0]))
    ∧ (let g : Stage := { entry := entry, plots := 1, offs := [0, 0, 0, 0, 0, 0], filled := false }
       let s := stFoot.onCore 7 fun x => { x with taskq := [entry], staging := [g], plotPin := 1 }
       ((s.fillOf 7 3).map fun r => (r.1, r.2.1)) = some (g, none)
         ∧ (let u : State := { s with mem := writeN s.mem 0x2048 8 0x1000000000000 }
            ((u.fillOf 7 3).map fun r => (r.1, r.2.1)) = some (g, some .transl)))
    ∧ (let s := stRec.onCore 7 fun x => { x with taskq := [entry] }
       s.dead (dieOf 7) = false ∧ s.slotFree 7 0 = true ∧ (s.core 7).taskq = [entry] ∧ recPlots (s.entryWords entry) = 0 ∧ (s.core 7).staging = []
         ∧ (s.die (dieOf 7)).migq = [])
    ∧ (let s := (stWith fun t => { t with away := true, run := .waiting, wait := .transit }).onDie 1 fun x => { x with migq := [0] }
       s.dead (dieOf 256) = false ∧ s.slotFree 256 2 = true ∧ (s.die (dieOf 256)).migq = [0])
    ∧ (let s := stRec.onCore 7 fun x => { x with overq := [entry] }; (s.core 7).overq = [entry] ∧ (s.core 7).taskq.length < 32
         ∧ (s.core 7).overq.countP (fun x => x.prio = entry.prio) ≤ (s.die (dieOf 7)).cqCap)
    ∧ (let s : State := { stTrig with dies := [(0, some { poolsize := 4 })] }
       (s.launches.map fun l => (l.id, l.target, l.next, l.live)) = [(9, 0, 0, 0)] ∧ 0 < shCount (s.words 0x2000)
         ∧ (s.core 0).taskq.length < 32 ∧ (s.core 0).overq = [] ∧ (s.die (dieOf 0)).freeLine = some 0)
    ∧ (let s : State := { st with msgs := [⟨0, .outside 9, .box 7, [], .post none 7 5⟩] }
       s.due 0 = some ⟨0, .outside 9, .box 7, [], .post none 7 5⟩ ∧ s.dead (7 / 4096) = false ∧ mget none s.posts 7 = none)
    ∧ (let b : Post := { recVa := 0x2000, recPa := 0x2000, creds := {} }
       let s : State := { stRec with threads := [(0, some (awaits t0))], posts := [(7, some b)], dies := [(0, some { poolsize := 4 })] }
       mget none s.posts 7 = some b ∧ inPackage b.recPa = true ∧ s.dead (homeDie b.recPa) = false ∧ s.granted b.creds.domain b.recPa = true
         ∧ (s.die (7 / 4096)).freeLine = some 0 ∧ (s.thr 0).priv ≠ .user
         ∧ (∀ n ∈ [none, some 0], ({ s with msgs := [⟨0, .core 0, .box 7, [], .post n 7 5⟩] } : State).due 0
              = some ⟨0, .core 0, .box 7, [], .post n 7 5⟩))
    ∧ (let s : State := { stWith (fun t => { t with ctxnum := 0x8007 }) with msgs := [⟨0, .dir 0, .core 0, [], .wakeTo 7 0 5⟩] }
       s.due 0 = some ⟨0, .dir 0, .core 0, [], .wakeTo 7 0 5⟩ ∧ (s.thr 0).wait ≠ .transit ∧ (s.thr 0).ctx = some 7
         ∧ (s.thr 0).core = 0) := by
  refine ⟨?_, ?_, ?_, ?_, ?_, ?_, ?_, ?_, ?_, ?_, ?_, ?_⟩ <;> decide +kernel

/-- Thread 0 with the image that CTX.SAVE leaves at local 0x400; g6 = 0x400. -/
abbrev stCtx : State := stWith fun t => { t with g := [(1, 0x2000), (2, 7), (6, 0x400)] }

theorem witness_ContextsComplete :
    ((stCtx.reg 0 6).toNat % 1024 = 0 ∧ (stCtx.reg 0 6).toNat ≤ 0x7_FC00 ∧ stCtx.me.ctxnum.getLsbD 15 = false ∧ stCtx.begun stCtx.nextId = []
      ∧ stCtx.flawed true (locKey 0 0x400) 1024 = false ∧ stCtx.me.unacked = [])
    ∧ ((stCtx.reg 0 1).toNat % 1024 = 0 ∧ stCtx.translate 0 (stCtx.reg 0 1) .store = (.ok 0x2000 .cacheable, stCtx)
      ∧ stCtx.translate 0 (stCtx.reg 0 1) .load = (.ok 0x2000 .cacheable, stCtx) ∧ stCtx.granted (stCtx.domainOf 0) 0x2000 = true
      ∧ stCtx.flawed false 0x2000 1024 = false)
    ∧ (match next (execCtxSave 6 0 false stCtx) with
       | some s => imgOk (bytesWords (readBytes s.loc (locKey 0 0x400) 1024)) && imgPriv s.me.priv (bytesWords (readBytes s.loc (locKey 0 0x400) 1024))
           && !(imgCtx (bytesWords (readBytes s.loc (locKey 0 0x400) 1024))).getLsbD 15
       | none => false) = true := by
  decide +kernel

theorem witness_DirectoryEventsApply :
    (∀ op ∈ [0, 1, 2],
      let m : Msg := ⟨0, .core 0, .dir 0, [], .cmd 0 7 op⟩
      let s : State := { st with msgs := [m], ctxs := if op = 1 then [(7, { st := .absent })] else [] }
      s.deliverable m = true ∧ s.cut (dieOf 0) (7 / 4096) = false ∧ (s.ctx 7).st = (if op = 1 then .absent else .free))
    ∧ (let s : State := { stWith awaits with ctxs := [(7, { st := .absent, size := 6 })] }
       (s.ctx 7).st = .absent ∧ (s.ctx 7).log.length < (s.ctx 7).cap
         ∧ ({ s with msgs := [⟨0, .core 0, .dir 0, [], .wake 0 7 5 none⟩] } : State).due 0 = some ⟨0, .core 0, .dir 0, [], .wake 0 7 5 none⟩
         ∧ ({ s with msgs := [⟨0, .slice 0 0, .dir 0, [], .hit 0 1 (some 7) 0⟩] } : State).due 0 = some ⟨0, .slice 0 0, .dir 0, [], .hit 0 1 (some 7) 0⟩
         ∧ ({ s with msgs := [⟨0, .slice 0 0, .dir 0, [], .late 0 (some 7) 5⟩] } : State).due 0 = some ⟨0, .slice 0 0, .dir 0, [], .late 0 (some 7) 5⟩
         ∧ ({ s with msgs := [⟨0, .core 0, .dir 0, [], .restore 0 7 []⟩] } : State).due 0 = some ⟨0, .core 0, .dir 0, [], .restore 0 7 []⟩
         ∧ (s.thr 0).priv ≠ .user)
    ∧ (let s : State := { stWith awaits with ctxs := [(7, { st := .resident, core := 0, slot := 0 })], msgs := [⟨0, .core 0, .dir 0, [], .absent 0 7⟩] }
       s.due 0 = some ⟨0, .core 0, .dir 0, [], .absent 0 7⟩ ∧ s.dirQuiet 0 0 = true ∧ (s.ctx 7).st = .resident ∧ (s.ctx 7).thread = 0
         ∧ ((s.thr 0).cont.map (·.sign)) = some false ∧ s.begun s.nextId = [])
    ∧ (let s : State := { st with msgs := [⟨0, .slice 0 0, .core 0, [], .late 0 none 5⟩] }
       s.due 0 = some ⟨0, .slice 0 0, .core 0, [], .late 0 none 5⟩ ∧ (s.thr 0).wait ≠ .transit ∧ (s.thr 0).run ≠ .free ∧ (s.thr 0).core = 0
         ∧ (s.thr 0).late.length < 16 ∧ (0 : Nat) < ghostBase)
    ∧ 16 ≤ ((stWith fun t => { t with late := List.replicate 16 0 }).thr 0).late.length := by
  decide +kernel

/-- A plain copy: source g1, destination g1, length g2, no flag. -/
abbrev cpArgs : CpArgs :=
  { d := 0, a := 1, b := 1, c := 2, scope := .dev, sat := false, rm := .rne, flag := false, conv := false, srct := 0, dstt := 0, scale := 0, value := 0 }

/-- The channel's entry of a local copy of 7 bytes from 0x100 to 0x200 of core 3. -/
abbrev cpCmd : CopyCmd :=
  { id := 4, thread := 0, dir := .l2l, args := cpArgs, src := 0x100, dst := 0x3_0000_0200, len := 7, flag := 0, creds := {}, after := [] }

theorem witness_CopiesComplete :
    ((∀ i ∈ copyTable cpArgs, cpCheck st i.1 i.2 cpArgs = none) ∧ st.cores = [])
    ∧ (let s := st.onCore 0 fun x => { x with copy := [cpCmd] }
       (∃ y ∈ (s.core 0).copy, y.thread = 0) ∧ s.copyCore 4 = some (0, cpCmd) ∧ s.copyReady 0 cpCmd = true ∧ s.begun s.nextId = []
         ∧ (cpCmd.payload 0 none s).1 = none ∧ (cpCmd.payload 0 none s).2.copyCore 4 = some (0, cpCmd)
         ∧ ((cpCmd.payload 0 none s).2.core 0).copy = [cpCmd] ∧ (cpCmd.payload 0 none s).2.begun s.nextId = [])
    ∧ (let y : CopyCmd := { cpCmd with dir := .l2g, dst := 0x1_0000_0000_0000 }
       let s := st.onCore 0 fun x => { x with copy := [y] }
       (y.payload 0 none s).1 = some (.transs, 0x1_0000_0000_0000) ∧ ((y.payload 0 none s).2.thr 0).wait = .none
         ∧ ((y.payload 0 none s).2.thr 0).copyFault = 0)
    ∧ (let y : CopyCmd := { cpCmd with ph := .payload, args := { cpArgs with flag := true }, flag := 0x2008 }
       let s := st.onCore 0 fun x => { x with copy := [y] }
       s.copyReady 0 y = true ∧ (y.writeFlag 0 s).1 = none ∧ (y.writeFlag 0 s).2.copyCore 4 = some (0, y) ∧ (y.writeFlag 0 s).2.begun s.nextId = [])
    ∧ (let s := stWith fun t => { t with run := .sleeping, wait := .engine [4] (some 5) }
       (s.thr 0).wait = .engine [4] (some 5) ∧ (s.thr 0).unacked = [] ∧ (s.thr 0).readyAt = 0 ∧ s.cores = [])
    ∧ (let s := (stWith fun t => { t with run := .sleeping, wait := .full .copy 1 }).onCore 0 fun x => { x with stall := [(.copy, 0)] }
       (s.core 0).stall = [(.copy, 0)] ∧ (s.core 0).held = [] ∧ (s.core 0).queueLen .copy < QueueKind.cap .copy ∧ (s.thr 0).wait = .full .copy 1) := by
  decide +kernel

/-! ### Shapes, the Mill -/

/-- A record of one I32 element at an offset. -/
abbrev oneAt (off : Nat) : Shape := ⟨word (off + 0xC * 2 ^ 32), 0x0001_0001_0001_0001, 0, 0⟩

/-- An index column of one entry. -/
abbrev idxAt (off : Nat) : Shape := ⟨word (off + 0x10 * 2 ^ 32), 0x0001_0001_0001_0001, 0, 0⟩

/-- A record of one row of 256 elements of a TYPE at an offset. -/
abbrev rowAt (ty off : Nat) : Shape := ⟨word (off + ty * 2 ^ 32), 0x0001_0001_0001_0100, 0, 0⟩

/-- The records of s1, s2 and s3, also in the local store from 0x500; g6 = 0x500, g7 = 0x640. -/
abbrev stVec : State :=
  { stWith (fun t => { t with g := [(1, 0x2000), (2, 7), (6, 0x500), (7, 0x640)], shapes := [(1, some (oneAt 0x600)), (2, some (oneAt 0x604)), (3, some (oneAt 0x608))] }) with
    loc := writeN (writeN [] 0x500 8 (oneAt 0x600).w0.toNat) 0x508 8 (oneAt 0x600).w1.toNat }

theorem witness_VectorInstructionsComplete :
    ((stVec.reg 0 6).toNat % 32 = 0 ∧ (stVec.reg 0 6).toNat ≤ 0x7_FFE0 ∧ (stVec.record 0 0x500).check = none
      ∧ stVec.flawed true (locKey 0 0x500) 32 = false)
    ∧ (mget none stVec.me.shapes 1 = some (oneAt 0x600) ∧ (stVec.reg 0 7).toNat ≤ 0x7_FFFF
      ∧ ({ oneAt 0x600 with w0 := ((oneAt 0x600).w0 &&& 0xFFFF_FFFF_FFF8_0000) ||| stVec.reg 0 7 } : Shape).check = none)
    ∧ (seqOk 0 stVec.me.shapes (.vAdd 3 1 2) (seqOperand stVec 0 (.vAdd 3 1 2)) = true ∧ stVec.cores = [])
    ∧ ((stVec.onCore 0 fun x => { x with seq := [{ id := 0, thread := 0, op := .vAdd 3 1 2, group := 0 }] }).core 0).seq.length = 1 := by
  decide +kernel

/-- A VREP of 4 rounds over `v.add s3, s1, s2` at 0x2000. -/
abbrev stRep : State :=
  { stVec with threads := [(0, some { stVec.me with pc := 0x2000 })], mem := writeN (writeN [] 0x2000 12 0x4000001110000026E) 0x200C 8 0x00208E09 }

/-- The bodies that a scan reads. -/
def body (r : BodyScan × State) : Option (List (Instr × BitVec 32) × Word) := match r.1 with | .ok is p => some (is, p) | _ => none

theorem witness_VectorInstructionsComplete_vrep :
    body (stRep.scanBody 0 0 (2 ^ 62) 1 (stRep.me.pc + 12)) = some ([(.vAdd 3 1 2, 0x00208E09)], 0x2014)
      ∧ bodyCheck (stRep.scanBody 0 0 (2 ^ 62) 1 (stRep.me.pc + 12)).2 0 4 [0, 0, 0, 0] [(.vAdd 3 1 2, 0x00208E09)] = none := by
  decide +kernel

/-- The sequencer's entry of that instruction, with 41 and 1 in its sources. -/
abbrev stSeq (i : Instr) : State :=
  { (stVec.onCore 0 fun x => { x with seq := [{ id := 4, thread := 0, op := i, recs := stVec.me.shapes, group := 4 }] }) with
    loc := writeN (writeN [] 0x600 4 41) 0x604 4 1 }

theorem witness_SequencerEntriesApply :
    (let e : SeqEntry := { id := 4, thread := 0, op := .vAdd 3 1 2, recs := stVec.me.shapes, group := 4 }
     (stSeq (.vAdd 3 1 2)).seqOwner 4 = some (0, e) ∧ ((stSeq (.vAdd 3 1 2)).core 0).seq = [e] ∧ e.thread / 16 = 0 ∧ e.done = 0
       ∧ (stSeq (.vAdd 3 1 2)).halted (dieOf 0) = false ∧ mget none e.recs 3 = some (oneAt 0x608)
       ∧ mget none e.recs 1 = some (oneAt 0x600) ∧ mget none e.recs 2 = some (oneAt 0x604))
    ∧ (let s : State := { st with msgs := [⟨0, .core 1, .core 0, [], .qmax 0 1 3 4 9⟩] }
       s.due 0 = some ⟨0, .core 1, .core 0, [], .qmax 0 1 3 4 9⟩ ∧ mget none (s.core 0).exch (1 * 16 + 3) = none) := by
  decide +kernel

/-- Rows of 1 and of 16 words, at the low and the high end of the local store; FP32 values with −0 and the largest. -/
theorem witness_SequencerEntriesApply_records :
    (Words (oneAt 0x600) 0xC 0x600 1 ∧ Words (oneAt 0x604) 0xC 0x604 1 ∧ Words (oneAt 0x608) 0xC 0x608 1)
    ∧ Words ⟨word (0x7FFC0 + 0xC * 2 ^ 32), 0x0001_0001_0001_0010, 0, 0⟩ 0xC 0x7FFC0 16
    ∧ (Words ⟨0, 0x0001_0001_0001_0010, 0, 0⟩ 0 0 16 ∧ Words ⟨0x40, 0x0001_0001_0001_0010, 0, 0⟩ 0 0x40 16)
    ∧ (∀ f ∈ [(0x600 : Nat), 0x604], f = 0x608 ∨ f + 4 * 1 ≤ 0x608 ∨ 0x608 + 4 * 1 ≤ f)
    ∧ (∀ v ∈ [(0 : Nat), 0x80000000, 1, 0x7F7FFFFF, 0xFF7FFFFF], fp32Finite v) ∧ fp32Nan 0x7F800001 := by
  unfold Words
  decide +kernel

/-- Sources of V.RSQRT and V.EXP2: a negative, a zero and a positive value, and whole numbers at both ends of the range. -/
theorem witness_SequencerEntriesApply_values :
    (fp32Value 0xBF800000 < 0 ∧ fp32Value 0x80000000 = 0 ∧ 0 < fp32Value 1)
    ∧ (fp32Value 0x43000000 = 128 * ((2 ^ 149 : Nat) : Int) ∧ fp32Value 0xC3150000 = -149 * ((2 ^ 149 : Nat) : Int)
      ∧ fp32Value 0xC3160000 = -150 * ((2 ^ 149 : Nat) : Int))
    ∧ (roundedInt .rne 5 2 = 2 ∧ roundedInt .rne 7 2 = 4 ∧ roundedInt .rtz (-7) 2 = -3 ∧ roundedInt .rdn (-7) 2 = -4
      ∧ roundedInt .rup (-7) 2 = -3 ∧ roundedInt .rne (-5) 2 = -2) := by
  decide +kernel

/-- Slot 1 an I8 row at 0x1000, slot 2 an I32 row at 0x1400, slot 3 an index column; the latch w0 claimed by lane 0, I8 announced. -/
abbrev stMill : State :=
  { stWith (fun t => { t with shapes := [(1, some (rowAt 0xA 0x1000)), (2, some (rowAt 0 0x1400)), (3, some (idxAt 0x600)), (4, some ⟨word (0x1000 + 0xA * 2 ^ 32), 0x0001_0001_0100_0100, 256, 0⟩)] }) with
    tiles := [(0, some { w0 := { claim := some 0, ann := some 0xA } })] }

theorem witness_MillInstructionsComplete :
    (stMill.cores = [] ∧ mget none stMill.me.shapes 1 = some (rowAt 0xA 0x1000) ∧ ((stMill.tile (tileOf 0)).latch 0).claim = some (laneOf 0)
      ∧ (let r : Shape := ⟨word (0x1000 + 0xA * 2 ^ 32), 0x0001_0001_0100_0100, 256, 0⟩
         mget none stMill.me.shapes 4 = some r ∧ millType r.ty = true ∧ millShape r = true ∧ r.ext 1 = 256 ∧ r.check = none)
      ∧ gatherOk (rowAt 0xA 0x1000) (idxAt 0x600) = true ∧ fmtTakes .i8 (rowAt 0xA 0x1000).ty = true ∧ millShape (rowAt 0xA 0x1000) = true
      ∧ millRows (rowAt 0xA 0x1000) = true ∧ ((stMill.tile (tileOf 0)).latch 0).ann = some 0xA ∧ comboRate 0xA .i8 ≠ none)
    ∧ (drainType (rowAt 0 0x1400).ty = true ∧ stMill.cut (dieOf stMill.me.core) (dieOf 0) = false ∧ (stMill.reg 0 2).toNat ≤ 1023
      ∧ (stMill.reg 0 3).toNat ≤ 16383)
    ∧ ((st.tile (tileOf 0)).latch 0).claim = none ∧ ((stMill.tile (tileOf 0)).latch 1).claim ≠ some (laneOf 0) ∧ stMill.me.priv ≠ .user := by
  decide +kernel

/-- A Mill with one command in core 0's queue. -/
abbrev stCmd (op : MillOp) (ph : MillPh) (rows : List Row) : State :=
  { stMill with tiles := [(0, some { w0 := { claim := some 0, ann := some 0xA, type := some 0xA } })], cores := [(0, some { mill := [⟨5, 0, op, ph, rows⟩] })] }

theorem witness_MillEventsApply :
    (let s : State := { stCmd (.run 0 0 .i8 (rowAt 0xA 0x1000)) .queued [] with
        tiles := [(0, some { w0 := { claim := some 0, ann := some 0xA, type := some 0xA }, idle := false })] }
     (s.tile 0).holder = none ∧ (s.tile 0).idle = false ∧ (s.tile 0).lane = 0 ∧ s.laneRun 0 0 = some ⟨5, 0, .run 0 0 .i8 (rowAt 0xA 0x1000), .queued, []⟩
       ∧ (s.tile 0).used ≤ mget 0 (s.tile 0).rwt 0 ∧ (s.core (coreOfLane 0 0)).latchRows = none ∧ ((s.tile 0).latch 0).type = some 0xA
       ∧ comboRate 0xA .i8 = some 2)
    ∧ (let s := stCmd (.run 0 0 .i8 (rowAt 0xA 0x1000)) .streamed [([1], [])]
       s.millCore 5 = some (0, ⟨5, 0, .run 0 0 .i8 (rowAt 0xA 0x1000), .streamed, [([1], [])]⟩) ∧ s.dead (dieOf 0) = false
         ∧ ∀ y ∈ (s.core 0).mill, y.isRun = true → y.op.acc = some 0 → 5 ≤ y.id)
    ∧ (∀ op ∈ [MillOp.loadw 0 (rowAt 0xA 0x1000), .gather (rowAt 0xA 0x1000) (idxAt 0x600), .accz 0, .drain 0 (rowAt 0 0x1400) 0 0 0],
       (stCmd op .queued []).millCore 5 = some (0, ⟨5, 0, op, .queued, []⟩) ∧ (stCmd op .queued []).millReady 0 ⟨5, 0, op, .queued, []⟩ = true)
    ∧ ((rowAt 0 0x1400).ty = 0 ∧ (rowAt 0 0x1400).ext 1 = 1)
    ∧ (let s := stCmd (.drain 0 (rowAt 0 0x1400) 2 1 7) .waking []
       s.millCore 5 = some (0, ⟨5, 0, .drain 0 (rowAt 0 0x1400) 2 1 7, .waking, []⟩) ∧ s.cut (dieOf 0) (7 / 4096) = false
         ∧ s.cut (dieOf 0) (dieOf 1) = false ∧ s.linksOpen (dieOf 0) (7 / 4096) = true ∧ s.msgs = [] ∧ mget none s.posts 7 = none)
    ∧ (stCmd (.drain 0 (rowAt 0 0x1400) 0 0 0) .queued []).linksOpen (dieOf 0) (dieOf 0) = true ∧ (stCmd (.accz 0) .queued []).flaws = [] := by
  refine ⟨?_, ?_, ?_, ?_, ?_, ?_⟩ <;> decide +kernel

/-- A run of one BF16 row that has streamed, over a BF16 latch of zeros. -/
theorem witness_MillEventsApply_bf16 :
    let s : State := { stCmd (.run 0 0 .bf16 (rowAt 2 0x1000)) .streamed [([0x80, 0x3F], [])] with
      tiles := [(0, some { w0 := { claim := some 0, ann := some 2, type := some 2 } })] }
    s.millCore 5 = some (0, ⟨5, 0, .run 0 0 .bf16 (rowAt 2 0x1000), .streamed, [([0x80, 0x3F], [])]⟩) ∧ s.dead (dieOf 0) = false
      ∧ (rowAt 2 0x1000).ty = 2 ∧ ((s.tile (tileOf 0)).latch 0).type = some 2
      ∧ (∀ y ∈ (s.core 0).mill, y.isRun = true → y.op.acc = some 0 → 5 ≤ y.id)
      ∧ (∀ k, k < 256 → fp32Finite (bfCode (((s.tile (tileOf 0)).latch 0).col 255).1 k) ∧ fp32Finite (bfCode [0x80, 0x3F] k))
      ∧ bfCode [0x80, 0x3F] 0 = 0x3F800000 ∧ fp32Finite (mget 0 (s.core 0).acc (accKey 0 0 0)).toNat := by
  decide +kernel

/-- The wake's postbox bound, its die with and without a free pool line; a die lost; a wake whose arrival is served. -/
theorem witness_MillEventsApply_wake :
    (let b : Post := { recVa := 0x2000, recPa := 0x2000, creds := {} }
     let s : State := { stCmd (.drain 0 (rowAt 0 0x1400) 2 1 7) .waking [] with posts := [(7, some b)], dies := [(0, some { poolsize := 4 })] }
     mget none s.posts 7 = some b ∧ inPackage b.recPa = true ∧ s.dead (homeDie b.recPa) = false ∧ s.granted b.creds.domain b.recPa = true
       ∧ (s.die (7 / 4096)).freeLine = some 0 ∧ ({ s with dies := [] } : State).granted b.creds.domain b.recPa = true
       ∧ (({ s with dies := [(0, some { poolsize := 0 })] } : State).die (7 / 4096)).freeLine = none)
    ∧ ((stCmd (.drain 0 (rowAt 0 0x1400) 2 1 4096) .waking []).onDie 1 fun x => { x with lost := true }).cut (dieOf 0) (4096 / 4096) = true
    ∧ (let s := stCmd (.drain 0 (rowAt 0 0x1400) 2 1 7) (.arrived 3) []
       s.millCore 5 = some (0, ⟨5, 0, .drain 0 (rowAt 0 0x1400) 2 1 7, .arrived 3, []⟩) ∧ (s.msg 3).isSome = false) := by
  refine ⟨?_, ?_, ?_⟩ <;> decide +kernel

/-! ### The steward, links, packets -/

/-- A steward thread of die 0 on its own core; g1 = 0x2000, g2 = 16, g4 = 0x2080; frame 2 the steward's. -/
abbrev stStew : State :=
  { threads := [(0, some { core := 1024, slot := 0, run := .ready, priv := .steward, pc := 0x1000, g := [(1, 0x2000), (2, 16), (4, 0x2080)] })]
    roll := [(2, some { owner := .stew })] }

theorem witness_SealCompletes :
    (stStew.me.priv = .steward ∧ stStew.me.unacked = [] ∧ inPackage (stStew.reg 0 4).toNat = true
      ∧ stStew.sealRefuse 0 false [(stStew.reg 0 1, (stStew.reg 0 2).toNat, .transl)] = none
      ∧ stStew.sealRefuse 0 true [(stStew.reg 0 4, 48, .transs)] = none
      ∧ stStew.sealRefuse 0 true [(stStew.reg 0 1, 48, .transl), (stStew.reg 0 4, 96, .transs)] = none
      ∧ stStew.sealRefuse 0 true [(stStew.reg 0 1, 48, .transl), (stStew.reg 0 4, 96, .transl), (stStew.reg 0 4, 96, .transl)] = none
      ∧ stStew.sealRefuse 0 true [(stStew.reg 0 1, 96, .transl)] = none ∧ stStew.sealRefuse 0 true [(stStew.reg 0 1, 64, .transl)] = none)
    ∧ (stStew.keyWritable 0 9 = true ∧ stStew.keyWritable 0 0 = false ∧ (stStew.die (dieOf stStew.me.core)).boot ≠ .serving
      ∧ stStew.keyOf 0 9 = .empty ∧ (stStew.onDie 0 fun x => { x with keys := [(9, .pair 5)] }).keyOf 0 9 = .pair 5
      ∧ (stStew.onDie 0 fun x => { x with keys := [(9, .secret 5)] }).keyOf 0 9 = .secret 5
      ∧ (KeySlot.secret 5).first = some 5
      ∧ ((stStew.onDie 0 fun x => { x with boot := .serving }).die (dieOf stStew.me.core)).boot = .serving)
    ∧ (stStew.entryFrame 0x2000 = none ∧ stStew.entryFrame (0x2000 + 64 - 1) = none ∧ inPackage (0x2000 + 64 - 1) = true) := by
  decide +kernel

/-- A descriptor of KEYLOAD at 0x2000: its mode, and word 1. -/
abbrev stDesc (mode w1 : Nat) : State := { stStew with mem := writeN (writeN [] 0x2000 8 mode) 0x2008 8 w1 }

/-- Each mode of KEYLOAD is some descriptor's, with a serial number, an address or a port that serves, and one that does not. -/
theorem witness_SealCompletes_modes :
    (∀ mode ∈ [0, 1, 2, 3, 4], natOfBytes (((stDesc mode 9).sealRead 0 ((stDesc mode 9).reg 0 1) 64).1.take 8) % 256 = mode)
    ∧ natOfBytes ((((stDesc 2 0x2080).sealRead 0 ((stDesc 2 0x2080).reg 0 1) 64).1.drop 8).take 8) = 0x2080
    ∧ (stDesc 2 0x2080).sealChecks 0 true [(word 0x2080, 96, .transs)] = none
    ∧ (let w := natOfBytes ((((stDesc 3 0x5001).sealRead 0 ((stDesc 3 0x5001).reg 0 1) 64).1.drop 8).take 8)
       w / 2 ^ 12 % 16 = 5)
    ∧ (let w := natOfBytes ((((stDesc 3 0x0403).sealRead 0 ((stDesc 3 0x0403).reg 0 1) 64).1.drop 8).take 8)
       w / 2 ^ 12 % 16 ≤ 4 ∧ w / 2 ^ 8 % 16 < (if w / 2 ^ 12 % 16 = 0 then 5 else 1)) := by
  decide +kernel

theorem witness_SealCompletes_calm : stStew.Calm := calm_of (by decide)

/-- Die 0 waits for a ROM command. -/
abbrev stBoot (b : Boot) : State := { st with dies := [(0, some { boot := b })] }

theorem witness_StewardServes :
    (∀ b ∈ [Boot.waitBegin, .waitLoad, .serving], ((stBoot b).die 0).lost = false ∧ ((stBoot b).die 0).up = true ∧ ((stBoot b).die 0).hostShut = false ∧ ((stBoot b).die 0).switch = none
      ∧ ((stBoot b).die 0).romq = [] ∧ ((stBoot b).die 0).bootscar = 0 ∧ ((stBoot b).die 0).nonce = 0)
    ∧ ((stBoot .serving).romFrames 0 3 1 = true ∧ ((stBoot .serving).deed 3).owner = .free
      ∧ (stBoot .serving).linksOpen 0 (homeDie ((stBoot .serving).entryAddr 3)) = true)
    ∧ (let s : State := { stHost with dies := [(0, some { boot := .serving })] }
       s.romFrames 0 2 1 = true ∧ s.linksOpen 0 (homeDie (s.entryAddr 2)) = true ∧ (s.deed 2).owner = .host ∧ (s.deed 2).state = 0)
    ∧ (((stBoot .serving).onDie 0 fun x => { x with switch := some (7, 0, 1, 2) }).die 0).switch = some (7, 0, 1, 2)
    ∧ ((st.onDie 0 fun x => { x with debugOpen := true }).die 0).debugOpen = true
    ∧ ((st.onDie 0 fun x => { x with debugOpen := true }).die 0).hostShut = false ∧ (st.die 0).boot = .off ∧ st.altHomes = []
    ∧ (st.die 0).lost = false ∧ (st.die 0).held = false ∧ (st.die 0).relock = none := by
  decide +kernel

/-- A responder at each point of its exchange, on the host's port and on port 1. -/
theorem witness_SessionsProgress :
    (∀ p ∈ [0, 1, 2, 3, 4, 5],
      let x := ((stBoot .serving).onDie 0 fun x => { x with spdm := p, peers := mset 0 x.peers 0 p }).die 0
      x.progress 0 = p ∧ x.progress 1 = p ∧ x.lost = false ∧ x.up = true ∧ x.passed 6 = true)
    ∧ (∀ port ∈ [0, 1],
       let k : StreamKey := { port := port, stream := 0, rx := false, keySet := true }
       k.stream < (if port = 0 then 5 else 1) ∧ mget none (st.die 0).streamKeys (keyIndex k) = none
         ∧ mget none ((st.onDie 0 fun x => { x with streamKeys := mset none x.streamKeys (keyIndex k) (some 9) }).die 0).streamKeys (keyIndex k) = some 9) := by
  decide +kernel

theorem witness_LinksAndPowerApply :
    ((st.die 0).carve.getLsbD 0 = false ∧ ((st.onDie 0 fun x => { x with carve := 1 }).die 0).carve.getLsbD 0 = true
      ∧ ((st.onDie 0 fun x => { x with carveBusy := 1 }).die 0).carveBusy ≠ 0
      ∧ ¬ ((st.deed (0x30_0000_0000 / 4096 + 0)).owner = .acc ∧ (st.deed (0x30_0000_0000 / 4096 + 0)).state = 0))
    ∧ (let s := st.onDie 0 fun x => { x with linkH := { idle := 400 } }
       ((s.die 0).link .h).st = 0 ∧ 400 ≤ ((s.die 0).link .h).idle ∧ s.maySleep 0 .h = true ∧ s.linkTraffic 0 .h = false)
    ∧ (let s := (st.onDie 0 fun x => { x with linkH := { st := 1, slept := 10000 } })
       ((s.die 0).link .h).st = 1 ∧ 10000 ≤ ((s.die 0).link .h).slept
         ∧ ({ s with msgs := [⟨0, .core 0, .core 256, [], .probe 256 5 0⟩] } : State).linkTraffic 0 .h = true)
    ∧ (let s := (st.onDie 0 fun x => { x with linkH := { st := 2, waited := 5000 } })
       ((s.die 0).link .h).st = 2 ∧ 5000 ≤ ((s.die 0).link .h).waited ∧ ((s.die 0).link .h).st ≠ 3 ∧ (s.die (farDie 0 .h)).relock = none)
    ∧ ((st.onDie 0 fun x => { x with linkH := { st := 1, want := true } }).die 0).linkH.want = true
    ∧ (let s := (st.onDie 1 fun x => { x with relock := some ⟨9, 0, 36, 24⟩ }); (s.die (farDie 0 .h)).relock ≠ none)
    ∧ (let s := (st.onDie 1 fun x => { x with linkH := { st := 3 } }); s.dead 0 = false ∧ s.marked 0 = true)
    ∧ (let s : State := { st with reft := 2000 }; s.reft % 2000 = 0 ∧ s.epochAt ≠ s.reft ∧ (∀ e, e < 4 → (s.die e).lost = false ∧ (s.die e).alone = false))
    ∧ (let s : State := { st with dies := (List.range 4).map fun d => (d, some { boot := .serving }) }
       ∀ e, e < 4 → (s.die e).lost = false ∧ (s.die e).alone = false ∧ (s.die e).trained = true)
    ∧ (let s : State := { st.onDie 0 fun x => { x with relock := some ⟨9, 9000000, 36, 24⟩ } with reft := 9 }
       (s.die 0).relock = some ⟨9, 9000000, 36, 24⟩ ∧ (9 : Nat) ≤ s.reft) := by
  refine ⟨?_, ?_, ?_, ?_, ?_, ?_, ?_, ?_, ?_, ?_⟩ <;> decide +kernel

/-- A carved bin whose every frame the accelerator owns: the roll lists the 16,384 frames of bin 0. -/
theorem witness_LinksAndPowerApply_owned :
    ∃ s : State, (s.die 0).carve.getLsbD 0 = true ∧ ∀ i, i < 16384 →
      (s.deed (0x30_0000_0000 / 4096 + i)).owner = .acc ∧ (s.deed (0x30_0000_0000 / 4096 + i)).state = 0 := by
  let e : Nat → Nat × Option Deed := fun i => (0x30_0000_0000 / 4096 + i, some { owner := .acc })
  have look : ∀ n i, i < n → ∀ l : List Nat, l = List.range' 0 n → mget none (l.map e) (0x30_0000_0000 / 4096 + i) = some { owner := .acc } := by
    intro n i h l hl
    have hm : i ∈ l := by rw [hl]; simp [List.mem_range']; omega
    clear hl
    induction l with
    | nil => simp at hm
    | cons a l ih =>
      simp only [List.map_cons, mget, e]
      split
      · rfl
      · rename_i hne
        have : i ∈ l := by
          rcases List.mem_cons.mp hm with h1 | h1
          · exact absurd (by rw [h1]) hne
          · exact h1
        exact ih this
  refine ⟨{ dies := [(0, some { carve := 1 })], roll := (List.range' 0 16384).map e }, by decide, fun i h => ?_⟩
  simp [State.deed, look 16384 i h _ rfl]

/-- Window 0 of I32 words, of `nc` contributors, on package 0's memory from address 0. -/
abbrev stWin (nc : Nat) : State :=
  { st with dies := [(0, some { rdwin := [(0, word (2 ^ 63 + 2 * 2 ^ 61 + nc * 2 ^ 54 + 0x400_0000_0000))] })] }

theorem witness_PacketsServed :
    (0x2000 % 128 + 8 ≤ 128 ∧ st.packetOk 0 0x2000 8 = true ∧ st.busy (0x2000 / 128) = false ∧ st.counterOpen (0x2000 / 128) = false
      ∧ st.linksOpen (linkDie 0) (homeDie 0x2000) = true ∧ st.binBusy 0x2000 = false ∧ st.binBusy (0x2000 + 8 - 1) = false
      ∧ (st.dirOf (0x2000 / 128)).form ≠ .x ∧ (0x2000 : Nat) % 8 = 0 ∧ st.entryFrame 0x2000 = none ∧ st.entryFrame (0x2000 + 8 - 1) = none
      ∧ st.flawed false 0x2000 8 = false ∧ ({ st with flaws := [(false, 0x400)] } : State).flawed false 0x2000 8 = true)
    ∧ stHost.packetOk 0 0x2000 8 = false
    ∧ ((stWin 2).dead 0 = false ∧ (stWin 2).winHas 0 0x2000 = true ∧ (stWin 2).msgs = [] ∧ ((stWin 2).winWord 0 0x2000).parts.length + 1 < winNc (((stWin 2).die 0).win 0))
    ∧ (((stWin 1).winWord 0 0x2000).parts = [] ∧ winNc (((stWin 1).die 0).win 0) = 1 ∧ winFmt (((stWin 1).die 0).win 0) = 2)
    ∧ (let s : State := { stWith awaits with msgs := [⟨0, .core 0, .outside 9, [], .system 0 0x200_0000_0000 8 true none 0 0 false⟩] }
       s.due 0 = some ⟨0, .core 0, .outside 9, [], .system 0 0x200_0000_0000 8 true none 0 0 false⟩ ∧ (s.thr 0).wait = .reply 0
         ∧ ((s.thr 0).cont.bind (·.d)) = some 5 ∧ s.windowOf (Node.die (.core 0) |>.getD 0) 0x200_0000_0000 = none
         ∧ s.insecurePath (Node.die (.core 0) |>.getD 0) 0x200_0000_0000 = false)
    ∧ (let k : StreamKey := { port := 1, stream := 0, rx := true, keySet := true }
       mget none ((st.onDie 0 fun x => { x with streamKeys := mset none x.streamKeys (keyIndex k) (some 9) }).die 0).streamKeys (keyIndex k) = some 9) := by
  refine ⟨?_, ?_, ?_, ?_, ?_, ?_⟩ <;> decide +kernel

theorem witness_PacketsServed_home : (stWin 1).HomeWord 0 0x2000 0x2000 := by
  unfold State.HomeWord
  decide +kernel

/-! ### Worked values of the spec -/

/-- The table under R125: divisions, high halves, shifts and extrema. -/
theorem test_alu_worked_values :
    Alu.div.result false (-7) 2 = -3 ∧ Alu.rem.result false (-7) 2 = -1 ∧ Alu.div.result false 7 (-2) = -3 ∧ Alu.rem.result false 7 (-2) = 1
      ∧ Alu.div.result false 0x8000000000000000 (-1) = 0x8000000000000000 ∧ Alu.rem.result false 0x8000000000000000 (-1) = 0
      ∧ Alu.divn.result false (-1) 2 = 0x7FFFFFFFFFFFFFFF ∧ Alu.remn.result false (-1) 2 = 1
      ∧ Alu.add.result true 0x7FFFFFFF 1 = 0xFFFFFFFF80000000 ∧ Alu.mulh.result false 0x8000000000000000 2 = -1
      ∧ Alu.mulhn.result false 0x8000000000000000 2 = 1 ∧ Alu.shr.result true 0x80000000 4 = 0x08000000
      ∧ Alu.sha.result true 0x80000000 4 = 0xFFFFFFFFF8000000 ∧ Alu.maxn.result false (-1) 5 = -1 ∧ Alu.max.result false (-1) 5 = 5 := by
  decide +kernel

/-- What g5 holds after an instruction at `st`. -/
def g5After (s : State) (i : Instr) : Option Word := (next (exec i s)).map fun t => mget 0 (t.thr 0).g 5

/-- The examples of R126: 15 and 47. -/
theorem test_clz_worked : g5After (stWith fun t => { t with g := [(4, 0x10000)] }) (.clz 5 4 true) = some 15
    ∧ g5After (stWith fun t => { t with g := [(4, 0x10000)] }) (.clz 5 4 false) = some 47 := by decide +kernel

/-- R125: an immediate comparand is extended before it is read as natural. -/
theorem test_set_ltn_minus_one : g5After st (.setLtn 5 1 (.i20 0xFFFFF) false) = some 1 := by decide +kernel

/-- The half-way cases under R76: 464 to 448, 464.5 to NaN, 65,520 to +∞, 7 to 6. -/
theorem test_rounding_halfway :
    e4m3.round .rne false (.fin false 464 0) = 0x7E ∧ e4m3.round .rne false (.fin false 929 (-1)) = 0x7F ∧ e4m3.round .rne true (.fin false 929 (-1)) = 0x7E
      ∧ fp16.round .rne false (.fin false 65520 0) = 0x7C00 ∧ fp16.round .rne true (.fin false 65520 0) = 0x7BFF
      ∧ e2m1.round .rne false (.fin false 7 0) = 7 := by decide +kernel

/-- The block that R79 works out: 20.0, 2.9, −0.2, −1.4 and zeros, in the special form and in the MX form. -/
theorem test_quantise_worked :
    let xs : List Machine.Num := [.fin false 20 0, .fin false 0xB999999A (-30), .fin true 0xCCCCCCCD (-34), .fin true 0xB3333333 (-31)] ++ List.replicate 28 (.fin false 0 0)
    let q := quantise 7 xs .rne false
    let m := quantise 8 xs .rne false
    q.1.take 5 = [8, 7, 9, 13, 0] ∧ q.2 = 0x627E ∧ m.1.take 5 = [6, 1, 0, 9, 0] ∧ m.2 = 0x8081 := by
  decide +kernel

/-- The copy of chapter 10: BF16 1.5 and 100.0 under the scale 8 become E4M3 0x54 and 0x7E. -/
theorem test_copy_converts :
    let x : CpArgs := { d := 5, a := 1, b := 2, c := 4, scope := .dev, sat := true, rm := .rne, flag := true, conv := true, srct := 2, dstt := 3, scale := 0x82, value := 7 }
    convertScaled x 0x3FC0 0 = 0x54 ∧ convertScaled x 0x42C8 0 = 0x7E := by decide +kernel

/-- The home slice of 0x0000_1234_5680 (R225): 43 with all slices, 43 again with 5, 17, 40 and 63 harvested. -/
theorem test_home_slice_worked :
    st.sliceOf 0x12345680 = 43
      ∧ (st.onDie 0 fun x => { x with slhash := 1, slicemap := ~~~(2 ^ 5 + 2 ^ 17 + 2 ^ 40 + 2 ^ 63) }).sliceOf 0x12345680 = 43 := by
  decide +kernel

/-- The clock step of chapter 16: DCYC 9,000,000, from code 36 to 24, ends at 6,001,440. -/
theorem test_relock_worked :
    (next (execClockRelockEnd 0 { st.onDie 0 fun x => { x with relock := some ⟨9, 9000000, 36, 24⟩ } with reft := 9 })).map
      (fun t => ((t.die 0).dcyc, (t.die 0).fcur)) = some (6001440, 24) := by decide +kernel

end Sys2Proof.Tests
end

section
/-! Registers (chapter 7), part 1: the values of the arithmetic majors. Both widths of R122 are one case here: an operand is
cut to a bit vector of the operation's width n, each operation is settled for every n, and the frame is put back at the end. -/

namespace Sys2Proof.Machine.Registers

/-! ### The frame of R122 -/

/-- An operand cut to the n bits of the frame (R122). -/
def cut : (w : Bool) → Word → BitVec (natWidth w)
  | true, x => x.setWidth 32
  | false, x => x

theorem natWidth_pos (w : Bool) : 0 < natWidth w := by cases w <;> decide

theorem signedOf_eq_cut (w : Bool) (x : Word) : signedOf w x = (cut w x).toInt := by cases w <;> rfl

theorem naturalOf_eq_cut (w : Bool) (x : Word) : naturalOf w x = (cut w x).toNat := by
  cases w
  · rfl
  · exact (BitVec.toNat_setWidth 32 x).symm

/-- The result of an operation is framed as soon as its value at the width n is known. -/
theorem result_eq_narrow {op : Alu} {w : Bool} {x y : Word} {v : Int} (h : op.val (cut w x) (cut w y) = .ofInt (natWidth w) v) :
    op.result w x y = narrow w v := by
  cases w
  · exact h
  · exact congrArg sext h

theorem setResult_eq_cut (c : Cond) (w : Bool) (x y : Word) :
    c.result w x y = if c.holds (cut w x) (cut w y) then 1 else 0 := by cases w <;> rfl

theorem divByZero_eq (w : Bool) (y : Word) : divByZero w y = decide (naturalOf w y = 0) := by
  rw [naturalOf_eq_cut]
  cases w <;> exact decide_eq_decide.2 BitVec.toNat_eq

/-! ### Integer division, which truncates or rounds down -/

/-- The quotient as R124 has it: of the magnitudes, negated where the signs differ. -/
theorem tdiv_eq_natAbs_div : (a b : Int) → a.tdiv b =
    if (a < 0) ≠ (b < 0) then -((a.natAbs / b.natAbs : Nat) : Int) else ((a.natAbs / b.natAbs : Nat) : Int)
  | .ofNat m, .ofNat k => by
    have hm : ¬ Int.ofNat m < 0 := Int.not_lt.2 (Int.natCast_nonneg m)
    have hk : ¬ Int.ofNat k < 0 := Int.not_lt.2 (Int.natCast_nonneg k)
    simp only [hm, hk, ne_eq, not_true, if_false]; rfl
  | .ofNat m, .negSucc k => by simp [Int.negSucc_lt_zero]; rfl
  | .negSucc m, .ofNat k => by simp [Int.negSucc_lt_zero]; rfl
  | .negSucc m, .negSucc k => by simp [Int.negSucc_lt_zero]; rfl

/-- Division of the complement is the complement of the division: R123's way to round a negative value down. -/
theorem ediv_neg_sub_one (a : Int) {b : Int} (h : 0 < b) : -((-a - 1) / b) - 1 = a / b := by
  have h0 := Int.emod_nonneg a (Int.ne_of_gt h)
  have h1 := Int.emod_lt_of_pos a h
  have h2 := Int.emod_add_mul_ediv a b
  have hq : (-a - 1) / b = -(a / b) - 1 := by
    refine (Int.ediv_emod_unique (r := b - a % b - 1) h).2 ⟨?_, by omega, by omega⟩ |>.1
    rw [Int.mul_sub, Int.mul_neg]
    omega
  omega

/-! ### The value of each operation at a width n (R123, R124) -/

section
variable {n : Nat}

theorem eq_ofInt_of_toInt {z : BitVec n} {v : Int} (h : z.toInt = v) : z = .ofInt n v := h ▸ BitVec.ofInt_toInt.symm

theorem eq_ofInt_of_toNat {z : BitVec n} {k : Nat} (h : z.toNat = k) : z = .ofInt n k := by
  rw [BitVec.ofInt_natCast, ← h, BitVec.ofNat_toNat, BitVec.setWidth_eq]

theorem ofInt_sub (a b : Int) : BitVec.ofInt n (a - b) = BitVec.ofInt n a - BitVec.ofInt n b := by
  rw [Int.sub_eq_add_neg, BitVec.ofInt_add, BitVec.ofInt_neg, ← BitVec.sub_eq_add_neg]

variable (x y : BitVec n)

theorem add_val : Alu.add.val x y = .ofInt n (x.toInt + y.toInt) := by
  rw [BitVec.ofInt_add, BitVec.ofInt_toInt, BitVec.ofInt_toInt]; rfl

theorem sub_val : Alu.sub.val x y = .ofInt n (x.toInt - y.toInt) := by
  rw [ofInt_sub, BitVec.ofInt_toInt, BitVec.ofInt_toInt]; rfl

theorem mul_val : Alu.mul.val x y = .ofInt n (x.toInt * y.toInt) := by
  rw [BitVec.ofInt_mul, BitVec.ofInt_toInt, BitVec.ofInt_toInt]; rfl

theorem rem_val : Alu.rem.val x y = .ofInt n (x.toInt - y.toInt * x.toInt.tdiv y.toInt) :=
  congrArg (BitVec.ofInt n) (Int.tmod_def _ _)

theorem andn_val : Alu.andn.val x y = .ofInt n ((Nat.land x.toNat (Nat.xor (2 ^ n - 1) y.toNat) : Nat) : Int) := by
  have h : (~~~y).toNat = Nat.xor (2 ^ n - 1) y.toNat := by
    rw [BitVec.not_def, BitVec.toNat_xor, BitVec.toNat_allOnes]; rfl
  exact eq_ofInt_of_toNat (h ▸ BitVec.toNat_and x (~~~y))

theorem shiftLeft_eq_ofInt (s : Nat) : x <<< s = .ofInt n ((x.toNat * 2 ^ s : Nat) : Int) := by
  rw [BitVec.ofInt_natCast, ← Nat.shiftLeft_eq]
  exact BitVec.eq_of_toNat_eq (by rw [BitVec.toNat_shiftLeft, BitVec.toNat_ofNat])

theorem ushiftRight_eq_ofInt (s : Nat) : x >>> s = .ofInt n ((x.toNat / 2 ^ s : Nat) : Int) :=
  eq_ofInt_of_toNat ((BitVec.toNat_ushiftRight x s).trans (Nat.shiftRight_eq_div_pow _ _))

theorem sha_val : Alu.sha.val x y = .ofInt n (if 0 ≤ x.toInt then x.toInt / 2 ^ shiftAmount y
    else -((-x.toInt - 1) / 2 ^ shiftAmount y) - 1) := by
  rw [ediv_neg_sub_one _ (Int.pow_pos (by decide)), ite_self]
  refine eq_ofInt_of_toInt (BitVec.toInt_sshiftRight.trans ?_)
  rw [Int.shiftRight_eq_div_pow, Int.natCast_pow]; rfl

/-- Two shifts that meet without overlap are a sum: the two parts of a rotation (R123). -/
theorem shiftLeft_or_ushiftRight {a b : Nat} (h : n ≤ a + b) :
    x <<< a ||| x >>> b = .ofInt n ((x.toNat * 2 ^ a + x.toNat / 2 ^ b : Nat) : Int) := by
  have disjoint : x <<< a &&& x >>> b = 0#n := by
    ext i hi
    simp only [BitVec.getElem_and, BitVec.getElem_shiftLeft, BitVec.getElem_ushiftRight, BitVec.getElem_zero,
      Bool.and_eq_false_imp]
    intro ha
    have hi : a ≤ i := (by simpa using ha : a ≤ i ∧ _).1
    exact BitVec.getLsbD_of_ge _ _ (by omega)
  rw [← BitVec.add_eq_or_of_and_eq_zero _ _ disjoint, shiftLeft_eq_ofInt, ushiftRight_eq_ofInt, ← BitVec.ofInt_add,
    Int.natCast_add]

theorem rol_val (h : 0 < n) : Alu.rol.val x y = .ofInt n
    ((x.toNat * 2 ^ shiftAmount y + x.toNat / 2 ^ (n - shiftAmount y) : Nat) : Int) :=
  shiftLeft_or_ushiftRight x (by have := Nat.mod_lt y.toNat h; omega)

theorem ror_val (h : 0 < n) : Alu.ror.val x y = .ofInt n (if shiftAmount y = 0 then (x.toNat : Int)
    else ((x.toNat * 2 ^ ((n - shiftAmount y) % n) + x.toNat / 2 ^ shiftAmount y : Nat) : Int)) := by
  have hs : shiftAmount y < n := Nat.mod_lt _ h
  have hv : Alu.ror.val x y = x <<< (n - shiftAmount y) ||| x >>> shiftAmount y := BitVec.or_comm _ _
  split
  · rename_i h0
    rw [hv, h0, Nat.sub_zero, BitVec.shiftLeft_eq_zero (Nat.le_refl n), BitVec.ushiftRight_zero, BitVec.zero_or]
    exact eq_ofInt_of_toNat rfl
  · rename_i h0
    rw [hv, Nat.mod_eq_of_lt (show n - shiftAmount y < n by omega)]
    exact shiftLeft_or_ushiftRight x (by omega)

theorem min_val : Alu.min.val x y = .ofInt n (if x.toInt ≤ y.toInt then x.toInt else y.toInt) := by
  refine eq_ofInt_of_toInt ?_
  simp only [Alu.val, BitVec.slt_iff_toInt_lt]
  split <;> split <;> omega

theorem max_val : Alu.max.val x y = .ofInt n (if y.toInt ≤ x.toInt then x.toInt else y.toInt) := by
  refine eq_ofInt_of_toInt ?_
  simp only [Alu.val, BitVec.slt_iff_toInt_lt]
  split <;> split <;> omega

theorem minn_val : Alu.minn.val x y = .ofInt n ((if x.toNat ≤ y.toNat then x.toNat else y.toNat : Nat) : Int) := by
  refine eq_ofInt_of_toNat ?_
  simp only [Alu.val, BitVec.ult_iff_lt, BitVec.lt_def]
  split <;> split <;> omega

theorem maxn_val : Alu.maxn.val x y = .ofInt n ((if y.toNat ≤ x.toNat then x.toNat else y.toNat : Nat) : Int) := by
  refine eq_ofInt_of_toNat ?_
  simp only [Alu.val, BitVec.ult_iff_lt, BitVec.lt_def]
  split <;> split <;> omega

end

/-- Settles O9: each operation's value at the width n, put back into the frame of R122. -/
theorem aluValues : Obligations.AluValues := by
  unfold Obligations.AluValues
  intro w x y
  simp only [signedOf_eq_cut, naturalOf_eq_cut, ← tdiv_eq_natAbs_div]
  have hn := natWidth_pos w
  refine ⟨result_eq_narrow (add_val _ _), result_eq_narrow (sub_val _ _), result_eq_narrow (mul_val _ _),
    result_eq_narrow rfl, result_eq_narrow (BitVec.ofInt_natCast _ _).symm, fun _ => ⟨?_, ?_, ?_, ?_⟩,
    result_eq_narrow (eq_ofInt_of_toNat (BitVec.toNat_and _ _)), result_eq_narrow (eq_ofInt_of_toNat (BitVec.toNat_or _ _)),
    result_eq_narrow (eq_ofInt_of_toNat (BitVec.toNat_xor _ _)), result_eq_narrow (andn_val _ _),
    result_eq_narrow (shiftLeft_eq_ofInt _ _), result_eq_narrow (ushiftRight_eq_ofInt _ _), result_eq_narrow (sha_val _ _),
    result_eq_narrow (rol_val _ _ hn), result_eq_narrow (ror_val _ _ hn), result_eq_narrow (min_val _ _),
    result_eq_narrow (max_val _ _), result_eq_narrow (minn_val _ _), result_eq_narrow (maxn_val _ _)⟩
  · exact result_eq_narrow (BitVec.ofInt_natCast _ _).symm
  · exact result_eq_narrow (BitVec.ofInt_natCast _ _).symm
  · exact result_eq_narrow rfl
  · exact result_eq_narrow (rem_val _ _)

end Sys2Proof.Machine.Registers
end

section
/-! Registers (chapter 7), part 2: what the arithmetic, SET, immediate, branch and jump instructions do. -/

namespace Sys2Proof.Machine.Registers

/-! ### Completing -/

/-- An instruction that means `write` completes, and has written its destination. -/
theorem completes_wrote {i : Instr} {s : State} {d : Reg} {v : Word} {delay len : Nat}
    (h : exec i s = .next (s.write s.cur d v delay len)) :
    Completes i s fun t => Wrote s t s.cur d v delay (s.after len) :=
  ⟨_, h, write_wrote s s.cur d v delay len⟩

/-- The same, of a value that is known by another name. -/
theorem completes_wrote_of_eq {i : Instr} {s : State} {d : Reg} {u v : Word} {delay len : Nat}
    (h : exec i s = .next (s.write s.cur d u delay len)) (hv : u = v) :
    Completes i s fun t => Wrote s t s.cur d v delay (s.after len) :=
  hv ▸ completes_wrote h

/-- An instruction that means `goto` completes, and has moved its thread. -/
theorem completes_moved {i : Instr} {s : State} {pc : Word} (h : exec i s = .next (s.goto s.cur pc)) :
    Completes i s fun t => Moved s t s.cur pc :=
  ⟨_, h, goto_moved s s.cur pc⟩

/-! ### The arithmetic majors (R110, R122 to R124) -/

/-- An arithmetic major that does not trap writes its result. -/
theorem aluOp_eq_write {op : Alu} {y : Opnd} {w : Bool} {s : State} (d a : Reg)
    (h : op.divides = true → naturalOf w (s.opnd s.cur y) ≠ 0) :
    aluOp op d a y w s = s.write s.cur d (op.result w (s.reg s.cur a) (s.opnd s.cur y)) op.delay y.len := by
  rw [aluOp, check_failIf, divByZero_eq, if_neg]
  simpa using h

/-- A divide by zero traps, and means nothing else (R124). -/
theorem aluOp_eq_raise {op : Alu} {y : Opnd} {w : Bool} {s : State} (d a : Reg) (hop : op.divides = true)
    (h : naturalOf w (s.opnd s.cur y) = 0) : aluOp op d a y w s = s.raise s.cur .divz (s.reg s.cur a) := by
  rw [aluOp, check_failIf, divByZero_eq, if_pos]
  simpa [hop] using h

/-- Each row of the table means its operation, which never traps, at the row's write-back cycle. -/
theorem aluTable_means : ∀ e ∈ aluTable,
    (∀ d a y w s, exec (e.1 d a y w) s = .next (aluOp e.2.1 d a y w s)) ∧ e.2.1.divides = false ∧ e.2.1.delay = e.2.2 := by
  repeat' refine List.forall_mem_cons.2 ⟨⟨fun _ _ _ _ _ => rfl, rfl, rfl⟩, ?_⟩
  exact List.forall_mem_nil _

theorem divTable_means : ∀ e ∈ divTable,
    (∀ d a y w s, exec (e.1 d a y w) s = .next (aluOp e.2 d a y w s)) ∧ e.2.divides = true ∧ e.2.delay = 7 := by
  repeat' refine List.forall_mem_cons.2 ⟨⟨fun _ _ _ _ _ => rfl, rfl, rfl⟩, ?_⟩
  exact List.forall_mem_nil _

/-- Settles O10: each major means the shared operation, which never traps and writes the result. -/
theorem aluCompletes : Obligations.AluCompletes := by
  unfold Obligations.AluCompletes
  intro e he s d a y w
  obtain ⟨means, total, delay⟩ := aluTable_means e he
  rw [← delay]
  exact completes_wrote ((means d a y w s).trans (congrArg _ (aluOp_eq_write d a (by simp [total]))))

/-- Settles O11: the check of the divisor's n bits is the one fork of the shared operation. -/
theorem dividesComplete : Obligations.DividesComplete := by
  unfold Obligations.DividesComplete
  constructor
  · intro e he s d a y w h
    obtain ⟨means, _, delay⟩ := divTable_means e he
    rw [← delay]
    exact completes_wrote ((means d a y w s).trans (congrArg _ (aluOp_eq_write d a fun _ => h)))
  · intro e he s d a y w h
    obtain ⟨means, divides, _⟩ := divTable_means e he
    rw [means, aluOp_eq_raise d a divides h]

/-! ### Conditions (R125, R129) -/

section
variable {n : Nat} (x y : BitVec n)

theorem eq_holds : Cond.eq.holds x y = decide (x = y) := rfl
theorem ne_holds : Cond.ne.holds x y = decide (x ≠ y) := decide_not.symm
theorem lt_holds : Cond.lt.holds x y = decide (x.toInt < y.toInt) := rfl
theorem ge_holds : Cond.ge.holds x y = decide (y.toInt ≤ x.toInt) := by
  simp only [Cond.holds, BitVec.slt, ← decide_not, Int.not_lt]
theorem ltn_holds : Cond.ltn.holds x y = decide (x.toNat < y.toNat) := rfl
theorem gen_holds : Cond.gen.holds x y = decide (y.toNat ≤ x.toNat) := by
  simp only [Cond.holds, BitVec.ult, ← decide_not, Nat.not_lt]
end

/-- SET writes whether its condition holds at the width n. -/
theorem set_completes {i : Instr} {c : Cond} {s : State} {d a : Reg} {y : Opnd} {w p : Bool}
    (h : exec i s = .next (setOp c d a y w s)) (hp : c.holds (cut w (s.reg s.cur a)) (cut w (s.opnd s.cur y)) = p) :
    Completes i s fun t => Wrote s t s.cur d (if p then 1 else 0) 2 (s.after y.len) := by
  exact completes_wrote_of_eq h (by rw [setResult_eq_cut, hp])

/-- Settles O12: each condition at the width n, read off its two operands. -/
theorem setCompletes : Obligations.SetCompletes := by
  unfold Obligations.SetCompletes
  intro s d a y w
  simp only [signedOf_eq_cut, naturalOf_eq_cut, BitVec.toInt_inj, ne_eq, ge_iff_le]
  exact ⟨set_completes rfl (eq_holds _ _), set_completes rfl (ne_holds _ _), set_completes rfl (lt_holds _ _),
    set_completes rfl (ge_holds _ _), set_completes rfl (ltn_holds _ _), set_completes rfl (gen_holds _ _)⟩

/-! ### Branches and jumps (R129, R130) -/

/-- A branch of whichever kind is a choice between its target and the instruction after it. -/
theorem branch_completes {i : Instr} {s : State} {c : Prop} [Decidable c] {p : Bool} {target : Word} {len : Nat}
    (h : exec i s = .next (if c then s.goto s.cur target else s.finish s.cur len)) (hp : c ↔ p = true) :
    Completes i s fun t => Moved s t s.cur (if p then target else s.after len) := by
  refine ⟨_, h, ?_⟩
  by_cases hc : c
  · rw [if_pos hc, if_pos (hp.1 hc)]; exact goto_moved s s.cur target
  · rw [if_neg hc, if_neg (mt hp.2 hc)]; exact finish_moved s s.cur len

/-- Settles O14: each branch is the choice that its condition on all 64 bits makes. -/
theorem branchesComplete : Obligations.BranchesComplete := by
  unfold Obligations.BranchesComplete
  intro s a y off
  exact ⟨branch_completes rfl (Bool.eq_iff_iff.1 (eq_holds _ _)), branch_completes rfl (Bool.eq_iff_iff.1 (ne_holds _ _)),
    branch_completes rfl (Bool.eq_iff_iff.1 (lt_holds _ _)), branch_completes rfl (Bool.eq_iff_iff.1 (ge_holds _ _)),
    branch_completes rfl (Bool.eq_iff_iff.1 (ltn_holds _ _)), branch_completes rfl (Bool.eq_iff_iff.1 (gen_holds _ _)),
    branch_completes rfl Iff.rfl, branch_completes rfl (by simp)⟩

section
variable {s : State} {a : Reg} {disp : BitVec 20}

theorem jumpReg_none_aligned (h : (s.reg s.cur a + sext disp).toNat % 4 = 0) :
    jumpReg none a disp s = s.goto s.cur (s.reg s.cur a + sext disp) :=
  (check_failIf ..).trans (if_neg (by simpa using h))

theorem jumpReg_some_aligned (d : Reg) (h : (s.reg s.cur a + sext disp).toNat % 4 = 0) :
    jumpReg (some d) a disp s = (s.setReg s.cur d (s.after 8) 2).goto s.cur (s.reg s.cur a + sext disp) :=
  (check_failIf ..).trans (if_neg (by simpa using h))

theorem jumpReg_misaligned (link : Option Reg) (h : (s.reg s.cur a + sext disp).toNat % 4 ≠ 0) :
    jumpReg link a disp s = s.raise s.cur .align (s.reg s.cur a + sext disp) :=
  (check_failIf ..).trans (if_pos (by simpa using h))

end

/-- Settles O15: an aligned jump moves, with its link written before; a misaligned one is the trap alone. -/
theorem jumpsComplete : Obligations.JumpsComplete := by
  unfold Obligations.JumpsComplete
  constructor
  · intro s d a off disp h
    exact ⟨completes_moved rfl, ⟨_, rfl, setReg_goto_wrote ..⟩,
      completes_moved (congrArg Host.Outcome.next (jumpReg_none_aligned h)),
      ⟨_, congrArg Host.Outcome.next (jumpReg_some_aligned d h), setReg_goto_wrote ..⟩⟩
  · intro s d a disp t h
    exact ⟨congrArg Host.Outcome.next (jumpReg_misaligned none h),
      congrArg Host.Outcome.next (jumpReg_misaligned (some d) h)⟩

end Sys2Proof.Machine.Registers
end

section
/-! Registers (chapter 7), part 3: bit counts, bit fields and immediates. -/

namespace Sys2Proof.Machine.Registers

/-! ### Bit counts (R126) -/

theorem leadingZeros_le (x n : Nat) : leadingZeros x n ≤ n := by
  induction n with
  | zero => exact Nat.le_refl 0
  | succ n ih => rw [leadingZeros]; split <;> omega

theorem leadingZeros_zero (n : Nat) : leadingZeros 0 n = n := by
  induction n with
  | zero => rfl
  | succ n ih => simp [leadingZeros, ih, Nat.add_comm]

/-- Below the leading zeros stands the highest one bit. -/
theorem leadingZeros_spec {x n : Nat} (h0 : x ≠ 0) (hx : x < 2 ^ n) :
    x.testBit (n - 1 - leadingZeros x n) = true ∧ x < 2 ^ (n - leadingZeros x n) := by
  induction n with
  | zero => omega
  | succ n ih =>
    rw [leadingZeros]
    split
    · rename_i h; exact ⟨h, hx⟩
    · rename_i h
      have hlt : x < 2 ^ n := Nat.lt_pow_two_of_testBit x fun i hi => by
        rcases Nat.eq_or_lt_of_le hi with rfl | hi
        · simpa using h
        · exact Nat.testBit_lt_two_pow (Nat.lt_of_lt_of_le hx (Nat.pow_le_pow_right (by decide) hi))
      have he : n + 1 - 1 - (1 + leadingZeros x n) = n - 1 - leadingZeros x n := by omega
      have he' : n + 1 - (1 + leadingZeros x n) = n - leadingZeros x n := by omega
      rw [he, he']
      exact ih hlt

theorem trailingZeros_le (x i k : Nat) : trailingZeros x i k ≤ k := by
  induction k generalizing i with
  | zero => exact Nat.le_refl 0
  | succ k ih => rw [trailingZeros]; have := ih (i + 1); split <;> omega

theorem trailingZeros_zero (i k : Nat) : trailingZeros 0 i k = k := by
  induction k generalizing i with
  | zero => rfl
  | succ k ih => simp [trailingZeros, ih, Nat.add_comm]

/-- Above the trailing zeros from bit `i` stands a one bit, and below it nothing, where nothing stands below bit `i`. -/
theorem trailingZeros_spec {x i k : Nat} (h0 : x ≠ 0) (hx : x < 2 ^ (i + k)) (hi : x % 2 ^ i = 0) :
    x.testBit (i + trailingZeros x i k) = true ∧ x % 2 ^ (i + trailingZeros x i k) = 0 := by
  induction k generalizing i with
  | zero => exact absurd (Nat.mod_eq_of_lt hx ▸ hi) h0
  | succ k ih =>
    rw [trailingZeros]
    split
    · rename_i h; exact ⟨h, hi⟩
    · rename_i h
      have hm : x % 2 ^ (i + 1) = 0 := by
        rw [Nat.testBit_eq_decide_div_mod_eq, decide_eq_true_iff] at h
        rw [Nat.mod_pow_succ, hi, Nat.mod_two_ne_one.1 h, Nat.mul_zero]
      rw [← Nat.add_assoc]
      exact ih (by rwa [Nat.add_assoc, Nat.add_comm 1]) hm

theorem onesOf_eq_length (x n : Nat) : onesOf x n = ((List.range n).filter fun i => x.testBit i).length := by
  induction n with
  | zero => rfl
  | succ n ih =>
    rw [onesOf, ih, List.range_succ, List.filter_append, List.length_append]
    by_cases h : x.testBit n <;> simp [h, Nat.add_comm]

theorem onesOf_le (x n : Nat) : onesOf x n ≤ n := by
  rw [onesOf_eq_length]
  exact Nat.le_trans (List.length_filter_le _ _) (Nat.le_of_eq List.length_range)

theorem onesOf_zero (n : Nat) : onesOf 0 n = 0 := by
  induction n with
  | zero => rfl
  | succ n ih => simp [onesOf, ih]

/-! ### Bit fields (R127) -/

theorem low_eq_naturalOf (w : Bool) (x : Word) : low w x = naturalOf w x := by
  cases w
  · exact Nat.mod_eq_of_lt x.isLt
  · rfl

/-- Framing the word of a number narrows the number (R122). -/
theorem frame_ofInt (w : Bool) (v : Int) : frame w (BitVec.ofInt 64 v) = narrow w v := by
  cases w
  · simp only [frame, narrow, Bool.false_eq_true, if_false]
  · refine congrArg sext (BitVec.eq_of_toNat_eq ?_)
    rw [BitVec.toNat_setWidth, BitVec.toNat_ofInt, BitVec.toNat_ofInt]
    omega

/-- Narrowing sees a number mod 2^n alone. -/
theorem narrow_congr {w : Bool} {u v : Int} (h : u % 2 ^ natWidth w = v % 2 ^ natWidth w) : narrow w u = narrow w v := by
  have (n : Nat) (h : u % 2 ^ n = v % 2 ^ n) : BitVec.ofInt n u = BitVec.ofInt n v :=
    BitVec.eq_of_toNat_eq (by rw [BitVec.toNat_ofInt, BitVec.toNat_ofInt, Int.natCast_pow]; exact congrArg _ h)
  cases w
  · exact this 64 h
  · exact congrArg sext (this 32 h)

/-- EXTN's value: the field, read natural. -/
theorem frame_extn (w : Bool) (x : Word) (pos len : Nat) :
    frame w (extractField x pos len false) = narrow w ((x.toNat / 2 ^ pos % 2 ^ len : Nat) : Int) := by
  rw [← frame_ofInt, BitVec.ofInt_natCast]; rfl

/-- EXT's value: the field, read signed. -/
theorem frame_ext (w : Bool) (x : Word) (pos len : Nat) :
    frame w (extractField x pos len true) = narrow w
      (if x.toNat / 2 ^ pos % 2 ^ len < 2 ^ (len - 1) then ((x.toNat / 2 ^ pos % 2 ^ len : Nat) : Int)
        else ((x.toNat / 2 ^ pos % 2 ^ len : Nat) : Int) - 2 ^ len) := by
  rw [← frame_ofInt, extractField, Bool.true_and]
  split
  · rename_i h
    rw [if_neg (by simpa using h), ofInt_sub, show (2 : Int) ^ len = (2 ^ len : Nat) from (Int.natCast_pow 2 len).symm,
      BitVec.ofInt_natCast, BitVec.ofInt_natCast]
  · rename_i h
    rw [if_pos (by simpa using h), BitVec.ofInt_natCast]

/-- The bits of a value of `len` bits that is put at bit `p`. -/
theorem testBit_field {v p len i : Nat} (hv : v < 2 ^ len) (h : (v * 2 ^ p).testBit i = true) : p ≤ i ∧ i < p + len := by
  rw [Nat.testBit_mul_two_pow, Bool.and_eq_true, decide_eq_true_iff] at h
  obtain ⟨hp, hb⟩ := h
  refine ⟨hp, Nat.lt_of_not_le fun hi => ?_⟩
  have hlt : v < 2 ^ (i - p) := Nat.lt_of_lt_of_le hv (Nat.pow_le_pow_right (by decide) (by omega))
  rw [Nat.testBit_lt_two_pow hlt] at hb
  exact Bool.false_ne_true hb

/-- The bits of a field's mask. -/
theorem getLsbD_mask (p len : Nat) {i : Nat} (hi : i < 64) :
    (word ((2 ^ len - 1) * 2 ^ p)).getLsbD i = (decide (p ≤ i) && decide (i < p + len)) := by
  rw [BitVec.getLsbD_ofNat, Nat.testBit_mul_two_pow, Nat.testBit_two_pow_sub_one, decide_eq_true hi, Bool.true_and]
  by_cases h : p ≤ i
  · simp only [h, decide_true, Bool.true_and, decide_eq_decide]; omega
  · simp only [h, decide_false, Bool.false_and]

/-- A word under a field's mask is the field in its place. -/
theorem and_mask (x : Word) (p len : Nat) :
    x &&& word ((2 ^ len - 1) * 2 ^ p) = word (x.toNat / 2 ^ p % 2 ^ len * 2 ^ p) := by
  refine BitVec.eq_of_getLsbD_eq fun i hi => ?_
  rw [BitVec.getLsbD_and, getLsbD_mask p len hi, BitVec.getLsbD_ofNat, Nat.testBit_mul_two_pow, Nat.testBit_mod_two_pow,
    Nat.testBit_div_two_pow, BitVec.testBit_toNat, decide_eq_true hi, Bool.true_and]
  by_cases h : p ≤ i
  · have hl : i - p < len ↔ i < p + len := by omega
    rw [Nat.sub_add_cancel h, decide_eq_decide.2 hl, decide_eq_true h, Bool.true_and, Bool.true_and, Bool.and_comm]
  · simp only [h, decide_false, Bool.false_and, Bool.and_false]

/-- What a mask keeps and what its complement keeps make up the word. -/
theorem and_add_and_not (x m : Word) : (x &&& m) + (x &&& ~~~m) = x := by
  rw [BitVec.add_eq_or_of_and_eq_zero]
  · refine BitVec.eq_of_getLsbD_eq fun i hi => ?_
    simp only [BitVec.getLsbD_or, BitVec.getLsbD_and, BitVec.getLsbD_not, hi, decide_true, Bool.true_and]
    cases m.getLsbD i <;> simp
  · refine BitVec.eq_of_getLsbD_eq fun i hi => ?_
    simp only [BitVec.getLsbD_and, BitVec.getLsbD_not, BitVec.getLsbD_zero, hi, decide_true, Bool.true_and]
    cases m.getLsbD i <;> simp

/-- INS as a number: the field's own bits go, the new ones come. -/
theorem insertField_eq_ofInt (old x : Word) (p len : Nat) : insertField old x p len = BitVec.ofInt 64
    ((old.toNat : Int) - ((old.toNat / 2 ^ p % 2 ^ len * 2 ^ p : Nat) : Int) + ((x.toNat % 2 ^ len * 2 ^ p : Nat) : Int)) := by
  have cleared : old &&& ~~~(word ((2 ^ len - 1) * 2 ^ p)) = old - word (old.toNat / 2 ^ p % 2 ^ len * 2 ^ p) := by
    rw [BitVec.eq_sub_iff_add_eq, ← and_mask, BitVec.add_comm, and_add_and_not]
  have disjoint : old &&& ~~~(word ((2 ^ len - 1) * 2 ^ p)) &&& word (x.toNat % 2 ^ len * 2 ^ p) = 0#64 := by
    refine BitVec.eq_of_getLsbD_eq fun i hi => ?_
    rw [BitVec.getLsbD_and, BitVec.getLsbD_and, BitVec.getLsbD_not, getLsbD_mask p len hi, BitVec.getLsbD_zero,
      BitVec.getLsbD_ofNat, decide_eq_true hi]
    cases h : (x.toNat % 2 ^ len * 2 ^ p).testBit i
    · simp
    · obtain ⟨hp, hl⟩ := testBit_field (Nat.mod_lt _ (Nat.two_pow_pos len)) h
      simp [hp, hl]
  rw [insertField, ← BitVec.add_eq_or_of_and_eq_zero _ _ disjoint, cleared, BitVec.ofInt_add, ofInt_sub, BitVec.ofInt_natCast,
    BitVec.ofInt_natCast, BitVec.ofInt_natCast, BitVec.ofNat_toNat, BitVec.setWidth_eq]

/-- A field that lies within n bits is a field of the number that n bits hold. -/
theorem field_naturalOf {w : Bool} {p len : Nat} (x : Word) (h : p + len ≤ natWidth w) :
    naturalOf w x / 2 ^ p % 2 ^ len = x.toNat / 2 ^ p % 2 ^ len := by
  refine Nat.eq_of_testBit_eq fun i => ?_
  rw [← low_eq_naturalOf]
  simp only [Nat.testBit_mod_two_pow, Nat.testBit_div_two_pow]
  by_cases hi : i < len
  · rw [decide_eq_true (show i + p < natWidth w by omega), Bool.true_and]
  · simp only [hi, decide_false, Bool.false_and]

/-- INS in the frame of R122 needs no more of the old value than its n bits, where the field lies within them. -/
theorem frame_insertField {w : Bool} {p len : Nat} (old x : Word) (h : p + len ≤ natWidth w) :
    frame w (insertField old x p len) = narrow w ((naturalOf w old : Int)
      - ((naturalOf w old / 2 ^ p % 2 ^ len * 2 ^ p : Nat) : Int) + ((x.toNat % 2 ^ len * 2 ^ p : Nat) : Int)) := by
  rw [insertField_eq_ofInt, frame_ofInt, field_naturalOf old h]
  refine narrow_congr ?_
  have hmod : (old.toNat : Int) % 2 ^ natWidth w = (naturalOf w old : Int) % 2 ^ natWidth w := by
    rw [← low_eq_naturalOf]; simp
  rw [Int.add_emod, Int.sub_emod, hmod, ← Int.sub_emod, ← Int.add_emod]

/-- Settles O13: the counts, the fields and the immediates are what the instruction's one write carries. -/
theorem immediatesAndBitsComplete : Obligations.ImmediatesAndBitsComplete := by
  unfold Obligations.ImmediatesAndBitsComplete
  refine ⟨fun s d => ?_, fun s d a w => ?_, fun s d a pos len1 w h => ?_⟩
  · exact ⟨fun _ => completes_wrote rfl, fun _ => completes_wrote rfl, fun _ => completes_wrote rfl,
      fun _ => completes_wrote rfl, fun _ => completes_wrote rfl⟩
  · dsimp only
    rw [← low_eq_naturalOf]
    refine ⟨_, _, _, leadingZeros_le _ _, trailingZeros_le _ 0 _, onesOf_le _ _, completes_wrote rfl, completes_wrote rfl,
      completes_wrote rfl, fun h => ?_, fun h => ?_, onesOf_eq_length _ _⟩
    · rw [h]
      exact ⟨leadingZeros_zero _, trailingZeros_zero 0 _, onesOf_zero _⟩
    · have hlt : low w (s.reg s.cur a) < 2 ^ natWidth w := Nat.mod_lt _ (Nat.two_pow_pos _)
      obtain ⟨hone, hbelow⟩ := leadingZeros_spec h hlt
      obtain ⟨tone, tbelow⟩ := trailingZeros_spec (i := 0) (k := natWidth w) h (by rwa [Nat.zero_add]) (Nat.mod_one _)
      rw [Nat.zero_add] at tone tbelow
      exact ⟨hone, hbelow, tone, tbelow⟩
  · have hfit : pos.toNat + (len1.toNat + 1) ≤ natWidth w := of_decide_eq_true h
    exact ⟨completes_wrote_of_eq rfl (frame_ext ..), completes_wrote_of_eq rfl (frame_extn ..),
      completes_wrote_of_eq rfl (frame_insertField _ _ hfit)⟩

end Sys2Proof.Machine.Registers
end

section
/-! Registers (chapter 7), part 4: SRR and SRW. The grant table of R115 is read once, register by register; what an access does
then follows from its grant alone. -/

namespace Sys2Proof.Machine.Registers

/-! ### The grants of R115 -/

/-- Kernel and steward mode are enough for the access. -/
def openToKernel : Grant → Bool
  | .user | .kernel | .level _ => true
  | .steward | .never => false

/-- Kernel mode at least is needed for the access. -/
def closedToUser : Grant → Bool
  | .kernel | .steward => true
  | _ => false

theorem may_of_openToKernel {t : Thread} {g : Grant} (hg : openToKernel g = true) (ht : t.priv ≠ .user) : t.may g = true := by
  cases g with
  | user => rfl
  | kernel | level => simp [Thread.may, ht]
  | steward | never => exact absurd hg Bool.false_ne_true

theorem may_of_closedToUser {t : Thread} {g : Grant} (hg : closedToUser g = true) (ht : t.priv = .user) : t.may g = false := by
  cases g with
  | kernel | steward => simp [Thread.may, ht]
  | user | level | never => exact absurd hg Bool.false_ne_true

theorem ne_never_of_closedToUser {g : Grant} (hg : closedToUser g = true) : g ≠ .never := by
  rintro rfl; exact Bool.false_ne_true hg

theorem sysGrant_listed : ∀ k ∈ sysNumbers, ∃ rd wr, sysGrant k = some (rd, wr) ∧ openToKernel rd = true := by
  repeat' refine List.forall_mem_cons.2 ⟨⟨_, _, rfl, rfl⟩, ?_⟩
  exact List.forall_mem_nil _

theorem sysGrant_unlisted {k : Nat} (h : k ∉ sysNumbers) : sysGrant k = none := by
  simp only [List.mem_cons, List.not_mem_nil, or_false, not_or] at h
  unfold sysGrant
  repeat rw [if_neg (by omega)]

theorem sysGrant_userRead : ∀ k ∈ [0x000, 0x00B, 0x011, 0x012, 0x030, 0x032], ∃ wr, sysGrant k = some (.user, wr) := by
  repeat' refine List.forall_mem_cons.2 ⟨⟨_, rfl⟩, ?_⟩
  exact List.forall_mem_nil _

theorem sysGrant_kernelRead : ∀ k ∈ [0x009, 0x00A, 0x010, 0x020, 0x021, 0x031, 0x080],
    ∃ rd wr, sysGrant k = some (rd, wr) ∧ closedToUser rd = true := by
  repeat' refine List.forall_mem_cons.2 ⟨⟨_, _, rfl, rfl⟩, ?_⟩
  exact List.forall_mem_nil _

theorem sysGrant_kernelWrite : ∀ k ∈ [0x000, 0x009, 0x00A, 0x00B, 0x011, 0x012, 0x020, 0x021, 0x032, 0x080],
    ∃ rd wr, sysGrant k = some (rd, wr) ∧ closedToUser wr = true := by
  repeat' refine List.forall_mem_cons.2 ⟨⟨_, _, rfl, rfl⟩, ?_⟩
  exact List.forall_mem_nil _

theorem sysGrant_readOnly : ∀ k ∈ [0x010, 0x030, 0x031], ∃ rd, sysGrant k = some (rd, .never) := by
  repeat' refine List.forall_mem_cons.2 ⟨⟨_, rfl⟩, ?_⟩
  exact List.forall_mem_nil _

/-- The registers of trap level 1. -/
theorem sysGrant_level1 {k : Nat} (h1 : 0x001 ≤ k) (h4 : k ≤ 0x004) : sysGrant k = some (.level 1, .level 1) := by
  rw [sysGrant, if_neg (by omega), if_pos ⟨h1, h4⟩]

/-- The registers of trap level 2. -/
theorem sysGrant_level2 {k : Nat} (h5 : 0x005 ≤ k) (h8 : k ≤ 0x008) : sysGrant k = some (.level 2, .level 2) := by
  rw [sysGrant, if_neg (by omega), if_neg (by omega), if_pos ⟨h5, h8⟩]

theorem may_level1 {t : Thread} (hl : 1 ≤ t.lvl) (hd : t.cause1.getLsbD 61 = true) : t.may (.level 1) = true := by
  simp [Thread.may, Thread.dlgAt, hl, hd]

theorem may_level2 {t : Thread} (hl : 2 ≤ t.lvl) (hd : t.cause2.getLsbD 61 = true) : t.may (.level 2) = true := by
  simp [Thread.may, Thread.dlgAt, hl, hd]

/-! ### What an access does, by its grant (R116, R314) -/

section
variable {s : State} {r : Reg} {num : BitVec 12} {k : Nat} {rd wr : Grant}

theorem srrCheck_eq (i : Instr) (hg : sysGrant k = some (rd, wr)) : srrCheck s i k = failIf (!s.me.may rd) .priv (w0Of i) := by
  rw [srrCheck, hg]

theorem srr_eq_write (hg : sysGrant num.toNat = some (rd, wr)) (hm : s.me.may rd = true) :
    exec (.srr r num) s = .next (s.write s.cur r (s.sysRead s.cur num.toNat) 2 8) := by
  refine congrArg Host.Outcome.next ?_
  rw [srrCheck_eq _ hg, hm]
  rfl

theorem srr_eq_priv (hg : sysGrant num.toNat = some (rd, wr)) (hm : s.me.may rd = false) :
    exec (.srr r num) s = .next (s.raise s.cur .priv (w0Of (.srr r num))) := by
  refine congrArg Host.Outcome.next ?_
  rw [srrCheck_eq _ hg, hm]
  rfl

theorem srr_eq_ill (hg : sysGrant num.toNat = none) :
    exec (.srr r num) s = .next (s.raise s.cur .ill (w0Of (.srr r num))) := by
  refine congrArg Host.Outcome.next ?_
  rw [srrCheck, hg, check_some]

theorem srwCheck_eq (i : Instr) (hg : sysGrant k = some (rd, wr)) (hn : wr ≠ .never) :
    srwCheck s i k = failIf (!s.me.may wr) .priv (w0Of i) := by
  rw [srwCheck, hg]
  cases wr with
  | never => exact absurd rfl hn
  | _ => rfl

theorem srw_eq_write (hk : num.toNat = k) (hg : sysGrant k = some (rd, wr)) (hm : s.me.may wr = true) :
    exec (.srw r num) s = .next ((s.sysWrite s.cur k (s.reg s.cur r)).finish s.cur 8) := by
  have hn : wr ≠ .never := by rintro rfl; exact Bool.false_ne_true hm
  refine congrArg Host.Outcome.next ?_
  rw [hk, srwCheck_eq _ hg hn, hm]
  rfl

theorem srw_eq_priv (hg : sysGrant num.toNat = some (rd, wr)) (hn : wr ≠ .never) (hm : s.me.may wr = false) :
    exec (.srw r num) s = .next (s.raise s.cur .priv (w0Of (.srw r num))) := by
  refine congrArg Host.Outcome.next ?_
  rw [srwCheck_eq _ hg hn, hm]
  rfl

theorem srw_eq_ill (hg : sysGrant num.toNat = none ∨ ∃ rd, sysGrant num.toNat = some (rd, .never)) :
    exec (.srw r num) s = .next (s.raise s.cur .ill (w0Of (.srw r num))) := by
  refine congrArg Host.Outcome.next ?_
  obtain hg | ⟨rd, hg⟩ := hg <;> rw [srwCheck, hg, check_some]

end

/-! ### The registers' values and writable fields (R115 to R121) -/

/-- TSTAT's fields, from the lowest up (R117). -/
theorem tstat_eq (n : Nat) (t : Thread) : tstat n t = word (t.lvl + 4 * t.priv.code + 16 * t.pv1.code + 64 * t.pv2.code
    + (if t.timPend.isSome then 2 ^ 8 else 0) + (if t.away then 2 ^ 9 else 0) + 2 ^ 20 * (n % 16) + 2 ^ 32 * (n / 16 % 1024)) := by
  unfold tstat originOf
  exact congrArg word (by omega)

/-- COREID's fields, from the lowest up (R121). -/
theorem coreid_eq (t : Thread) : word (t.slot * 4096 + t.core % 1024) = word (t.core % 1024 + 2 ^ 12 * t.slot) :=
  congrArg word (by omega)

/-- The two chains of R115 agree row by row. -/
theorem sysRead_eq_sysValue (s : State) : ∀ k ∈ sysNumbers, s.sysRead s.cur k = sysValue s k := by
  repeat' refine List.forall_mem_cons.2 ⟨by
    simp only [State.sysRead, sysValue, tstat_eq, coreid_eq, Nat.reduceEqDiff, if_false, if_true], ?_⟩
  exact List.forall_mem_nil _

/-- Each row is written in kernel mode and above, and says what SRW does to the context. -/
theorem sysFields_means : ∀ e ∈ sysFields, (∃ rd wr, sysGrant e.1 = some (rd, wr) ∧ openToKernel wr = true)
    ∧ (∀ s n v, State.sysWrite s n e.1 v = s.onThr n fun t => e.2 t v) := by
  repeat' refine List.forall_mem_cons.2 ⟨⟨⟨_, _, rfl, rfl⟩, fun _ _ _ => rfl⟩, ?_⟩
  exact List.forall_mem_nil _

/-- PC is no system register; ATP's is the one row with a condition (R120). -/
theorem sysFields_pc (t : Thread) (v : Word) : ∀ e ∈ sysFields, (e.2 t v).pc = t.pc := by
  repeat' refine List.forall_mem_cons.2 ⟨by dsimp only <;> split <;> rfl, ?_⟩
  exact List.forall_mem_nil _

/-- Changing a context and going on changes nothing but that context. -/
theorem onThr_finish_context (s : State) (n len : Nat) (f : Thread → Thread) : OnlyContext s ((s.onThr n f).finish n len) n :=
  ⟨rfl, fun _ h => (State.onThr_thr_ne _ _ h).trans (State.onThr_thr_ne _ _ h)⟩

theorem onThr_finish_thr (s : State) (n len : Nat) (f : Thread → Thread) (hpc : (f (s.thr n)).pc = (s.thr n).pc) :
    ((s.onThr n f).finish n len).thr n =
      { f (s.thr n) with pc := (s.thr n).pc + word len, run := .ready, wait := .none, cont := none, snap := none } := by
  simp only [State.finish, State.goto, State.onThr_thr_self, hpc]

/-! ### The write-back of COMMASK and SLHASH (R112, R116) -/

theorem commitHash_core (s : State) (c e : Nat) : (s.commitHash c).core e = s.core e := by
  unfold State.commitHash
  dsimp only
  split <;> rfl

theorem commitHash_slhash (s : State) (c : Nat) : ((s.commitHash c).die (dieOf c)).slhash =
    latest (s.core c).cycle (((s.die (dieOf c)).slPend.filter (·.1 = c)).map (·.2)) (s.die (dieOf c)).slhash := by
  unfold State.commitHash
  dsimp only
  split
  · rename_i h
    rw [List.isEmpty_iff.1 h]; rfl
  · rw [State.onDie_die_self]

theorem cycleCore_commask (s : State) (c : Nat) :
    ((s.cycleCore c).core c).commask = latest ((s.core c).cycle + 1) (s.core c).cmPend (s.core c).commask := by
  simp only [State.cycleCore, State.passCycles, State.onCore_core_self, commitHash_core, Core.commit]

theorem cycleCore_slhash (s : State) (c : Nat) : ((s.cycleCore c).die (dieOf c)).slhash =
    latest ((s.core c).cycle + 1) (((s.die (dieOf c)).slPend.filter (·.1 = c)).map (·.2)) (s.die (dieOf c)).slhash := by
  simp only [State.cycleCore, State.passCycles, State.onCore_die, commitHash_slhash, State.onCore_core_self, Core.commit]

/-- Settles O17: what SRR and SRW do follows from the grant of their register, row by row of R115. -/
theorem systemRegistersComplete : Obligations.SystemRegistersComplete := by
  unfold Obligations.SystemRegistersComplete
  refine ⟨fun s d num hnum hmay => ?_, fun s a num hpriv => ⟨fun e he hnum => ?_, fun hnum => ?_, fun hnum hstew => ?_⟩,
    fun s c w v hcm hsl => ?_, fun s r num => ⟨fun hnum => ?_, fun hnum => ?_, fun hpriv hnum => ?_, fun hpriv hnum => ?_⟩⟩
  · have hgrant : ∃ rd wr, sysGrant num.toNat = some (rd, wr) ∧ s.me.may rd = true := by
      obtain hpriv | huser | ⟨h1, h4, hl, hd⟩ | ⟨h5, h8, hl, hd⟩ := hmay
      · obtain ⟨rd, wr, hg, hopen⟩ := sysGrant_listed _ hnum
        exact ⟨rd, wr, hg, may_of_openToKernel hopen hpriv⟩
      · obtain ⟨wr, hg⟩ := sysGrant_userRead _ huser
        exact ⟨.user, wr, hg, rfl⟩
      · exact ⟨_, _, sysGrant_level1 h1 h4, may_level1 hl hd⟩
      · exact ⟨_, _, sysGrant_level2 h5 h8, may_level2 hl hd⟩
    obtain ⟨_, _, hg, hm⟩ := hgrant
    exact completes_wrote_of_eq (srr_eq_write hg hm) (sysRead_eq_sysValue s _ hnum)
  · obtain ⟨⟨rd, wr, hg, hopen⟩, hwrite⟩ := sysFields_means e he
    refine ⟨_, srw_eq_write hnum hg (may_of_openToKernel hopen hpriv), ?_⟩
    rw [hwrite]
    exact ⟨onThr_finish_context s _ _ _, onThr_finish_thr s _ _ _ (sysFields_pc s.me _ e he)⟩
  · exact ⟨_, srw_eq_write hnum rfl (may_of_openToKernel rfl hpriv), finish_moved ..⟩
  · exact ⟨_, srw_eq_write hnum rfl (decide_eq_true hstew), finish_moved ..⟩
  · rw [cycleCore_commask, cycleCore_slhash, hcm, hsl]
    simp only [latest, List.filter_cons, List.filter_nil, decide_true, if_true, List.map_cons, List.map_nil, List.foldl_cons,
      List.foldl_nil, Nat.lt_succ_iff]
    exact ⟨fun h => ⟨if_neg (by omega), if_neg (by omega)⟩, fun h => ⟨if_pos h, if_pos h⟩⟩
  · exact ⟨srr_eq_ill (sysGrant_unlisted hnum), srw_eq_ill (.inl (sysGrant_unlisted hnum))⟩
  · exact srw_eq_ill (.inr (sysGrant_readOnly _ hnum))
  · obtain ⟨_, _, hg, hclosed⟩ := sysGrant_kernelRead _ hnum
    exact srr_eq_priv hg (may_of_closedToUser hclosed hpriv)
  · obtain ⟨_, _, hg, hclosed⟩ := sysGrant_kernelWrite _ hnum
    exact srw_eq_priv hg (ne_never_of_closedToUser hclosed) (may_of_closedToUser hclosed hpriv)

end Sys2Proof.Machine.Registers
end
